-- ==== Sys2Proof/Word.lean ====
section
/-! DEFINITION. The plainest types of the model: bytes on a wire, crane indices and cell indices. -/

namespace Sys2Proof

/-- One byte on a crane link, the supervisor port or the plan memory port. -/
abbrev Byte := BitVec 8

/-- A crane index 0..9, also the index of its link port and profile (spec/00_scope.md, section 4). -/
abbrev CraneIx := Fin 10

/-- A cell index 0..47 (spec/00_scope.md, section 4). -/
abbrev CellIx := Fin 48

end Sys2Proof
end

