-- ==== Sys2Proof/Machine/Bytes.lean ====
section
/-! DEFINITION. Byte order, two's complement bytes and the two checksums of the wire formats. -/

namespace Sys2Proof.Machine

/-- The byte that holds `n` modulo 256. -/
def byte (n : Nat) : Byte := BitVec.ofNat 8 n

/-- `n` in `w` bytes, high byte first (R11, R163, R174). -/
def beBytes : Nat → Nat → List Byte
  | 0, _ => []
  | w + 1, n => beBytes w (n / 256) ++ [byte n]

/-- The unsigned number a list of bytes spells, high byte first. -/
def beNat (l : List Byte) : Nat := l.foldl (fun acc b => 256 * acc + b.toNat) 0

/-- The `w`-byte number at offset `off` of a record. -/
def field (off w : Nat) (l : List Byte) : Nat := beNat ((l.drop off).take w)

/-- A two's complement byte as an integer (R167). -/
def signedByte (n : Nat) : Int := (byte n).toInt

/-- An integer as a two's complement byte (R167). -/
def byteOfInt (i : Int) : Byte := BitVec.ofInt 8 i

/-- One bit of the CRC-16 of R163: polynomial 0x1021, most significant bit first. -/
def crc16Bit (c : BitVec 16) : BitVec 16 :=
  if c.msb then (c <<< 1) ^^^ 0x1021#16 else c <<< 1

/-- One byte of the CRC-16 of R163. -/
def crc16Byte (c : BitVec 16) (b : Byte) : BitVec 16 :=
  (List.range 8).foldl (fun c _ => crc16Bit c) (c ^^^ (b.setWidth 16 <<< 8))

/-- CRC-16 with preset 0xFFFF and no final inversion (R163). -/
def crc16 (l : List Byte) : BitVec 16 := l.foldl crc16Byte 0xFFFF#16

/-- One bit of the CRC-32 of R12: reflected polynomial 0xEDB88320, least significant bit first. -/
def crc32Bit (c : BitVec 32) : BitVec 32 :=
  if c.getLsbD 0 then (c >>> 1) ^^^ 0xEDB88320#32 else c >>> 1

/-- One byte of the CRC-32 of R12. -/
def crc32Byte (c : BitVec 32) (b : Byte) : BitVec 32 :=
  (List.range 8).foldl (fun c _ => crc32Bit c) (c ^^^ b.setWidth 32)

/-- CRC-32 with preset all ones and a final inversion (R12). -/
def crc32 (l : List Byte) : BitVec 32 := ~~~ (l.foldl crc32Byte 0xFFFFFFFF#32)

/-- The two CRC bytes that close a frame, high byte first (R163, R174). -/
def crcBytes (l : List Byte) : List Byte := beBytes 2 (crc16 l).toNat

end Sys2Proof.Machine
end

