-- ==== Sys2Proof/Config.lean ====
section
/-! DEFINITION. What the part fixes as a number, and the free values: constants without a body that stand
for what the spec leaves open, so that no proof can see what they are. -/

namespace Sys2Proof.Config

/-- Join wait of 10 s in ticks of 10 ms (R1, R26). -/
def joinWaitTicks : Nat := 1000

/-- Ticks of internal time in a second (R22, R57, R117). -/
def ticksPerSecond : Nat := 100

/-- Silence timer, in ticks (R104). -/
def silenceTicks : Nat := 300

/-- Pulse wait timer, in ticks (R134). -/
def pulseWaitTicks : Nat := 200

/-- Fallback timer, in ticks (R135). -/
def fallbackTicks : Nat := 100

/-- Ticks within which the plan image must be read through (R18). -/
def autoloadTicks : Nat := 300

/-- Bytes a rescan buffer holds (R164). -/
def rescanCapacity : Nat := 65

/-- Bytes a line store holds (R164). -/
def lineCapacity : Nat := 66

/-- Frames that may wait in a transmit queue (R166). -/
def transmitCapacity : Nat := 4

/-- Live bookings the table holds (R140). -/
def bookingCapacity : Nat := 64

/-- Bytes of record carried by one REPLY segment (R169). -/
def segmentBytes : Nat := 52

/-- Greatest site time, 4,294,967,295 s (R137). -/
def maxSiteTime : Nat := 4294967295

/-- I2C target address of the plan memory (R18). -/
def planMemoryAddress : Nat := 0x54

/-- Free choice among events the spec does not order (entry 3): the `n`-th choice made. Nothing is known
of it. -/
opaque orderPick : Nat → Nat

/-- Free bytes at offsets 4 to 7 of a REPLY that carries no record (R169, entry 13): offset `i` of the
payload. -/
opaque noRecordByte : Nat → Byte

/-- Free index that a REPLY to a QUERY gives for an item whose index is ignored (R167, R169, entry 29), applied
to the index the QUERY carried. -/
opaque ignoredIndex : Nat → BitVec 16

/-- Free bytes shifted out on SDO after the last byte of a reply (R173, entry 14): the `i`-th byte after it. -/
opaque sdoAfterReply : Nat → Byte

end Sys2Proof.Config
end

