-- ==== Sys2Proof/Syntax.lean ====
section
/-! DEFINITION. The commands of the part: one constructor of `Instr` per row of spec/opcode_table.json,
and the records their operands carry. Field values are the whole numbers the frame or the image carries;
`WellFormed` says which widths they have on the wire. -/

namespace Sys2Proof

/-- Site record (Table 1-1, R1), fields in the order of Table 1-6. -/
structure Site where
  tierEmergency : Nat
  tierBooked : Nat
  tierFree : Nat
  gustL : Nat
  gustM : Nat
  gustS : Nat
  vaneGust : Nat
  vaneMean : Nat
  hysteresis : Nat
  windowT : Nat
  triggerN : Nat
  filterK : Nat
  mastScale : Nat
  linkTimeout : Nat
  qualityPeriod : Nat
  degradeCount : Nat
  clearCount : Nat
  vaneClearLimit : Nat
  deriving DecidableEq, Repr

/-- Crane profile (Table 1-2, R3), fields in the order of Table 1-6; `present`, `autoClaim` and `source`
hold the codes of Table 1-6 as received (R11). -/
structure Profile where
  present : Nat
  jib : Nat
  ts : Nat
  tw : Nat
  tt : Nat
  ma : Nat
  mr : Nat
  anemometer : Nat
  height : Nat
  parkRadius : Nat
  parkHeight : Nat
  autoClaim : Nat
  source : Nat
  deriving DecidableEq, Repr

/-- Footprint (R5); `kind` is 0 for JIB and 1 for HOOK, as received. -/
structure Footprint where
  crane : Nat
  kind : Nat
  start : Nat
  span : Nat
  low : Nat
  high : Nat
  deriving DecidableEq, Repr

/-- Cell record (Table 1-3, R4); `kind` is 0 for SHARED and 1 for PROTECTED, `fixed` 0 no and 1 yes, as
received. As an operand of PLAN_PUT_CELL a take-up or linger time of 255 marks the field omitted (R174). -/
structure CellRec where
  kind : Nat
  fixed : Nat
  takeUp : Nat
  linger : Nat
  footprints : List Footprint
  deriving DecidableEq, Repr

/-- Payload of a REPORT (Table 10-3); `rate` and `speed` are two's complement bytes read as integers. -/
structure Report where
  seq : Nat
  slew : Nat
  rate : Int
  radius : Nat
  speed : Int
  hook : Nat
  windSeq : Nat
  pulses : Nat
  deriving DecidableEq, Repr

/-- Payload of a BOOK (Table 10-3). `form` 0: `first` and `second` are window start and end; `form` 1:
predecessor id and length. The path count byte is the length of `path`. -/
structure BookReq where
  form : Nat
  first : Nat
  second : Nat
  sail : Nat
  cycles : Nat
  path : List Nat
  deriving DecidableEq, Repr

/-- A crane-to-part frame that has passed the checks of R165, by its kind (Table 10-2). -/
inductive CraneFrame
  | hello (digest : BitVec 32)
  | report (r : Report)
  | claim (cell cls : Nat)
  | release (cell : Nat)
  | book (b : BookReq)
  | cancel (id : Nat)
  | liftStart (id : Nat)
  | liftEnd (id : Nat)
  | liftAbort (id : Nat)
  | resume
  | leave
  | query (item index segment : Nat)
  deriving DecidableEq, Repr

/-- The commands and events the part takes: one constructor per row of spec/opcode_table.json. A crane
frame names its port `c` and its restart flag (R163). -/
inductive Instr
  /-- COLD_RESET: RESET goes low or power is applied (R171). -/
  | coldReset
  /-- AUTOLOAD_READ: one group read of the plan image completes; `none` where the memory did not
  acknowledge (R18). -/
  | autoloadRead (data : Option (List Byte))
  /-- AUTOLOAD_TIMEOUT (R18). -/
  | autoloadTimeout
  /-- FRAME_CHECK_FAILED: a candidate with these bytes after its start byte fails (R164). -/
  | frameCheckFailed (c : CraneIx) (bytes : List Byte)
  /-- FRAME_REJECTED: a frame with a good CRC fails a check of R165. -/
  | frameRejected (c : CraneIx) (address kind : Byte) (payload : List Byte)
  | hello (c : CraneIx) (restart : Bool) (digest : BitVec 32)
  | report (c : CraneIx) (restart : Bool) (r : Report)
  | claim (c : CraneIx) (restart : Bool) (cell cls : Nat)
  | release (c : CraneIx) (restart : Bool) (cell : Nat)
  | book (c : CraneIx) (restart : Bool) (b : BookReq)
  | cancel (c : CraneIx) (restart : Bool) (id : Nat)
  | liftStart (c : CraneIx) (restart : Bool) (id : Nat)
  | liftEnd (c : CraneIx) (restart : Bool) (id : Nat)
  | liftAbort (c : CraneIx) (restart : Bool) (id : Nat)
  | resume (c : CraneIx) (restart : Bool)
  | leave (c : CraneIx) (restart : Bool)
  | query (c : CraneIx) (restart : Bool) (item index segment : Nat)
  /-- TRANSMIT_COMPLETE: the port finishes sending a frame (R166). -/
  | transmitComplete (c : CraneIx)
  | joinWaitExpiry (c : CraneIx)
  | linkTimerExpiry (c : CraneIx)
  | qualityPeriodExpiry (c : CraneIx)
  | takeUpExpiry (k : CellIx)
  | lingerExpiry (k : CellIx)
  | silenceTimerExpiry (c : CraneIx)
  | vaneClearTimerExpiry (c : CraneIx)
  | mastPulse
  | ppsPulse
  | pulseWaitTimerExpiry
  | fallbackTimerExpiry
  /-- SUPERVISOR_BAD_FRAME: a write transfer whose bytes after the first make no good frame (R172). -/
  | supervisorBadFrame (bytes : List Byte)
  /-- SUPERVISOR_READ: a read transfer of `n` bytes after its first byte (R173, R174). -/
  | supervisorRead (n : Nat)
  | planBegin
  | planPutSite (r : Site)
  | planPutCrane (index : Nat) (p : Profile)
  | planPutCell (index : Nat) (r : CellRec)
  | planDropCell (index : Nat)
  | planEnd
  | planErase
  | possession (index value : Nat)
  | readPlanItem (item index : Nat)
  | readCrane (index : Nat)
  | readCell (index : Nat)
  | readBooking (id : Nat)
  | nextBooking (id : Nat)
  | setClock (time : Nat)
  | detach (index : Nat)
  | forceVane (index : Nat)
  | setWindSource (index value : Nat)
  | supervisorBook (index : Nat) (b : BookReq)
  | cancelBooking (id : Nat)
  | abortBooking (id : Nat)
  | holdBookings (index value : Nat)
  | readFaults
  | clearFaults (kinds : BitVec 16)
  | setFaultMask (kinds : BitVec 16) (value : Nat)
  | setFaultSeverity (kinds : BitVec 16) (value : Nat)
  | warmRestart
  /-- LINK_BYTE_RECEIVED: a byte arrives on a crane link (R164). -/
  | linkByteReceived (c : CraneIx) (b : Byte)
  /-- RESET_HIGH: RESET goes high or power-on ends (R171). -/
  | resetHigh
  /-- REPLY_PLACED: the reply of the command being served is placed (R172). -/
  | replyPlaced
  /-- UNKNOWN_COMMAND: a good frame that names no command or has the wrong argument byte count (R175). -/
  | unknownCommand (code : Byte) (args : List Byte)
  deriving DecidableEq, Repr

end Sys2Proof
end

