-- ==== Sys2Proof/Machine/Layout.lean ====
section
/-! DEFINITION. The byte layouts of Table 1-6 (site record, crane profile, cell, footprint), written and
read, and of the BOOK payload (Table 10-3). -/

namespace Sys2Proof.Machine

/-- Site record, 27 bytes (Table 1-6). -/
def siteBytes (r : Site) : List Byte :=
  [byte r.tierEmergency, byte r.tierBooked, byte r.tierFree]
    ++ beBytes 2 r.gustL ++ beBytes 2 r.gustM ++ beBytes 2 r.gustS ++ beBytes 2 r.vaneGust ++ beBytes 2 r.vaneMean
    ++ [byte r.hysteresis, byte r.windowT, byte r.triggerN]
    ++ beBytes 2 r.filterK ++ beBytes 2 r.mastScale ++ beBytes 2 r.linkTimeout
    ++ [byte r.qualityPeriod, byte r.degradeCount, byte r.clearCount]
    ++ beBytes 2 r.vaneClearLimit

/-- The site record that 27 bytes spell (Table 1-6). -/
def readSite (l : List Byte) : Site where
  tierEmergency := field 0 1 l
  tierBooked := field 1 1 l
  tierFree := field 2 1 l
  gustL := field 3 2 l
  gustM := field 5 2 l
  gustS := field 7 2 l
  vaneGust := field 9 2 l
  vaneMean := field 11 2 l
  hysteresis := field 13 1 l
  windowT := field 14 1 l
  triggerN := field 15 1 l
  filterK := field 16 2 l
  mastScale := field 18 2 l
  linkTimeout := field 20 2 l
  qualityPeriod := field 22 1 l
  degradeCount := field 23 1 l
  clearCount := field 24 1 l
  vaneClearLimit := field 25 2 l

/-- Crane profile, 19 bytes (Table 1-6). -/
def profileBytes (p : Profile) : List Byte :=
  [byte p.present] ++ beBytes 2 p.jib ++ [byte p.ts] ++ beBytes 2 p.tw ++ [byte p.tt, byte p.ma, byte p.mr]
    ++ beBytes 2 p.anemometer ++ beBytes 2 p.height ++ beBytes 2 p.parkRadius ++ beBytes 2 p.parkHeight
    ++ [byte p.autoClaim, byte p.source]

/-- The crane profile that 19 bytes spell (Table 1-6). -/
def readProfile (l : List Byte) : Profile where
  present := field 0 1 l
  jib := field 1 2 l
  ts := field 3 1 l
  tw := field 4 2 l
  tt := field 6 1 l
  ma := field 7 1 l
  mr := field 8 1 l
  anemometer := field 9 2 l
  height := field 11 2 l
  parkRadius := field 13 2 l
  parkHeight := field 15 2 l
  autoClaim := field 17 1 l
  source := field 18 1 l

/-- Footprint, 10 bytes (Table 1-6). -/
def footprintBytes (f : Footprint) : List Byte :=
  [byte f.crane, byte f.kind] ++ beBytes 2 f.start ++ beBytes 2 f.span ++ beBytes 2 f.low ++ beBytes 2 f.high

/-- The footprint that 10 bytes spell (Table 1-6). -/
def readFootprint (l : List Byte) : Footprint where
  crane := field 0 1 l
  kind := field 1 1 l
  start := field 2 2 l
  span := field 4 2 l
  low := field 6 2 l
  high := field 8 2 l

/-- `n` footprints read one after the other, 10 bytes each (Table 1-6). -/
def readFootprints : Nat → List Byte → List Footprint
  | 0, _ => []
  | n + 1, l => readFootprint (l.take 10) :: readFootprints n (l.drop 10)

/-- Cell header (6 bytes) and footprints of the cell with index `k` (Table 1-6). -/
def cellBytes (k : Nat) (r : CellRec) : List Byte :=
  [byte k, byte r.kind, byte r.fixed, byte r.takeUp, byte r.linger, byte r.footprints.length]
    ++ r.footprints.flatMap footprintBytes

/-- The cell record that a 6-byte header and its footprints spell (Table 1-6); the index is the first byte. -/
def readCellRec (l : List Byte) : CellRec where
  kind := field 1 1 l
  fixed := field 2 1 l
  takeUp := field 3 1 l
  linger := field 4 1 l
  footprints := readFootprints (field 5 1 l) (l.drop 6)

/-- BOOK payload (Table 10-3). -/
def bookBytes (b : BookReq) : List Byte :=
  [byte b.form] ++ beBytes 4 b.first ++ beBytes 4 b.second ++ [byte b.sail, byte b.cycles, byte b.path.length]
    ++ b.path.map byte

/-- The BOOK request that a payload of 12 + path count bytes spells (Table 10-3). -/
def readBook (l : List Byte) : BookReq where
  form := field 0 1 l
  first := field 1 4 l
  second := field 5 4 l
  sail := field 9 1 l
  cycles := field 10 1 l
  path := (l.drop 12).map BitVec.toNat

/-- REPORT payload, 12 bytes (Table 10-3). -/
def reportBytes (r : Report) : List Byte :=
  [byte r.seq] ++ beBytes 2 r.slew ++ [byteOfInt r.rate] ++ beBytes 2 r.radius ++ [byteOfInt r.speed]
    ++ beBytes 2 r.hook ++ [byte r.windSeq] ++ beBytes 2 r.pulses

/-- The REPORT that 12 bytes spell (Table 10-3). -/
def readReport (l : List Byte) : Report where
  seq := field 0 1 l
  slew := field 1 2 l
  rate := signedByte (field 3 1 l)
  radius := field 4 2 l
  speed := signedByte (field 6 1 l)
  hook := field 7 2 l
  windSeq := field 9 1 l
  pulses := field 10 2 l

end Sys2Proof.Machine
end

