-- ==== Sys2Proof/Decode.lean ====
section
/-! DEFINITION. Decoders and encoders of the two frame formats: crane link frames (chapter 10) and
supervisor command frames (R174, R175). The decoders are total on any bytes and reject by name.
`decodeTableWord` answers for the opcode table, whose rows have no bits. -/

namespace Sys2Proof

open Sys2Proof.Machine

/-- No row of spec/opcode_table.json has bits, so no word spells a command (entry 35). -/
def decodeTableWord (_nbits _w : Nat) : Option Instr := none

/-! ### Crane link frames -/

/-- Why a good frame is counted errored (R165). -/
inductive Rejection
  | misaddressed
  | unknownKind
  | malformed
  deriving DecidableEq, Repr

/-- What the checks of R165 make of a good frame. -/
inductive FrameVerdict
  | rejected (why : Rejection)
  | accepted (restart : Bool) (f : CraneFrame)
  deriving DecidableEq, Repr

/-- Whether an open candidate, given as the bytes collected after its start byte, has reached its outcome:
its length byte exceeds 60, or all its bytes have arrived (R164). -/
def candidateDone : List Byte → Bool
  | _ :: _ :: len :: rest => len.toNat > 60 || len.toNat + 2 ≤ rest.length
  | _ => false

/-- Whether a finished candidate is a good frame: length at most 60 and CRC matching (R163, R164). -/
def candidateGood : List Byte → Bool
  | a :: k :: len :: rest =>
    len.toNat ≤ 60 && rest.length == len.toNat + 2 &&
      beNat (rest.drop len.toNat) == (crc16 (a :: k :: len :: rest.take len.toNat)).toNat
  | _ => false

/-- Payload of a crane-to-part frame by its kind code (Tables 10-2, 10-3); the rejection where the kind is
no crane-to-part code, the length is not the kind's, or the BOOK form byte is neither 0 nor 1 (R165). -/
def decodePayload (kind : Byte) (l : List Byte) : Except Rejection CraneFrame :=
  let sized (n : Nat) (f : CraneFrame) : Except Rejection CraneFrame :=
    if l.length == n then .ok f else .error .malformed
  match kind.toNat with
  | 0x01 => sized 4 (.hello (BitVec.ofNat 32 (field 0 4 l)))
  | 0x02 => sized 12 (.report (readReport l))
  | 0x03 => sized 2 (.claim (field 0 1 l) (field 1 1 l))
  | 0x04 => sized 1 (.release (field 0 1 l))
  | 0x05 =>
    if 12 ≤ l.length && l.length == 12 + field 11 1 l then
      if field 0 1 l ≤ 1 then .ok (.book (readBook l)) else .error .malformed
    else .error .malformed
  | 0x06 => sized 2 (.cancel (field 0 2 l))
  | 0x07 => sized 2 (.liftStart (field 0 2 l))
  | 0x08 => sized 2 (.liftEnd (field 0 2 l))
  | 0x09 => sized 2 (.liftAbort (field 0 2 l))
  | 0x0A => sized 0 .resume
  | 0x0B => sized 0 .leave
  | 0x0C => sized 4 (.query (field 0 1 l) (field 1 2 l) (field 3 1 l))
  | _ => .error .unknownKind

/-- The checks of R165 on a good frame received on the port of crane `c`, in the order of the table. -/
def judgeFrame (c : CraneIx) (address kind : Byte) (payload : List Byte) : FrameVerdict :=
  let a := address.toNat
  if (if 128 ≤ a then a - 128 else a) == c.val then
    match decodePayload kind payload with
    | .ok f => .accepted (decide (128 ≤ a)) f
    | .error e => .rejected e
  else .rejected .misaddressed

/-- The checks of R165 on a finished candidate whose CRC matches. -/
def judgeCandidate (c : CraneIx) : List Byte → FrameVerdict
  | a :: k :: len :: rest => judgeFrame c a k (rest.take len.toNat)
  | _ => .rejected .malformed

/-- Kind code of a frame (Table 10-2). -/
def CraneFrame.kindCode : CraneFrame → Nat
  | .hello _ => 0x01
  | .report _ => 0x02
  | .claim _ _ => 0x03
  | .release _ => 0x04
  | .book _ => 0x05
  | .cancel _ => 0x06
  | .liftStart _ => 0x07
  | .liftEnd _ => 0x08
  | .liftAbort _ => 0x09
  | .resume => 0x0A
  | .leave => 0x0B
  | .query _ _ _ => 0x0C

/-- Payload bytes of a frame (Table 10-3). -/
def CraneFrame.payload : CraneFrame → List Byte
  | .hello d => beBytes 4 d.toNat
  | .report r => reportBytes r
  | .claim cell cls => [byte cell, byte cls]
  | .release cell => [byte cell]
  | .book b => bookBytes b
  | .cancel id => beBytes 2 id
  | .liftStart id => beBytes 2 id
  | .liftEnd id => beBytes 2 id
  | .liftAbort id => beBytes 2 id
  | .resume => []
  | .leave => []
  | .query item index segment => [byte item] ++ beBytes 2 index ++ [byte segment]

/-- The frame of Table 10-1 without its start byte: address, kind, length, payload and CRC. -/
def encodeFrameBody (address kind : Nat) (payload : List Byte) : List Byte :=
  let head := byte address :: byte kind :: byte payload.length :: payload
  head ++ crcBytes head

/-- The bytes of a crane-to-part frame after its start byte (R163): the candidate a receiver collects. -/
def encodeCraneFrame (c : CraneIx) (restart : Bool) (f : CraneFrame) : List Byte :=
  encodeFrameBody (c.val + if restart then 128 else 0) f.kindCode f.payload

/-- The crane frame a command stands for, with its port and restart flag. -/
def Instr.craneFrame : Instr → Option (CraneIx × Bool × CraneFrame)
  | .hello c r d => some (c, r, .hello d)
  | .report c r p => some (c, r, .report p)
  | .claim c r cell cls => some (c, r, .claim cell cls)
  | .release c r cell => some (c, r, .release cell)
  | .book c r b => some (c, r, .book b)
  | .cancel c r id => some (c, r, .cancel id)
  | .liftStart c r id => some (c, r, .liftStart id)
  | .liftEnd c r id => some (c, r, .liftEnd id)
  | .liftAbort c r id => some (c, r, .liftAbort id)
  | .resume c r => some (c, r, .resume)
  | .leave c r => some (c, r, .leave)
  | .query c r i n s => some (c, r, .query i n s)
  | .coldReset => none
  | .autoloadRead _ => none
  | .autoloadTimeout => none
  | .frameCheckFailed _ _ => none
  | .frameRejected _ _ _ _ => none
  | .transmitComplete _ => none
  | .joinWaitExpiry _ => none
  | .linkTimerExpiry _ => none
  | .qualityPeriodExpiry _ => none
  | .takeUpExpiry _ => none
  | .lingerExpiry _ => none
  | .silenceTimerExpiry _ => none
  | .vaneClearTimerExpiry _ => none
  | .mastPulse => none
  | .ppsPulse => none
  | .pulseWaitTimerExpiry => none
  | .fallbackTimerExpiry => none
  | .supervisorBadFrame _ => none
  | .supervisorRead _ => none
  | .planBegin => none
  | .planPutSite _ => none
  | .planPutCrane _ _ => none
  | .planPutCell _ _ => none
  | .planDropCell _ => none
  | .planEnd => none
  | .planErase => none
  | .possession _ _ => none
  | .readPlanItem _ _ => none
  | .readCrane _ => none
  | .readCell _ => none
  | .readBooking _ => none
  | .nextBooking _ => none
  | .setClock _ => none
  | .detach _ => none
  | .forceVane _ => none
  | .setWindSource _ _ => none
  | .supervisorBook _ _ => none
  | .cancelBooking _ => none
  | .abortBooking _ => none
  | .holdBookings _ _ => none
  | .readFaults => none
  | .clearFaults _ => none
  | .setFaultMask _ _ => none
  | .setFaultSeverity _ _ => none
  | .warmRestart => none
  | .linkByteReceived _ _ => none
  | .resetHigh => none
  | .replyPlaced => none
  | .unknownCommand _ _ => none

/-- The command a crane frame is (one row of the table per kind). -/
def CraneFrame.instr (c : CraneIx) (restart : Bool) : CraneFrame → Instr
  | .hello d => .hello c restart d
  | .report p => .report c restart p
  | .claim cell cls => .claim c restart cell cls
  | .release cell => .release c restart cell
  | .book b => .book c restart b
  | .cancel id => .cancel c restart id
  | .liftStart id => .liftStart c restart id
  | .liftEnd id => .liftEnd c restart id
  | .liftAbort id => .liftAbort c restart id
  | .resume => .resume c restart
  | .leave => .leave c restart
  | .query i n s => .query c restart i n s

/-- The command that a finished candidate on the port of crane `c` is, from the bytes after its start byte:
FRAME_CHECK_FAILED, FRAME_REJECTED, or the frame's own (R164, R165). -/
def decodeCandidate (c : CraneIx) (l : List Byte) : Instr :=
  if candidateGood l then
    match judgeCandidate c l with
    | .accepted restart f => f.instr c restart
    | .rejected _ => .frameRejected c (byte (field 0 1 l)) (byte (field 1 1 l)) ((l.drop 3).take (field 2 1 l))
  else .frameCheckFailed c l

/-! ### Supervisor command frames -/

/-- Whether the bytes of a write transfer after its first byte are a complete command frame whose length
and CRC agree (R172, Table 11-3). -/
def supervisorFrameGood (l : List Byte) : Bool :=
  let n := field 0 2 l
  5 ≤ l.length && 1 ≤ n && l.length == n + 4 &&
    field (2 + n) 2 l == (crc16 (l.take (2 + n))).toNat

/-- The command a code and its argument bytes spell (Table 11-4); `none` where the code names no command
or the arguments do not have the byte count the command takes (R175). -/
def decodeCommand (code : Byte) (a : List Byte) : Option Instr :=
  let sized (n : Nat) (i : Instr) : Option Instr := if a.length == n then some i else none
  match code.toNat with
  | 0x01 => sized 0 .planBegin
  | 0x02 => sized 27 (.planPutSite (readSite a))
  | 0x03 => sized 20 (.planPutCrane (field 0 1 a) (readProfile (a.drop 1)))
  | 0x04 =>
    if 6 ≤ a.length then sized (6 + 10 * field 5 1 a) (.planPutCell (field 0 1 a) (readCellRec a)) else none
  | 0x05 => sized 1 (.planDropCell (field 0 1 a))
  | 0x06 => sized 0 .planEnd
  | 0x07 => sized 0 .planErase
  | 0x08 => sized 2 (.possession (field 0 1 a) (field 1 1 a))
  | 0x10 => sized 2 (.readPlanItem (field 0 1 a) (field 1 1 a))
  | 0x11 => sized 1 (.readCrane (field 0 1 a))
  | 0x12 => sized 1 (.readCell (field 0 1 a))
  | 0x13 => sized 2 (.readBooking (field 0 2 a))
  | 0x14 => sized 2 (.nextBooking (field 0 2 a))
  | 0x20 => sized 4 (.setClock (field 0 4 a))
  | 0x30 => sized 1 (.detach (field 0 1 a))
  | 0x31 => sized 1 (.forceVane (field 0 1 a))
  | 0x32 => sized 2 (.setWindSource (field 0 1 a) (field 1 1 a))
  | 0x40 =>
    if 13 ≤ a.length then sized (13 + field 12 1 a) (.supervisorBook (field 0 1 a) (readBook (a.drop 1))) else none
  | 0x41 => sized 2 (.cancelBooking (field 0 2 a))
  | 0x42 => sized 2 (.abortBooking (field 0 2 a))
  | 0x43 => sized 2 (.holdBookings (field 0 1 a) (field 1 1 a))
  | 0x50 => sized 0 .readFaults
  | 0x51 => sized 2 (.clearFaults (BitVec.ofNat 16 (field 0 2 a)))
  | 0x52 => sized 3 (.setFaultMask (BitVec.ofNat 16 (field 0 2 a)) (field 2 1 a))
  | 0x53 => sized 3 (.setFaultSeverity (BitVec.ofNat 16 (field 0 2 a)) (field 2 1 a))
  | 0x60 => sized 0 .warmRestart
  | _ => none

/-- The command that a write transfer is, from its bytes after the first (R172, R174, R175). -/
def decodeSupervisorFrame (l : List Byte) : Instr :=
  if supervisorFrameGood l then
    let code := byte (field 2 1 l)
    let args := (l.drop 3).take (field 0 2 l - 1)
    (decodeCommand code args).getD (.unknownCommand code args)
  else .supervisorBadFrame l

/-- The event that a whole transfer of the supervisor port is, from the bytes on SDI; `none` where the first
byte names no transfer and the part ignores it (R174). -/
def decodeTransfer : List Byte → Option Instr
  | b :: rest =>
    if b = 0x01 then some (decodeSupervisorFrame rest)
    else if b = 0x02 then some (.supervisorRead rest.length)
    else none
  | [] => none

/-- Command code and argument bytes of a supervisor command (Table 11-4); `none` for the other rows. -/
def commandBytes : Instr → Option (Nat × List Byte)
  | .planBegin => some (0x01, [])
  | .planPutSite r => some (0x02, siteBytes r)
  | .planPutCrane i p => some (0x03, byte i :: profileBytes p)
  | .planPutCell i r => some (0x04, cellBytes i r)
  | .planDropCell i => some (0x05, [byte i])
  | .planEnd => some (0x06, [])
  | .planErase => some (0x07, [])
  | .possession i v => some (0x08, [byte i, byte v])
  | .readPlanItem k i => some (0x10, [byte k, byte i])
  | .readCrane i => some (0x11, [byte i])
  | .readCell i => some (0x12, [byte i])
  | .readBooking id => some (0x13, beBytes 2 id)
  | .nextBooking id => some (0x14, beBytes 2 id)
  | .setClock t => some (0x20, beBytes 4 t)
  | .detach i => some (0x30, [byte i])
  | .forceVane i => some (0x31, [byte i])
  | .setWindSource i v => some (0x32, [byte i, byte v])
  | .supervisorBook i b => some (0x40, byte i :: bookBytes b)
  | .cancelBooking id => some (0x41, beBytes 2 id)
  | .abortBooking id => some (0x42, beBytes 2 id)
  | .holdBookings i v => some (0x43, [byte i, byte v])
  | .readFaults => some (0x50, [])
  | .clearFaults s => some (0x51, beBytes 2 s.toNat)
  | .setFaultMask s v => some (0x52, beBytes 2 s.toNat ++ [byte v])
  | .setFaultSeverity s v => some (0x53, beBytes 2 s.toNat ++ [byte v])
  | .warmRestart => some (0x60, [])
  | .coldReset => none
  | .autoloadRead _ => none
  | .autoloadTimeout => none
  | .frameCheckFailed _ _ => none
  | .frameRejected _ _ _ _ => none
  | .hello _ _ _ => none
  | .report _ _ _ => none
  | .claim _ _ _ _ => none
  | .release _ _ _ => none
  | .book _ _ _ => none
  | .cancel _ _ _ => none
  | .liftStart _ _ _ => none
  | .liftEnd _ _ _ => none
  | .liftAbort _ _ _ => none
  | .resume _ _ => none
  | .leave _ _ => none
  | .query _ _ _ _ _ => none
  | .transmitComplete _ => none
  | .joinWaitExpiry _ => none
  | .linkTimerExpiry _ => none
  | .qualityPeriodExpiry _ => none
  | .takeUpExpiry _ => none
  | .lingerExpiry _ => none
  | .silenceTimerExpiry _ => none
  | .vaneClearTimerExpiry _ => none
  | .mastPulse => none
  | .ppsPulse => none
  | .pulseWaitTimerExpiry => none
  | .fallbackTimerExpiry => none
  | .supervisorBadFrame _ => none
  | .supervisorRead _ => none
  | .linkByteReceived _ _ => none
  | .resetHigh => none
  | .replyPlaced => none
  | .unknownCommand _ _ => none

/-- A frame of Table 11-3 around a code and the bytes after it: length, code, bytes, CRC. -/
def encodeSupervisorBody (code : Nat) (rest : List Byte) : List Byte :=
  let head := beBytes 2 (rest.length + 1) ++ byte code :: rest
  head ++ crcBytes head

/-- The bytes of a supervisor command's write transfer after its first byte (R174); `none` for rows that are
no supervisor command. -/
def encodeSupervisorFrame (i : Instr) : Option (List Byte) :=
  (commandBytes i).map fun p => encodeSupervisorBody p.1 p.2

end Sys2Proof
end

