-- ==== Sys2Proof/Machine/State.lean ====
section
/-! DEFINITION. The state of the part, block by block (spec/00_scope.md, section 3), as plain data, with the
values of a cold reset. `Device` is the part itself; `State` adds the queue of commands that wait. -/

namespace Sys2Proof.Machine

/-! ### Replies -/

/-- Reply codes, in the order of Table 10-6 (R169). -/
inductive ReplyCode
  | ok
  | queued
  | already
  | notAdmitted
  | unknownCrane
  | noPlan
  | planMismatch
  | noFootprint
  | isProtected
  | reserved
  | notHolder
  | inCell
  | wrongState
  | wind
  | conflict
  | full
  | badWindow
  | badChain
  | noClock
  | held
  | unknownBooking
  | busy
  | fixedCell
  | invalid
  deriving DecidableEq, Repr

/-- Retirement reasons (R146), with `none` for a reply that retires no booking (R169). -/
inductive RetireReason
  | none
  | complete
  | expired
  | cancelled
  | detached
  | chain
  deriving DecidableEq, Repr

/-! ### Plan Store -/

/-- Plan states, in the order of R7. -/
inductive PlanState
  | empty
  | loading
  | active
  | editing
  deriving DecidableEq, Repr

/-- The plan: site record, ten profiles, 48 cells defined or not (R1, R3, R4). -/
structure Plan where
  site : Site
  cranes : Vector Profile 10
  cells : Vector (Option CellRec) 48
  deriving DecidableEq, Repr

/-- The item in which a validation violation was found (R9); a cell's with the footprint's crane index for
checks 7 to 12. -/
inductive PlanItem
  | site
  | crane (i : Nat)
  | cell (k : Nat) (footprintCrane : Option Nat)
  deriving DecidableEq, Repr

/-- A violation: its check number and item (R9). -/
structure Violation where
  check : Nat
  item : PlanItem
  deriving DecidableEq, Repr

/-- Result of a full validation (R10). -/
inductive ValidationResult
  | pass
  | failed (v : Violation)
  deriving DecidableEq, Repr

/-- Result of an autoload (R10). -/
inductive AutoloadResult
  | pass
  | signature
  | selector
  | read
  | structureFailure
  | digest
  | validation
  deriving DecidableEq, Repr

/-- The group the next I2C read delivers (R18). -/
inductive LoadGroup
  | header
  | site
  | cranes
  | cells
  | trailer
  deriving DecidableEq, Repr

/-- An autoload in progress (R18): next group, group selector once read, memory address of the next read,
staging copy, and the ticks left of the 300. -/
structure Load where
  group : LoadGroup
  selector : Option Nat
  address : Nat
  staging : Plan
  remaining : Nat
  deriving DecidableEq, Repr

/-- Possession of a cell (R6). -/
inductive Possession
  | closed
  | opened
  deriving DecidableEq, Repr

/-! ### Crane Roster -/

/-- Membership states (R22). -/
inductive Membership
  | absent
  | joining
  | admitted
  | lost
  deriving DecidableEq, Repr

/-- Link quality (R22). -/
inductive Quality
  | good
  | degraded
  deriving DecidableEq, Repr

/-- Crane record of the roster (Table 2-1, R22). A timer is `none` where stopped, else its remaining ticks. -/
structure CraneRec where
  membership : Membership
  quality : Quality
  errored : Nat
  lastPeriod : Nat
  streak : Bool
  joinWait : Option Nat
  link : Option Nat
  qualityTimer : Option Nat
  deriving DecidableEq, Repr

/-! ### Reach Unit -/

/-- Relation of a crane to a cell, from farthest to closest (R50). -/
inductive Relation
  | outside
  | near
  | approaching
  | inside
  deriving DecidableEq, Repr

/-- A slew direction (R51, R52). -/
inductive SlewDir
  | positive
  | negative
  deriving DecidableEq, Repr

/-- A trolley direction (R51, R52). -/
inductive TrolleyDir
  | out
  | inward
  deriving DecidableEq, Repr

/-- An accepted position (Table 3-1, R43). -/
structure Position where
  slew : Nat
  rate : Int
  radius : Nat
  speed : Int
  hook : Nat
  deriving DecidableEq, Repr

/-- An envelope: arc and radial band (R45 to R47). -/
structure Envelope where
  start : Nat
  span : Nat
  rmin : Nat
  rmax : Nat
  deriving DecidableEq, Repr

/-- A relation entry (R41). -/
structure RelEntry where
  cell : CellIx
  now : Relation
  prev : Option Relation
  slewToward : Option SlewDir
  trolleyToward : Option TrolleyDir
  slewExit : Option SlewDir
  trolleyExit : Option TrolleyDir
  deriving DecidableEq, Repr

/-- A reach record that holds a position (Table 3-1, R41). -/
structure ReachRec where
  pos : Position
  ma : Nat
  mr : Nat
  stop : Envelope
  warn : Envelope
  entries : List RelEntry
  deriving DecidableEq, Repr

/-! ### Cell Arbiter -/

/-- Claim classes, in the order of their codes (R58, R167). -/
inductive ClaimClass
  | weathervane
  | lost
  | emergency
  | booked
  | free
  deriving DecidableEq, Repr

/-- State of a cell with its holder, the holder's class and the timer that may run in that state (Table 4-1,
R57): the take-up timer runs in GRANTED, the linger timer may run in HELD (entry 26). -/
inductive Standing
  | free
  | granted (c : CraneIx) (cls : ClaimClass) (takeUp : Nat)
  | held (c : CraneIx) (cls : ClaimClass) (linger : Option Nat)
  | draining (c : CraneIx) (cls : ClaimClass)
  deriving DecidableEq, Repr

/-- A waiter queue entry (R57). -/
structure Waiter where
  crane : CraneIx
  cls : ClaimClass
  deriving DecidableEq, Repr

/-- Cell claim record (Table 4-1, R57). -/
structure CellClaim where
  standing : Standing
  queue : List Waiter
  inhibit : List CraneIx
  intruders : List CraneIx
  contested : Bool
  intruded : Bool
  deriving DecidableEq, Repr

/-! ### Wind Unit -/

/-- Wind source setting (R99). -/
inductive SourceSetting
  | profile
  | link
  | mast
  deriving DecidableEq, Repr

/-- Effective wind source (R100). -/
inductive WindSource
  | link
  | mast
  deriving DecidableEq, Repr

/-- Wind channel state (R99, R105). -/
inductive ChannelState
  | warming
  | live
  | stale
  deriving DecidableEq, Repr

/-- Vane substates (R117). -/
inductive VaneSub
  | clearing
  | vaneFree
  | forced
  deriving DecidableEq, Repr

/-- Wind state with the vane substate, which exists in VANE alone (R117, entry 26). -/
inductive WindState
  | calm
  | watch
  | halt
  | vane (sub : VaneSub)
  deriving DecidableEq, Repr

/-- Computed level of the ladder (R118), from lowest to highest. -/
inductive Level
  | calm
  | watch
  | halt
  | vane
  deriving DecidableEq, Repr

/-- Sail classes, in the order of their codes (R167). -/
inductive Sail
  | l
  | m
  | s
  deriving DecidableEq, Repr

/-- A set of sail classes (R117). -/
structure SailSet where
  l : Bool
  m : Bool
  s : Bool
  deriving DecidableEq, Repr

/-- Wind channel and wind record of a crane (Tables 6-1 and 7-1; R99, R117). -/
structure WindRec where
  source : SourceSetting
  channel : ChannelState
  lastSeq : Option Nat
  recent : List Nat
  holdRun : Nat
  liveRun : Nat
  silence : Option Nat
  lastGust : Option Nat
  history : List Nat
  mean : Nat
  flagL : Bool
  flagM : Bool
  flagS : Bool
  flagVG : Bool
  flagVM : Bool
  state : WindState
  classes : SailSet
  vaneTimer : Option Nat
  deriving DecidableEq, Repr

/-- Mast channel (R113). -/
structure Mast where
  pulses : Nat
  lastCount : Nat
  speed : Nat
  deriving DecidableEq, Repr

/-! ### Booking Table -/

/-- Booking states, in the order of their codes (Table 10-7). -/
inductive BookingState
  | pending
  | opened
  | lifting
  | holdLower
  | suspended
  | chained
  deriving DecidableEq, Repr

/-- Who made a booking (R139). -/
inductive Origin
  | crane
  | supervisor
  deriving DecidableEq, Repr

/-- Booking record (Table 8-2, R139). -/
structure Booking where
  id : Nat
  crane : CraneIx
  state : BookingState
  window : Option (Nat × Nat)
  length : Nat
  reservedStart : Nat
  reservedEnd : Nat
  sail : Sail
  path : List CellIx
  cycles : Nat
  pred : Option Nat
  succ : Option Nat
  overrun : Bool
  origin : Origin
  deriving DecidableEq, Repr

/-- Clock record (Table 8-1, R133); `lastPulse` is the ticks since the last pulse taken. -/
structure Clock where
  siteTime : Option Nat
  following : Bool
  pulseWait : Option Nat
  fallback : Option Nat
  lastPulse : Option Nat
  pulseRun : Nat
  deriving DecidableEq, Repr

/-! ### Permit Composer -/

/-- An axis limit, from least to most restrictive (R88). -/
inductive Limit
  | free
  | slow
  | stop
  deriving DecidableEq, Repr

/-- Permit content (Table 5-1, R85). `hoistStop` is the hoist-up limit STOP, `release` the brake RELEASE. -/
structure Permit where
  seq : Nat
  slewPlus : Limit
  slewMinus : Limit
  trolleyOut : Limit
  trolleyIn : Limit
  hoistStop : Bool
  release : Bool
  wind : WindState
  classes : SailSet
  quality : Quality
  booking : Option (Nat × BookingState)
  heldList : List CellIx
  grantedList : List CellIx
  vacateList : List CellIx
  waitingList : List CellIx
  deriving DecidableEq, Repr

/-! ### Link Ports -/

/-- The record a REPLY carries: item kind, index, segment number, segment count, bytes (Table 10-5). -/
structure ReplyRecord where
  item : Nat
  index : Nat
  segment : Nat
  count : Nat
  bytes : List Byte
  deriving DecidableEq, Repr

/-- A REPLY frame (Table 10-5, R169). -/
structure Reply where
  kind : Nat
  code : ReplyCode
  reason : RetireReason
  record : Option ReplyRecord
  deriving DecidableEq, Repr

/-- A frame from the part to a crane (Table 10-2). -/
inductive TxFrame
  | permit (p : Permit)
  | reply (r : Reply)
  deriving DecidableEq, Repr

/-- A Link Port (R164, R166): `candidate` is `none` in HUNT and the bytes collected after the start byte in
CANDIDATE; `sending` is the frame being sent. -/
structure Port where
  candidate : Option (List Byte)
  rescan : List Byte
  line : List Byte
  sending : Option TxFrame
  queue : List TxFrame
  deriving DecidableEq, Repr

/-! ### Supervisor Port -/

/-- A supervisor reply (Table 11-3): echoed command code (`none` for none), reply code, further values and
record. -/
structure SupReply where
  echo : Option Byte
  code : ReplyCode
  values : List Byte
  deriving DecidableEq, Repr

/-- States of the Supervisor Port (R172), with the reply being made or held. -/
inductive SupPort
  | idle
  | serving (r : SupReply)
  | waiting (r : SupReply)
  deriving DecidableEq, Repr

/-! ### Fault Unit -/

/-- The thirteen fault kinds, in the order of Table 11-2. -/
inductive FaultKind
  | linkLost
  | linkDegraded
  | joinRefused
  | intrusion
  | takeupLapse
  | contest
  | emergencyClaim
  | windStale
  | vaneEntered
  | vaneBlocked
  | bookingExpired
  | clockRefLost
  | planLoadFailed
  deriving DecidableEq, Repr

/-- A fault entry (R176): `masked` is the mask MASKED, `alarm` the severity ALARM. -/
structure FaultEntry where
  pending : Bool
  masked : Bool
  alarm : Bool
  deriving DecidableEq, Repr

/-- The context record (R177). -/
structure FaultContext where
  kind : FaultKind
  crane : Option Nat
  cell : Option Nat
  booking : Option Nat
  siteTime : Option Nat
  deriving DecidableEq, Repr

/-- The Fault Unit (R176): entries in the order of Table 11-2, first-fault pointer, context record. -/
structure FaultUnit where
  entries : Vector FaultEntry 13
  pointer : Option FaultKind
  context : Option FaultContext
  deriving DecidableEq, Repr

/-! ### The part and the machine -/

/-- Everything the spec gives the part, and `picks`, the model's own counter of free choices (entry 3). -/
structure Device where
  resetLow : Bool
  planState : PlanState
  plan : Plan
  possession : Vector Possession 48
  digest : BitVec 32
  validation : Option ValidationResult
  autoloadResult : Option AutoloadResult
  load : Option Load
  roster : Vector CraneRec 10
  reach : Vector (Option ReachRec) 10
  cells : Vector CellClaim 48
  permits : Vector (Option Permit) 10
  wind : Vector WindRec 10
  mast : Mast
  clock : Clock
  bookings : List Booking
  nextId : Nat
  holds : Vector Bool 10
  ports : Vector Port 10
  sup : SupPort
  sdo : List Byte
  faults : FaultUnit
  picks : Nat
  deriving DecidableEq, Repr

/-- The machine: the part and the queue of commands that wait, first in, first out. -/
structure State where
  dev : Device
  pending : List Instr
  deriving DecidableEq, Repr

/-- Reasons the machine can stop with a fault. There is none: the spec names no condition that stops the
part. -/
inductive Fault
  deriving DecidableEq, Repr

/-- Reasons a command has no meaning. -/
inductive Refusal
  /-- Raised by an arm of `exec` whose command has no meaning yet; safe. No arm uses it. -/
  | notModelled (mnemonic : String)
  deriving DecidableEq, Repr

/-! ### Values after a cold reset -/

/-- The site record at the defaults of Table 1-1 (R1). -/
def Site.defaults : Site where
  tierEmergency := 1
  tierBooked := 2
  tierFree := 3
  gustL := 100
  gustM := 140
  gustS := 200
  vaneGust := 250
  vaneMean := 180
  hysteresis := 20
  windowT := 30
  triggerN := 3
  filterK := 7
  mastScale := 64
  linkTimeout := 100
  qualityPeriod := 10
  degradeCount := 5
  clearCount := 1
  vaneClearLimit := 120

/-- A profile after a cold reset: present no, every other field 0, LINK, auto-claim off (R3). -/
def Profile.defaults : Profile := ⟨0, 0, 0, 0, 0, 0, 0, 0, 0, 0, 0, 0, 0⟩

/-- The plan at its cold defaults (R1, R3, R4). -/
def Plan.defaults : Plan where
  site := Site.defaults
  cranes := Vector.replicate 10 Profile.defaults
  cells := Vector.replicate 48 none

/-- A load that has just begun (R18). -/
def Load.start : Load where
  group := .header
  selector := none
  address := 0
  staging := Plan.defaults
  remaining := Config.autoloadTicks

/-- Reset values of Table 2-1 (R22). -/
def CraneRec.reset : CraneRec where
  membership := .absent
  quality := .good
  errored := 0
  lastPeriod := 0
  streak := false
  joinWait := none
  link := none
  qualityTimer := none

/-- Reset values of Table 4-1 (R57). -/
def CellClaim.reset : CellClaim where
  standing := .free
  queue := []
  inhibit := []
  intruders := []
  contested := false
  intruded := false

/-- Cold reset values of Tables 6-1 and 7-1 (R99, R117). -/
def WindRec.cold : WindRec where
  source := .profile
  channel := .warming
  lastSeq := none
  recent := []
  holdRun := 0
  liveRun := 0
  silence := none
  lastGust := none
  history := []
  mean := 0
  flagL := false
  flagM := false
  flagS := false
  flagVG := false
  flagVM := false
  state := .calm
  classes := ⟨true, true, true⟩
  vaneTimer := none

/-- Mast channel after a cold reset (R113). -/
def Mast.cold : Mast := ⟨0, 0, 0⟩

/-- Clock record after a cold reset (Table 8-1, R133). -/
def Clock.cold : Clock where
  siteTime := none
  following := true
  pulseWait := some Config.pulseWaitTicks
  fallback := none
  lastPulse := none
  pulseRun := 0

/-- A Link Port after a reset (R164, R166). -/
def Port.reset : Port where
  candidate := none
  rescan := []
  line := []
  sending := none
  queue := []

/-- The entry of a kind that is not pending, with the default mask and severity of Table 11-2 given. -/
def FaultEntry.quiet (masked alarm : Bool) : FaultEntry := ⟨false, masked, alarm⟩

/-- Fault entries after a cold reset, in the order of Table 11-2 (R176). -/
def FaultUnit.coldEntries : Vector FaultEntry 13 :=
  #v[.quiet false true, .quiet false false, .quiet false false, .quiet false true, .quiet true false,
    .quiet false true, .quiet false false, .quiet false true, .quiet false true, .quiet false true,
    .quiet true false, .quiet false false, .quiet false true]

/-- The Fault Unit after a cold reset (R176). -/
def FaultUnit.cold : FaultUnit where
  entries := FaultUnit.coldEntries
  pointer := none
  context := none

/-- Every block at its cold reset values, autoload just begun (R18, R20, R22, R41, R57, R85, R99, R113, R117,
R133, R140, R148, R164, R166, R172, R176). -/
def Device.cold : Device where
  resetLow := false
  planState := .loading
  plan := Plan.defaults
  possession := Vector.replicate 48 .closed
  digest := 0#32
  validation := none
  autoloadResult := none
  load := some Load.start
  roster := Vector.replicate 10 CraneRec.reset
  reach := Vector.replicate 10 none
  cells := Vector.replicate 48 CellClaim.reset
  permits := Vector.replicate 10 none
  wind := Vector.replicate 10 WindRec.cold
  mast := Mast.cold
  clock := Clock.cold
  bookings := []
  nextId := 1
  holds := Vector.replicate 10 false
  ports := Vector.replicate 10 Port.reset
  sup := .idle
  sdo := []
  faults := FaultUnit.cold
  picks := 0

/-- The machine right after a cold reset: RESET has gone high, autoload has begun, no command waits (R171). -/
def State.reset : State where
  dev := Device.cold
  pending := []

end Sys2Proof.Machine
end

