-- ==== Sys2Proof/Machine/Operands.lean ====
section
/-! DEFINITION. The forms an operand takes: indices, enumerated codes and sets, from the numbers a frame
carries to the constructors the blocks work on; and the codes the records are written with. -/

namespace Sys2Proof.Machine

/-- The crane an index names, where it lies in 0..9 (section 4 of the scope). -/
def craneIx? (n : Nat) : Option CraneIx := if h : n < 10 then some ⟨n, h⟩ else none

/-- The cell an index names, where it lies in 0..47. -/
def cellIx? (n : Nat) : Option CellIx := if h : n < 48 then some ⟨n, h⟩ else none

/-- All crane indices, ascending. -/
def allCranes : List CraneIx := List.finRange 10

/-- All cell indices, ascending. -/
def allCells : List CellIx := List.finRange 48

/-- Claim class of a code (R167). -/
def claimClass? : Nat → Option ClaimClass
  | 0 => some .weathervane
  | 1 => some .lost
  | 2 => some .emergency
  | 3 => some .booked
  | 4 => some .free
  | _ => none

/-- Code of a claim class (R167). -/
def ClaimClass.code : ClaimClass → Nat
  | .weathervane => 0
  | .lost => 1
  | .emergency => 2
  | .booked => 3
  | .free => 4

/-- Sail class of a code (R167). -/
def sail? : Nat → Option Sail
  | 0 => some .l
  | 1 => some .m
  | 2 => some .s
  | _ => none

/-- Code of a sail class (R167). -/
def Sail.code : Sail → Nat
  | .l => 0
  | .m => 1
  | .s => 2

/-- Whether a set of sail classes holds a class. -/
def SailSet.has (x : SailSet) : Sail → Bool
  | .l => x.l
  | .m => x.m
  | .s => x.s

/-- The empty set of sail classes. -/
def SailSet.empty : SailSet := ⟨false, false, false⟩

/-- Position of a fault kind in Table 11-2, counting from 0 (R174). -/
def FaultKind.ix : FaultKind → Fin 13
  | .linkLost => 0
  | .linkDegraded => 1
  | .joinRefused => 2
  | .intrusion => 3
  | .takeupLapse => 4
  | .contest => 5
  | .emergencyClaim => 6
  | .windStale => 7
  | .vaneEntered => 8
  | .vaneBlocked => 9
  | .bookingExpired => 10
  | .clockRefLost => 11
  | .planLoadFailed => 12

/-- Whether a kind set names only fault kinds: bits 13 to 15 are clear (R174). -/
def kindSetValid (s : BitVec 16) : Bool := s.toNat < 8192

/-- Whether a kind set names the kind at position `i` (R174). -/
def kindSetHas (s : BitVec 16) (i : Nat) : Bool := s.getLsbD i

/-- Code of a reply code (Table 10-6). -/
def ReplyCode.code : ReplyCode → Nat
  | .ok => 0
  | .queued => 1
  | .already => 2
  | .notAdmitted => 3
  | .unknownCrane => 4
  | .noPlan => 5
  | .planMismatch => 6
  | .noFootprint => 7
  | .isProtected => 8
  | .reserved => 9
  | .notHolder => 10
  | .inCell => 11
  | .wrongState => 12
  | .wind => 13
  | .conflict => 14
  | .full => 15
  | .badWindow => 16
  | .badChain => 17
  | .noClock => 18
  | .held => 19
  | .unknownBooking => 20
  | .busy => 21
  | .fixedCell => 22
  | .invalid => 23

/-- Code of a retirement reason (R169). -/
def RetireReason.code : RetireReason → Nat
  | .none => 0
  | .complete => 1
  | .expired => 2
  | .cancelled => 3
  | .detached => 4
  | .chain => 5

/-- Code of a plan state: its position in the list of R7 (R170). -/
def PlanState.code : PlanState → Nat
  | .empty => 0
  | .loading => 1
  | .active => 2
  | .editing => 3

/-- Code of an autoload result: its position in the list of R10 (R170). -/
def AutoloadResult.code : AutoloadResult → Nat
  | .pass => 0
  | .signature => 1
  | .selector => 2
  | .read => 3
  | .structureFailure => 4
  | .digest => 5
  | .validation => 6

/-- Code of a possession (R170). -/
def Possession.code : Possession → Nat
  | .closed => 0
  | .opened => 1

/-- Code of a membership state: its position in Table 2-1 (R170). -/
def Membership.code : Membership → Nat
  | .absent => 0
  | .joining => 1
  | .admitted => 2
  | .lost => 3

/-- Code of a link quality (R168, R170). -/
def Quality.code : Quality → Nat
  | .good => 0
  | .degraded => 1

/-- Code of a relation: its position in the list of R41 (R170). -/
def Relation.code : Relation → Nat
  | .outside => 0
  | .near => 1
  | .approaching => 2
  | .inside => 3

/-- Code of a slew direction: its position in the lists of R41 (R170). -/
def SlewDir.code : SlewDir → Nat
  | .positive => 0
  | .negative => 1

/-- Code of a trolley toward direction: OUT, IN (R41, R170). -/
def TrolleyDir.towardCode : TrolleyDir → Nat
  | .out => 0
  | .inward => 1

/-- Code of a trolley exit direction: IN, OUT (R41, R170). -/
def TrolleyDir.exitCode : TrolleyDir → Nat
  | .inward => 0
  | .out => 1

/-- State of a cell as Table 4-1 names it: FREE, GRANTED, HELD, DRAINING. -/
def Standing.code : Standing → Nat
  | .free => 0
  | .granted _ _ _ => 1
  | .held _ _ _ => 2
  | .draining _ _ => 3

/-- Holder of a cell, in any of GRANTED, HELD and DRAINING (R57). -/
def Standing.holder : Standing → Option CraneIx
  | .free => none
  | .granted c _ _ => some c
  | .held c _ _ => some c
  | .draining c _ => some c

/-- Holder's class (R57). -/
def Standing.cls : Standing → Option ClaimClass
  | .free => none
  | .granted _ cls _ => some cls
  | .held _ cls _ => some cls
  | .draining _ cls => some cls

/-- Remaining ticks of the take-up timer, `none` where it is stopped (R57). -/
def Standing.takeUp : Standing → Option Nat
  | .granted _ _ t => some t
  | _ => none

/-- Remaining ticks of the linger timer, `none` where it is stopped (R57). -/
def Standing.linger : Standing → Option Nat
  | .held _ _ l => l
  | _ => none

/-- Code of a source setting: its position in Table 6-1 (R170). -/
def SourceSetting.code : SourceSetting → Nat
  | .profile => 0
  | .link => 1
  | .mast => 2

/-- Code of an effective source (R100, R170). -/
def WindSource.code : WindSource → Nat
  | .link => 0
  | .mast => 1

/-- Code of a channel state: its position in Table 6-1 (R170). -/
def ChannelState.code : ChannelState → Nat
  | .warming => 0
  | .live => 1
  | .stale => 2

/-- Code of a wind state (R168). -/
def WindState.code : WindState → Nat
  | .calm => 0
  | .watch => 1
  | .halt => 2
  | .vane _ => 3

/-- Vane substate; none outside VANE (R117). -/
def WindState.sub : WindState → Option VaneSub
  | .vane s => some s
  | _ => none

/-- Whether a wind state is VANE. -/
def WindState.isVane : WindState → Bool
  | .vane _ => true
  | _ => false

/-- Whether a wind state is CALM or WATCH. -/
def WindState.isCalmOrWatch : WindState → Bool
  | .calm => true
  | .watch => true
  | _ => false

/-- Code of a vane substate in a record: its position in Table 7-1 (R170). -/
def VaneSub.code : VaneSub → Nat
  | .clearing => 0
  | .vaneFree => 1
  | .forced => 2

/-- Code of a computed level, as the wind state of that name (R118, entry 20). -/
def Level.code : Level → Nat
  | .calm => 0
  | .watch => 1
  | .halt => 2
  | .vane => 3

/-- Code of a booking state (Table 10-7). -/
def BookingState.code : BookingState → Nat
  | .pending => 0
  | .opened => 1
  | .lifting => 2
  | .holdLower => 3
  | .suspended => 4
  | .chained => 5

/-- Whether a booking in this state has its reservation in force (R151). -/
def BookingState.inForce : BookingState → Bool
  | .opened => true
  | .lifting => true
  | .holdLower => true
  | .suspended => true
  | _ => false

/-- Whether a booking in this state has a cycle running: LIFTING or HOLD_LOWER. -/
def BookingState.running : BookingState → Bool
  | .lifting => true
  | .holdLower => true
  | _ => false

/-- Code of an origin (Table 10-7). -/
def Origin.code : Origin → Nat
  | .crane => 0
  | .supervisor => 1

/-- Code of an axis limit (R168). -/
def Limit.code : Limit → Nat
  | .free => 0
  | .slow => 1
  | .stop => 2

/-- The more restrictive of two limits (R88). -/
def Limit.join : Limit → Limit → Limit
  | .stop, _ => .stop
  | _, .stop => .stop
  | .slow, _ => .slow
  | _, .slow => .slow
  | .free, .free => .free

end Sys2Proof.Machine
end

