-- ==== Sys2Proof/Machine/Ops.lean ====
section
/-! DEFINITION. The named operations over the part's records: one home for each read and write, the raising
of a fault (R177), the sending of a frame (R166), and the small facts about the plan that every block reads. -/

namespace Sys2Proof.Machine

/-! ### Records by index -/

/-- Roster record of a crane (R22). -/
def Device.crane (d : Device) (c : CraneIx) : CraneRec := d.roster[c]

/-- Replace the roster record of a crane. -/
def Device.setCrane (d : Device) (c : CraneIx) (r : CraneRec) : Device := { d with roster := d.roster.set c r }

/-- Reach record of a crane, or none (R41). -/
def Device.reachOf (d : Device) (c : CraneIx) : Option ReachRec := d.reach[c]

/-- Replace the reach record of a crane. -/
def Device.setReach (d : Device) (c : CraneIx) (r : Option ReachRec) : Device := { d with reach := d.reach.set c r }

/-- Claim record of a cell (R57). -/
def Device.cell (d : Device) (k : CellIx) : CellClaim := d.cells[k]

/-- Replace the claim record of a cell. -/
def Device.setCell (d : Device) (k : CellIx) (r : CellClaim) : Device := { d with cells := d.cells.set k r }

/-- Permit record of a crane (R85). -/
def Device.permitOf (d : Device) (c : CraneIx) : Option Permit := d.permits[c]

/-- Replace the permit record of a crane. -/
def Device.setPermit (d : Device) (c : CraneIx) (p : Option Permit) : Device := { d with permits := d.permits.set c p }

/-- Wind channel and record of a crane (R99, R117). -/
def Device.windOf (d : Device) (c : CraneIx) : WindRec := d.wind[c]

/-- Replace the wind record of a crane. -/
def Device.setWind (d : Device) (c : CraneIx) (r : WindRec) : Device := { d with wind := d.wind.set c r }

/-- Link port of a crane (R164). -/
def Device.port (d : Device) (c : CraneIx) : Port := d.ports[c]

/-- Replace the link port of a crane. -/
def Device.setPort (d : Device) (c : CraneIx) (p : Port) : Device := { d with ports := d.ports.set c p }

/-- Booking hold of a crane (R148). -/
def Device.hold (d : Device) (c : CraneIx) : Bool := d.holds[c]

/-- Replace the booking hold of a crane. -/
def Device.setHold (d : Device) (c : CraneIx) (b : Bool) : Device := { d with holds := d.holds.set c b }

/-- Possession of a cell (R6). -/
def Device.possessionOf (d : Device) (k : CellIx) : Possession := d.possession[k]

/-- Membership of a crane (R22). -/
def Device.membership (d : Device) (c : CraneIx) : Membership := (d.crane c).membership

/-- Profile of a crane in the loaded plan (R3). -/
def Device.profile (d : Device) (c : CraneIx) : Profile := d.plan.cranes[c]

/-- Plan record of a cell, or none where the cell is undefined (R4). -/
def Device.cellRec (d : Device) (k : CellIx) : Option CellRec := d.plan.cells[k]

/-- Site time where it is set; 0 stands in states no run reaches, in which a booking lives while site time is
UNSET (entry 30). -/
def Device.now (d : Device) : Nat := d.clock.siteTime.getD 0

/-! ### Facts of the plan -/

/-- A profile's present field is yes (R3). -/
def isPresent (p : Profile) : Bool := p.present == 1

/-- A crane's footprint in a cell: the first in list order that names it (R4, R5). -/
def Device.footprint (d : Device) (c : CraneIx) (k : CellIx) : Option Footprint :=
  match d.cellRec k with
  | some r => r.footprints.find? fun f => f.crane == c.val
  | none => none

/-- The crane has a JIB footprint in the cell (R5). -/
def Device.hasJib (d : Device) (c : CraneIx) (k : CellIx) : Bool :=
  match d.footprint c k with
  | some f => f.kind == 0
  | none => false

/-- Cells in which the crane has a JIB footprint, ascending. -/
def Device.jibCells (d : Device) (c : CraneIx) : List CellIx := allCells.filter (d.hasJib c)

/-- The cell is defined and of kind PROTECTED (R4). -/
def Device.protectedCell (d : Device) (k : CellIx) : Bool :=
  match d.cellRec k with
  | some r => r.kind == 1
  | none => false

/-- The cell is defined and of kind SHARED (R4). -/
def Device.sharedCell (d : Device) (k : CellIx) : Bool :=
  match d.cellRec k with
  | some r => r.kind == 0
  | none => false

/-- Take-up time of a cell in ticks (R57). -/
def Device.takeUpTicks (d : Device) (k : CellIx) : Nat :=
  match d.cellRec k with
  | some r => Config.ticksPerSecond * r.takeUp
  | none => 0

/-- Linger time of a cell in ticks (R57). -/
def Device.lingerTicks (d : Device) (k : CellIx) : Nat :=
  match d.cellRec k with
  | some r => Config.ticksPerSecond * r.linger
  | none => 0

/-- Tier of a claim class under a site record (R2, R58). -/
def tierIn (r : Site) : ClaimClass → Nat
  | .weathervane => 0
  | .lost => 0
  | .emergency => r.tierEmergency
  | .booked => r.tierBooked
  | .free => r.tierFree

/-- Tier of a claim class (R2, R58). -/
def Device.tier (d : Device) (cls : ClaimClass) : Nat := tierIn d.plan.site cls

/-! ### Facts of the other records -/

/-- Relation of a crane to a cell as the reach record holds it; a crane without an entry has relation OUTSIDE
(R36, entry 21). -/
def Device.relation (d : Device) (c : CraneIx) (k : CellIx) : Relation :=
  match d.reachOf c with
  | some r =>
    match r.entries.find? fun e => e.cell == k with
    | some e => e.now
    | none => .outside
  | none => .outside

/-- The live booking with an id (R139). -/
def Device.booking (d : Device) (id : Nat) : Option Booking := d.bookings.find? fun b => b.id == id

/-- The crane has a booking LIFTING or in HOLD_LOWER whose path lists the cell (R54, R68, R79). -/
def Device.liftLists (d : Device) (c : CraneIx) (k : CellIx) : Bool :=
  d.bookings.any fun b => b.crane == c && b.state.running && b.path.contains k

/-- The crane has a booking LIFTING or in HOLD_LOWER (R34, R153). -/
def Device.liftRunning (d : Device) (c : CraneIx) : Bool :=
  d.bookings.any fun b => b.crane == c && b.state.running

/-- A reservation of a booking of another crane is in force on the cell (R60, R71, R151). -/
def Device.reservedAgainst (d : Device) (c : CraneIx) (k : CellIx) : Bool :=
  d.bookings.any fun b => b.state.inForce && b.crane != c && b.path.contains k

/-- Every crane is ABSENT and the booking table is empty: the condition of PLAN_BEGIN and PLAN_ERASE (R13,
R17). -/
def Device.quiet (d : Device) : Bool :=
  allCranes.all (fun c => d.membership c == .absent) && d.bookings.isEmpty

/-! ### Faults -/

/-- Entry of a fault kind (R176). -/
def Device.faultEntry (d : Device) (k : FaultKind) : FaultEntry := d.faults.entries[k.ix]

/-- A raise of a fault kind with the context values it offers (R177). -/
def Device.raise (d : Device) (k : FaultKind) (crane cell booking : Option Nat) : Device :=
  let e := d.faultEntry k
  if e.pending then d
  else
    let entries := d.faults.entries.set k.ix { e with pending := true }
    if d.faults.pointer.isNone && !e.masked then
      { d with faults :=
        { entries := entries
          pointer := some k
          context := some ⟨k, crane, cell, booking, d.clock.siteTime⟩ } }
    else { d with faults := { d.faults with entries := entries } }

/-! ### Frames to a crane -/

/-- A frame made for a crane: sent at once, queued, or discarded where four wait (R166). -/
def Device.sendFrame (d : Device) (c : CraneIx) (f : TxFrame) : Device :=
  let p := d.port c
  match p.sending with
  | none => d.setPort c { p with sending := some f }
  | some _ =>
    if p.queue.length < Config.transmitCapacity then d.setPort c { p with queue := p.queue ++ [f] } else d

/-- A REPLY without a record (R169). -/
def Device.reply (d : Device) (c : CraneIx) (kind : Nat) (code : ReplyCode) : Device :=
  d.sendFrame c (.reply ⟨kind, code, .none, none⟩)

/-- A REPLY that gives the reason of a retirement (R156, R158, R169). -/
def Device.replyRetired (d : Device) (c : CraneIx) (kind : Nat) (reason : RetireReason) : Device :=
  d.sendFrame c (.reply ⟨kind, .ok, reason, none⟩)

/-! ### Answers -/

/-- What serving a supervisor command comes to: the part afterwards, the reply code, and the further values and
record of the reply (R172 to R174). -/
structure Served where
  dev : Device
  code : ReplyCode
  values : List Byte

/-- A command refused with a code: nothing changes and the reply carries nothing further. -/
def Device.refuse (d : Device) (code : ReplyCode) : Served := ⟨d, code, []⟩

/-- A command answered OK that leaves the part as `d` and carries nothing further. -/
def Device.done (d : Device) : Served := ⟨d, .ok, []⟩

/-! ### Acting on the state -/

/-- A command acts on the part by `f`; while RESET is low it changes nothing (R171, entry 5). The queue is no
command's to change. -/
def State.act (s : State) (f : Device → Device) : Host.Outcome State Fault Refusal :=
  .next { s with dev := if s.dev.resetLow then s.dev else f s.dev }

/-! ### Free order -/

/-- Insert an element at a position given modulo the number of places. -/
def insertAtPick (x : α) (n : Nat) (l : List α) : List α := l.insertIdx (n % (l.length + 1)) x

/-- The list in an order that `pick` leaves free: every order is one of its values. A list of fewer than two
elements has one order. -/
def shuffleFrom (pick : Nat → Nat) : Nat → List α → List α
  | _, [] => []
  | _, [x] => [x]
  | n, x :: y :: l => insertAtPick x (pick n) (shuffleFrom pick (n + 1) (y :: l))

/-- Events the spec does not order, in a free order (entry 3). -/
def Device.shuffle (d : Device) (l : List α) : List α := shuffleFrom Config.orderPick d.picks l

/-- Count the free choices that ordering a list takes (entry 3). -/
def Device.picked (d : Device) (l : List α) : Device := { d with picks := d.picks + l.length }

end Sys2Proof.Machine
end

