-- ==== Sys2Proof/Machine/Arbiter.lean ====
section
/-! DEFINITION. The Cell Arbiter (chapter 4): claim requests, grants, release, re-judgement, and what the other
blocks ask of many cells at once. A function over one claim record takes the part as it stands for what it
reads (plan, relations, bookings) and answers the new record; `updCell` stores it. -/

namespace Sys2Proof.Machine

/-! ### The waiter queue -/

/-- Place an entry after every entry of equal or lower tier number and before every entry of higher tier number
(R62). -/
def enqueue (d : Device) (w : Waiter) (q : List Waiter) : List Waiter :=
  q.takeWhile (fun x => d.tier x.cls ≤ d.tier w.cls) ++ w :: q.dropWhile (fun x => d.tier x.cls ≤ d.tier w.cls)

/-- The queue without a crane's entry. -/
def dequeue (c : CraneIx) (q : List Waiter) : List Waiter := q.filter fun w => w.crane != c

/-- A crane's entry in the queue. -/
def entryOf (c : CraneIx) (q : List Waiter) : Option Waiter := q.find? fun w => w.crane == c

/-- The entry of a crane takes a class and moves to the end of the entries of its tier (R61, R78). -/
def requeue (d : Device) (c : CraneIx) (cls : ClaimClass) (q : List Waiter) : List Waiter :=
  enqueue d ⟨c, cls⟩ (dequeue c q)

/-- The entry of a crane takes a class and keeps its place (R61, R81). -/
def reclass (c : CraneIx) (cls : ClaimClass) (q : List Waiter) : List Waiter :=
  q.map fun w => if w.crane == c then { w with cls := cls } else w

/-- A set of cranes held in ascending order, with one crane added (R66). -/
def addCrane (c : CraneIx) (l : List CraneIx) : List CraneIx := allCranes.filter fun x => x == c || l.contains x

/-- A list of cranes without one. -/
def dropCrane (c : CraneIx) (l : List CraneIx) : List CraneIx := l.filter fun x => x != c

/-! ### Grant and release of one record -/

/-- A FREE request from the crane would pass conditions 3 to 5 of R60 (R69, R75). -/
def freePasses (d : Device) (c : CraneIx) (k : CellIx) : Bool :=
  (d.footprint c k).isSome && (d.tier .free == 0 || !d.protectedCell k) &&
    !(d.reservedAgainst c k && d.tier .free > d.tier .booked)

/-- A grant (R63): the crane's queue entry is removed, it leaves the intruder list (R76), and it becomes the
holder: HELD at tier 0 or where INSIDE, otherwise GRANTED with the take-up timer started. -/
def grant (d : Device) (k : CellIx) (c : CraneIx) (cls : ClaimClass) (r : CellClaim) : CellClaim :=
  { r with
    queue := dequeue c r.queue
    intruders := dropCrane c r.intruders
    standing :=
      if d.tier cls == 0 || d.relation c k == .inside then .held c cls none
      else .granted c cls (d.takeUpTicks k) }

/-- The cell is given on when its holder's claim ends (R69): to the head waiter, to the first intruder whose
FREE request would pass, or it becomes FREE. -/
def giveOn (d : Device) (k : CellIx) (r : CellClaim) : CellClaim :=
  match r.queue with
  | w :: _ => grant d k w.crane w.cls r
  | [] =>
    match r.intruders.find? fun c => freePasses d c k with
    | some c => grant d k c .free r
    | none => { r with standing := .free }

/-! ### Re-judgement -/

/-- The holder's claim is exempt from linger (R68). -/
def lingerExempt (d : Device) (k : CellIx) (c : CraneIx) (cls : ClaimClass) : Bool :=
  match cls with
  | .weathervane => true
  | .lost => true
  | .booked => d.liftLists c k
  | _ => false

/-- The head waiter is strictly stronger than the holder (R71). -/
def displacedByWaiter (d : Device) (cls : ClaimClass) (q : List Waiter) : Bool :=
  match q with
  | w :: _ => d.tier w.cls < d.tier cls
  | [] => false

/-- A reservation of another crane is in force on the cell and the holder is weaker than BOOKED (R71). -/
def displacedByReservation (d : Device) (k : CellIx) (c : CraneIx) (cls : ClaimClass) : Bool :=
  d.reservedAgainst c k && d.tier cls > d.tier .booked

/-- The holder is displaced (R71). -/
def displaced (d : Device) (k : CellIx) (c : CraneIx) (cls : ClaimClass) (q : List Waiter) : Bool :=
  displacedByWaiter d cls q || displacedByReservation d k c cls

/-- A HELD holder that is not displaced: an exempt class runs no linger (R68); another class starts the linger
timer where the holder is OUTSIDE and the timer is stopped (R67). `none` where a linger time of 0 releases the
cell at that moment. -/
def lingerRule (d : Device) (k : CellIx) (c : CraneIx) (cls : ClaimClass) (l : Option Nat) : Option Standing :=
  if lingerExempt d k c cls then some (.held c cls none)
  else if d.relation c k == .outside && l.isNone then
    if d.lingerTicks k == 0 then none else some (.held c cls (some (d.lingerTicks k)))
  else some (.held c cls l)

/-- Re-judgement of a cell (R71 to R73), repeated after each grant it makes, `n` times at most: a displaced
grant is withdrawn, a displaced HELD cell drains or is released where its holder is OUTSIDE, a DRAINING cell
whose holder is no longer displaced returns to HELD. -/
def settle : Nat → Device → CellIx → CellClaim → CellClaim
  | 0, _, _, r => r
  | n + 1, d, k, r =>
    match r.standing with
    | .free => r
    | .granted c cls _ =>
      if displacedByReservation d k c cls then settle n d k (giveOn d k r)
      else if displacedByWaiter d cls r.queue then
        settle n d k (giveOn d k { r with queue := enqueue d ⟨c, cls⟩ r.queue })
      else r
    | .held c cls l =>
      if displaced d k c cls r.queue then
        if d.relation c k == .outside then settle n d k (giveOn d k r)
        else { r with standing := .draining c cls }
      else
        match lingerRule d k c cls l with
        | some st => { r with standing := st }
        | none => settle n d k (giveOn d k r)
    | .draining c cls =>
      if displaced d k c cls r.queue then r
      else
        match lingerRule d k c cls none with
        | some st => { r with standing := st }
        | none => settle n d k (giveOn d k r)

/-- Grants that one re-judgement can make: each takes a waiter or an intruder, or replaces the grantee by a
strictly stronger waiter. -/
def settleBound (r : CellClaim) : Nat := 2 * r.queue.length + r.intruders.length + 6

/-- CONTESTED holds exactly while the holder and a waiter both have tier 0 (R74). -/
def contestedNow (d : Device) (r : CellClaim) : Bool :=
  match r.standing.cls with
  | some cls => d.tier cls == 0 && r.queue.any fun w => d.tier w.cls == 0
  | none => false

/-- A record re-judged, with its two flags as R74 and R76 give. -/
def judge (d : Device) (k : CellIx) (r : CellClaim) : CellClaim :=
  let r := settle (settleBound r) d k r
  { r with contested := contestedNow d r, intruded := !r.intruders.isEmpty }

/-- Change a claim record, re-judge the cell, and raise CONTEST where CONTESTED goes from clear to set (R71,
R74). CONTESTED is judged once, on the record as the change leaves it: where a tier-0 holder is released to a tier-0
waiter and another tier-0 entry stands behind, it stays set and CONTEST is not raised anew (DESIGN CHOICE,
entry 36). -/
def updCell (k : CellIx) (f : CellClaim → CellClaim) (d : Device) : Device :=
  let r := d.cell k
  let r' := judge d k (f r)
  let d' := d.setCell k r'
  if r'.contested && !r.contested then d'.raise .contest (r'.queue.head?.map fun w => w.crane.val) (some k.val) none
  else d'

/-- Change the inhibit set or the intruder list of a record, which calls for no re-judgement (R71); INTRUDED
follows the intruder list (R76). -/
def touchCell (k : CellIx) (f : CellClaim → CellClaim) (d : Device) : Device :=
  let r := f (d.cell k)
  d.setCell k { r with intruded := !r.intruders.isEmpty }

/-- Release of a cell (R69). -/
def releaseCell (k : CellIx) (d : Device) : Device := updCell k (giveOn d k) d

/-- Re-judge a cell whose record has not changed (R82). -/
def rejudgeCell (k : CellIx) (d : Device) : Device := updCell k id d

/-! ### Taking a request -/

/-- The answer to a claim request: the refusals of R60 (conditions 3 to 5), ALREADY for a crane with a standing
(R61), OK or QUEUED for a new request (R62). -/
def requestCode (d : Device) (c : CraneIx) (k : CellIx) (cls : ClaimClass) : ReplyCode :=
  if (d.footprint c k).isNone then .noFootprint
  else if d.protectedCell k && !(d.tier cls == 0 || (cls == .booked && d.possessionOf k == .opened)) then .isProtected
  else if d.reservedAgainst c k && d.tier cls > d.tier .booked then .reserved
  else if (d.cell k).standing.holder == some c || (entryOf c (d.cell k).queue).isSome then .already
  else if (d.cell k).standing == .free then .ok
  else .queued

/-- The holder's class becomes `cls`; a class of tier 0 stops the linger timer and takes a GRANTED holder to
HELD (R61, R78). -/
def setHolderClass (d : Device) (cls : ClaimClass) (r : CellClaim) : CellClaim :=
  { r with
    standing :=
      match r.standing with
      | .free => .free
      | .granted c _ t => if d.tier cls == 0 then .held c cls none else .granted c cls t
      | .held c _ l => .held c cls (if d.tier cls == 0 then none else l)
      | .draining c _ => .draining c cls }

/-- At equal tier a request of class EMERGENCY or BOOKED changes a standing of class FREE (R61). -/
def equalTierUpgrade (d : Device) (new old : ClaimClass) : Bool :=
  d.tier new == d.tier old && (new == .emergency || new == .booked) && old == .free

/-- A request from a crane that has a standing in the cell (R61). -/
def upgrade (c : CraneIx) (k : CellIx) (cls : ClaimClass) (d : Device) : Device :=
  let r := d.cell k
  if r.standing.holder == some c then
    match r.standing.cls with
    | some old =>
      if d.tier cls < d.tier old || equalTierUpgrade d cls old then updCell k (setHolderClass d cls) d else d
    | none => d
  else
    match entryOf c r.queue with
    | some w =>
      if d.tier cls < d.tier w.cls then updCell k (fun r => { r with queue := requeue d c cls r.queue }) d
      else if equalTierUpgrade d cls w.cls then updCell k (fun r => { r with queue := reclass c cls r.queue }) d
      else d
    | none => d

/-- A claim request, decided whole (R60 to R62); its answer is `requestCode`. -/
def request (c : CraneIx) (k : CellIx) (cls : ClaimClass) (d : Device) : Device :=
  match requestCode d c k cls with
  | .ok => updCell k (grant d k c cls) d
  | .queued => updCell k (fun r => { r with queue := enqueue d ⟨c, cls⟩ r.queue }) d
  | .already => upgrade c k cls d
  | _ => d

/-- Requests of one class on a list of cells, in the order given. -/
def requestAll (c : CraneIx) (cls : ClaimClass) (ks : List CellIx) (d : Device) : Device :=
  ks.foldl (fun d k => request c k cls d) d

/-! ### Handling one report (R77) -/

/-- Step 1: with relation OUTSIDE the crane leaves the inhibit set (R66). -/
def reportInhibit (c : CraneIx) (e : RelEntry) (d : Device) : Device :=
  if e.now == .outside then touchCell e.cell (fun r => { r with inhibit := dropCrane c r.inhibit }) d else d

/-- Step 2: a grantee reported INSIDE takes up its cell (R64). -/
def reportTakeUp (c : CraneIx) (e : RelEntry) (d : Device) : Device :=
  match (d.cell e.cell).standing with
  | .granted h cls _ =>
    if h == c && e.now == .inside then
      touchCell e.cell (fun r => { r with standing := .held h cls none, intruders := dropCrane c r.intruders }) d
    else d
  | _ => d

/-- Step 3: the linger timer of a HELD holder starts where it is OUTSIDE, and stops where it is NEAR or closer
(R67, R68). -/
def reportLinger (c : CraneIx) (e : RelEntry) (d : Device) : Device :=
  match (d.cell e.cell).standing with
  | .held h cls _ =>
    if h == c then
      if e.now == .outside then rejudgeCell e.cell d
      else touchCell e.cell (fun r => { r with standing := .held h cls none }) d
    else d
  | _ => d

/-- Step 4: a DRAINING cell whose holder is OUTSIDE is released (R72). -/
def reportDrain (c : CraneIx) (e : RelEntry) (d : Device) : Device :=
  match (d.cell e.cell).standing with
  | .draining h _ => if h == c && e.now == .outside then releaseCell e.cell d else d
  | _ => d

/-- Step 5: intrusion (R75); `first` marks the first report after admission. -/
def reportIntrusion (c : CraneIx) (first : Bool) (e : RelEntry) (d : Device) : Device :=
  let r := d.cell e.cell
  if e.now == .inside && r.standing.holder != some c && !r.intruders.contains c then
    if r.standing == .free && freePasses d c e.cell then
      let d := updCell e.cell (grant d e.cell c .free) d
      if first then d else d.raise .intrusion (some c.val) (some e.cell.val) none
    else
      let d := touchCell e.cell (fun r => { r with intruders := r.intruders ++ [c] }) d
      d.raise .intrusion (some c.val) (some e.cell.val) none
  else d

/-- Step 6: with relation other than INSIDE the crane leaves the intruder list (R76). -/
def reportLeaveIntruders (c : CraneIx) (e : RelEntry) (d : Device) : Device :=
  if e.now == .inside then d else touchCell e.cell (fun r => { r with intruders := dropCrane c r.intruders }) d

/-- The six steps of R77 for one relation entry. -/
def reportCell (c : CraneIx) (first : Bool) (d : Device) (e : RelEntry) : Device :=
  reportLeaveIntruders c e (reportIntrusion c first e (reportDrain c e (reportLinger c e
    (reportTakeUp c e (reportInhibit c e d)))))

/-- Relation entries of a crane, ascending cell index (R41). -/
def Device.relEntries (d : Device) (c : CraneIx) : List RelEntry :=
  match d.reachOf c with
  | some r => r.entries
  | none => []

/-- The Cell Arbiter's handling of a report's relations, in ascending cell index (R77). -/
def reportCells (c : CraneIx) (first : Bool) (d : Device) : Device :=
  (d.relEntries c).foldl (reportCell c first) d

/-! ### Claims raised and ended by other blocks (R78 to R83) -/

/-- Conversion of one cell when its crane becomes LOST (R31, R78). -/
def loseCell (c : CraneIx) (d : Device) (k : CellIx) : Device :=
  let r := d.cell k
  if r.standing.holder == some c then updCell k (setHolderClass d .lost) d
  else if (entryOf c r.queue).isSome then updCell k (fun r => { r with queue := requeue d c .lost r.queue }) d
  else request c k .lost d

/-- Conversion of every claim of a crane that becomes LOST, and LOST requests on its other footprint cells
(R31, R78). -/
def loseCells (c : CraneIx) (d : Device) : Device := allCells.foldl (loseCell c) d

/-- The class a claim falls back to: BOOKED on a path cell of the crane's running lift, FREE otherwise (R79,
R80). -/
def serviceClass (d : Device) (c : CraneIx) (k : CellIx) : ClaimClass :=
  if d.liftLists c k then .booked else .free

/-- Reconciliation of one cell at the return of a LOST crane (R33, R79). -/
def reconcileCell (c : CraneIx) (d : Device) (k : CellIx) : Device :=
  let r := d.cell k
  if r.standing.holder == some c then
    if d.relation c k == .outside then releaseCell k d
    else
      let cls := if (d.windOf c).state.isVane && d.hasJib c k then .weathervane else serviceClass d c k
      updCell k (setHolderClass d cls) d
  else
    match entryOf c r.queue with
    | some w => if w.cls == .lost then updCell k (fun r => { r with queue := dequeue c r.queue }) d else d
    | none => d

/-- Reconciliation of every cell of a returning crane (R79). -/
def reconcileCells (c : CraneIx) (d : Device) : Device := allCells.foldl (reconcileCell c) d

/-- Conversion of one weathervane claim at RESUME (R80). -/
def resumeCell (c : CraneIx) (d : Device) (k : CellIx) : Device :=
  let r := d.cell k
  if r.standing.holder == some c && r.standing.cls == some .weathervane then
    if d.relation c k == .outside then releaseCell k d else updCell k (setHolderClass d (serviceClass d c k)) d
  else
    match entryOf c r.queue with
    | some w => if w.cls == .weathervane then updCell k (fun r => { r with queue := dequeue c r.queue }) d else d
    | none => d

/-- Conversion of every weathervane claim of a resuming crane (R80). -/
def resumeCells (c : CraneIx) (d : Device) : Device := allCells.foldl (resumeCell c) d

/-- Revert of a BOOKED claim on one path cell (R81). -/
def revertCell (c : CraneIx) (d : Device) (k : CellIx) : Device :=
  let r := d.cell k
  if r.standing.holder == some c then
    if r.standing.cls == some .booked then updCell k (setHolderClass d .free) d else d
  else
    match entryOf c r.queue with
    | some w =>
      if w.cls == .booked then
        if d.tier .booked == d.tier .free then updCell k (fun r => { r with queue := reclass c .free r.queue }) d
        else updCell k (fun r => { r with queue := requeue d c .free r.queue }) d
      else d
    | none => d

/-- A path's cells in ascending cell index. -/
def ascending (path : List CellIx) : List CellIx := allCells.filter path.contains

/-- Revert of the BOOKED claims on a path (R81). -/
def revertPath (c : CraneIx) (path : List CellIx) (d : Device) : Device := (ascending path).foldl (revertCell c) d

/-- A reservation of crane `b` comes into force on one cell: weaker entries of other cranes are removed and the
cell is re-judged (R82). The booking stands as in force when this is called. -/
def reserveCell (b : CraneIx) (d : Device) (k : CellIx) : Device :=
  updCell k (fun r => { r with queue := r.queue.filter fun w => w.crane == b || d.tier w.cls ≤ d.tier .booked }) d

/-- A reservation of crane `b` comes into force on a path (R82, R151). -/
def reservePath (b : CraneIx) (path : List CellIx) (d : Device) : Device := (ascending path).foldl (reserveCell b) d

/-- The path cells are re-judged when a reservation ends (R82). -/
def rejudgePath (path : List CellIx) (d : Device) : Device := (ascending path).foldl (fun d k => rejudgeCell k d) d

/-- A crane's queue entry in one cell is removed (R83). -/
def withdrawEntry (c : CraneIx) (d : Device) (k : CellIx) : Device :=
  if (entryOf c (d.cell k).queue).isSome then updCell k (fun r => { r with queue := dequeue c r.queue }) d else d

/-- Every queue entry of a crane is removed (R83, LEAVE and DETACH). -/
def withdrawEntries (c : CraneIx) (d : Device) : Device := allCells.foldl (withdrawEntry c) d

/-- A cell of which the crane is holder is released (R83, DETACH). -/
def releaseHeld (c : CraneIx) (d : Device) (k : CellIx) : Device :=
  if (d.cell k).standing.holder == some c then releaseCell k d else d

/-- Every cell of which the crane is holder is released (R83, DETACH). -/
def releaseAllHeld (c : CraneIx) (d : Device) : Device := allCells.foldl (releaseHeld c) d

/-- A crane that goes ABSENT leaves every inhibit set and intruder list (R36, R83). -/
def forgetCrane (c : CraneIx) (d : Device) : Device :=
  allCells.foldl (fun d k => touchCell k (fun r =>
    { r with inhibit := dropCrane c r.inhibit, intruders := dropCrane c r.intruders }) d) d

/-! ### Expiries and the RELEASE frame -/

/-- A crane joins the inhibit set of a cell unless its relation to it is OUTSIDE (R66). -/
def joinInhibit (c : CraneIx) (k : CellIx) (d : Device) : Device :=
  if d.relation c k == .outside then d else touchCell k (fun r => { r with inhibit := addCrane c r.inhibit }) d

/-- Take-up expiry (R65): the grant lapses, the grantee joins the inhibit set unless OUTSIDE, TAKEUP_LAPSE is
raised, and the cell is given on. Without a running take-up timer nothing expires. -/
def takeUpExpired (k : CellIx) (d : Device) : Device :=
  match (d.cell k).standing with
  | .granted c _ _ => releaseCell k ((joinInhibit c k d).raise .takeupLapse (some c.val) (some k.val) none)
  | _ => d

/-- Linger expiry (R67): the cell is released. Without a running linger timer nothing expires. -/
def lingerExpired (k : CellIx) (d : Device) : Device :=
  match (d.cell k).standing with
  | .held _ _ (some _) => releaseCell k d
  | _ => d

/-- A class that a RELEASE frame may give up (R70, condition 4). -/
def ClaimClass.releasable : ClaimClass → Bool
  | .free => true
  | .emergency => true
  | _ => false

/-- The answer to a RELEASE frame (R70). -/
def releaseCode (d : Device) (c : CraneIx) (cell : Nat) : ReplyCode :=
  if d.membership c != .admitted then .notAdmitted
  else
    match cellIx? cell with
    | none => .invalid
    | some k =>
      let r := d.cell k
      if r.standing.holder == some c then
        if !r.standing.cls.any ClaimClass.releasable then .wrongState
        else if d.relation c k == .inside then .inCell
        else .ok
      else
        match entryOf c r.queue with
        | none => .notHolder
        | some w => if w.cls.releasable then .ok else .wrongState

/-- A RELEASE that is taken (R70): the holder's cell is released, or the waiter's entry removed; the crane joins
the inhibit set unless OUTSIDE. -/
def giveUp (c : CraneIx) (k : CellIx) (d : Device) : Device :=
  if (d.cell k).standing.holder == some c then releaseCell k (joinInhibit c k d)
  else updCell k (fun r => { r with queue := dequeue c r.queue }) (joinInhibit c k d)

/-- The crane is holder of some cell: it holds a cell or has a grant (R34). -/
def Device.isHolder (d : Device) (c : CraneIx) : Bool :=
  allCells.any fun k => (d.cell k).standing.holder == some c

/-- For every cell in which the crane has a JIB footprint it is holder at class WEATHERVANE (R94, R124). -/
def Device.holdsWeathervane (d : Device) (c : CraneIx) : Bool :=
  (d.jibCells c).all fun k =>
    (d.cell k).standing.holder == some c && (d.cell k).standing.cls == some .weathervane

end Sys2Proof.Machine
end

