-- ==== Sys2Proof/Machine/Bookings.lean ====
section
/-! DEFINITION. The Booking Table (chapters 8 and 9): the table and its order, booking requests, window
matching, retirement, activation, lift cycles, suspension and the wind handing. -/

namespace Sys2Proof.Machine

/-! ### The table -/

/-- Table order: ascending reserved-interval start, then ascending id (R140). -/
def bookingBefore (a b : Booking) : Bool :=
  a.reservedStart < b.reservedStart || (a.reservedStart == b.reservedStart && a.id < b.id)

/-- Place a booking in table order (R140). -/
def insertBooking (b : Booking) : List Booking → List Booking
  | [] => [b]
  | x :: l => if bookingBefore b x then b :: x :: l else x :: insertBooking b l

/-- The table without the booking of an id. -/
def removeBooking (id : Nat) (l : List Booking) : List Booking := l.filter fun b => b.id != id

/-- Change the booking of an id in place. -/
def modifyBooking (id : Nat) (f : Booking → Booking) (l : List Booking) : List Booking :=
  l.map fun b => if b.id == id then f b else b

/-- Change the booking of an id in place. -/
def Device.modBooking (d : Device) (id : Nat) (f : Booking → Booking) : Device :=
  { d with bookings := modifyBooking id f d.bookings }

/-- Live booking ids of a crane, in table order (R150). -/
def Device.bookingIds (d : Device) (c : CraneIx) : List Nat :=
  (d.bookings.filter fun b => b.crane == c).map fun b => b.id

/-- The id after an id, 65535 being followed by 1 (R140). -/
def idAfter (n : Nat) : Nat := if n ≥ 65535 then 1 else n + 1

/-- The first id from `n` on that is not live, trying `fuel` further ids (R140). -/
def freeIdFrom : Nat → List Booking → Nat → Nat
  | 0, _, n => n
  | fuel + 1, l, n => if l.any fun b => b.id == n then freeIdFrom fuel l (idAfter n) else n

/-- The id an insertion takes (R140). -/
def Device.freshId (d : Device) : Nat := freeIdFrom (d.bookings.length + 1) d.bookings d.nextId

/-- End of a booking's window, where it has one (R139). -/
def Booking.windowEnd (b : Booking) : Option Nat := b.window.map Prod.snd

/-- Start of a booking's window, where it has one (R139). -/
def Booking.windowStart (b : Booking) : Option Nat := b.window.map Prod.fst

/-! ### Retirement and activation -/

/-- Activation of a CHAINED booking at its predecessor's completion: it becomes OPEN with its window cut at its
reserved end, moves to its place in the table, and its reservation comes into force (R143, R157). -/
def activate (id : Nat) (d : Device) : Device :=
  match d.booking id with
  | some b =>
    let start := d.now
    let stop := min (d.now + b.length) b.reservedEnd
    let b' :=
      { b with
        state := .opened
        window := some (start, stop)
        reservedStart := start
        reservedEnd := stop
        pred := none }
    reservePath b.crane b.path { d with bookings := insertBooking b' (removeBooking id d.bookings) }
  | none => d

/-- The predecessor of a booking that leaves the table loses its successor (R146, step 3). -/
def unlinkPred (b : Booking) (l : List Booking) : List Booking :=
  match b.pred with
  | some p => modifyBooking p (fun x => { x with succ := none }) l
  | none => l

/-- Steps 1 to 5 of R146 for one booking: revert, end of the reservation with re-judgement of the path, removal
from the table, BOOKING_EXPIRED. The record is removed before the path is re-judged (entry 24). -/
def retireOne (b : Booking) (reason : RetireReason) (d : Device) : Device :=
  let d := if b.state.running then revertPath b.crane b.path d else d
  let d := { d with bookings := removeBooking b.id (unlinkPred b d.bookings) }
  let d := if b.state.inForce then rejudgePath b.path d else d
  if reason == .expired then d.raise .bookingExpired (some b.crane.val) none (some b.id) else d

/-- Retirement of a booking and, at step 6, what it brings for its successor: activation on COMPLETE, nothing
on DETACHED, retirement with reason CHAIN otherwise and so on down the chain, `fuel` bookings at most (R146). -/
def retireChain : Nat → Nat → RetireReason → Device → Device
  | 0, _, _, d => d
  | fuel + 1, id, reason, d =>
    match d.booking id with
    | none => d
    | some b =>
      let d := retireOne b reason d
      match b.succ with
      | none => d
      | some s =>
        match reason with
        | .complete => activate s d
        | .detached => d
        | _ => retireChain fuel s .chain d

/-- Retirement of a booking with a reason (R146). -/
def retire (id : Nat) (reason : RetireReason) (d : Device) : Device :=
  retireChain (d.bookings.length + 1) id reason d

/-- DETACH retires every booking of the crane with reason DETACHED, in table order (R35, R146). -/
def retireAllOf (c : CraneIx) (d : Device) : Device :=
  (d.bookingIds c).foldl (fun d id => retire id .detached d) d

/-! ### Window matching -/

/-- Window matching of one booking at a site time (R145): the first row that holds. -/
def matchBooking (now : Nat) (d : Device) (id : Nat) : Device :=
  match d.booking id with
  | none => d
  | some b =>
    match b.state with
    | .chained => if b.reservedEnd ≤ now then retire id .expired d else d
    | .pending =>
      if b.windowEnd.any (· ≤ now) then retire id .expired d
      else if b.windowStart.any (· ≤ now) then
        reservePath b.crane b.path (d.modBooking id fun b => { b with state := .opened })
      else d
    | .opened => if b.windowEnd.any (· ≤ now) then retire id .expired d else d
    | .suspended => if b.windowEnd.any (· ≤ now) then retire id .expired d else d
    | .lifting => if b.windowEnd.any (· ≤ now) then d.modBooking id fun b => { b with overrun := true } else d
    | .holdLower => if b.windowEnd.any (· ≤ now) then d.modBooking id fun b => { b with overrun := true } else d

/-- Window matching: the live bookings in table order, passing over those the run itself retires (R145). With
site time UNSET the table is empty (R133) and nothing is matched. -/
def windowMatching (d : Device) : Device :=
  match d.clock.siteTime with
  | none => d
  | some now => (d.bookings.map fun b => b.id).foldl (matchBooking now) d

/-! ### Wind and bookings -/

/-- A crane's wind state is CALM or WATCH and permits a sail class (R153, R159). -/
def Device.windAllows (d : Device) (c : CraneIx) (s : Sail) : Bool :=
  (d.windOf c).state.isCalmOrWatch && (d.windOf c).classes.has s

/-- Each SUSPENDED booking whose crane's wind allows its class returns to OPEN, in table order (R159). -/
def reopenSuspended (d : Device) : Device :=
  { d with
    bookings := d.bookings.map fun b =>
      if b.state == .suspended && d.windAllows b.crane b.sail then { b with state := .opened } else b }

/-- The handing of a crane's wind state and classes to the Booking Table: its LIFTING booking goes to HOLD_LOWER
where its class is not permitted or the wind state is HALT or VANE (R121, R155). -/
def windHanding (c : CraneIx) (d : Device) : Device :=
  { d with
    bookings := d.bookings.map fun b =>
      if b.crane == c && b.state == .lifting && !d.windAllows c b.sail then { b with state := .holdLower } else b }

/-! ### Making a booking -/

/-- The path of a request as cells; none where an index lies outside 0..47 (R141). -/
def pathCells (path : List Nat) : Option (List CellIx) := path.mapM cellIx?

/-- The path test of R141, condition 7. -/
def pathValid (d : Device) (c : CraneIx) (path : List CellIx) : Bool :=
  1 ≤ path.length && path.length ≤ 8 && path.Nodup && path.all fun k => (d.footprint c k).isSome

/-- The ids of a booking and of the chain before it: itself, its predecessor, and so on back (R142). -/
def chainBack : Nat → List Booking → Nat → List Nat
  | 0, _, _ => []
  | fuel + 1, l, id =>
    match l.find? fun b => b.id == id with
    | none => []
    | some b =>
      match b.pred with
      | some p => id :: chainBack fuel l p
      | none => [id]

/-- Two half-open intervals overlap: each starts before the other ends (R139). -/
def overlap (s e s' e' : Nat) : Bool := s < e' && s' < e

/-- A requested booking of crane `c` with reserved interval `s`..`e` and the given path and chain conflicts with
a live booking (R142). -/
def conflictsWith (c : CraneIx) (s e : Nat) (path : List CellIx) (chain : List Nat) (b : Booking) : Bool :=
  overlap s e b.reservedStart b.reservedEnd &&
    (if b.crane == c then !chain.contains b.id else b.path.any path.contains)

/-- A BOOK request reduced to a record that may enter the table, with the id still to be given. -/
structure BookPlan where
  window : Option (Nat × Nat)
  length : Nat
  reservedStart : Nat
  reservedEnd : Nat
  pred : Option Nat

/-- Conditions 6 and 8 of R141, and the reserved interval of R142 and R143: for a window, the window; for a
predecessor, the widest interval. The sum of a predecessor's reserved end and a length is not bounded by the greatest
site time (DESIGN CHOICE, entry 37). -/
def bookPlan (d : Device) (c : CraneIx) (b : BookReq) : Except ReplyCode BookPlan :=
  if b.form == 0 then .ok ⟨some (b.first, b.second), b.second - b.first, b.first, b.second, none⟩
  else
    match d.booking b.first with
    | none => .error .badChain
    | some p =>
      if p.crane != c || p.succ.isSome || p.reservedEnd + b.second ≤ d.now then .error .badChain
      else .ok ⟨none, b.second, p.reservedStart, p.reservedEnd + b.second, some p.id⟩

/-- Condition 6 of R141. -/
def badWindow (d : Device) (b : BookReq) : Bool :=
  if b.form == 0 then
    !(b.first < b.second) || b.second - b.first < 60 || b.second - b.first > 14400 || b.second ≤ d.now
  else b.second < 60 || b.second > 14400

/-- Conditions 6 to 10 of R141, for a crane whose sail class and cycles are in range; the request's plan where
none holds. -/
def judgeBook (d : Device) (c : CraneIx) (b : BookReq) : Except ReplyCode (List CellIx × BookPlan) :=
  if badWindow d b then .error .badWindow
  else
    match pathCells b.path with
    | none => .error .noFootprint
    | some path =>
      if !pathValid d c path then .error .noFootprint
      else
        match bookPlan d c b with
        | .error code => .error code
        | .ok p =>
          let chain :=
            match p.pred with
            | some i => chainBack (d.bookings.length + 1) d.bookings i
            | none => []
          if d.bookings.any (conflictsWith c p.reservedStart p.reservedEnd path chain) then .error .conflict
          else if Config.bookingCapacity ≤ d.bookings.length then .error .full
          else .ok (path, p)

/-- The record of a request that passed, under a fresh id (R140, R143, R144). -/
def newBooking (id : Nat) (c : CraneIx) (b : BookReq) (s : Sail) (o : Origin) (path : List CellIx) (p : BookPlan) :
    Booking where
  id := id
  crane := c
  state := if p.pred.isSome then .chained else .pending
  window := p.window
  length := p.length
  reservedStart := p.reservedStart
  reservedEnd := p.reservedEnd
  sail := s
  path := path
  cycles := b.cycles
  pred := p.pred
  succ := none
  overrun := false
  origin := o

/-- The predecessor takes the new booking as its successor (R143). -/
def linkPred (pred : Option Nat) (id : Nat) (l : List Booking) : List Booking :=
  match pred with
  | some p => modifyBooking p (fun x => { x with succ := some id }) l
  | none => l

/-- Insertion of a booking, then window matching (R144). -/
def insertRequest (c : CraneIx) (b : BookReq) (s : Sail) (o : Origin) (path : List CellIx) (p : BookPlan)
    (d : Device) : Device :=
  let id := d.freshId
  let rec' := newBooking id c b s o path p
  windowMatching
    { d with
      bookings := insertBooking rec' (linkPred p.pred id d.bookings)
      nextId := idAfter id }

/-! ### Lift cycles -/

/-- A path cell is PROTECTED with its possession CLOSED (R153, condition 7). -/
def pathClosed (d : Device) (path : List CellIx) : Bool :=
  path.any fun k => d.protectedCell k && d.possessionOf k == .closed

/-- The refusal of a LIFT_START, in the order of R153; `none` where it is taken. -/
def liftStartRefusal (d : Device) (c : CraneIx) (id : Nat) : Option ReplyCode :=
  if d.membership c != .admitted then some .notAdmitted
  else
    match d.booking id with
    | none => some .unknownBooking
    | some b =>
      if b.crane != c then some .unknownBooking
      else if b.state != .opened then some .wrongState
      else if d.liftRunning c then some .wrongState
      else if d.hold c then some .held
      else if !d.windAllows c b.sail then some .wind
      else if pathClosed d b.path then some .isProtected
      else none

/-- A LIFT_START that is taken: LIFTING, and BOOKED requests on the path cells in ascending order (R153). -/
def startLift (c : CraneIx) (id : Nat) (d : Device) : Device :=
  match d.booking id with
  | some b => requestAll c .booked (ascending b.path) (d.modBooking id fun b => { b with state := .lifting })
  | none => d

/-- The refusal of a LIFT_END or LIFT_ABORT (R156, R158); `none` where it is taken. -/
def liftStopRefusal (d : Device) (c : CraneIx) (id : Nat) : Option ReplyCode :=
  if d.membership c != .admitted then some .notAdmitted
  else
    match d.booking id with
    | none => some .unknownBooking
    | some b =>
      if b.crane != c then some .unknownBooking
      else if !b.state.running then some .wrongState
      else none

/-- A LIFT_END that is taken, with the reason where it retires the booking (R156). -/
def endLift (c : CraneIx) (id : Nat) (d : Device) : Device × RetireReason :=
  match d.booking id with
  | none => (d, .none)
  | some b =>
    if b.cycles - 1 == 0 then (retire id .complete d, .complete)
    else
      let d := d.modBooking id fun b => { b with cycles := b.cycles - 1 }
      if b.overrun then (retire id .expired d, .expired)
      else (revertPath c b.path (d.modBooking id fun b => { b with state := .opened }), .none)

/-- A LIFT_ABORT that is taken, with the reason where it retires the booking (R158). -/
def abortLift (c : CraneIx) (id : Nat) (d : Device) : Device × RetireReason :=
  match d.booking id with
  | none => (d, .none)
  | some b =>
    if b.overrun then (retire id .expired d, .expired)
    else (revertPath c b.path (d.modBooking id fun b => { b with state := .suspended }), .none)

/-! ### The table across a warm reset -/

/-- A booking retired by a warm reset leaves the table with the chain behind it, without a revert, a
re-judgement or a fault (R149). -/
def dropChain : Nat → Nat → List Booking → List Booking
  | 0, _, l => l
  | fuel + 1, id, l =>
    match l.find? fun b => b.id == id with
    | none => l
    | some b =>
      let l := removeBooking id (unlinkPred b l)
      match b.succ with
      | some s => dropChain fuel s l
      | none => l

/-- One booking at a warm reset (R149). -/
def warmBooking (l : List Booking) (id : Nat) : List Booking :=
  match l.find? fun b => b.id == id with
  | none => l
  | some b =>
    if b.state.running then
      if b.overrun then dropChain (l.length + 1) id l else modifyBooking id (fun b => { b with state := .suspended }) l
    else l

/-- The booking table after a warm reset, in table order (R149). -/
def warmBookings (l : List Booking) : List Booking := (l.map fun b => b.id).foldl warmBooking l

/-- A crane's current booking: the one LIFTING or in HOLD_LOWER, else the first in table order (R95). -/
def Device.currentBooking (d : Device) (c : CraneIx) : Option Booking :=
  match d.bookings.find? fun b => b.crane == c && b.state.running with
  | some b => some b
  | none => d.bookings.find? fun b => b.crane == c

end Sys2Proof.Machine
end

