-- ==== Sys2Proof/Machine/Reach.lean ====
section
/-! DEFINITION. The Reach Unit (chapter 3): intake, travels, envelopes, footprint tests, relations, directions
and auto-claims. -/

namespace Sys2Proof.Machine

/-- `(x) mod 3600` for a difference of angles, in 0..3599 also for a negative `x` (scope, section 5). -/
def sub3600 (a b : Int) : Nat := ((a - b) % 3600).toNat

/-- Intake of a report (Table 3-2, R43): saturation and clamping, the radius to the jib length. -/
def intake (jib : Nat) (r : Report) : Position where
  slew := r.slew
  rate := max (-127) r.rate
  radius := min r.radius jib
  speed := max (-63) (min r.speed 63)
  hook := min r.hook 2000

/-- Travel at a rate over a time in tenths, rounded up: ⌈|v| · T / 10⌉ (R44). -/
def travel (v : Int) (t : Nat) : Nat := (v.natAbs * t + 9) / 10

/-- Angular margin in use (R39, R45). -/
def marginA (q : Quality) (ma : Nat) : Nat :=
  match q with
  | .good => ma
  | .degraded => min (2 * ma) 300

/-- Radial margin in use (R39, R45). -/
def marginR (q : Quality) (mr : Nat) : Nat :=
  match q with
  | .good => mr
  | .degraded => min (2 * mr) 100

/-- A radial bound clamped to 0..jib length (R47). -/
def clampRadius (jib : Nat) (x : Int) : Nat := min x.toNat jib

/-- An envelope drawn from a position with slew travel `d`, trolley travel `e` and the margins in use (R45 to
R47). -/
def drawEnvelope (p : Position) (jib d e ma mr : Nat) : Envelope where
  start := if 0 ≤ p.rate then sub3600 p.slew ma else sub3600 p.slew (d + ma : Nat)
  span := min (d + 2 * ma + 1) 3600
  rmin := clampRadius jib (if p.speed < 0 then (p.radius : Int) - e - mr else (p.radius : Int) - mr)
  rmax := clampRadius jib (if 0 < p.speed then (p.radius : Int) + e + mr else (p.radius : Int) + mr)

/-- An arc contains an angle (R48). -/
def arcContains (s l p : Nat) : Bool := sub3600 p s < l

/-- Two arcs intersect: either contains the start of the other (R48). -/
def arcsIntersect (s l s' l' : Nat) : Bool := arcContains s l s' || arcContains s' l' s

/-- The last angle an arc contains (R48). -/
def arcEnd (s l : Nat) : Nat := (s + l - 1) % 3600

/-- A footprint is intersected by an envelope (R49). -/
def intersects (v : Envelope) (f : Footprint) : Bool :=
  arcsIntersect v.start v.span f.start f.span && (f.kind == 0 || (v.rmin ≤ f.high && f.low ≤ v.rmax))

/-- A position lies inside a footprint (R49). -/
def insideFootprint (p : Position) (f : Footprint) : Bool :=
  arcContains f.start f.span p.slew && (f.kind == 0 || (f.low ≤ p.radius && p.radius ≤ f.high))

/-- The relation of a position with its envelopes to a footprint: the first that holds (R50). -/
def relationTo (p : Position) (stop warn : Envelope) (f : Footprint) : Relation :=
  if insideFootprint p f then .inside
  else if intersects stop f then .approaching
  else if intersects warn f then .near
  else .outside

/-- Slew toward direction of a footprint the crane is not inside (R51). -/
def slewTowardDir (p : Position) (f : Footprint) : Option SlewDir :=
  if arcContains f.start f.span p.slew then none
  else if sub3600 f.start p.slew ≤ sub3600 p.slew (arcEnd f.start f.span) then some .positive
  else some .negative

/-- Trolley toward direction of a footprint the crane is not inside (R51). -/
def trolleyTowardDir (p : Position) (f : Footprint) : Option TrolleyDir :=
  if f.kind == 0 then none
  else if p.radius < f.low then some .out
  else if f.high < p.radius then some .inward
  else none

/-- Slew exit direction of a footprint the crane is inside (R52). -/
def slewExitDir (p : Position) (f : Footprint) : SlewDir :=
  if sub3600 p.slew f.start + 1 ≤ sub3600 (arcEnd f.start f.span) p.slew + 1 then .negative else .positive

/-- Trolley exit direction of a footprint the crane is inside (R52). -/
def trolleyExitDir (p : Position) (f : Footprint) : Option TrolleyDir :=
  if f.kind == 0 then none
  else if p.radius - f.low ≤ f.high - p.radius then some .inward
  else some .out

/-- A relation entry computed anew, with the relation it replaces (R42, R50 to R52). -/
def relEntry (p : Position) (stop warn : Envelope) (k : CellIx) (f : Footprint) (prev : Option Relation) : RelEntry :=
  let now := relationTo p stop warn f
  if now == .inside then
    { cell := k, now := now, prev := prev, slewToward := none, trolleyToward := none
      slewExit := some (slewExitDir p f), trolleyExit := trolleyExitDir p f }
  else
    { cell := k, now := now, prev := prev, slewToward := slewTowardDir p f, trolleyToward := trolleyTowardDir p f
      slewExit := none, trolleyExit := none }

/-- The relation a crane's entry for a cell held, or none where it has none (R42). -/
def Device.relationBefore (d : Device) (c : CraneIx) (k : CellIx) : Option Relation :=
  ((d.relEntries c).find? fun e => e.cell == k).map fun e => e.now

/-- The reach record that a report gives (R42 to R52). -/
def reachRecord (d : Device) (c : CraneIx) (r : Report) : ReachRec :=
  let p := d.profile c
  let q := (d.crane c).quality
  let pos := intake p.jib r
  let ma := marginA q p.ma
  let mr := marginR q p.mr
  let e := travel pos.speed p.tt
  let stop := drawEnvelope pos p.jib (travel pos.rate p.ts) e ma mr
  let warn := drawEnvelope pos p.jib (travel pos.rate p.tw) e ma mr
  { pos := pos
    ma := ma
    mr := mr
    stop := stop
    warn := warn
    entries := allCells.filterMap fun k =>
      (d.footprint c k).map fun f => relEntry pos stop warn k f (d.relationBefore c k) }

/-- The Reach Unit takes a report: steps 1 to 3 of R42. -/
def takePosition (c : CraneIx) (r : Report) (d : Device) : Device := d.setReach c (some (reachRecord d c r))

/-- The conditions under which an auto-claim is raised for an entry (R54). -/
def autoClaimDue (d : Device) (c : CraneIx) (e : RelEntry) : Bool :=
  (d.profile c).autoClaim == 1 && (e.now == .near || e.now == .approaching) && d.sharedCell e.cell &&
    (d.cell e.cell).standing.holder != some c && (entryOf c (d.cell e.cell).queue).isNone &&
    !(d.cell e.cell).inhibit.contains c

/-- The auto-claim of one entry (R54, R55). -/
def autoClaim (c : CraneIx) (d : Device) (e : RelEntry) : Device :=
  if autoClaimDue d c e then request c e.cell (serviceClass d c e.cell) d else d

/-- The auto-claims of a report, in ascending cell index (R54). -/
def autoClaims (c : CraneIx) (d : Device) : Device := (d.relEntries c).foldl (autoClaim c) d

/-- The crane is parked: radius not greater than its park radius and hook height not less than its park height
(R94, R124). A crane without a position is not parked. -/
def Device.parked (d : Device) (c : CraneIx) : Bool :=
  match d.reachOf c with
  | some r => r.pos.radius ≤ (d.profile c).parkRadius && (d.profile c).parkHeight ≤ r.pos.hook
  | none => false

end Sys2Proof.Machine
end

