-- ==== Sys2Proof/Machine/Permit.lean ====
section
/-! DEFINITION. The Permit Composer (chapter 5): axis limits from the relation entries, hoist and brake from the
wind record, the status fields and the cell lists; and the PERMIT and REPLY payloads (R168, R169). -/

namespace Sys2Proof.Machine

/-! ### Axis limits (R88 to R91, R93) -/

/-- Limit that an entry of a cell not the crane's own puts on one slew direction (R89, R90). -/
def slewLimitOf (dir : SlewDir) (e : RelEntry) : Limit :=
  match e.now with
  | .outside => .free
  | .near => if e.slewToward == some dir then .slow else .free
  | .approaching => if e.slewToward == some dir then .stop else .free
  | .inside =>
    match e.slewExit with
    | some x => if x == dir then .slow else .stop
    | none => .free

/-- Limit that an entry of a cell not the crane's own puts on one trolley direction (R89, R90). -/
def trolleyLimitOf (dir : TrolleyDir) (e : RelEntry) : Limit :=
  match e.now with
  | .outside => .free
  | .near => if e.trolleyToward == some dir then .slow else .free
  | .approaching => if e.trolleyToward == some dir then .stop else .free
  | .inside =>
    match e.trolleyExit with
    | some x => if x == dir then .slow else .stop
    | none => .free

/-- Entries of the crane whose cell it neither holds nor has been granted: the ones that limit it (R89 to R91). -/
def Device.limitingEntries (d : Device) (c : CraneIx) : List RelEntry :=
  (d.relEntries c).filter fun e => (d.cell e.cell).standing.holder != some c

/-- The most restrictive of a list of contributions, from a starting value (R88). -/
def mostRestrictive (start : Limit) (l : List Limit) : Limit := l.foldl Limit.join start

/-- The brake is released (R94): forced, or free, parked and holding every weathervane claim. -/
def Device.brakeReleased (d : Device) (c : CraneIx) : Bool :=
  match (d.windOf c).state with
  | .vane .forced => true
  | .vane .vaneFree => d.parked c && d.holdsWeathervane c
  | _ => false

/-- The clearing contributions apply (R93): in VANE_CLEARING, and in VANE_FREE where the brake is not released
(R94). -/
def Device.clearingLimits (d : Device) (c : CraneIx) : Bool :=
  match (d.windOf c).state with
  | .vane .clearing => true
  | .vane .vaneFree => !d.brakeReleased c
  | _ => false

/-- Starting value of an axis that the wind stops: STOP where the brake is released, and, for the axes of R93,
where the clearing contributions apply; FREE otherwise (R88, R93, R94). -/
def Device.windLimit (d : Device) (c : CraneIx) (clearingAxis : Bool) : Limit :=
  if d.brakeReleased c || (clearingAxis && d.clearingLimits c) then .stop else .free

/-- Limit of one slew direction (R88 to R94). -/
def Device.slewLimit (d : Device) (c : CraneIx) (dir : SlewDir) : Limit :=
  mostRestrictive (d.windLimit c true) ((d.limitingEntries c).map (slewLimitOf dir))

/-- Limit of one trolley direction (R88 to R94); R93 names trolley-out alone. -/
def Device.trolleyLimit (d : Device) (c : CraneIx) (dir : TrolleyDir) : Limit :=
  mostRestrictive (d.windLimit c (dir == .out)) ((d.limitingEntries c).map (trolleyLimitOf dir))

/-- Hoist-up is STOP (R92, R94). -/
def Device.hoistStopped (d : Device) (c : CraneIx) : Bool :=
  (match (d.windOf c).state with
    | .halt => true
    | .vane .vaneFree => true
    | .vane .forced => true
    | _ => false) ||
  d.bookings.any fun b => b.crane == c && b.state == .holdLower

/-! ### Cell lists (R96) -/

/-- Cells HELD or DRAINING with the crane as holder. -/
def Device.heldList (d : Device) (c : CraneIx) : List CellIx :=
  allCells.filter fun k =>
    match (d.cell k).standing with
    | .held h _ _ => h == c
    | .draining h _ => h == c
    | _ => false

/-- Cells GRANTED with the crane as holder. -/
def Device.grantedList (d : Device) (c : CraneIx) : List CellIx :=
  allCells.filter fun k =>
    match (d.cell k).standing with
    | .granted h _ _ => h == c
    | _ => false

/-- Cells DRAINING with the crane as holder. -/
def Device.vacateList (d : Device) (c : CraneIx) : List CellIx :=
  allCells.filter fun k =>
    match (d.cell k).standing with
    | .draining h _ => h == c
    | _ => false

/-- Cells in whose waiter queue the crane has an entry. -/
def Device.waitingList (d : Device) (c : CraneIx) : List CellIx :=
  allCells.filter fun k => (entryOf c (d.cell k).queue).isSome

/-! ### Composition and sending -/

/-- The permit that answers a report with sequence number `seq` (R85, R86, R95). -/
def compose (d : Device) (c : CraneIx) (seq : Nat) : Permit where
  seq := seq
  slewPlus := d.slewLimit c .positive
  slewMinus := d.slewLimit c .negative
  trolleyOut := d.trolleyLimit c .out
  trolleyIn := d.trolleyLimit c .inward
  hoistStop := d.hoistStopped c
  release := d.brakeReleased c
  wind := (d.windOf c).state
  classes := (d.windOf c).classes
  quality := (d.crane c).quality
  booking := (d.currentBooking c).map fun b => (b.id, b.state)
  heldList := d.heldList c
  grantedList := d.grantedList c
  vacateList := d.vacateList c
  waitingList := d.waitingList c

/-- The Permit Composer's turn at a report: the permit replaces the record and is sent (R85, R86); the record is
replaced also where the frame is discarded (R166). -/
def sendPermit (c : CraneIx) (seq : Nat) (d : Device) : Device :=
  let p := compose d c seq
  (d.setPermit c (some p)).sendFrame c (.permit p)

/-! ### Payloads of the part's frames -/

/-- Byte `j` of the 48-bit map of a cell list: cell c is bit (c mod 8) of byte (c div 8) (R168). -/
def mapByte (l : List CellIx) (j : Nat) : Byte :=
  byte (((List.range 8).map fun i => if l.any (fun k => k.val == 8 * j + i) then 2 ^ i else 0).sum)

/-- The six map bytes of a cell list, byte 0 first (R168). -/
def mapBytes (l : List CellIx) : List Byte := (List.range 6).map (mapByte l)

/-- One bit of a byte. -/
def bitOf (b : Bool) (i : Nat) : Nat := if b then 2 ^ i else 0

/-- Permitted sail classes as bits: 0 L, 1 M, 2 S (R168). -/
def sailBits (x : SailSet) : Nat := bitOf x.l 0 + bitOf x.m 1 + bitOf x.s 2

/-- Vane substate in a PERMIT: 0 none, else its position from 1 (Table 10-4). -/
def permitSubCode (w : WindState) : Nat :=
  match w.sub with
  | some s => s.code + 1
  | none => 0

/-- PERMIT payload, 38 bytes (Table 10-4). -/
def permitBytes (p : Permit) : List Byte :=
  [byte p.seq, byte p.slewPlus.code, byte p.slewMinus.code, byte p.trolleyOut.code, byte p.trolleyIn.code,
    byte (bitOf p.hoistStop 0), byte (bitOf p.release 0), byte p.wind.code, byte (permitSubCode p.wind),
    byte (sailBits p.classes), byte p.quality.code]
    ++ (match p.booking with
      | some (id, st) => beBytes 2 id ++ [byte (st.code + 1)]
      | none => [0, 0, 0])
    ++ mapBytes p.heldList ++ mapBytes p.grantedList ++ mapBytes p.vacateList ++ mapBytes p.waitingList

/-- REPLY payload (Table 10-5). Without a record the bytes at offsets 4 to 7 are free (entry 13). -/
def replyBytes (r : Reply) : List Byte :=
  [byte r.kind, byte r.code.code, byte r.reason.code]
    ++ (match r.record with
      | some x => byte x.item :: beBytes 2 x.index ++ [byte x.segment, byte x.count] ++ x.bytes
      | none =>
        [255, Config.noRecordByte 4, Config.noRecordByte 5, Config.noRecordByte 6, Config.noRecordByte 7])

/-- Kind code of a frame from the part (Table 10-2). -/
def TxFrame.kindCode : TxFrame → Nat
  | .permit _ => 0x81
  | .reply _ => 0x82

/-- Payload of a frame from the part (R168, R169). -/
def TxFrame.payload : TxFrame → List Byte
  | .permit p => permitBytes p
  | .reply r => replyBytes r

end Sys2Proof.Machine
end

