-- ==== Sys2Proof/Machine/Flags.lean ====
section
/-! DEFINITION. The figures and flags of the Wind Unit: conversion to speeds (R106, R113), gust (R108), history
(R109), mean (R110), crossing flags (R111, R112), computed level (R118) and permitted sail classes (R120). -/

namespace Sys2Proof.Machine

/-- Greatest wind speed, tenths of a metre per second. -/
def maxSpeed : Nat := 600

/-- Speed of a real reading: ⌊count × scale / 64⌋, at most 600 (R106); also the mast speed (R113). -/
def speedOf (count scale : Nat) : Nat := min (count * scale / 64) maxSpeed

/-- A crane's speed from the mast speed: ⌊mast speed × height factor / 256⌋, at most 600 (R113). -/
def mastSpeedFor (mast height : Nat) : Nat := min (mast * height / 256) maxSpeed

/-- The last `n` members of a list. -/
def lastN (n : Nat) (l : List Nat) : List Nat := l.drop (l.length - n)

/-- Append to a list that keeps its last `n` members (R107, R109). -/
def pushBounded (n x : Nat) (l : List Nat) : List Nat := lastN n (l ++ [x])

/-- The gust: the rounded mean of the recent speeds (R108). -/
def gustOf (recent : List Nat) : Nat := (recent.sum + recent.length / 2) / recent.length

/-- A gust flag judged against the history (R111). -/
def judgeGustFlag (history : List Nat) (limit n h : Nat) (old : Bool) : Bool :=
  if n ≤ (history.filter fun g => limit < g).length then true
  else if history.all fun g => g ≤ limit - h then false
  else old

/-- The mean accumulator after a speed (R110): M + ((256·s − M) × k / 4096, truncated toward zero), clamped to
0..153600. -/
def meanStep (m s k : Nat) : Nat := min ((m : Int) + ((256 * (s : Int) - m) * k).tdiv 4096).toNat 153600

/-- The reported mean ⌊(M + 128) / 256⌋ (R110). -/
def reportedMean (m : Nat) : Nat := (m + 128) / 256

/-- The flag VM judged against the reported mean (R112). -/
def judgeMeanFlag (mean limit h : Nat) (old : Bool) : Bool :=
  if limit < mean then true else if mean ≤ limit - h then false else old

/-- A produced speed handled whole, in the order of R107. -/
def handleSpeed (r : Site) (s : Nat) (w : WindRec) : WindRec :=
  let recent := pushBounded 3 s w.recent
  let gust := gustOf recent
  let history := pushBounded r.windowT gust w.history
  let mean := meanStep w.mean s r.filterK
  { w with
    recent := recent
    lastGust := some gust
    history := history
    flagL := judgeGustFlag history r.gustL r.triggerN r.hysteresis w.flagL
    flagM := judgeGustFlag history r.gustM r.triggerN r.hysteresis w.flagM
    flagS := judgeGustFlag history r.gustS r.triggerN r.hysteresis w.flagS
    flagVG := judgeGustFlag history r.vaneGust r.triggerN r.hysteresis w.flagVG
    mean := mean
    flagVM := judgeMeanFlag (reportedMean mean) r.vaneMean r.hysteresis w.flagVM }

/-- Effective wind source of a setting under a profile's default source (R100); a default code other than MAST
reads as LINK (entry 10). -/
def effectiveSource (p : Profile) : SourceSetting → WindSource
  | .link => .link
  | .mast => .mast
  | .profile => if p.source == 1 then .mast else .link

/-- The computed level of the ladder (R118). -/
def computedLevel (src : WindSource) (w : WindRec) : Level :=
  if w.flagVG || w.flagVM then .vane
  else if w.flagS || (src == .link && w.channel != .live) then .halt
  else if w.flagL || w.flagM then .watch
  else .calm

/-- The permitted sail classes of a wind state under the gust flags (R120). -/
def permittedClasses (state : WindState) (flagL flagM : Bool) : SailSet :=
  let s := state.isCalmOrWatch
  let m := s && !flagM
  { l := m && !flagL, m := m, s := s }

/-- The wind state of a level below VANE; VANE is entered by its own rule (R119, R122). -/
def Level.toState : Level → WindState
  | .calm => .calm
  | .watch => .watch
  | .halt => .halt
  | .vane => .vane .clearing

end Sys2Proof.Machine
end

