-- ==== Sys2Proof/Machine/Wind.lean ====
section
/-! DEFINITION. The Wind Unit (chapters 6 and 7): samples and holds, channel states, the ladder, entry into
VANE, clearing checks, RESUME, FORCE_VANE, the mast sample, and the wind record across membership events. -/

namespace Sys2Proof.Machine

/-- Effective source of a crane (R100). -/
def Device.source (d : Device) (c : CraneIx) : WindSource := effectiveSource (d.profile c) (d.windOf c).source

/-- Computed level of a crane (R118). -/
def Device.level (d : Device) (c : CraneIx) : Level := computedLevel (d.source c) (d.windOf c)

/-- Change a crane's wind record. -/
def modWind (c : CraneIx) (f : WindRec → WindRec) (d : Device) : Device := d.setWind c (f (d.windOf c))

/-! ### Channel states (R105) -/

/-- A WARMING entry: the short-term record is cleared; M, VM and the source setting are kept (R105). -/
def WindRec.warm (w : WindRec) : WindRec :=
  { w with
    channel := .warming
    lastSeq := none
    recent := []
    history := []
    lastGust := none
    holdRun := 0
    liveRun := 0
    flagL := false
    flagM := false
    flagS := false
    flagVG := false }

/-- A change into STALE: the live run becomes 0, and WIND_STALE is raised unless the channel was STALE (R105). -/
def goStale (c : CraneIx) (d : Device) : Device :=
  let was := (d.windOf c).channel
  let d := modWind c (fun w => { w with channel := .stale, liveRun := 0 }) d
  if was == .stale then d else d.raise .windStale (some c.val) none none

/-- A speed produced for a crane (R107). -/
def produceSpeed (c : CraneIx) (s : Nat) (d : Device) : Device := modWind c (handleSpeed d.plan.site s) d

/-- A hold (R103): at a hold run of 2 the channel goes STALE; otherwise the run rises and the newest speed is
produced again where there is one. -/
def takeHold (c : CraneIx) (d : Device) : Device :=
  let w := d.windOf c
  if w.holdRun < 2 then
    let d := modWind c (fun w => { w with holdRun := w.holdRun + 1 }) d
    match w.recent.getLast? with
    | some s => produceSpeed c s d
    | none => d
  else goStale c d

/-- `n` filled seconds, one hold each; a fill that finds the hold run at 2 makes the channel STALE and drops the
rest (R102). -/
def fillHolds : Nat → CraneIx → Device → Device
  | 0, _, d => d
  | n + 1, c, d => if (d.windOf c).holdRun < 2 then fillHolds n c (takeHold c d) else goStale c d

/-- The reading of a taken sample: a real reading is converted and produced, and the hold run becomes 0; 65535
is a hold (R103, R106). -/
def takeReading (c : CraneIx) (count : Nat) (d : Device) : Device :=
  if count == 65535 then takeHold c d
  else
    modWind c (fun w => { w with holdRun := 0 }) (produceSpeed c (speedOf count (d.profile c).anemometer) d)

/-- The live run after a taken sample, and LIVE at 3 (R102, R105). -/
def countLive (c : CraneIx) (good : Bool) (d : Device) : Device :=
  modWind c (fun w =>
    if good then
      let n := min (w.liveRun + 1) 3
      { w with liveRun := n, channel := if n == 3 then .live else w.channel }
    else { w with liveRun := 0 }) d

/-- What a gap does before the reading is handled (R102); `none` is a first sample. -/
def takeGap (c : CraneIx) (gap : Option Nat) (d : Device) : Device :=
  match gap with
  | none => d
  | some 0 => d
  | some 1 => d
  | some 2 => fillHolds 1 c d
  | some 3 => fillHolds 2 c d
  | some _ => modWind c (fun w => { w with holdRun := 2 }) (goStale c d)

/-- The gap of a sample against the last sequence; none for a first sample (R101). -/
def sampleGap (last : Option Nat) (seq : Nat) : Option Nat :=
  last.map fun l => (((seq : Int) - l) % 256).toNat

/-- A new sample is taken: last sequence, silence timer, fills, reading, live run (R101 to R104). -/
def takeSample (c : CraneIx) (seq count : Nat) (gap : Option Nat) (d : Device) : Device :=
  let good := count != 65535 && (gap == none || gap == some 1)
  let d := modWind c (fun w => { w with lastSeq := some seq, silence := some Config.silenceTicks }) d
  countLive c good (takeReading c count (takeGap c gap d))

/-- The wind fields of a report: ignored under MAST and at a gap of 0 (R101). -/
def examineSample (c : CraneIx) (r : Report) (d : Device) : Device :=
  match d.source c with
  | .mast => d
  | .link =>
    let gap := sampleGap (d.windOf c).lastSeq r.windSeq
    if gap == some 0 then d else takeSample c r.windSeq r.pulses gap d

/-! ### The ladder (R119 to R122) -/

/-- Start of the vane clear timer at the vane clear limit (R123). -/
def startVaneTimer (c : CraneIx) (d : Device) : Device :=
  modWind c (fun w => { w with vaneTimer := some (Config.ticksPerSecond * d.plan.site.vaneClearLimit) }) d

/-- WEATHERVANE requests on every cell in which the crane has a JIB footprint (R80, R122). -/
def requestVane (c : CraneIx) (d : Device) : Device := requestAll c .weathervane (d.jibCells c) d

/-- Entry into VANE, steps 1 to 4 of R122; step 5 is the clearing check at the end of the report. -/
def enterVane (c : CraneIx) (d : Device) : Device :=
  let d := modWind c (fun w => { w with state := .vane .clearing, classes := .empty }) d
  let d := d.raise .vaneEntered (some c.val) none none
  let d := requestVane c d
  if d.membership c == .admitted then startVaneTimer c d else d

/-- The wind state and classes set from a level below VANE (R119, R120). -/
def WindRec.settleAt (w : WindRec) (state : WindState) : WindRec :=
  { w with state := state, classes := permittedClasses state w.flagL w.flagM }

/-- An evaluation of the ladder and its handing to the Booking Table (R119 to R122). -/
def evaluate (c : CraneIx) (d : Device) : Device :=
  let level := d.level c
  let d :=
    if (d.windOf c).state.isVane then modWind c (fun w => w.settleAt w.state) d
    else if level == .vane then enterVane c d
    else modWind c (fun w => w.settleAt level.toState) d
  windHanding c d

/-! ### Clearing checks (R124, R125) -/

/-- The crane is parked and holds its weathervane claims (R124). -/
def Device.clearToVane (d : Device) (c : CraneIx) : Bool := d.parked c && d.holdsWeathervane c

/-- The check that the substate calls for, at the end of a report's handling: R124 in VANE_CLEARING, R125 in
VANE_FREE, none in VANE_FORCED or outside VANE. -/
def clearingCheck (c : CraneIx) (d : Device) : Device :=
  match (d.windOf c).state with
  | .vane .clearing =>
    if d.clearToVane c then modWind c (fun w => { w with state := .vane .vaneFree, vaneTimer := none }) d else d
  | .vane .vaneFree =>
    if d.clearToVane c then d
    else startVaneTimer c (modWind c (fun w => { w with state := .vane .clearing }) d)
  | _ => d

/-! ### The Wind Unit's turn at a report -/

/-- How a report reaches the blocks: it admits a JOINING crane, comes from an ADMITTED one, or returns a LOST
one (R42). -/
inductive Arrival
  | admission
  | ordinary
  | back
  deriving DecidableEq, Repr

/-- Rejoin in VANE, steps 3 to 5 of R130. -/
def rejoinVane (c : CraneIx) (d : Device) : Device :=
  requestVane c (startVaneTimer c (modWind c (fun w => { w with state := .vane .clearing }) d))

/-- Return from LOST in VANE, steps 1 to 3 of R129. -/
def returnVane (c : CraneIx) (d : Device) : Device :=
  let d := requestVane c d
  if (d.windOf c).state == .vane .clearing then startVaneTimer c d else d

/-- The channel at admission (R105, R115): WARMING entry, LIVE at once under MAST, silence timer under LINK. -/
def startChannel (c : CraneIx) (d : Device) : Device :=
  match d.source c with
  | .link => modWind c (fun w => { w.warm with silence := some Config.silenceTicks }) d
  | .mast => modWind c (fun w => { w.warm with channel := .live }) d

/-- The channel at return from LOST (R115): the silence timer starts under LINK. -/
def returnChannel (c : CraneIx) (d : Device) : Device :=
  match d.source c with
  | .link => modWind c (fun w => { w with silence := some Config.silenceTicks }) d
  | .mast => d

/-- The Wind Unit's handling of a report (R101, R114, R124, R125, R129, R130). -/
def windReport (c : CraneIx) (how : Arrival) (r : Report) (d : Device) : Device :=
  let wasVane := (d.windOf c).state.isVane
  let d :=
    match how with
    | .admission => startChannel c d
    | .ordinary => d
    | .back => returnChannel c d
  let d := evaluate c (examineSample c r d)
  let d :=
    match how with
    | .admission => if wasVane then rejoinVane c d else d
    | .ordinary => d
    | .back => if wasVane then returnVane c d else d
  clearingCheck c d

/-! ### Events of the Wind Unit outside reports -/

/-- The wind record of a crane that becomes LOST: silence and vane clear timers stop (R115, R129). -/
def windLost (c : CraneIx) (d : Device) : Device :=
  modWind c (fun w => { w with silence := none, vaneTimer := none }) d

/-- The wind record of a crane that goes ABSENT (R115, R131). -/
def windAbsent (c : CraneIx) (d : Device) : Device :=
  modWind c (fun w => { w.warm with silence := none, vaneTimer := none }) d

/-- The wind record across a warm reset (Tables 6-1, 7-1, 6-3). -/
def WindRec.warmReset (w : WindRec) : WindRec := { w.warm with silence := none, vaneTimer := none }

/-- Silence timer expiry (R104, R105, R114). -/
def silenceExpired (c : CraneIx) (d : Device) : Device :=
  evaluate c (goStale c (modWind c (fun w => { w with silence := none }) d))

/-- The lowest cell in which the crane has a JIB footprint and is not holder at class WEATHERVANE (R126). -/
def Device.lackingVaneCell (d : Device) (c : CraneIx) : Option CellIx :=
  (d.jibCells c).find? fun k =>
    !((d.cell k).standing.holder == some c && (d.cell k).standing.cls == some .weathervane)

/-- Vane clear timer expiry (R126). -/
def vaneClearExpired (c : CraneIx) (d : Device) : Device :=
  let d := modWind c (fun w => { w with vaneTimer := none }) d
  d.raise .vaneBlocked (some c.val) ((d.lackingVaneCell c).map fun k => k.val) none

/-- The mast speed of one crane at a site second (R113, R114). -/
def mastCrane (d : Device) (c : CraneIx) : Device :=
  let d := produceSpeed c (mastSpeedFor d.mast.speed (d.profile c).height) d
  evaluate c (modWind c (fun w => { w with holdRun := 0 }) d)

/-- The crane takes a mast speed at a site second (R113). -/
def Device.onMast (d : Device) (c : CraneIx) : Bool :=
  d.source c == .mast && (d.membership c == .admitted || d.membership c == .lost)

/-- The mast sample of a site second (R113); the order of the cranes is free (entry 3). -/
def mastSample (d : Device) : Device :=
  let count := d.mast.pulses
  let d := { d with mast := ⟨0, count, speedOf count d.plan.site.mastScale⟩ }
  let cranes := allCranes.filter d.onMast
  (d.shuffle cranes).foldl mastCrane (d.picked cranes)

/-- A change of source setting (R100): the channel switches where the effective source changes and the crane is
ADMITTED or LOST, and the ladder is then evaluated (R114). -/
def changeSource (c : CraneIx) (s : SourceSetting) (d : Device) : Device :=
  let before := d.source c
  let d := modWind c (fun w => { w with source := s }) d
  let now := d.source c
  if before == now || !(d.membership c == .admitted || d.membership c == .lost) then d
  else
    match now with
    | .mast => evaluate c (modWind c (fun w => { w with channel := .live, holdRun := 0, silence := none }) d)
    | .link =>
      evaluate c (modWind c (fun w =>
        { w.warm with
          silence := if d.membership c == .admitted then some Config.silenceTicks else w.silence }) d)

/-- Return to service (R128, steps 1 to 5). -/
def returnToService (c : CraneIx) (d : Device) : Device :=
  let level := d.level c
  let d := modWind c (fun w => { (w.settleAt level.toState) with vaneTimer := none }) d
  windHanding c (resumeCells c d)

end Sys2Proof.Machine
end

