-- ==== Sys2Proof/Machine/Records.lean ====
section
/-! DEFINITION. The records as bytes (R170): plan items, status item, crane record, cell claim record, booking
record and fault record; their segments (R169); and the outputs READY, ALERT and ALARM (R173, R178). -/

namespace Sys2Proof.Machine

/-! ### Conventions of R170 -/

/-- An absent field: every bit set in its width of `w` bytes. -/
def absent (w : Nat) : List Byte := List.replicate w 255

/-- A field of `w` bytes that may be absent. -/
def optBytes (w : Nat) : Option Nat → List Byte
  | some n => beBytes w n
  | none => absent w

/-- A flag: 1 set, 0 clear. -/
def flagByte (b : Bool) : Byte := byte (bitOf b 0)

/-- A list, preceded by a one-byte count. -/
def listBytes (f : α → List Byte) (l : List α) : List Byte := byte l.length :: l.flatMap f

/-- A set of sail classes, as a list in ascending code order. -/
def sailSetBytes (x : SailSet) : List Byte :=
  listBytes (fun x => [byte x.code]) ([Sail.l, Sail.m, Sail.s].filter x.has)

/-! ### Plan items -/

/-- A cell of the plan with its possession appended; an undefined cell has footprint count 255, no footprints,
and its other fields absent. -/
def planCellBytes (d : Device) (k : CellIx) : List Byte :=
  (match d.cellRec k with
    | some r => cellBytes k.val r
    | none => byte k.val :: absent 5)
    ++ [byte (d.possessionOf k).code]

/-- A violation: check number, item kind (0 site, 1 crane, 2 cell), index, footprint's crane (entry 12). -/
def violationBytes (v : Violation) : List Byte :=
  byte v.check ::
    match v.item with
    | .site => byte 0 :: absent 2
    | .crane i => [byte 1, byte i, 255]
    | .cell k f => byte 2 :: byte k :: optBytes 1 f

/-- Validation result: 0 for PASS, the violation, or absent (entry 12). -/
def validationBytes : Option ValidationResult → List Byte
  | some .pass => byte 0 :: absent 3
  | some (.failed v) => violationBytes v
  | none => absent 4

/-- The plan status item (R10). -/
def statusBytes (d : Device) : List Byte :=
  byte d.planState.code :: beBytes 4 d.digest.toNat ++ validationBytes d.validation
    ++ optBytes 1 (d.autoloadResult.map AutoloadResult.code)

/-! ### Crane record -/

/-- Remaining ticks of whichever of the join wait and the link timer runs (R40). -/
def CraneRec.remaining (r : CraneRec) : Option Nat :=
  match r.joinWait with
  | some n => some n
  | none => r.link

/-- The Crane Roster's part (R40). -/
def rosterBytes (d : Device) (c : CraneIx) : List Byte :=
  let r := d.crane c
  [byte c.val, byte r.membership.code, byte r.quality.code, byte r.errored, byte r.lastPeriod]
    ++ optBytes 2 r.remaining

/-- An envelope: start, span, rmin, rmax (R56). -/
def envelopeBytes (e : Envelope) : List Byte := beBytes 2 e.start ++ beBytes 2 e.span ++ beBytes 2 e.rmin ++ beBytes 2 e.rmax

/-- A relation entry (R41, R56). -/
def relEntryBytes (e : RelEntry) : List Byte :=
  [byte e.cell.val, byte e.now.code]
    ++ optBytes 1 (e.prev.map Relation.code) ++ optBytes 1 (e.slewToward.map SlewDir.code)
    ++ optBytes 1 (e.trolleyToward.map TrolleyDir.towardCode) ++ optBytes 1 (e.slewExit.map SlewDir.code)
    ++ optBytes 1 (e.trolleyExit.map TrolleyDir.exitCode)

/-- The Reach Unit's part (R56): the byte 0 for "no position". Slew rate and trolley speed are signed, for which R170
gives no convention; they are written in two's complement, as R167 has them in a REPORT (DESIGN CHOICE, entry 20). -/
def reachBytes (d : Device) (c : CraneIx) : List Byte :=
  match d.reachOf c with
  | none => [0]
  | some r =>
    1 :: beBytes 2 r.pos.slew ++ [byteOfInt r.pos.rate] ++ beBytes 2 r.pos.radius ++ [byteOfInt r.pos.speed]
      ++ beBytes 2 r.pos.hook ++ beBytes 2 r.ma ++ beBytes 1 r.mr
      ++ envelopeBytes r.stop ++ envelopeBytes r.warn ++ listBytes relEntryBytes r.entries

/-- A list of cells. -/
def cellListBytes (l : List CellIx) : List Byte := listBytes (fun k => [byte k.val]) l

/-- A permit, with every field of Table 5-1 (R98). -/
def permitRecordBytes (p : Permit) : List Byte :=
  [byte p.seq, byte p.slewPlus.code, byte p.slewMinus.code, byte p.trolleyOut.code, byte p.trolleyIn.code,
    flagByte p.hoistStop, flagByte p.release, byte p.wind.code]
    ++ optBytes 1 (p.wind.sub.map VaneSub.code) ++ sailSetBytes p.classes ++ [byte p.quality.code]
    ++ (match p.booking with
      | some (id, st) => beBytes 2 id ++ [byte st.code]
      | none => [0, 0, 255])
    ++ cellListBytes p.heldList ++ cellListBytes p.grantedList ++ cellListBytes p.vacateList
    ++ cellListBytes p.waitingList

/-- The Permit Composer's part (R98): the byte 0 for "no permit". -/
def permitPartBytes (d : Device) (c : CraneIx) : List Byte :=
  match d.permitOf c with
  | none => [0]
  | some p => 1 :: permitRecordBytes p

/-- The wind channel's part (R116). The number of gusts in the history is written once, as the count of the list
(DESIGN CHOICE, entry 20). -/
def channelBytes (d : Device) (c : CraneIx) : List Byte :=
  let w := d.windOf c
  [byte w.source.code, byte (d.source c).code, byte w.channel.code]
    ++ optBytes 1 w.lastSeq ++ listBytes (beBytes 2) w.recent ++ [byte w.holdRun, byte w.liveRun]
    ++ optBytes 2 w.silence ++ optBytes 2 w.lastGust ++ listBytes (beBytes 2) w.history
    ++ beBytes 3 w.mean ++ beBytes 2 (reportedMean w.mean)
    ++ [flagByte w.flagL, flagByte w.flagM, flagByte w.flagS, flagByte w.flagVG, flagByte w.flagVM]
    ++ beBytes 2 d.mast.lastCount ++ beBytes 2 d.mast.speed

/-- The wind record's part (R132). -/
def windBytes (d : Device) (c : CraneIx) : List Byte :=
  let w := d.windOf c
  byte w.state.code :: optBytes 1 (w.state.sub.map VaneSub.code) ++ sailSetBytes w.classes
    ++ optBytes 2 w.vaneTimer ++ [byte (d.level c).code]

/-- The Booking Table's part (R150). -/
def craneBookingBytes (d : Device) (c : CraneIx) : List Byte :=
  flagByte (d.hold c) :: listBytes (beBytes 2) (d.bookingIds c)

/-- The crane record: the parts of six blocks in the order of R170. -/
def craneBytes (d : Device) (c : CraneIx) : List Byte :=
  rosterBytes d c ++ reachBytes d c ++ permitPartBytes d c ++ channelBytes d c ++ windBytes d c
    ++ craneBookingBytes d c

/-! ### Cell claim record -/

/-- The claim record of a cell (R84). -/
def claimBytes (d : Device) (k : CellIx) : List Byte :=
  let r := d.cell k
  [byte k.val, byte r.standing.code]
    ++ optBytes 1 (r.standing.holder.map fun c => c.val) ++ optBytes 1 (r.standing.cls.map ClaimClass.code)
    ++ optBytes 2 r.standing.takeUp ++ optBytes 2 r.standing.linger
    ++ listBytes (fun w => [byte w.crane.val, byte w.cls.code]) r.queue
    ++ listBytes (fun c => [byte c.val]) r.inhibit ++ listBytes (fun c => [byte c.val]) r.intruders
    ++ [flagByte r.contested, flagByte r.intruded]

/-! ### Booking record -/

/-- The booking record, 39 bytes (Table 10-7). -/
def bookingBytes (b : Booking) : List Byte :=
  beBytes 2 b.id ++ [byte b.crane.val, byte b.state.code]
    ++ optBytes 4 b.windowStart ++ optBytes 4 b.windowEnd ++ beBytes 2 b.length
    ++ beBytes 4 b.reservedStart ++ beBytes 4 b.reservedEnd ++ [byte b.sail.code, byte b.path.length]
    ++ (b.path.map fun k => byte k.val) ++ absent (8 - b.path.length) ++ [byte b.cycles]
    ++ beBytes 2 (b.pred.getD 0) ++ beBytes 2 (b.succ.getD 0) ++ [flagByte b.overrun, byte b.origin.code]

/-- Site time and the reference state, as SET_CLOCK, READ_BOOKING and NEXT_BOOKING carry them (R138, R150). -/
def clockBytes (d : Device) : List Byte :=
  optBytes 4 d.clock.siteTime ++ [byte (if d.clock.following then 0 else 1)]

/-! ### Outputs and the fault record -/

/-- The fault entries in the order of Table 11-2. -/
def Device.faultEntries (d : Device) : List FaultEntry := d.faults.entries.toList

/-- Level of ALERT (R171, R178). -/
def Device.alert (d : Device) : Bool := !d.resetLow && d.faultEntries.any fun e => e.pending && !e.masked

/-- Level of ALARM (R171, R178). -/
def Device.alarm (d : Device) : Bool :=
  !d.resetLow && d.faultEntries.any fun e => e.pending && !e.masked && e.alarm

/-- Level of READY (R171, R173). -/
def Device.ready (d : Device) : Bool :=
  !d.resetLow &&
    match d.sup with
    | .waiting _ => true
    | _ => false

/-- The context record, or all its fields absent where it is empty (R177, entry 15). -/
def contextBytes (x : Option FaultContext) : List Byte :=
  optBytes 1 (x.map fun x => x.kind.ix.val) ++ optBytes 1 (x.bind fun x => x.crane)
    ++ optBytes 1 (x.bind fun x => x.cell) ++ beBytes 2 ((x.bind fun x => x.booking).getD 0)
    ++ optBytes 4 (x.bind fun x => x.siteTime)

/-- Code of an entry's mask in the record: its position in the list of R176, MASKED before UNMASKED (R170). -/
def maskCode (masked : Bool) : Nat := if masked then 0 else 1

/-- Code of an entry's severity: its position in the list of R176, NOTICE before ALARM (R170). -/
def severityCode (alarm : Bool) : Nat := if alarm then 1 else 0

/-- The Fault Unit's record: entries, pointer, context (R179). -/
def faultBytes (d : Device) : List Byte :=
  (d.faultEntries.flatMap fun e => [flagByte e.pending, byte (maskCode e.masked), byte (severityCode e.alarm)])
    ++ optBytes 1 (d.faults.pointer.map fun k => k.ix.val) ++ contextBytes d.faults.context

/-- The levels of ALERT and ALARM, carried as they stand when the reply is placed (R179). -/
def levelBytes (d : Device) : List Byte := [flagByte d.alert, flagByte d.alarm]

/-! ### Segments (R169) -/

/-- Segments a record is cut into. -/
def segmentCount (l : List Byte) : Nat := max 1 ((l.length + (Config.segmentBytes - 1)) / Config.segmentBytes)

/-- The bytes of one segment. -/
def segmentOf (l : List Byte) (n : Nat) : List Byte := (l.drop (n * Config.segmentBytes)).take Config.segmentBytes

end Sys2Proof.Machine
end

