-- ==== Sys2Proof/Machine/PlanStore.lean ====
section
/-! DEFINITION. The Plan Store (chapter 1): validation, canonical image and digest, plan editing, possession, and
autoload. -/

namespace Sys2Proof.Machine

/-! ### Validation (R9) -/

/-- A value lies in a range, both ends included. -/
def within (lo hi n : Nat) : Bool := decide (lo ≤ n) && decide (n ≤ hi)

/-- Every constant of a site record lies in its range (Table 1-1, check 1). -/
def siteInRange (r : Site) : Bool :=
  within 1 3 r.tierEmergency && within 1 3 r.tierBooked && within 1 3 r.tierFree
    && within 60 600 r.gustL && within 60 600 r.gustM && within 60 600 r.gustS
    && within 60 600 r.vaneGust && within 60 600 r.vaneMean
    && within 0 50 r.hysteresis && within 10 120 r.windowT && within 1 r.windowT r.triggerN
    && within 1 4095 r.filterK && within 1 4095 r.mastScale && within 50 500 r.linkTimeout
    && within 1 60 r.qualityPeriod && within 1 255 r.degradeCount && decide (r.clearCount < r.degradeCount)
    && within 30 600 r.vaneClearLimit

/-- The four gust limits ascend strictly (check 2). -/
def gustsAscend (r : Site) : Bool :=
  decide (r.gustL < r.gustM) && decide (r.gustM < r.gustS) && decide (r.gustS < r.vaneGust)

/-- Checks 1 and 2 on a site record. -/
def siteCheck (r : Site) : Option Nat :=
  if !siteInRange r then some 1 else if !gustsAscend r then some 2 else none

/-- Every field of a present crane's profile lies in its range (Table 1-2, check 3). -/
def profileInRange (p : Profile) : Bool :=
  within 100 1000 p.jib && within 5 200 p.ts && within 5 300 p.tw && within 5 100 p.tt
    && within 0 150 p.ma && within 0 50 p.mr && within 1 4095 p.anemometer && within 256 512 p.height
    && within 0 p.jib p.parkRadius && within 0 2000 p.parkHeight && within 0 1 p.autoClaim && within 0 1 p.source

/-- Checks 3 and 4 on a crane profile. -/
def profileCheck (p : Profile) : Option Nat :=
  if !within 0 1 p.present || (isPresent p && !profileInRange p) then some 3
  else if isPresent p && decide (p.tw < p.ts) then some 4
  else none

/-- Check 5 on a cell's fields. -/
def cellFieldsOk (r : CellRec) : Bool :=
  within 0 1 r.kind && within 0 1 r.fixed && !(r.fixed == 1 && r.kind == 0)
    && within 5 120 r.takeUp && within 0 60 r.linger

/-- Check 7 on a footprint. -/
def footprintFieldsOk (f : Footprint) : Bool :=
  within 0 9 f.crane && within 0 1 f.kind && within 0 3599 f.start && within 1 3600 f.span
    && (if f.kind == 0 then f.low == 0 && f.high == 0 else decide (f.low ≤ f.high))

/-- Profile that a footprint's crane field names, where it is a crane index. -/
def Plan.profileOf (p : Plan) (f : Footprint) : Option Profile := (craneIx? f.crane).map fun c => p.cranes[c]

/-- Checks 8 to 10, which relate a footprint to its crane's profile. -/
def footprintRelation (p : Plan) (f : Footprint) : Option Nat :=
  match p.profileOf f with
  | none => some 8
  | some q =>
    if !isPresent q then some 8
    else if f.kind == 1 && decide (q.jib < f.high) then some 9
    else if f.kind == 1 && decide (f.low ≤ q.parkRadius) then some 10
    else none

/-- Checks 11 and 12, which relate a footprint to the earlier ones of its cell. -/
def footprintEarlier (earlier : List Footprint) (f : Footprint) : Option Nat :=
  if earlier.any fun g => g.crane == f.crane then some 11
  else if f.kind == 0 && earlier.any (fun g => g.kind == 0) then some 12
  else none

/-- Checks 7 to 12 on a footprint; at a PUT, 7, 11 and 12 alone. -/
def footprintCheck (p : Plan) (atPut : Bool) (earlier : List Footprint) (f : Footprint) : Option Nat :=
  if !footprintFieldsOk f then some 7
  else
    match if atPut then none else footprintRelation p f with
    | some n => some n
    | none => footprintEarlier earlier f

/-- The first violation among a cell's footprints, with the footprint's crane, in list order. -/
def footprintsCheck (p : Plan) (atPut : Bool) : List Footprint → List Footprint → Option (Nat × Nat)
  | _, [] => none
  | earlier, f :: l =>
    match footprintCheck p atPut earlier f with
    | some n => some (n, f.crane)
    | none => footprintsCheck p atPut (earlier ++ [f]) l

/-- Checks 5 to 12 on a cell record, with the footprint's crane for checks 7 to 12. -/
def cellCheck (p : Plan) (atPut : Bool) (r : CellRec) : Option (Nat × Option Nat) :=
  if !cellFieldsOk r then some (5, none)
  else if !within 1 4 r.footprints.length then some (6, none)
  else (footprintsCheck p atPut [] r.footprints).map fun x => (x.1, some x.2)

/-- Violation of the profile of one crane. -/
def craneViolation (p : Plan) (c : CraneIx) : Option Violation :=
  (profileCheck p.cranes[c]).map fun n => ⟨n, .crane c.val⟩

/-- Violation in one cell, where it is defined. -/
def cellViolation (p : Plan) (k : CellIx) : Option Violation :=
  match p.cells[k] with
  | some r => (cellCheck p false r).map fun x => ⟨x.1, .cell k.val x.2⟩
  | none => none

/-- Full validation: the first violation in the order of R9, or none. -/
def validate (p : Plan) : Option Violation :=
  match siteCheck p.site with
  | some n => some ⟨n, .site⟩
  | none =>
    match allCranes.findSome? (craneViolation p) with
    | some v => some v
    | none => allCells.findSome? (cellViolation p)

/-! ### Canonical image and digest -/

/-- The defined cells, ascending, each with its index. -/
def Plan.defined (p : Plan) : List (CellIx × CellRec) := allCells.filterMap fun k => (p.cells[k]).map fun r => (k, r)

/-- The canonical image of a plan (R11). -/
def canonicalImage (p : Plan) : List Byte :=
  siteBytes p.site ++ (allCranes.flatMap fun c => profileBytes p.cranes[c])
    ++ byte p.defined.length :: p.defined.flatMap fun x => cellBytes x.1.val x.2

/-- The digest of a plan (R12). -/
def planDigest (p : Plan) : BitVec 32 := crc32 (canonicalImage p)

/-- Every possession CLOSED (R6). -/
def allClosed : Vector Possession 48 := Vector.replicate 48 .closed

/-! ### Editing -/

/-- A command refused INVALID with the number of the violated check (R14, R15). -/
def Device.invalidCheck (d : Device) (n : Nat) : Served := ⟨d, .invalid, [byte n]⟩

/-- PLAN_BEGIN (R13). -/
def planBegin (d : Device) : Served :=
  if d.planState == .editing then d.refuse .wrongState
  else if d.quiet then Device.done { d with planState := .editing }
  else d.refuse .busy

/-- PLAN_PUT_SITE (R14). -/
def planPutSite (r : Site) (d : Device) : Served :=
  if d.planState != .editing then d.refuse .wrongState
  else
    match siteCheck r with
    | some n => d.invalidCheck n
    | none => Device.done { d with plan := { d.plan with site := r } }

/-- PLAN_PUT_CRANE (R14). -/
def planPutCrane (index : Nat) (p : Profile) (d : Device) : Served :=
  if d.planState != .editing then d.refuse .wrongState
  else
    match craneIx? index with
    | none => d.invalidCheck 3
    | some c =>
      match profileCheck p with
      | some n => d.invalidCheck n
      | none => Device.done { d with plan := { d.plan with cranes := d.plan.cranes.set c p } }

/-- The record a PLAN_PUT_CELL gives, with omitted times filled in: 20 s and 3 s (R15, R174). -/
def fillOmitted (r : CellRec) : CellRec :=
  { r with
    takeUp := if r.takeUp == 255 then 20 else r.takeUp
    linger := if r.linger == 255 then 3 else r.linger }

/-- The cell is defined with fixed = yes (R15). -/
def Device.fixedDefined (d : Device) (k : CellIx) : Bool := (d.cellRec k).any fun r => r.fixed == 1

/-- Replace a cell of the plan and set its possession CLOSED (R6, R15). -/
def Device.putCell (d : Device) (k : CellIx) (r : Option CellRec) : Device :=
  { d with
    plan := { d.plan with cells := d.plan.cells.set k r }
    possession := d.possession.set k .closed }

/-- PLAN_PUT_CELL (R15). -/
def planPutCell (index : Nat) (r : CellRec) (d : Device) : Served :=
  if d.planState != .editing then d.refuse .wrongState
  else
    match cellIx? index with
    | none => d.refuse .invalid
    | some k =>
      if d.fixedDefined k then d.refuse .fixedCell
      else
        match cellCheck d.plan true (fillOmitted r) with
        | some x => d.invalidCheck x.1
        | none => (d.putCell k (some (fillOmitted r))).done

/-- PLAN_DROP_CELL (R15); an undefined cell is answered OK without a change. -/
def planDropCell (index : Nat) (d : Device) : Served :=
  if d.planState != .editing then d.refuse .wrongState
  else
    match cellIx? index with
    | none => d.refuse .invalid
    | some k =>
      if d.fixedDefined k then d.refuse .fixedCell
      else if (d.cellRec k).isNone then d.done
      else (d.putCell k none).done

/-- PLAN_END (R16). -/
def planEnd (d : Device) : Served :=
  if d.planState != .editing then d.refuse .wrongState
  else
    match validate d.plan with
    | some v => ⟨{ d with validation := some (.failed v) }, .invalid, violationBytes v⟩
    | none =>
      let digest := planDigest d.plan
      ⟨{ d with
          validation := some .pass
          digest := digest
          possession := allClosed
          planState := .active }, .ok, beBytes 4 digest.toNat⟩

/-- PLAN_ERASE (R17). -/
def planErase (d : Device) : Served :=
  if d.quiet then
    Device.done { d with
      plan := Plan.defaults
      possession := allClosed
      digest := 0#32
      planState := .empty }
  else d.refuse .busy

/-- POSSESSION (R6, R174). -/
def setPossession (index value : Nat) (d : Device) : Served :=
  if 1 < value then d.refuse .invalid
  else
    match cellIx? index with
    | none => d.refuse .invalid
    | some k =>
      if d.planState != .active || !d.protectedCell k then d.refuse .wrongState
      else Device.done { d with possession := d.possession.set k (if value == 1 then .opened else .closed) }

/-- The bytes of a plan item: 0 site record, 1 crane profile, 2 cell, 3 status item; none where the kind or the
index is out of range (R21, R170). -/
def planItem (item index : Nat) (d : Device) : Option (List Byte) :=
  match item with
  | 0 => some (siteBytes d.plan.site)
  | 1 => (craneIx? index).map fun c => profileBytes (d.profile c)
  | 2 => (cellIx? index).map (planCellBytes d)
  | 3 => some (statusBytes d)
  | _ => none

/-- READ_PLAN_ITEM (R21, R174). -/
def readPlanItem (item index : Nat) (d : Device) : Served :=
  match planItem item index d with
  | some l => ⟨d, .ok, l⟩
  | none => d.refuse .invalid

/-! ### Autoload (R18, R19) -/

/-- Crane offered to the context record by a violation (R19, entry 11). -/
def PlanItem.craneOffer : PlanItem → Option Nat
  | .crane i => some i
  | _ => none

/-- Cell offered to the context record by a violation (R19, entry 11). -/
def PlanItem.cellOffer : PlanItem → Option Nat
  | .cell k _ => some k
  | _ => none

/-- The load ends with a failure cause (R19): the plan stays as it was, at its cold defaults. -/
def failLoad (cause : AutoloadResult) (item : Option PlanItem) (d : Device) : Device :=
  Device.raise
    { d with
      load := none
      digest := 0#32
      autoloadResult := some cause
      planState := .empty }
    .planLoadFailed (item.bind PlanItem.craneOffer) (item.bind PlanItem.cellOffer) none

/-- The checks after the trailer has been read (R19). -/
def finishLoad (staging : Plan) (trailer : BitVec 32) (d : Device) : Device :=
  if planDigest staging != trailer then failLoad .digest none d
  else
    match validate staging with
    | some v => failLoad .validation (some v.item) { d with validation := some (.failed v) }
    | none =>
      { d with
        load := none
        plan := staging
        digest := trailer
        possession := allClosed
        validation := some .pass
        autoloadResult := some .pass
        planState := .active }

/-- What the bytes of the cell group come to, as far as they have arrived. -/
inductive CellGroup
  /-- The bytes end before the group does. -/
  | short
  /-- A count or an index breaks the structure (R18). -/
  | bad
  /-- The cells read, and the number of bytes they take. -/
  | cells (l : List (CellIx × CellRec)) (size : Nat)
  deriving DecidableEq, Repr

/-- One more cell read in front of a cell group. -/
def CellGroup.cons (k : CellIx) (r : CellRec) (n : Nat) : CellGroup → CellGroup
  | .cells l m => .cells ((k, r) :: l) (n + m)
  | g => g

/-- `n` cells read one after the other, each index greater than the one before (R18). -/
def readCells : Nat → Option Nat → List Byte → CellGroup
  | 0, _, _ => .cells [] 0
  | n + 1, prev, l =>
    match l with
    | [] => .short
    | b :: _ =>
      match cellIx? b.toNat with
      | none => .bad
      | some k =>
        if prev.any (k.val ≤ ·) then .bad
        else if l.length < 6 then .short
        else
          let count := field 5 1 l
          let size := 6 + 10 * count
          if 4 < count then .bad
          else if l.length < size then .short
          else (readCells n (some k.val) (l.drop size)).cons k (readCellRec (l.take size)) size

/-- The cell group: a count byte and that many cells (R18). -/
def readCellGroup (l : List Byte) : CellGroup :=
  match l with
  | [] => .short
  | b :: rest =>
    if 48 < b.toNat then .bad
    else
      match readCells b.toNat none rest with
      | .cells x n => .cells x (n + 1)
      | g => g

/-- Ten profiles read one after the other (R11). -/
def readProfiles (l : List Byte) : Vector Profile 10 :=
  Vector.ofFn fun c => readProfile ((l.drop (19 * c.val)).take 19)

/-- Cells placed in a plan. -/
def placeCells (l : List (CellIx × CellRec)) (p : Plan) : Plan :=
  { p with cells := l.foldl (fun v x => v.set x.1 (some x.2)) p.cells }

/-- The group after one that has been read, by the selector: 1 SITE; 2 SITE and CRANES; 3 all (Table 1-6). -/
def nextGroup (selector : Nat) : LoadGroup → LoadGroup
  | .header => .site
  | .site => if 2 ≤ selector then .cranes else .trailer
  | .cranes => if selector == 3 then .cells else .trailer
  | .cells => .trailer
  | .trailer => .trailer

/-- The load moves on past a group of `n` bytes with the staging copy given (R18). -/
def Load.advance (l : Load) (n : Nat) (staging : Plan) : Load :=
  { l with
    group := nextGroup (l.selector.getD 0) l.group
    address := l.address + n
    staging := staging }

/-- The load goes on with a new load state. -/
def Device.loading (d : Device) (l : Load) : Device := { d with load := some l }

/-- The header has been read: the signature is checked before the selector is read (R18). -/
def loadHeader (l : Load) (bytes : List Byte) (d : Device) : Device :=
  if bytes.length < 2 then d
  else if field 0 2 bytes != 0xC3A9 then failLoad .signature none d
  else if bytes.length < 3 then d
  else if !within 1 3 (field 2 1 bytes) then failLoad .selector none d
  else d.loading ({ l with selector := some (field 2 1 bytes) }.advance 3 l.staging)

/-- A read request on the plan memory (R18): the target address, the memory address sent as two bytes, and the number
of bytes read, `none` for the cell group, whose length follows from the counts read. -/
structure PlanRead where
  target : Nat
  address : List Byte
  bytes : Option Nat
  deriving DecidableEq, Repr

/-- Bytes of a group of the image (Table 1-6). -/
def LoadGroup.bytes : LoadGroup → Option Nat
  | .header => some 3
  | .site => some 27
  | .cranes => some 190
  | .cells => none
  | .trailer => some 4

/-- The read request that a load in progress makes of the plan memory, for the group it waits for (R18). -/
def Device.planRead (d : Device) : Option PlanRead :=
  d.load.map fun l => ⟨Config.planMemoryAddress, beBytes 2 l.address, l.group.bytes⟩

/-- The site group has been read. -/
def loadSite (l : Load) (bytes : List Byte) (d : Device) : Device :=
  if bytes.length < 27 then d
  else d.loading (l.advance 27 { l.staging with site := readSite (bytes.take 27) })

/-- The crane group has been read. -/
def loadCranes (l : Load) (bytes : List Byte) (d : Device) : Device :=
  if bytes.length < 190 then d
  else d.loading (l.advance 190 { l.staging with cranes := readProfiles bytes })

/-- The cell group has been read, or has broken the structure (R18). -/
def loadCells (l : Load) (bytes : List Byte) (d : Device) : Device :=
  match readCellGroup bytes with
  | .short => d
  | .bad => failLoad .structureFailure none d
  | .cells x n => d.loading (l.advance n (placeCells x l.staging))

/-- The trailer has been read. -/
def loadTrailer (l : Load) (bytes : List Byte) (d : Device) : Device :=
  if bytes.length < 4 then d else finishLoad l.staging (BitVec.ofNat 32 (field 0 4 bytes)) d

/-- A group read of the plan memory completes (R18); bytes short of the group complete no read, and bytes beyond
it are not taken (entry 9). Outside a load nothing is read. -/
def loadRead (data : Option (List Byte)) (d : Device) : Device :=
  match d.load with
  | none => d
  | some l =>
    match data with
    | none => failLoad .read none d
    | some bytes =>
      match l.group with
      | .header => loadHeader l bytes d
      | .site => loadSite l bytes d
      | .cranes => loadCranes l bytes d
      | .cells => loadCells l bytes d
      | .trailer => loadTrailer l bytes d

/-- The 300 ticks of a load have passed (R18). -/
def loadTimeout (d : Device) : Device :=
  match d.load with
  | none => d
  | some _ => failLoad .read none d

end Sys2Proof.Machine
end

