-- ==== Sys2Proof/Machine/Roster.lean ====
section
/-! DEFINITION. The Crane Roster (chapter 2): the restart streak, joining, admission, loss and return, leaving,
errored frames and link quality; and a report's way through the blocks. -/

namespace Sys2Proof.Machine

/-! ### Membership events -/

/-- A crane goes ABSENT by any path (R36): its roster, reach and permit records are emptied, the Cell Arbiter and
the Wind Unit are told. -/
def goAbsent (c : CraneIx) (d : Device) : Device :=
  windAbsent c (forgetCrane c (((d.setCrane c CraneRec.reset).setReach c none).setPermit c none))

/-- A crane becomes LOST (R30, R31). -/
def loseCrane (c : CraneIx) (d : Device) : Device :=
  let d := d.setCrane c { d.crane c with membership := .lost, link := none, streak := false }
  let d := d.raise .linkLost (some c.val) none none
  windLost c (loseCells c d)

/-- One errored frame is counted for a crane that is not ABSENT, up to 255 (R37). -/
def countErrored (c : CraneIx) (d : Device) : Device :=
  let r := d.crane c
  if r.membership == .absent then d else d.setCrane c { r with errored := min (r.errored + 1) 255 }

/-- The restart streak of a good frame (R29): the second flagged frame in a row from an ADMITTED crane makes it
LOST and is discarded; any other frame is handled by `serve`. -/
def withStreak (c : CraneIx) (restart : Bool) (serve : Device → Device) (d : Device) : Device :=
  let r := d.crane c
  if r.membership == .admitted then
    if restart && r.streak then loseCrane c d else serve (d.setCrane c { r with streak := restart })
  else serve d

/-! ### Joining (R24, R25, R26) -/

/-- Record of a crane whose HELLO is accepted while ABSENT (R24). -/
def joinRecord (d : Device) (r : CraneRec) : CraneRec :=
  { r with
    membership := .joining
    joinWait := some Config.joinWaitTicks
    qualityTimer := some (Config.ticksPerSecond * d.plan.site.qualityPeriod)
    errored := 0 }

/-- JOIN_REFUSED raised for a crane (R24, R25). -/
def refuseJoin (c : CraneIx) (d : Device) : Device := d.raise .joinRefused (some c.val) none none

/-- A HELLO (R24, R25). -/
def hello (c : CraneIx) (digest : BitVec 32) (d : Device) : Device :=
  let r := d.crane c
  match r.membership with
  | .absent =>
    if d.planState != .active then d.reply c 0x01 .noPlan
    else if !isPresent (d.profile c) then (refuseJoin c d).reply c 0x01 .unknownCrane
    else if digest != d.digest then (refuseJoin c d).reply c 0x01 .planMismatch
    else (d.setCrane c (joinRecord d r)).reply c 0x01 .ok
  | .joining =>
    if digest == d.digest then
      (d.setCrane c { r with joinWait := some Config.joinWaitTicks }).reply c 0x01 .ok
    else (goAbsent c (refuseJoin c d)).reply c 0x01 .planMismatch
  | _ => if digest == d.digest then d.reply c 0x01 .ok else (refuseJoin c d).reply c 0x01 .planMismatch

/-- Join wait expiry (R26). -/
def joinWaitExpired (c : CraneIx) (d : Device) : Device :=
  if (d.crane c).joinWait.isSome then goAbsent c d else d

/-- Link timer expiry (R28). -/
def linkExpired (c : CraneIx) (d : Device) : Device := if (d.crane c).link.isSome then loseCrane c d else d

/-! ### Reports (R23, R27, R33) -/

/-- A valid REPORT's slew angle lies in 0..3599 (R23). -/
def reportValid (r : Report) : Bool := decide (r.slew < 3600)

/-- A report's way through the blocks: Reach Unit, Cell Arbiter with the reconciliation of a returning crane,
auto-claims, Wind Unit, Permit Composer (R23, R27, R33, R42, R77, R86). -/
def passReport (c : CraneIx) (how : Arrival) (r : Report) (d : Device) : Device :=
  let d := takePosition c r d
  let d := if how == .back then reconcileCells c d else d
  let d := reportCells c (how == .admission) d
  let d := windReport c how r (autoClaims c d)
  sendPermit c r.seq d

/-- The link timer at the link timeout (R23, R27, R33). -/
def Device.linkTimeout (d : Device) : Option Nat := some d.plan.site.linkTimeout

/-- A valid REPORT (R23): refused while ABSENT, admission, freshness, or return. -/
def takeReport (c : CraneIx) (r : Report) (d : Device) : Device :=
  let x := d.crane c
  match x.membership with
  | .absent => d.reply c 0x02 .notAdmitted
  | .joining =>
    passReport c .admission r
      (d.setCrane c { x with membership := .admitted, joinWait := none, streak := false, link := d.linkTimeout })
  | .admitted => passReport c .ordinary r (d.setCrane c { x with link := d.linkTimeout })
  | .lost => passReport c .back r (d.setCrane c { x with membership := .admitted, link := d.linkTimeout })

/-! ### Leaving (R34, R35) -/

/-- The answer to a LEAVE (R34). -/
def leaveCode (d : Device) (c : CraneIx) : ReplyCode :=
  match d.membership c with
  | .absent => .notAdmitted
  | .joining => .ok
  | .admitted => if d.isHolder c || d.liftRunning c then .busy else .ok
  | .lost => .wrongState

/-- A LEAVE (R34): where it is taken the crane's queue entries go and it becomes ABSENT. -/
def leave (c : CraneIx) (d : Device) : Device :=
  match leaveCode d c with
  | .ok => (goAbsent c (withdrawEntries c d)).reply c 0x0B .ok
  | code => d.reply c 0x0B code

/-- DETACH (R35). -/
def detach (index : Nat) (d : Device) : Served :=
  match craneIx? index with
  | none => d.refuse .invalid
  | some c =>
    if d.membership c == .absent then d.refuse .wrongState
    else (goAbsent c (retireAllOf c (releaseAllHeld c (withdrawEntries c d)))).done

/-! ### Link quality (R38) -/

/-- Quality after a period that ends with an errored count (R38). -/
def judgeQuality (s : Site) (errored : Nat) (q : Quality) : Quality :=
  if s.degradeCount ≤ errored then .degraded else if errored ≤ s.clearCount then .good else q

/-- Quality period expiry (R38). -/
def qualityExpired (c : CraneIx) (d : Device) : Device :=
  let r := d.crane c
  if r.qualityTimer.isNone then d
  else
    let q := judgeQuality d.plan.site r.errored r.quality
    let d' := d.setCrane c
      { r with
        quality := q
        lastPeriod := r.errored
        errored := 0
        qualityTimer := some (Config.ticksPerSecond * d.plan.site.qualityPeriod) }
    if q == .degraded && r.quality == .good then d'.raise .linkDegraded (some c.val) none none else d'

end Sys2Proof.Machine
end

