-- ==== Sys2Proof/Machine/Link.lean ====
section
/-! DEFINITION. The Link Ports (chapter 10) and the serving of crane frames: claims, bookings, lifts, RESUME and
QUERY with their replies; the receiver's hunt and slip; the transmit queue. -/

namespace Sys2Proof.Machine

/-! ### Claims (R59, R70) -/

/-- A request was taken without refusal (R59). -/
def ReplyCode.taken : ReplyCode → Bool
  | .ok => true
  | .queued => true
  | .already => true
  | _ => false

/-- A CLAIM frame (R59 to R62): EMERGENCY_CLAIM is raised where an EMERGENCY request is not refused. -/
def claimFrame (c : CraneIx) (cell cls : Nat) (d : Device) : Device :=
  if d.membership c != .admitted then d.reply c 0x03 .notAdmitted
  else
    match cellIx? cell, claimClass? cls with
    | some k, some .free => (request c k .free d).reply c 0x03 (requestCode d c k .free)
    | some k, some .emergency =>
      let code := requestCode d c k .emergency
      let d := request c k .emergency d
      let d := if code.taken then d.raise .emergencyClaim (some c.val) (some k.val) none else d
      d.reply c 0x03 code
    | _, _ => d.reply c 0x03 .invalid

/-- A RELEASE frame (R70). -/
def releaseFrame (c : CraneIx) (cell : Nat) (d : Device) : Device :=
  let code := releaseCode d c cell
  match cellIx? cell with
  | some k => (if code == .ok then giveUp c k d else d).reply c 0x04 code
  | none => d.reply c 0x04 code

/-! ### Bookings (R141, R144, R147) -/

/-- A REPLY that carries the record of a booking as it now stands, in segment 0 of 1 (R169). -/
def Device.replyBooking (d : Device) (c : CraneIx) (kind id : Nat) : Device :=
  match d.booking id with
  | some b => d.sendFrame c (.reply ⟨kind, .ok, .none, some ⟨6, id, 0, 1, bookingBytes b⟩⟩)
  | none => d.reply c kind .ok

/-- A crane BOOK frame whose form byte is 0 or 1 (R141, R144). -/
def bookFrame (c : CraneIx) (b : BookReq) (d : Device) : Device :=
  match sail? b.sail with
  | none => d.reply c 0x05 .invalid
  | some sail =>
    if !within 1 255 b.cycles then d.reply c 0x05 .invalid
    else if d.clock.siteTime.isNone then d.reply c 0x05 .noClock
    else if d.membership c != .admitted then d.reply c 0x05 .notAdmitted
    else
      match judgeBook d c b with
      | .error code => d.reply c 0x05 code
      | .ok (path, p) => (insertRequest c b sail .crane path p d).replyBooking c 0x05 d.freshId

/-- The refusal of a CANCEL frame (Table 8-4); `none` where it is taken. -/
def cancelRefusal (d : Device) (c : CraneIx) (id : Nat) : Option ReplyCode :=
  if d.membership c != .admitted then some .notAdmitted
  else
    match d.booking id with
    | none => some .unknownBooking
    | some b =>
      if b.crane != c then some .unknownBooking
      else if b.origin == .supervisor || b.state.running then some .wrongState
      else none

/-- A CANCEL frame (R147). -/
def cancelFrame (c : CraneIx) (id : Nat) (d : Device) : Device :=
  match cancelRefusal d c id with
  | some code => d.reply c 0x06 code
  | none => (retire id .cancelled d).reply c 0x06 .ok

/-! ### Lifts (R153, R156, R158) -/

/-- A LIFT_START frame (R153). -/
def liftStartFrame (c : CraneIx) (id : Nat) (d : Device) : Device :=
  match liftStartRefusal d c id with
  | some code => d.reply c 0x07 code
  | none => (startLift c id d).replyBooking c 0x07 id

/-- The reply to a lift request that is taken: the booking's record, or the reason of its retirement (R162). -/
def Device.replyLift (d : Device) (c : CraneIx) (kind id : Nat) (reason : RetireReason) : Device :=
  match reason with
  | .none => d.replyBooking c kind id
  | _ => d.replyRetired c kind reason

/-- A LIFT_END frame (R156). -/
def liftEndFrame (c : CraneIx) (id : Nat) (d : Device) : Device :=
  match liftStopRefusal d c id with
  | some code => d.reply c 0x08 code
  | none => (endLift c id d).1.replyLift c 0x08 id (endLift c id d).2

/-- A LIFT_ABORT frame (R158). -/
def liftAbortFrame (c : CraneIx) (id : Nat) (d : Device) : Device :=
  match liftStopRefusal d c id with
  | some code => d.reply c 0x09 code
  | none => (abortLift c id d).1.replyLift c 0x09 id (abortLift c id d).2

/-! ### RESUME (R128) -/

/-- A RESUME frame (R128). -/
def resumeFrame (c : CraneIx) (d : Device) : Device :=
  if d.membership c != .admitted then d.reply c 0x0A .notAdmitted
  else if !(d.windOf c).state.isVane || d.level c == .vane then d.reply c 0x0A .wind
  else (returnToService c d).reply c 0x0A .ok

/-! ### QUERY (R21, R40, R84, R150, R167) -/

/-- The record a QUERY names, or the code it is refused with. -/
def queryRecord (item index : Nat) (d : Device) : Except ReplyCode (List Byte) :=
  if item ≤ 3 then
    if d.planState == .loading then .error .busy
    else
      match planItem item index d with
      | some l => .ok l
      | none => .error .invalid
  else if item == 4 then
    match craneIx? index with
    | some c => .ok (craneBytes d c)
    | none => .error .invalid
  else if item == 5 then
    match cellIx? index with
    | some k => .ok (claimBytes d k)
    | none => .error .invalid
  else if item == 6 then
    if !within 1 65535 index then .error .invalid
    else
      match d.booking index with
      | some b => .ok (bookingBytes b)
      | none => .error .unknownBooking
  else .error .invalid

/-- Index that a REPLY gives for a record: the index of the QUERY, and a free value for the items whose index is
ignored (R167, entry 29). -/
def recordIndex (item index : Nat) : Nat :=
  if item == 0 || item == 3 then (Config.ignoredIndex index).toNat else index

/-- A QUERY frame (R167, R169): the segment named, or INVALID where its number is not less than the count. -/
def queryFrame (c : CraneIx) (item index segment : Nat) (d : Device) : Device :=
  match queryRecord item index d with
  | .error code => d.reply c 0x0C code
  | .ok l =>
    if segment < segmentCount l then
      d.sendFrame c
        (.reply ⟨0x0C, .ok, .none,
          some ⟨item, recordIndex item index, segment, segmentCount l, segmentOf l segment⟩⟩)
    else d.reply c 0x0C .invalid

/-! ### Delivery (R23, R29, R165) -/

/-- A REPORT frame: a malformed one is counted errored and passes the restart streak by (R23). -/
def reportFrame (c : CraneIx) (restart : Bool) (r : Report) (d : Device) : Device :=
  if reportValid r then withStreak c restart (takeReport c r) d else countErrored c d

/-- A BOOK frame: a form byte other than 0 and 1 makes it malformed (R165). -/
def bookDelivered (c : CraneIx) (restart : Bool) (b : BookReq) (d : Device) : Device :=
  if b.form ≤ 1 then withStreak c restart (bookFrame c b) d else countErrored c d

/-- A good frame is delivered to the Crane Roster and handled by its kind (R23). -/
def deliver (c : CraneIx) (restart : Bool) (f : CraneFrame) (d : Device) : Device :=
  match f with
  | .hello digest => withStreak c restart (hello c digest) d
  | .report r => reportFrame c restart r d
  | .claim cell cls => withStreak c restart (claimFrame c cell cls) d
  | .release cell => withStreak c restart (releaseFrame c cell) d
  | .book b => bookDelivered c restart b d
  | .cancel id => withStreak c restart (cancelFrame c id) d
  | .liftStart id => withStreak c restart (liftStartFrame c id) d
  | .liftEnd id => withStreak c restart (liftEndFrame c id) d
  | .liftAbort id => withStreak c restart (liftAbortFrame c id) d
  | .resume => withStreak c restart (resumeFrame c) d
  | .leave => withStreak c restart (leave c) d
  | .query item index segment => withStreak c restart (queryFrame c item index segment) d

/-! ### Receiving (R164) -/

/-- The receiver takes one byte; the bytes of a finished candidate where it finishes one. -/
def Port.take (p : Port) (b : Byte) : Port × Option (List Byte) :=
  match p.candidate with
  | none => ({ p with candidate := if b = 0xA6 then some [] else none }, none)
  | some l =>
    if candidateDone (l ++ [b]) then ({ p with candidate := none }, some (l ++ [b]))
    else ({ p with candidate := some (l ++ [b]) }, none)

/-- The next byte the receiver takes: from the rescan buffer first, then from the line store. -/
def Port.next (p : Port) : Option (Byte × Port) :=
  match p.rescan, p.line with
  | b :: l, _ => some (b, { p with rescan := l })
  | [], b :: l => some (b, { p with line := l })
  | [], [] => none

/-- The receiver takes bytes until a candidate finishes or none are left, `n` bytes at most. -/
def Port.hunt : Nat → Port → Port × Option (List Byte)
  | 0, p => (p, none)
  | n + 1, p =>
    match p.next with
    | none => (p, none)
    | some (b, q) =>
      match q.take b with
      | (q, none) => hunt n q
      | (q, some l) => (q, some l)

/-- Bytes that wait for the receiver. -/
def Port.waiting (p : Port) : Nat := p.rescan.length + p.line.length

/-- The slip (R164): the bytes after a failed start byte go to the front of the rescan buffer; HUNT. -/
def Port.slip (p : Port) (bytes : List Byte) : Port :=
  { p with candidate := none, rescan := (bytes ++ p.rescan).take Config.rescanCapacity }

/-- A candidate fails: one errored frame, and the slip (R164). -/
def failCandidate (c : CraneIx) (bytes : List Byte) (d : Device) : Device :=
  countErrored c (d.setPort c ((d.port c).slip bytes))

/-- The outcome of a finished candidate (R164, R165). -/
def finishCandidate (c : CraneIx) (bytes : List Byte) (d : Device) : Device :=
  if candidateGood bytes then
    match judgeCandidate c bytes with
    | .accepted restart f => deliver c restart f d
    | .rejected _ => countErrored c d
  else failCandidate c bytes d

/-- A port takes its waiting bytes up to the next outcome, which is handled whole (entry 8). -/
def servePort (c : CraneIx) (d : Device) : Device :=
  match (d.port c).hunt (d.port c).waiting with
  | (p, none) => d.setPort c p
  | (p, some bytes) => finishCandidate c bytes (d.setPort c p)

/-- A byte arrives from the line: held in the line store, or discarded where it is full (R164). -/
def Port.arrive (p : Port) (b : Byte) : Port :=
  if p.line.length < Config.lineCapacity then { p with line := p.line ++ [b] } else p

/-- A byte arrives on a crane link (R164). -/
def byteReceived (c : CraneIx) (b : Byte) (d : Device) : Device :=
  servePort c (d.setPort c ((d.port c).arrive b))

/-! ### Transmitting (R166) -/

/-- A frame has been sent: the next one waiting is sent (R166). -/
def Port.sent (p : Port) : Port :=
  match p.sending, p.queue with
  | none, _ => p
  | some _, [] => { p with sending := none }
  | some _, f :: l => { p with sending := some f, queue := l }

/-- A port finishes sending a frame (R166). -/
def transmitDone (c : CraneIx) (d : Device) : Device := d.setPort c (d.port c).sent

/-- The bytes of a frame of the part, start byte first, restart flag clear (R163). -/
def TxFrame.bytes (c : CraneIx) (f : TxFrame) : List Byte := 0xA6 :: encodeFrameBody c.val f.kindCode f.payload

end Sys2Proof.Machine
end

