-- ==== Sys2Proof/Machine/ExecLink.lean ====
section
/-! DEFINITION. The meanings of the crane link rows: bytes, frames and the transmitter. -/

namespace Sys2Proof.Machine

/-- FRAME_CHECK_FAILED (R164): a candidate fails its check and slips. -/
def execFrameCheckFailed (c : CraneIx) (bytes : List Byte) (s : State) : Host.Outcome State Fault Refusal :=
  s.act (failCandidate c bytes)

/-- FRAME_REJECTED (R165): a good frame is counted errored. -/
def execFrameRejected (c : CraneIx) (_address _kind : Byte) (_payload : List Byte) (s : State) : Host.Outcome State Fault Refusal :=
  s.act (countErrored c)

/-- HELLO (R24): crane frame HELLO. -/
def execHello (c : CraneIx) (restart : Bool) (digest : BitVec 32) (s : State) : Host.Outcome State Fault Refusal :=
  s.act (withStreak c restart (hello c digest))

/-- REPORT (R23): crane frame REPORT. -/
def execReport (c : CraneIx) (restart : Bool) (r : Report) (s : State) : Host.Outcome State Fault Refusal :=
  s.act (reportFrame c restart r)

/-- CLAIM (R59): crane frame CLAIM. -/
def execClaim (c : CraneIx) (restart : Bool) (cell : Nat) (cls : Nat) (s : State) : Host.Outcome State Fault Refusal :=
  s.act (withStreak c restart (claimFrame c cell cls))

/-- RELEASE (R70): crane frame RELEASE. -/
def execRelease (c : CraneIx) (restart : Bool) (cell : Nat) (s : State) : Host.Outcome State Fault Refusal :=
  s.act (withStreak c restart (releaseFrame c cell))

/-- BOOK (R141): crane frame BOOK. -/
def execBook (c : CraneIx) (restart : Bool) (b : BookReq) (s : State) : Host.Outcome State Fault Refusal :=
  s.act (bookDelivered c restart b)

/-- CANCEL (R147): crane frame CANCEL. -/
def execCancel (c : CraneIx) (restart : Bool) (id : Nat) (s : State) : Host.Outcome State Fault Refusal :=
  s.act (withStreak c restart (cancelFrame c id))

/-- LIFT_START (R153): crane frame LIFT_START. -/
def execLiftStart (c : CraneIx) (restart : Bool) (id : Nat) (s : State) : Host.Outcome State Fault Refusal :=
  s.act (withStreak c restart (liftStartFrame c id))

/-- LIFT_END (R156): crane frame LIFT_END. -/
def execLiftEnd (c : CraneIx) (restart : Bool) (id : Nat) (s : State) : Host.Outcome State Fault Refusal :=
  s.act (withStreak c restart (liftEndFrame c id))

/-- LIFT_ABORT (R158): crane frame LIFT_ABORT. -/
def execLiftAbort (c : CraneIx) (restart : Bool) (id : Nat) (s : State) : Host.Outcome State Fault Refusal :=
  s.act (withStreak c restart (liftAbortFrame c id))

/-- RESUME (R128): crane frame RESUME. -/
def execResume (c : CraneIx) (restart : Bool) (s : State) : Host.Outcome State Fault Refusal :=
  s.act (withStreak c restart (resumeFrame c))

/-- LEAVE (R34): crane frame LEAVE. -/
def execLeave (c : CraneIx) (restart : Bool) (s : State) : Host.Outcome State Fault Refusal :=
  s.act (withStreak c restart (leave c))

/-- QUERY (R167): crane frame QUERY. -/
def execQuery (c : CraneIx) (restart : Bool) (item : Nat) (index : Nat) (segment : Nat) (s : State) : Host.Outcome State Fault Refusal :=
  s.act (withStreak c restart (queryFrame c item index segment))

/-- TRANSMIT_COMPLETE (R166): a frame has been sent. -/
def execTransmitComplete (c : CraneIx) (s : State) : Host.Outcome State Fault Refusal :=
  s.act (transmitDone c)

/-- LINK_BYTE_RECEIVED (R164): a byte arrives on a crane link. -/
def execLinkByteReceived (c : CraneIx) (b : Byte) (s : State) : Host.Outcome State Fault Refusal :=
  s.act (byteReceived c b)

end Sys2Proof.Machine
end

