-- ==== Sys2Proof/Machine/Clock.lean ====
section
/-! DEFINITION. Site time (chapter 8, section 8.1): the PPS reference, its fallback, site seconds and SET_CLOCK. -/

namespace Sys2Proof.Machine

/-- Replace the clock record. -/
def Device.setClockRec (d : Device) (x : Clock) : Device := { d with clock := x }

/-- Site time after a site second (R137, step 1). -/
def nextSiteTime (t : Option Nat) : Option Nat := t.map fun n => if n < Config.maxSiteTime then n + 1 else n

/-- A site second, handled whole (R137). -/
def siteSecond (d : Device) : Device :=
  mastSample (reopenSuspended (windowMatching (d.setClockRec { d.clock with siteTime := nextSiteTime d.clock.siteTime })))

/-- A pulse less than 50 ticks after the last pulse taken is a glitch (R134). -/
def glitch (x : Clock) : Bool := x.lastPulse.any (· < 50)

/-- Pulse run after a pulse taken in FALLBACK (R136). -/
def nextPulseRun (x : Clock) : Nat :=
  if x.lastPulse.any (fun n => 95 ≤ n && n ≤ 105) then min (x.pulseRun + 1) 3 else 1

/-- A fallback site second was raised within the last 50 ticks (R136): the fallback timer, restarted at it, has run
for at most 50 (entry 27). -/
def recentFallback (x : Clock) : Bool := x.fallback.any fun n => Config.fallbackTicks - n ≤ 50

/-- A pulse on PPS (R134, R136). -/
def ppsPulse (d : Device) : Device :=
  let x := d.clock
  if x.following then
    if glitch x then d
    else siteSecond (d.setClockRec { x with lastPulse := some 0, pulseWait := some Config.pulseWaitTicks })
  else
    let run := nextPulseRun x
    if run == 3 then
      let d' := d.setClockRec
        { x with
          following := true
          pulseWait := some Config.pulseWaitTicks
          fallback := none
          lastPulse := some 0
          pulseRun := run }
      if recentFallback x then d' else siteSecond d'
    else d.setClockRec { x with lastPulse := some 0, pulseRun := run }

/-- The clock goes to FALLBACK (R135, steps 1 and 2); the pulse wait timer has stopped. -/
def loseReference (d : Device) : Device :=
  d.setClockRec { d.clock with following := false, pulseRun := 0, pulseWait := none }

/-- The fallback timer starts at 100 ticks (R135). -/
def startFallback (d : Device) : Device := d.setClockRec { d.clock with fallback := some Config.fallbackTicks }

/-- Pulse wait timer expiry (R135). -/
def pulseWaitExpired (d : Device) : Device :=
  if d.clock.pulseWait.isSome then
    startFallback (siteSecond (siteSecond ((loseReference d).raise .clockRefLost none none none)))
  else d

/-- Fallback timer expiry (R135). -/
def fallbackExpired (d : Device) : Device :=
  if d.clock.fallback.isSome then startFallback (siteSecond d) else d

/-- A pulse on MAST; the count stops rising at 65535 (R113). -/
def mastPulse (d : Device) : Device :=
  { d with mast := { d.mast with pulses := min (d.mast.pulses + 1) 65535 } }

/-- SET_CLOCK (R138); the reply carries site time and the reference state also where it is refused (entry 19). -/
def setClock (time : Nat) (d : Device) : Served :=
  if d.bookings.any fun b => b.state != .pending then ⟨d, .busy, clockBytes d⟩
  else
    let d := windowMatching (d.setClockRec { d.clock with siteTime := some time })
    ⟨d, .ok, clockBytes d⟩

end Sys2Proof.Machine
end

