-- ==== Sys2Proof/Machine/Supervisor.lean ====
section
/-! DEFINITION. The Supervisor Port and the Fault Unit (chapter 11): the port's three states, reading a reply, and
the commands that the other files do not give. -/

namespace Sys2Proof.Machine

/-! ### The port (R172 to R175) -/

/-- Replace the state of the Supervisor Port. -/
def Device.setSup (d : Device) (p : SupPort) : Device := { d with sup := p }

/-- Echoed code of READ_FAULTS (Table 11-4). -/
def readFaultsCode : Byte := 0x50

/-- The reply that a served command makes. -/
def Served.toReply (r : Served) (code : Byte) : SupReply := ⟨some code, r.code, r.values⟩

/-- A good command frame arrives (R172): served in IDLE, dropped in SERVING, answered BUSY in its waiting reply's
place in REPLY_WAITING. -/
def takeCommand (code : Byte) (serve : Device → Served) (d : Device) : Device :=
  match d.sup with
  | .idle => (serve d).dev.setSup (.serving ((serve d).toReply code))
  | .serving _ => d
  | .waiting _ => d.setSup (.waiting ⟨some code, .busy, []⟩)

/-- A command other than READ_FAULTS is refused BUSY while the plan is LOADING (R175). -/
def unlessLoading (serve : Device → Served) (d : Device) : Served :=
  if d.planState == .loading then d.refuse .busy else serve d

/-- A supervisor command of Table 11-4 by its code and what serving it does (R172, R175). -/
def command (code : Byte) (serve : Device → Served) (d : Device) : Device := takeCommand code (unlessLoading serve) d

/-- A write transfer whose bytes after the first make no good frame (R172); the command code it echoes under
REPLY_WAITING is its third byte, where there is one (entry 25). -/
def badFrame (bytes : List Byte) (d : Device) : Device :=
  match d.sup with
  | .idle => d.setSup (.waiting ⟨none, .invalid, []⟩)
  | .serving _ => d
  | .waiting _ => d.setSup (.waiting ⟨bytes[2]?, .busy, []⟩)

/-- The reply of a command being served is placed (R172); that of READ_FAULTS takes the levels of ALERT and ALARM as
they stand at this moment, further values that the record follows (R174, R179). -/
def placeReply (d : Device) : Device :=
  match d.sup with
  | .serving r =>
    d.setSup (.waiting (if r.echo == some readFaultsCode && r.code == .ok then
      { r with values := levelBytes d ++ r.values } else r))
  | _ => d

/-- The bytes of a reply frame (Table 11-3). -/
def SupReply.bytes (r : SupReply) : List Byte :=
  encodeSupervisorBody (r.echo.getD 255).toNat (byte r.code.code :: r.values)

/-- Byte `i` shifted out of a reply frame; free after its end (entry 14). -/
def shiftedByte (l : List Byte) (i : Nat) : Byte := l.getD i (Config.sdoAfterReply (i - l.length))

/-- A read transfer of `n` bytes after its first (R173, R174): SDO shifts out all ones during the first byte, then
the waiting reply from its first byte, or all ones where none waits; a reply read whole is consumed. -/
def readTransfer (n : Nat) (d : Device) : Device :=
  match d.sup with
  | .waiting r =>
    let d' := { d with sdo := 255 :: (List.range n).map (shiftedByte r.bytes) }
    if r.bytes.length ≤ n then d'.setSup .idle else d'
  | _ => { d with sdo := List.replicate (n + 1) 255 }

/-! ### Reading -/

/-- READ_CRANE (R40). -/
def readCrane (index : Nat) (d : Device) : Served :=
  match craneIx? index with
  | some c => ⟨d, .ok, craneBytes d c⟩
  | none => d.refuse .invalid

/-- READ_CELL (R84). -/
def readCell (index : Nat) (d : Device) : Served :=
  match cellIx? index with
  | some k => ⟨d, .ok, claimBytes d k⟩
  | none => d.refuse .invalid

/-- READ_BOOKING (R150): site time, reference state, record. -/
def readBooking (id : Nat) (d : Device) : Served :=
  match d.booking id with
  | some b => ⟨d, .ok, clockBytes d ++ bookingBytes b⟩
  | none => ⟨d, .unknownBooking, clockBytes d⟩

/-- The booking after an id in table order: the first for id 0; `none` where the id is not live (R150). On an empty
table id 0 is answered like an id after the last, OK with none (DESIGN CHOICE, entry 16). -/
def bookingAfter (id : Nat) (l : List Booking) : Option (Option Booking) :=
  if id == 0 then some l.head?
  else
    match l.dropWhile fun b => b.id != id with
    | [] => none
    | _ :: rest => some rest.head?

/-- NEXT_BOOKING (R150); "OK with none" carries no record (entry 16). -/
def nextBooking (id : Nat) (d : Device) : Served :=
  match bookingAfter id d.bookings with
  | some (some b) => ⟨d, .ok, clockBytes d ++ bookingBytes b⟩
  | some none => ⟨d, .ok, clockBytes d⟩
  | none => ⟨d, .unknownBooking, clockBytes d⟩

/-! ### Cranes -/

/-- FORCE_VANE (R127). -/
def forceVane (index : Nat) (d : Device) : Served :=
  match craneIx? index with
  | none => d.refuse .invalid
  | some c =>
    if d.membership c == .absent || d.membership c == .joining then d.refuse .wrongState
    else
      match (d.windOf c).state with
      | .vane .forced => d.done
      | .vane _ => (modWind c (fun w => { w with state := .vane .forced, vaneTimer := none }) d).done
      | _ => d.refuse .wrongState

/-- SET_WIND_SOURCE (R100): 0 LINK, 1 MAST. -/
def setWindSource (index value : Nat) (d : Device) : Served :=
  match craneIx? index, value with
  | some c, 0 => (changeSource c .link d).done
  | some c, 1 => (changeSource c .mast d).done
  | _, _ => d.refuse .invalid

/-! ### Bookings -/

/-- The supervisor's BOOK (R8, R141, R144); a form byte above 1 is refused INVALID (entry 18). -/
def supervisorBook (index : Nat) (b : BookReq) (d : Device) : Served :=
  if d.planState != .active then d.refuse .noPlan
  else
    match craneIx? index, sail? b.sail with
    | some c, some sail =>
      if !within 1 255 b.cycles || 1 < b.form then d.refuse .invalid
      else if d.clock.siteTime.isNone then d.refuse .noClock
      else if !isPresent (d.profile c) then d.refuse .unknownCrane
      else
        match judgeBook d c b with
        | .error code => d.refuse code
        | .ok (path, p) =>
          let d' := insertRequest c b sail .supervisor path p d
          ⟨d', .ok, ((d'.booking d.freshId).map bookingBytes).getD []⟩
    | _, _ => d.refuse .invalid

/-- CANCEL_BOOKING (R147). -/
def cancelBooking (id : Nat) (d : Device) : Served :=
  match d.booking id with
  | none => d.refuse .unknownBooking
  | some b => if b.state.running then d.refuse .wrongState else (retire id .cancelled d).done

/-- ABORT_BOOKING (R147). -/
def abortBooking (id : Nat) (d : Device) : Served :=
  match d.booking id with
  | none => d.refuse .unknownBooking
  | some _ => (retire id .cancelled d).done

/-- HOLD_BOOKINGS (R148): 0 off, 1 on. -/
def holdBookings (index value : Nat) (d : Device) : Served :=
  match craneIx? index with
  | some c => if 1 < value then d.refuse .invalid else (d.setHold c (value == 1)).done
  | none => d.refuse .invalid

/-! ### Faults (R179 to R181) -/

/-- READ_FAULTS (R179); the output levels are put before the record where the reply is placed. -/
def readFaults (d : Device) : Served := ⟨d, .ok, faultBytes d⟩

/-- Change the entries of the kinds a set names. -/
def mapFaults (kinds : BitVec 16) (f : FaultEntry → FaultEntry) (l : Vector FaultEntry 13) : Vector FaultEntry 13 :=
  Vector.ofFn fun i => if kindSetHas kinds i.val then f l[i] else l[i]

/-- The first-fault pointer's kind is among those a set names. -/
def pointerNamed (kinds : BitVec 16) (u : FaultUnit) : Bool := u.pointer.any fun k => kindSetHas kinds k.ix.val

/-- CLEAR_FAULTS (R180). -/
def clearFaults (kinds : BitVec 16) (d : Device) : Served :=
  if !kindSetValid kinds then d.refuse .invalid
  else
    Device.done { d with faults :=
      { entries := mapFaults kinds (fun e => { e with pending := false }) d.faults.entries
        pointer := if pointerNamed kinds d.faults then none else d.faults.pointer
        context := if pointerNamed kinds d.faults then none else d.faults.context } }

/-- SET_FAULT_MASK (R181): 0 UNMASKED, 1 MASKED. -/
def setFaultMask (kinds : BitVec 16) (value : Nat) (d : Device) : Served :=
  if !kindSetValid kinds || 1 < value then d.refuse .invalid
  else
    Device.done { d with faults :=
      { d.faults with entries := mapFaults kinds (fun e => { e with masked := value == 1 }) d.faults.entries } }

/-- SET_FAULT_SEVERITY (R181): 0 NOTICE, 1 ALARM. -/
def setFaultSeverity (kinds : BitVec 16) (value : Nat) (d : Device) : Served :=
  if !kindSetValid kinds || 1 < value then d.refuse .invalid
  else
    Device.done { d with faults :=
      { d.faults with entries := mapFaults kinds (fun e => { e with alarm := value == 1 }) d.faults.entries } }

end Sys2Proof.Machine
end

