-- ==== Sys2Proof/Machine/Resets.lean ====
section
/-! DEFINITION. Cold and warm reset (R171, R182). -/

namespace Sys2Proof.Machine

/-- RESET goes low (R171): the part holds itself in cold reset, autoload not yet begun (entry 5). The counter of
free choices is the model's own and runs on (entry 3). -/
def resetLow (d : Device) : Device := { Device.cold with resetLow := true, load := none, picks := d.picks }

/-- RESET goes high (R171): every block takes its cold reset values and autoload begins (R18). -/
def resetHigh (d : Device) : Device := { Device.cold with picks := d.picks }

/-- The Fault Unit after a warm reset: masks and severities are kept (R176). -/
def FaultUnit.warm (u : FaultUnit) : FaultUnit where
  entries := u.entries.map fun e => { e with pending := false }
  pointer := none
  context := none

/-- Every block at its warm reset values (R182). -/
def warmReset (d : Device) : Device :=
  { d with
    roster := Vector.replicate 10 CraneRec.reset
    reach := Vector.replicate 10 none
    cells := Vector.replicate 48 CellClaim.reset
    permits := Vector.replicate 10 none
    wind := d.wind.map WindRec.warmReset
    mast := { d.mast with pulses := 0 }
    bookings := warmBookings d.bookings
    ports := Vector.replicate 10 Port.reset
    faults := d.faults.warm }

/-- WARM_RESTART (R182). -/
def warmRestart (d : Device) : Served := (warmReset d).done

end Sys2Proof.Machine
end

