-- ==== Sys2Proof/Machine/Time.lean ====
section
/-! DEFINITION. What the part does while no command waits: receivers take rescanned bytes, timers that have run out
expire, and internal time advances by a tick of 10 ms (entries 1 to 3). -/

namespace Sys2Proof.Machine

/-! ### Timers -/

/-- A timer one tick later. -/
def tickTimer (t : Option Nat) : Option Nat := t.map fun n => n - 1

/-- The timers of a roster record one tick later (R22). -/
def CraneRec.tick (r : CraneRec) : CraneRec :=
  { r with joinWait := tickTimer r.joinWait, link := tickTimer r.link, qualityTimer := tickTimer r.qualityTimer }

/-- The timers of a claim record one tick later (R57). -/
def Standing.tick : Standing → Standing
  | .granted c cls t => .granted c cls (t - 1)
  | .held c cls l => .held c cls (tickTimer l)
  | x => x

/-- The timers of a wind record one tick later (R104, R117). -/
def WindRec.tick (w : WindRec) : WindRec := { w with silence := tickTimer w.silence, vaneTimer := tickTimer w.vaneTimer }

/-- The clock record one tick later (R133). -/
def Clock.tick (x : Clock) : Clock :=
  { x with
    pulseWait := tickTimer x.pulseWait
    fallback := tickTimer x.fallback
    lastPulse := x.lastPulse.map (· + 1) }

/-- Every timer of the part one tick later. -/
def Device.tickTimers (d : Device) : Device :=
  { d with
    load := d.load.map fun l => { l with remaining := l.remaining - 1 }
    roster := d.roster.map CraneRec.tick
    cells := d.cells.map fun r => { r with standing := r.standing.tick }
    wind := d.wind.map WindRec.tick
    clock := d.clock.tick }

/-- A timer of the part. -/
inductive Timer
  | load
  | joinWait (c : CraneIx)
  | link (c : CraneIx)
  | quality (c : CraneIx)
  | takeUp (k : CellIx)
  | linger (k : CellIx)
  | silence (c : CraneIx)
  | vaneClear (c : CraneIx)
  | pulseWait
  | fallback
  deriving DecidableEq, Repr

/-- Remaining ticks of a timer; `none` where it is stopped. -/
def Device.timer (d : Device) : Timer → Option Nat
  | .load => d.load.map fun l => l.remaining
  | .joinWait c => (d.crane c).joinWait
  | .link c => (d.crane c).link
  | .quality c => (d.crane c).qualityTimer
  | .takeUp k => (d.cell k).standing.takeUp
  | .linger k => (d.cell k).standing.linger
  | .silence c => (d.windOf c).silence
  | .vaneClear c => (d.windOf c).vaneTimer
  | .pulseWait => d.clock.pulseWait
  | .fallback => d.clock.fallback

/-- Silence timer expiry, where the timer runs (R104). -/
def silenceDone (c : CraneIx) (d : Device) : Device :=
  if (d.windOf c).silence.isSome then silenceExpired c d else d

/-- Vane clear timer expiry, where the timer runs (R126). -/
def vaneClearDone (c : CraneIx) (d : Device) : Device :=
  if (d.windOf c).vaneTimer.isSome then vaneClearExpired c d else d

/-- The effect of a timer's expiry. -/
def expire : Timer → Device → Device
  | .load => loadTimeout
  | .joinWait c => joinWaitExpired c
  | .link c => linkExpired c
  | .quality c => qualityExpired c
  | .takeUp k => takeUpExpired k
  | .linger k => lingerExpired k
  | .silence c => silenceDone c
  | .vaneClear c => vaneClearDone c
  | .pulseWait => pulseWaitExpired
  | .fallback => fallbackExpired

/-- Every timer of the part. -/
def allTimers : List Timer :=
  [.load, .pulseWait, .fallback] ++ allCranes.flatMap (fun c => [.joinWait c, .link c, .quality c, .silence c, .vaneClear c])
    ++ allCells.flatMap fun k => [.takeUp k, .linger k]

/-- A timer has run out. -/
def Device.due (d : Device) (t : Timer) : Bool := d.timer t == some 0

/-- An expiry taken: it happens where the timer still stands at 0 when its turn comes, and not where an event taken
first has stopped or restarted the timer (R26, R28, R64, R67, R104, R135, entry 2). -/
def expireIfDue (d : Device) (t : Timer) : Device := if d.due t then expire t d else d

/-- Timers that have run out. -/
def Device.dueTimers (d : Device) : List Timer := allTimers.filter d.due

/-- The timers that have run out expire one after the other, in a free order (entries 2, 3). -/
def expireDue (d : Device) : Device := (d.shuffle d.dueTimers).foldl expireIfDue (d.picked d.dueTimers)

/-! ### Receivers -/

/-- Ports with bytes that wait for their receiver. -/
def Device.busyPorts (d : Device) : List CraneIx := allCranes.filter fun c => (d.port c).waiting != 0

/-- Each port with waiting bytes takes them up to its next outcome, in a free order (entries 3, 8). -/
def servePorts (d : Device) : Device :=
  (d.shuffle d.busyPorts).foldl (fun d c => servePort c d) (d.picked d.busyPorts)

/-- What the part does in a step while no command waits: nothing while RESET is low; rescanned bytes first; then
the expiries of timers that have run out; else a tick of internal time (entries 1, 2). -/
def idle (d : Device) : Device :=
  if d.resetLow then d
  else if !d.busyPorts.isEmpty then servePorts d
  else if !d.dueTimers.isEmpty then expireDue d
  else d.tickTimers

end Sys2Proof.Machine
end

