-- ==== Sys2Proof/Machine/ExecPlanMemory.lean ====
section
/-! DEFINITION. The meanings of the plan memory rows. -/

namespace Sys2Proof.Machine

/-- AUTOLOAD_READ (R18): one group read of the plan image completes. -/
def execAutoloadRead (data : Option (List Byte)) (s : State) : Host.Outcome State Fault Refusal :=
  s.act (loadRead data)

/-- AUTOLOAD_TIMEOUT (R18): the load ends, where the 300 ticks have passed (entry 2). -/
def execAutoloadTimeout (s : State) : Host.Outcome State Fault Refusal :=
  s.act fun d => expireIfDue d .load

end Sys2Proof.Machine
end

