-- ==== Sys2Proof/Machine/ExecReset.lean ====
section
/-! DEFINITION. The meanings of the RESET rows. -/

namespace Sys2Proof.Machine

/-- COLD_RESET (R171): RESET goes low. -/
def execColdReset (s : State) : Host.Outcome State Fault Refusal :=
  .next { s with dev := resetLow s.dev }

/-- RESET_HIGH (R171): RESET goes high. -/
def execResetHigh (s : State) : Host.Outcome State Fault Refusal :=
  .next { s with dev := resetHigh s.dev }

end Sys2Proof.Machine
end

