-- ==== Sys2Proof/Machine/ExecSupervisor.lean ====
section
/-! DEFINITION. The meanings of the supervisor port rows. -/

namespace Sys2Proof.Machine

/-- SUPERVISOR_BAD_FRAME (R172): a write transfer makes no good frame. -/
def execSupervisorBadFrame (bytes : List Byte) (s : State) : Host.Outcome State Fault Refusal :=
  s.act (badFrame bytes)

/-- SUPERVISOR_READ (R173): a read transfer. -/
def execSupervisorRead (n : Nat) (s : State) : Host.Outcome State Fault Refusal :=
  s.act (readTransfer n)

/-- PLAN_BEGIN (R13): supervisor command 0x01. -/
def execPlanBegin (s : State) : Host.Outcome State Fault Refusal :=
  s.act (command 0x01 planBegin)

/-- PLAN_PUT_SITE (R14): supervisor command 0x02. -/
def execPlanPutSite (r : Site) (s : State) : Host.Outcome State Fault Refusal :=
  s.act (command 0x02 (planPutSite r))

/-- PLAN_PUT_CRANE (R14): supervisor command 0x03. -/
def execPlanPutCrane (index : Nat) (p : Profile) (s : State) : Host.Outcome State Fault Refusal :=
  s.act (command 0x03 (planPutCrane index p))

/-- PLAN_PUT_CELL (R15): supervisor command 0x04. -/
def execPlanPutCell (index : Nat) (r : CellRec) (s : State) : Host.Outcome State Fault Refusal :=
  s.act (command 0x04 (planPutCell index r))

/-- PLAN_DROP_CELL (R15): supervisor command 0x05. -/
def execPlanDropCell (index : Nat) (s : State) : Host.Outcome State Fault Refusal :=
  s.act (command 0x05 (planDropCell index))

/-- PLAN_END (R16): supervisor command 0x06. -/
def execPlanEnd (s : State) : Host.Outcome State Fault Refusal :=
  s.act (command 0x06 planEnd)

/-- PLAN_ERASE (R17): supervisor command 0x07. -/
def execPlanErase (s : State) : Host.Outcome State Fault Refusal :=
  s.act (command 0x07 planErase)

/-- POSSESSION (R6): supervisor command 0x08. -/
def execPossession (index : Nat) (value : Nat) (s : State) : Host.Outcome State Fault Refusal :=
  s.act (command 0x08 (setPossession index value))

/-- READ_PLAN_ITEM (R21): supervisor command 0x10. -/
def execReadPlanItem (item : Nat) (index : Nat) (s : State) : Host.Outcome State Fault Refusal :=
  s.act (command 0x10 (readPlanItem item index))

/-- READ_CRANE (R40): supervisor command 0x11. -/
def execReadCrane (index : Nat) (s : State) : Host.Outcome State Fault Refusal :=
  s.act (command 0x11 (readCrane index))

/-- READ_CELL (R84): supervisor command 0x12. -/
def execReadCell (index : Nat) (s : State) : Host.Outcome State Fault Refusal :=
  s.act (command 0x12 (readCell index))

/-- READ_BOOKING (R150): supervisor command 0x13. -/
def execReadBooking (id : Nat) (s : State) : Host.Outcome State Fault Refusal :=
  s.act (command 0x13 (readBooking id))

/-- NEXT_BOOKING (R150): supervisor command 0x14. -/
def execNextBooking (id : Nat) (s : State) : Host.Outcome State Fault Refusal :=
  s.act (command 0x14 (nextBooking id))

/-- SET_CLOCK (R138): supervisor command 0x20. -/
def execSetClock (time : Nat) (s : State) : Host.Outcome State Fault Refusal :=
  s.act (command 0x20 (setClock time))

/-- DETACH (R35): supervisor command 0x30. -/
def execDetach (index : Nat) (s : State) : Host.Outcome State Fault Refusal :=
  s.act (command 0x30 (detach index))

/-- FORCE_VANE (R127): supervisor command 0x31. -/
def execForceVane (index : Nat) (s : State) : Host.Outcome State Fault Refusal :=
  s.act (command 0x31 (forceVane index))

/-- SET_WIND_SOURCE (R100): supervisor command 0x32. -/
def execSetWindSource (index : Nat) (value : Nat) (s : State) : Host.Outcome State Fault Refusal :=
  s.act (command 0x32 (setWindSource index value))

/-- SUPERVISOR_BOOK (R141): supervisor command 0x40. -/
def execSupervisorBook (index : Nat) (b : BookReq) (s : State) : Host.Outcome State Fault Refusal :=
  s.act (command 0x40 (supervisorBook index b))

/-- CANCEL_BOOKING (R147): supervisor command 0x41. -/
def execCancelBooking (id : Nat) (s : State) : Host.Outcome State Fault Refusal :=
  s.act (command 0x41 (cancelBooking id))

/-- ABORT_BOOKING (R147): supervisor command 0x42. -/
def execAbortBooking (id : Nat) (s : State) : Host.Outcome State Fault Refusal :=
  s.act (command 0x42 (abortBooking id))

/-- HOLD_BOOKINGS (R148): supervisor command 0x43. -/
def execHoldBookings (index : Nat) (value : Nat) (s : State) : Host.Outcome State Fault Refusal :=
  s.act (command 0x43 (holdBookings index value))

/-- READ_FAULTS (R179): supervisor command 0x50. -/
def execReadFaults (s : State) : Host.Outcome State Fault Refusal :=
  s.act (takeCommand readFaultsCode readFaults)

/-- CLEAR_FAULTS (R180): supervisor command 0x51. -/
def execClearFaults (kinds : BitVec 16) (s : State) : Host.Outcome State Fault Refusal :=
  s.act (command 0x51 (clearFaults kinds))

/-- SET_FAULT_MASK (R181): supervisor command 0x52. -/
def execSetFaultMask (kinds : BitVec 16) (value : Nat) (s : State) : Host.Outcome State Fault Refusal :=
  s.act (command 0x52 (setFaultMask kinds value))

/-- SET_FAULT_SEVERITY (R181): supervisor command 0x53. -/
def execSetFaultSeverity (kinds : BitVec 16) (value : Nat) (s : State) : Host.Outcome State Fault Refusal :=
  s.act (command 0x53 (setFaultSeverity kinds value))

/-- WARM_RESTART (R182): supervisor command 0x60. -/
def execWarmRestart (s : State) : Host.Outcome State Fault Refusal :=
  s.act (command 0x60 warmRestart)

/-- REPLY_PLACED (R172): the reply of the command served is placed. -/
def execReplyPlaced (s : State) : Host.Outcome State Fault Refusal :=
  s.act placeReply

/-- UNKNOWN_COMMAND (R175): a good frame that names no command or has the wrong byte count is answered INVALID. -/
def execUnknownCommand (code : Byte) (_args : List Byte) (s : State) : Host.Outcome State Fault Refusal :=
  s.act (takeCommand code fun d => d.refuse .invalid)

end Sys2Proof.Machine
end

