-- ==== Sys2Proof/Machine/ExecTimers.lean ====
section
/-! DEFINITION. The meanings of the timer expiries and of the pulse inputs. -/

namespace Sys2Proof.Machine

/-- JOIN_WAIT_EXPIRY (R26): the join wait expires, where it has run out (entry 2). -/
def execJoinWaitExpiry (c : CraneIx) (s : State) : Host.Outcome State Fault Refusal :=
  s.act fun d => expireIfDue d (.joinWait c)

/-- LINK_TIMER_EXPIRY (R28): the link timer expires, where it has run out (entry 2). -/
def execLinkTimerExpiry (c : CraneIx) (s : State) : Host.Outcome State Fault Refusal :=
  s.act fun d => expireIfDue d (.link c)

/-- QUALITY_PERIOD_EXPIRY (R38): the quality period expires, where it has run out (entry 2). -/
def execQualityPeriodExpiry (c : CraneIx) (s : State) : Host.Outcome State Fault Refusal :=
  s.act fun d => expireIfDue d (.quality c)

/-- TAKE_UP_EXPIRY (R65): the take-up timer expires, where it has run out (entry 2). -/
def execTakeUpExpiry (k : CellIx) (s : State) : Host.Outcome State Fault Refusal :=
  s.act fun d => expireIfDue d (.takeUp k)

/-- LINGER_EXPIRY (R67): the linger timer expires, where it has run out (entry 2). -/
def execLingerExpiry (k : CellIx) (s : State) : Host.Outcome State Fault Refusal :=
  s.act fun d => expireIfDue d (.linger k)

/-- SILENCE_TIMER_EXPIRY (R104): the silence timer expires, where it has run out (entry 2). -/
def execSilenceTimerExpiry (c : CraneIx) (s : State) : Host.Outcome State Fault Refusal :=
  s.act fun d => expireIfDue d (.silence c)

/-- VANE_CLEAR_TIMER_EXPIRY (R126): the vane clear timer expires, where it has run out (entry 2). -/
def execVaneClearTimerExpiry (c : CraneIx) (s : State) : Host.Outcome State Fault Refusal :=
  s.act fun d => expireIfDue d (.vaneClear c)

/-- MAST_PULSE (R113): a pulse on MAST. -/
def execMastPulse (s : State) : Host.Outcome State Fault Refusal :=
  s.act mastPulse

/-- PPS_PULSE (R134): a pulse on PPS. -/
def execPpsPulse (s : State) : Host.Outcome State Fault Refusal :=
  s.act ppsPulse

/-- PULSE_WAIT_TIMER_EXPIRY (R135): the pulse wait timer expires, where it has run out (entry 2). -/
def execPulseWaitTimerExpiry (s : State) : Host.Outcome State Fault Refusal :=
  s.act fun d => expireIfDue d .pulseWait

/-- FALLBACK_TIMER_EXPIRY (R135): the fallback timer expires, where it has run out (entry 2). -/
def execFallbackTimerExpiry (s : State) : Host.Outcome State Fault Refusal :=
  s.act fun d => expireIfDue d .fallback

end Sys2Proof.Machine
end

