-- ==== Sys2Proof/Machine/Dispatch.lean ====
section
/-! DEFINITION. The meaning of every command: one arm per row of spec/opcode_table.json. -/

namespace Sys2Proof.Machine

def exec (i : Instr) (s : State) : Host.Outcome State Fault Refusal :=
  match i with
  | .coldReset => Sys2Proof.Machine.execColdReset s
  | .autoloadRead data => Sys2Proof.Machine.execAutoloadRead data s
  | .autoloadTimeout => Sys2Proof.Machine.execAutoloadTimeout s
  | .frameCheckFailed c bytes => Sys2Proof.Machine.execFrameCheckFailed c bytes s
  | .frameRejected c address kind payload => Sys2Proof.Machine.execFrameRejected c address kind payload s
  | .hello c restart digest => Sys2Proof.Machine.execHello c restart digest s
  | .report c restart r => Sys2Proof.Machine.execReport c restart r s
  | .claim c restart cell cls => Sys2Proof.Machine.execClaim c restart cell cls s
  | .release c restart cell => Sys2Proof.Machine.execRelease c restart cell s
  | .book c restart b => Sys2Proof.Machine.execBook c restart b s
  | .cancel c restart id => Sys2Proof.Machine.execCancel c restart id s
  | .liftStart c restart id => Sys2Proof.Machine.execLiftStart c restart id s
  | .liftEnd c restart id => Sys2Proof.Machine.execLiftEnd c restart id s
  | .liftAbort c restart id => Sys2Proof.Machine.execLiftAbort c restart id s
  | .resume c restart => Sys2Proof.Machine.execResume c restart s
  | .leave c restart => Sys2Proof.Machine.execLeave c restart s
  | .query c restart item index segment => Sys2Proof.Machine.execQuery c restart item index segment s
  | .transmitComplete c => Sys2Proof.Machine.execTransmitComplete c s
  | .joinWaitExpiry c => Sys2Proof.Machine.execJoinWaitExpiry c s
  | .linkTimerExpiry c => Sys2Proof.Machine.execLinkTimerExpiry c s
  | .qualityPeriodExpiry c => Sys2Proof.Machine.execQualityPeriodExpiry c s
  | .takeUpExpiry k => Sys2Proof.Machine.execTakeUpExpiry k s
  | .lingerExpiry k => Sys2Proof.Machine.execLingerExpiry k s
  | .silenceTimerExpiry c => Sys2Proof.Machine.execSilenceTimerExpiry c s
  | .vaneClearTimerExpiry c => Sys2Proof.Machine.execVaneClearTimerExpiry c s
  | .mastPulse => Sys2Proof.Machine.execMastPulse s
  | .ppsPulse => Sys2Proof.Machine.execPpsPulse s
  | .pulseWaitTimerExpiry => Sys2Proof.Machine.execPulseWaitTimerExpiry s
  | .fallbackTimerExpiry => Sys2Proof.Machine.execFallbackTimerExpiry s
  | .supervisorBadFrame bytes => Sys2Proof.Machine.execSupervisorBadFrame bytes s
  | .supervisorRead n => Sys2Proof.Machine.execSupervisorRead n s
  | .planBegin => Sys2Proof.Machine.execPlanBegin s
  | .planPutSite r => Sys2Proof.Machine.execPlanPutSite r s
  | .planPutCrane index p => Sys2Proof.Machine.execPlanPutCrane index p s
  | .planPutCell index r => Sys2Proof.Machine.execPlanPutCell index r s
  | .planDropCell index => Sys2Proof.Machine.execPlanDropCell index s
  | .planEnd => Sys2Proof.Machine.execPlanEnd s
  | .planErase => Sys2Proof.Machine.execPlanErase s
  | .possession index value => Sys2Proof.Machine.execPossession index value s
  | .readPlanItem item index => Sys2Proof.Machine.execReadPlanItem item index s
  | .readCrane index => Sys2Proof.Machine.execReadCrane index s
  | .readCell index => Sys2Proof.Machine.execReadCell index s
  | .readBooking id => Sys2Proof.Machine.execReadBooking id s
  | .nextBooking id => Sys2Proof.Machine.execNextBooking id s
  | .setClock time => Sys2Proof.Machine.execSetClock time s
  | .detach index => Sys2Proof.Machine.execDetach index s
  | .forceVane index => Sys2Proof.Machine.execForceVane index s
  | .setWindSource index value => Sys2Proof.Machine.execSetWindSource index value s
  | .supervisorBook index b => Sys2Proof.Machine.execSupervisorBook index b s
  | .cancelBooking id => Sys2Proof.Machine.execCancelBooking id s
  | .abortBooking id => Sys2Proof.Machine.execAbortBooking id s
  | .holdBookings index value => Sys2Proof.Machine.execHoldBookings index value s
  | .readFaults => Sys2Proof.Machine.execReadFaults s
  | .clearFaults kinds => Sys2Proof.Machine.execClearFaults kinds s
  | .setFaultMask kinds value => Sys2Proof.Machine.execSetFaultMask kinds value s
  | .setFaultSeverity kinds value => Sys2Proof.Machine.execSetFaultSeverity kinds value s
  | .warmRestart => Sys2Proof.Machine.execWarmRestart s
  | .linkByteReceived c b => Sys2Proof.Machine.execLinkByteReceived c b s
  | .resetHigh => Sys2Proof.Machine.execResetHigh s
  | .replyPlaced => Sys2Proof.Machine.execReplyPlaced s
  | .unknownCommand code args => Sys2Proof.Machine.execUnknownCommand code args s

end Sys2Proof.Machine
end

