-- ==== Sys2Proof/Safety.lean ====
section
/-! DEFINITION. What a safe run means on this part: the laws the spec states of every moment, as predicates on the
part, one for each block. -/

namespace Sys2Proof.Machine

/-- Fault Unit (R176, R177): a pointer comes with the context captured for its kind, which is pending; no pointer
comes with no context. -/
def FaultUnit.lawful (u : FaultUnit) : Prop :=
  match u.pointer with
  | none => u.context = none
  | some k => u.entries[k.ix].pending = true ∧ ∃ x, u.context = some x ∧ x.kind = k

/-- Permitted sail classes (R120): L implies M implies S, and none in HALT or VANE. -/
def WindRec.classesLawful (w : WindRec) : Prop :=
  (w.classes.l = true → w.classes.m = true) ∧ (w.classes.m = true → w.classes.s = true) ∧
    (w.state.isCalmOrWatch = false → w.classes = SailSet.empty)

/-- Wind channel (R99, R109, R110): runs, lists and the mean accumulator within their ranges. -/
def WindRec.rangesLawful (w : WindRec) : Prop :=
  w.holdRun ≤ 2 ∧ w.liveRun ≤ 3 ∧ w.recent.length ≤ 3 ∧ (∀ x ∈ w.recent, x ≤ 600) ∧ w.mean ≤ 153600

/-- A permit whose brake is released (R94): every limit STOP, and the wind state VANE, free or forced. -/
def Permit.lawful (p : Permit) : Prop :=
  p.release = true →
    p.slewPlus = .stop ∧ p.slewMinus = .stop ∧ p.trolleyOut = .stop ∧ p.trolleyIn = .stop ∧ p.hoistStop = true ∧
      (p.wind = .vane .vaneFree ∨ p.wind = .vane .forced)

/-- Every frame that a port sends or holds to send, where it is a permit, obeys the weathervane law (R94). -/
def Port.framesLawful (p : Port) : Prop :=
  (∀ x, p.sending = some (.permit x) → x.lawful) ∧ ∀ x, .permit x ∈ p.queue → x.lawful

/-- A link port's buffers are within their bounds (R164, R166). -/
def Port.lawful (p : Port) : Prop :=
  p.rescan.length ≤ 65 ∧ p.line.length ≤ 66 ∧ p.queue.length ≤ 4 ∧ (p.sending = none → p.queue = [])

/-- Cell claim record (R57, R62, R76): at most one queue entry per crane, the holder neither among them nor in the
intruder list, no crane twice in that list, and INTRUDED set exactly while it is not empty. -/
def CellClaim.lawful (r : CellClaim) : Prop :=
  (r.queue.map fun w => w.crane).Nodup ∧
    (∀ c, r.standing.holder = some c → c ∉ (r.queue.map fun w => w.crane) ∧ c ∉ r.intruders) ∧
    r.intruders.Nodup ∧ (r.intruded = true ↔ r.intruders ≠ [])

/-- A booking record (R139, R140): 1 to 8 distinct path cells, 1 to 255 cycles, an id in 1..65535. -/
def Booking.lawful (b : Booking) : Prop :=
  1 ≤ b.path.length ∧ b.path.length ≤ 8 ∧ b.path.Nodup ∧ 1 ≤ b.cycles ∧ b.cycles ≤ 255 ∧ 1 ≤ b.id ∧ b.id ≤ 65535

/-- The booking table (R140): at most 64 live bookings, in table order, ids distinct, each record lawful, and at most
one booking of a crane LIFTING or in HOLD_LOWER. -/
def tableLawful (l : List Booking) : Prop :=
  l.length ≤ 64 ∧ l.Pairwise (fun a b => bookingBefore a b = true) ∧ (l.map fun b => b.id).Nodup ∧
    (∀ b ∈ l, b.lawful) ∧
    ∀ b ∈ l, ∀ b' ∈ l, b.crane = b'.crane → b.state.running = true → b'.state.running = true → b = b'

/-- The permits of the part obey the weathervane law: those held, being sent and waiting (R94). -/
def Device.permitsLawful (d : Device) : Prop :=
  ∀ c, (∀ p, d.permitOf c = some p → p.lawful) ∧ (d.port c).framesLawful

/-- The booking table with the next-id counter (R140). -/
def Device.tableLawful (d : Device) : Prop :=
  Machine.tableLawful d.bookings ∧ 1 ≤ d.nextId ∧ d.nextId ≤ 65535

/-- The plan and what rests on it (R7, R8, R16, R19, R22): an ACTIVE plan passes validation and has its own digest;
while the plan is not ACTIVE every crane is ABSENT and the booking table empty; a load runs in LOADING alone; and an
ABSENT crane's roster record stands at its reset values. -/
def Device.planLawful (d : Device) : Prop :=
  (d.planState = .active → validate d.plan = none ∧ d.digest = crc32 (canonicalImage d.plan)) ∧
    (d.planState ≠ .active → (∀ c, d.membership c = .absent) ∧ d.bookings = []) ∧
    (d.load ≠ none → d.planState = .loading) ∧
    ∀ c, d.membership c = .absent → d.crane c = ⟨.absent, .good, 0, 0, false, none, none, none⟩

/-! ### When a command runs -/

/-- The Supervisor Port serves a command: RESET is high, the port is IDLE, and the plan is not LOADING (R172,
R175). -/
def State.takesCommands (s : State) : Prop :=
  s.dev.resetLow = false ∧ s.dev.sup = .idle ∧ s.dev.planState ≠ .loading

/-- The state in which the command with a code has been served: the part is `d`, and the port is SERVING with the
reply that is being made (R172). -/
def State.answered (s : State) (code : Byte) (reply : ReplyCode) (values : List Byte) (d : Device) : State :=
  { s with dev := { d with sup := .serving ⟨some code, reply, values⟩ } }

/-- A frame of an ADMITTED crane is handled by its kind: RESET is high and the frame is not the second flagged one
in a row (R29). -/
def State.hears (s : State) (c : CraneIx) (restart : Bool) : Prop :=
  s.dev.resetLow = false ∧ s.dev.membership c = .admitted ∧ (restart && (s.dev.crane c).streak) = false

/-- The part once the restart streak has taken a frame of an ADMITTED crane (R29). -/
def State.heard (s : State) (c : CraneIx) (restart : Bool) : Device :=
  s.dev.setCrane c { s.dev.crane c with streak := restart }

/-- Every block at its cold reset values (R20, R22, R41, R57, R85, R99, R113, R117, R133, R140, R148, R164, R166,
R172, R176), the pin and the load apart. -/
def Device.coldValues (d : Device) : Prop :=
  (d.planState = .loading ∧
    d.plan.site = ⟨1, 2, 3, 100, 140, 200, 250, 180, 20, 30, 3, 7, 64, 100, 10, 5, 1, 120⟩ ∧
    (∀ c, d.profile c = ⟨0, 0, 0, 0, 0, 0, 0, 0, 0, 0, 0, 0, 0⟩) ∧ (∀ k, d.cellRec k = none) ∧
    (∀ k, d.possessionOf k = .closed) ∧ d.digest = 0#32 ∧ d.validation = none ∧ d.autoloadResult = none) ∧
  ((∀ c, d.crane c = ⟨.absent, .good, 0, 0, false, none, none, none⟩) ∧ (∀ c, d.reachOf c = none) ∧
    (∀ c, d.permitOf c = none) ∧ (∀ k, d.cell k = ⟨.free, [], [], [], false, false⟩)) ∧
  ((∀ c, d.windOf c = ⟨.profile, .warming, none, [], 0, 0, none, none, [], 0, false, false, false, false, false, .calm,
      ⟨true, true, true⟩, none⟩) ∧
    d.mast = ⟨0, 0, 0⟩) ∧
  (d.clock = ⟨none, true, some 200, none, none, 0⟩ ∧ d.bookings = [] ∧ d.nextId = 1 ∧ ∀ c, d.hold c = false) ∧
  ((∀ c, d.port c = ⟨none, [], [], none, []⟩) ∧ d.sup = .idle) ∧
  ((∀ k, d.faultEntry k = ⟨false, decide (k = .takeupLapse ∨ k = .bookingExpired),
      decide (k ∈ [FaultKind.linkLost, .intrusion, .contest, .windStale, .vaneEntered, .vaneBlocked, .planLoadFailed])⟩) ∧
    d.faults.pointer = none ∧ d.faults.context = none)

/-- What a crane's records are once it has gone ABSENT (R36, R115, R131), `d` being the part before: the roster
record at its reset values, no position, no permit, no place in an inhibit set or intruder list, and of the wind
record the state, classes, mean, flag VM and source kept with every timer stopped. -/
def Device.wentAbsent (c : CraneIx) (d t : Device) : Prop :=
  t.crane c = ⟨.absent, .good, 0, 0, false, none, none, none⟩ ∧ t.reachOf c = none ∧ t.permitOf c = none ∧
    t.windOf c =
      { d.windOf c with
        channel := .warming, lastSeq := none, recent := [], history := [], lastGust := none, holdRun := 0
        liveRun := 0, flagL := false, flagM := false, flagS := false, flagVG := false, silence := none
        vaneTimer := none } ∧
    ∀ k, c ∉ (t.cell k).inhibit ∧ c ∉ (t.cell k).intruders

/-- The records of every crane but one are the same in two states of the part. -/
def Device.sameElsewhere (c : CraneIx) (d t : Device) : Prop :=
  ∀ x, x ≠ c → t.crane x = d.crane x ∧ t.reachOf x = d.reachOf x ∧ t.permitOf x = d.permitOf x ∧
    t.windOf x = d.windOf x ∧ t.port x = d.port x ∧ t.hold x = d.hold x

/-- The standing that a grant gives a crane in a cell (R63): HELD where it is INSIDE, else GRANTED with the take-up
timer at the cell's take-up time. -/
def Device.standingGranted (d : Device) (k : CellIx) (c : CraneIx) (cls : ClaimClass) : Standing :=
  if d.relation c k = .inside then .held c cls none else .granted c cls (d.takeUpTicks k)

/-- A cell whose holder's claim has ended is given on (R69), in the cases in which one crane at most asks for it: it
becomes FREE, its one waiter below tier 0 is granted, or its first intruder, INSIDE and let pass, holds it. -/
def Device.givenOn (k : CellIx) (d t : Device) : Prop :=
  ((d.cell k).queue = [] → (d.cell k).intruders = [] → (t.cell k).standing = .free ∧ (t.cell k).queue = []) ∧
    (∀ w, (d.cell k).queue = [w] → d.tier w.cls ≠ 0 →
      ¬(d.reservedAgainst w.crane k = true ∧ d.tier .booked < d.tier w.cls) →
      (t.cell k).standing = d.standingGranted k w.crane w.cls ∧ (t.cell k).queue = []) ∧
    ∀ x l, (d.cell k).queue = [] → (d.cell k).intruders = x :: l → freePasses d x k = true →
      d.relation x k = .inside →
      (t.cell k).standing = .held x .free none ∧ (t.cell k).queue = [] ∧ x ∉ (t.cell k).intruders

/-- A crane has joined the inhibit set of a cell unless its relation to it is OUTSIDE (R66). -/
def Device.inhibitJoined (c : CraneIx) (k : CellIx) (d t : Device) : Prop :=
  ∀ x, x ∈ (t.cell k).inhibit ↔ x ∈ (d.cell k).inhibit ∨ (x = c ∧ d.relation c k ≠ .outside)

/-- A frame of a crane is handled by its kind in every membership state, unless it is the second flagged one in a row
from an ADMITTED crane (R29). -/
def State.delivers (s : State) (c : CraneIx) (restart : Bool) : Prop :=
  s.dev.resetLow = false ∧ (s.dev.membership c = .admitted → (restart && (s.dev.crane c).streak) = false)

/-- The part once the restart streak has taken a frame of a crane in any membership state (R29). -/
def State.delivered (s : State) (c : CraneIx) (restart : Bool) : Device :=
  if s.dev.membership c = .admitted then s.heard c restart else s.dev

/-- Nothing that window matching acts on is due at a site time (R145). -/
def nothingDue (now : Nat) (l : List Booking) : Prop :=
  ∀ b ∈ l, now < b.reservedEnd ∧ (∀ e, b.windowEnd = some e → now < e) ∧
    (b.state = .pending → ∀ x, b.windowStart = some x → now < x)

/-- The crane is parked, and is holder at class WEATHERVANE of every cell in which it has a JIB footprint (R94, R124). -/
def Device.readyToVane (d : Device) (c : CraneIx) : Prop :=
  (∃ r, d.reachOf c = some r ∧ r.pos.radius ≤ (d.profile c).parkRadius ∧ (d.profile c).parkHeight ≤ r.pos.hook) ∧
    ∀ k, d.hasJib c k = true → (d.cell k).standing.holder = some c ∧ (d.cell k).standing.cls = some .weathervane

/-- WEATHERVANE has been asked for on every cell in which a crane has a JIB footprint, and on no other (R80, R122): a
FREE cell that no crane waits for and a cell the crane holds below tier 0 are HELD at WEATHERVANE; in every such cell
the crane holds or waits at tier 0. -/
def Device.vaneAsked (c : CraneIx) (d t : Device) : Prop :=
  ∀ k, (d.hasJib c k = false → t.cell k = d.cell k) ∧
    (d.hasJib c k = true →
      ((d.cell k).standing = .free → (d.cell k).queue = [] → (t.cell k).standing = .held c .weathervane none) ∧
      ((d.cell k).standing.holder = some c → (∀ x, (d.cell k).standing.cls = some x → d.tier x ≠ 0) →
        (t.cell k).standing = .held c .weathervane none) ∧
      ((∃ x, (t.cell k).standing.holder = some c ∧ (t.cell k).standing.cls = some x ∧ d.tier x = 0) ∨
        ∃ w ∈ (t.cell k).queue, w.crane = c ∧ d.tier w.cls = 0))

/-- A booking of another crane has a reservation in force on the cell, and a claim of the class given is weaker than
BOOKED (R60, R71). -/
def Device.barred (d : Device) (c : CraneIx) (k : CellIx) (x : ClaimClass) : Prop :=
  (∃ b ∈ d.bookings, b.state.inForce = true ∧ b.crane ≠ c ∧ k ∈ b.path) ∧ d.tier .booked < d.tier x

/-- A booking of the crane that is LIFTING or in HOLD_LOWER lists the cell in its path (R54, R68, R79). -/
def Device.liftsOver (d : Device) (c : CraneIx) (k : CellIx) : Prop :=
  ∃ b ∈ d.bookings, b.crane = c ∧ (b.state = .lifting ∨ b.state = .holdLower) ∧ k ∈ b.path

/-- The crane's wind state is CALM or WATCH and permits the sail class (R153, R155, R159). -/
def Device.sailAllowed (d : Device) (c : CraneIx) (x : Sail) : Prop :=
  ((d.windOf c).state = .calm ∨ (d.windOf c).state = .watch) ∧ (d.windOf c).classes.has x = true

/-- A safe step: the part goes on, with the queue taken one command shorter at its front. -/
def stepSafe (s : State) : Prop := ∃ t, step s = .next t ∧ t.pending = s.pending.tail

end Sys2Proof.Machine
end

