-- ==== Sys2Proof/WellFormed.lean ====
section
/-! DEFINITION. Well-formed commands: every operand fits the bytes that carry it (Tables 1-6, 10-3, 11-4), and the
events that stand for a failed, rejected, bad or unknown frame carry bytes that are one. -/

namespace Sys2Proof

open Sys2Proof.Machine

/-- A number of one byte. -/
def oneByte (n : Nat) : Bool := decide (n < 256)

/-- A number of two bytes. -/
def twoBytes (n : Nat) : Bool := decide (n < 65536)

/-- A number of four bytes. -/
def fourBytes (n : Nat) : Bool := decide (n < 4294967296)

/-- An integer of one two's complement byte. -/
def signedOneByte (i : Int) : Bool := decide (-128 ≤ i) && decide (i ≤ 127)

/-- Every field of a site record fits its bytes (Table 1-6). -/
def Site.wf (r : Site) : Bool :=
  oneByte r.tierEmergency && oneByte r.tierBooked && oneByte r.tierFree
    && twoBytes r.gustL && twoBytes r.gustM && twoBytes r.gustS && twoBytes r.vaneGust && twoBytes r.vaneMean
    && oneByte r.hysteresis && oneByte r.windowT && oneByte r.triggerN
    && twoBytes r.filterK && twoBytes r.mastScale && twoBytes r.linkTimeout
    && oneByte r.qualityPeriod && oneByte r.degradeCount && oneByte r.clearCount && twoBytes r.vaneClearLimit

/-- Every field of a profile fits its bytes (Table 1-6). -/
def Profile.wf (p : Profile) : Bool :=
  oneByte p.present && twoBytes p.jib && oneByte p.ts && twoBytes p.tw && oneByte p.tt && oneByte p.ma && oneByte p.mr
    && twoBytes p.anemometer && twoBytes p.height && twoBytes p.parkRadius && twoBytes p.parkHeight
    && oneByte p.autoClaim && oneByte p.source

/-- Every field of a footprint fits its bytes (Table 1-6). -/
def Footprint.wf (f : Footprint) : Bool :=
  oneByte f.crane && oneByte f.kind && twoBytes f.start && twoBytes f.span && twoBytes f.low && twoBytes f.high

/-- Every field of a cell record fits its bytes (Table 1-6). -/
def CellRec.wf (r : CellRec) : Bool :=
  oneByte r.kind && oneByte r.fixed && oneByte r.takeUp && oneByte r.linger && oneByte r.footprints.length
    && r.footprints.all Footprint.wf

/-- Every field of a REPORT fits its bytes (Table 10-3). -/
def Report.wf (r : Report) : Bool :=
  oneByte r.seq && twoBytes r.slew && signedOneByte r.rate && twoBytes r.radius && signedOneByte r.speed
    && twoBytes r.hook && oneByte r.windSeq && twoBytes r.pulses

/-- Every field of a BOOK fits its bytes (Table 10-3). -/
def BookReq.wf (b : BookReq) : Bool :=
  oneByte b.form && fourBytes b.first && fourBytes b.second && oneByte b.sail && oneByte b.cycles
    && b.path.all oneByte

/-- A crane frame that a port can deliver: its fields fit their bytes, its payload is at most 60 bytes, and a BOOK's
form byte is 0 or 1 (R163, R165, R167). -/
def CraneFrame.wf : CraneFrame → Bool
  | .hello _ => true
  | .report r => r.wf
  | .claim cell cls => oneByte cell && oneByte cls
  | .release cell => oneByte cell
  | .book b => b.wf && decide (b.form ≤ 1) && decide (b.path.length ≤ 48)
  | .cancel id => twoBytes id
  | .liftStart id => twoBytes id
  | .liftEnd id => twoBytes id
  | .liftAbort id => twoBytes id
  | .resume => true
  | .leave => true
  | .query item index segment => oneByte item && twoBytes index && oneByte segment

/-- The bytes after a start byte are a candidate that fails (R164). -/
def failsCheck (bytes : List Byte) : Bool :=
  candidateDone bytes && !candidateGood bytes && decide (bytes.length ≤ 65)

/-- A good frame with these bytes is rejected by the checks of R165. -/
def isRejected (c : CraneIx) (address kind : Byte) (payload : List Byte) : Bool :=
  decide (payload.length ≤ 60) &&
    match judgeFrame c address kind payload with
    | .rejected _ => true
    | .accepted _ _ => false

/-- A command is well formed. -/
def Instr.wf : Instr → Bool
  | .coldReset => true
  | .autoloadRead _ => true
  | .autoloadTimeout => true
  | .frameCheckFailed _ bytes => failsCheck bytes
  | .frameRejected c address kind payload => isRejected c address kind payload
  | .hello _ _ digest => (CraneFrame.hello digest).wf
  | .report _ _ r => (CraneFrame.report r).wf
  | .claim _ _ cell cls => (CraneFrame.claim cell cls).wf
  | .release _ _ cell => (CraneFrame.release cell).wf
  | .book _ _ b => (CraneFrame.book b).wf
  | .cancel _ _ id => (CraneFrame.cancel id).wf
  | .liftStart _ _ id => (CraneFrame.liftStart id).wf
  | .liftEnd _ _ id => (CraneFrame.liftEnd id).wf
  | .liftAbort _ _ id => (CraneFrame.liftAbort id).wf
  | .resume _ _ => CraneFrame.resume.wf
  | .leave _ _ => CraneFrame.leave.wf
  | .query _ _ item index segment => (CraneFrame.query item index segment).wf
  | .transmitComplete _ => true
  | .joinWaitExpiry _ => true
  | .linkTimerExpiry _ => true
  | .qualityPeriodExpiry _ => true
  | .takeUpExpiry _ => true
  | .lingerExpiry _ => true
  | .silenceTimerExpiry _ => true
  | .vaneClearTimerExpiry _ => true
  | .mastPulse => true
  | .ppsPulse => true
  | .pulseWaitTimerExpiry => true
  | .fallbackTimerExpiry => true
  | .supervisorBadFrame bytes => !supervisorFrameGood bytes
  | .supervisorRead _ => true
  | .planBegin => true
  | .planPutSite r => r.wf
  | .planPutCrane index p => oneByte index && p.wf
  | .planPutCell index r => oneByte index && r.wf
  | .planDropCell index => oneByte index
  | .planEnd => true
  | .planErase => true
  | .possession index value => oneByte index && oneByte value
  | .readPlanItem item index => oneByte item && oneByte index
  | .readCrane index => oneByte index
  | .readCell index => oneByte index
  | .readBooking id => twoBytes id
  | .nextBooking id => twoBytes id
  | .setClock time => fourBytes time
  | .detach index => oneByte index
  | .forceVane index => oneByte index
  | .setWindSource index value => oneByte index && oneByte value
  | .supervisorBook index b => oneByte index && b.wf && oneByte b.path.length
  | .cancelBooking id => twoBytes id
  | .abortBooking id => twoBytes id
  | .holdBookings index value => oneByte index && oneByte value
  | .readFaults => true
  | .clearFaults _ => true
  | .setFaultMask _ value => oneByte value
  | .setFaultSeverity _ value => oneByte value
  | .warmRestart => true
  | .linkByteReceived _ _ => true
  | .resetHigh => true
  | .replyPlaced => true
  | .unknownCommand code args => (decodeCommand code args).isNone && decide (args.length < 65535)

end Sys2Proof
end

