-- ==== Sys2Proof/Certificates/Slice0/Obligations.lean ====
section
/-! DEFINITION. The statements for the provers, each a named proposition about the model. -/

open Sys2Proof Sys2Proof.Machine

/-! ### The machine -/

/-- A step takes the command at the front of the queue and is `exec` of it on the state with the queue's rest; no step
stops, and each leaves the queue one command shorter. -/
def Obligations.StepRunsFrontCommand : Prop :=
  (∀ (s : State) (i : Instr) (rest : List Instr), s.pending = i :: rest →
     step s = exec i { s with pending := rest }) ∧
   ∀ s : State, stepSafe s

/-- With an empty queue a step is the model's own choice (entries 1, 2): nothing while RESET is low; receivers with
waiting bytes are served; else the timers that have run out expire, in some order, each where it still stands at 0 in
its turn, so that one alone has its whole effect; else every running timer counts down one tick. -/
def Obligations.EmptyQueueServesExpiresOrTicks : Prop :=
  ∀ s : State, s.pending = [] →
    let due := allTimers.filter fun x => s.dev.timer x == some 0
    ∃ t, step s = .next t ∧ t.pending = [] ∧
      (s.dev.resetLow = true → t = s) ∧
      (s.dev.resetLow = false → (∃ c, (s.dev.port c).waiting ≠ 0) → t.dev = servePorts s.dev) ∧
      (s.dev.resetLow = false → (∀ c, (s.dev.port c).waiting = 0) →
        (due = [] → t.dev = s.dev.tickTimers ∧ (∀ x, t.dev.timer x = (s.dev.timer x).map (· - 1)) ∧
          t.dev.clock.lastPulse = s.dev.clock.lastPulse.map (· + 1)) ∧
        (due ≠ [] → ∃ order : List Timer, order.Perm due ∧
          t.dev = order.foldl (fun d x => if d.timer x = some 0 then expire x d else d)
            { s.dev with picks := s.dev.picks + due.length }) ∧
        ∀ x, due = [x] → t.dev = expire x { s.dev with picks := s.dev.picks + 1 })

/-- RESET high gives every block its cold reset values and begins autoload (R171, R18); RESET low gives them too and
holds the part there: no load, no output driven, and no command but those of the pin changes anything (R171, entry 5).
The counter of free choices, the model's own, runs on (entry 3). -/
def Obligations.ResetPinSetsColdValues : Prop :=
  (∀ s : State,
     (∃ t, exec .resetHigh s = .next t ∧ t.pending = s.pending ∧ t.dev.coldValues ∧ t.dev.resetLow = false ∧
       t.dev.picks = s.dev.picks ∧
       t.dev.load = some ⟨.header, none, 0, ⟨t.dev.plan.site, t.dev.plan.cranes, t.dev.plan.cells⟩, 300⟩) ∧
     ∃ t, exec .coldReset s = .next t ∧ t.pending = s.pending ∧ t.dev.coldValues ∧ t.dev.resetLow = true ∧
       t.dev.picks = s.dev.picks ∧ t.dev.load = none ∧ t.dev.ready = false ∧ t.dev.alert = false ∧
       t.dev.alarm = false ∧ ∀ c, (t.dev.port c).sending = none) ∧
   (∀ (i : Instr) (s : State), s.dev.resetLow = true → i ≠ .coldReset → i ≠ .resetHigh → exec i s = .next s)

/-! ### Laws that every step keeps -/

/-- The state right after reset satisfies every law of `Safety`. -/
def Obligations.ResetStateIsLawful : Prop :=
  State.reset.dev.faults.lawful ∧ (∀ c, (State.reset.dev.windOf c).classesLawful ∧ (State.reset.dev.windOf c).rangesLawful) ∧
    State.reset.dev.permitsLawful ∧ (∀ c, (State.reset.dev.port c).lawful) ∧
    (∀ k, (State.reset.dev.cell k).lawful) ∧ State.reset.dev.tableLawful ∧ State.reset.dev.planLawful

/-- The first-fault pointer names a pending kind and comes with the context captured for it, in every state a step
answers (R176, R177, R180). -/
def Obligations.FaultPointerNamesPendingKind : Prop :=
  ∀ s t : State, s.dev.faults.lawful → step s = .next t → t.dev.faults.lawful

/-- Permitted sail classes stay nested, L in M in S, and empty in HALT and VANE (R120); hold run, live run, recent speeds
and the mean accumulator stay in their ranges (R99, R107, R110). -/
def Obligations.WindRecordsStayLawful : Prop :=
  (∀ s t : State, (∀ c, (s.dev.windOf c).classesLawful) → step s = .next t → ∀ c, (t.dev.windOf c).classesLawful) ∧
   (∀ s t : State, (∀ c, (s.dev.windOf c).rangesLawful) → step s = .next t → ∀ c, (t.dev.windOf c).rangesLawful)

/-- The weathervane law: every permit held, being sent or waiting that shows brake RELEASE stops every axis and the
hoist, and comes from VANE, free or forced; and a permit is composed with brake RELEASE exactly in VANE_FORCED, and in
VANE_FREE where the crane is parked and is holder at class WEATHERVANE of every cell in which it has a JIB footprint
(R94). -/
def Obligations.WeathervaneLawKept : Prop :=
  (∀ s t : State, s.dev.permitsLawful → step s = .next t → t.dev.permitsLawful) ∧
   ∀ (d : Device) (c : CraneIx) (seq : Nat),
     (compose d c seq).lawful ∧
       ((compose d c seq).release = true ↔
         (d.windOf c).state = .vane .forced ∨ ((d.windOf c).state = .vane .vaneFree ∧ d.readyToVane c))

/-- Rescan buffers, line stores and transmit queues stay within their bounds, and no frame waits behind an idle
transmitter (R164, R166). -/
def Obligations.LinkBuffersStayBounded : Prop :=
  ∀ s t : State, (∀ c, (s.dev.port c).lawful) → step s = .next t → ∀ c, (t.dev.port c).lawful

/-- In every cell a crane has at most one queue entry, the holder neither waits nor intrudes, no crane intrudes
twice, and INTRUDED follows the intruder list (R57, R62, R76). -/
def Obligations.ClaimRecordsStayLawful : Prop :=
  ∀ s t : State, (∀ k, (s.dev.cell k).lawful) → step s = .next t → ∀ k, (t.dev.cell k).lawful

/-- The booking table stays within R140: at most 64 bookings in table order, distinct ids in 1..65535, 1 to 8 path
cells, 1 to 255 cycles, and at most one booking of a crane LIFTING or in HOLD_LOWER. -/
def Obligations.BookingTableStaysLawful : Prop :=
  ∀ s t : State, s.dev.tableLawful → step s = .next t → t.dev.tableLawful

/-- A frame from a crane changes the roster, reach, permit and wind record, the port and the hold of no other crane,
no plan, clock, mast, supervisor port or reset state, and no receiver. -/
def Obligations.CraneFrameTouchesOnlyItsCrane : Prop :=
  ∀ (i : Instr) (c : CraneIx) (restart : Bool) (f : CraneFrame) (s t : State),
    i.craneFrame = some (c, restart, f) → exec i s = .next t →
    s.dev.sameElsewhere c t.dev ∧
      ((t.dev.port c).candidate = (s.dev.port c).candidate ∧ (t.dev.port c).rescan = (s.dev.port c).rescan ∧
        (t.dev.port c).line = (s.dev.port c).line) ∧
      t.dev =
        { s.dev with
          roster := t.dev.roster, reach := t.dev.reach, cells := t.dev.cells, permits := t.dev.permits
          wind := t.dev.wind, bookings := t.dev.bookings, nextId := t.dev.nextId, ports := t.dev.ports
          faults := t.dev.faults }

/-! ### Frames as bytes -/

/-- Decode and encode agree on the crane link: the bytes of every well-formed crane frame, after the start byte, are a
finished candidate that is good and decodes to that frame, and no shorter part of them is finished (R163 to R165,
R167). -/
def Obligations.CraneFramesDecodeAsEncoded : Prop :=
  ∀ (c : CraneIx) (restart : Bool) (f : CraneFrame), f.wf = true →
    candidateDone (encodeCraneFrame c restart f) = true ∧
      decodeCandidate c (encodeCraneFrame c restart f) = f.instr c restart ∧
      ∀ n, n < (encodeCraneFrame c restart f).length → candidateDone ((encodeCraneFrame c restart f).take n) = false

/-- Decode and encode agree on the supervisor port: the bytes of every well-formed supervisor command are a good
frame that decodes to that command (R172, R174, R175). -/
def Obligations.SupervisorFramesDecodeAsEncoded : Prop :=
  ∀ (i : Instr) (l : List Byte), i.wf = true → encodeSupervisorFrame i = some l →
    supervisorFrameGood l = true ∧ decodeTransfer (0x01 :: l) = some i

/-- Frames written out from Tables 10-1 to 10-3, 11-3 and 11-4 decode to the commands they stand for: CLAIM of cell 17
at EMERGENCY by crane 3, RESUME of crane 5 with the restart flag, POSSESSION of cell 9 OPEN, READ_FAULTS; and the two
checksums have their check values over the characters "123456789" (R12, R163). -/
def Obligations.WrittenOutFramesDecode : Prop :=
  (decodeCandidate 3 [0x03, 0x03, 0x02, 0x11, 0x02, 0x1A, 0x62] = .claim 3 false 17 2 ∧
     decodeCandidate 5 [0x85, 0x0A, 0x00, 0xF3, 0xFD] = .resume 5 true ∧
     decodeTransfer [0x01, 0x00, 0x03, 0x08, 0x09, 0x01, 0x89, 0xC8] = some (.possession 9 1) ∧
     decodeTransfer [0x01, 0x00, 0x01, 0x50, 0xA5, 0x58] = some .readFaults) ∧
   (crc16 [0x31, 0x32, 0x33, 0x34, 0x35, 0x36, 0x37, 0x38, 0x39] = 0x29B1#16 ∧
      crc32 [0x31, 0x32, 0x33, 0x34, 0x35, 0x36, 0x37, 0x38, 0x39] = 0xCBF43926#32)

/-- The bytes of a well-formed crane frame, arriving one by one on a port that hunts with nothing waiting, come to
what the frame's command does (R164, R165, R23); a frame row leaves the receiver as it stands (entry 7), and the port
takes each byte at its arrival (entry 8). -/
def Obligations.LinkBytesDeliverTheFrame : Prop :=
  ∀ (c : CraneIx) (restart : Bool) (f : CraneFrame) (s : State) (rest : List Instr),
    f.wf = true → s.dev.resetLow = false → (s.dev.port c).candidate = none → (s.dev.port c).rescan = [] →
    (s.dev.port c).line = [] →
    ∃ t, exec (f.instr c restart) { s with pending := rest } = .next t ∧
      Host.Core.run Sys2Proof.core (encodeCraneFrame c restart f).length.succ
        { s with
          pending := (0xA6 :: encodeCraneFrame c restart f).map (fun b => .linkByteReceived c b) ++ rest } = .next t

/-! ### Reach and wind figures -/

/-- R44: the slew and trolley travels are the products rounded up, at rest 0, ordered as Ts and Tw are, and at most
2540, 3810 and 630; the reach record draws its envelopes from them. -/
def Obligations.TravelsRoundUp : Prop :=
  (∀ (v : Int) (t : Nat), v.natAbs * t ≤ 10 * travel v t ∧ 10 * travel v t < v.natAbs * t + 10) ∧
    (∀ t, travel 0 t = 0) ∧ (∀ (v : Int) (ts tw : Nat), ts ≤ tw → travel v ts ≤ travel v tw) ∧
    (∀ (v : Int) (t : Nat), v.natAbs ≤ 127 →
      (t ≤ 200 → travel v t ≤ 2540) ∧ (t ≤ 300 → travel v t ≤ 3810)) ∧
    (∀ (v : Int) (t : Nat), v.natAbs ≤ 63 → t ≤ 100 → travel v t ≤ 630) ∧
    travel 127 200 = 2540 ∧ travel (-127) 300 = 3810 ∧ travel (-63) 100 = 630 ∧
    ∀ (d : Device) (c : CraneIx) (r : Report),
      let x := reachRecord d c r
      x.stop = drawEnvelope x.pos (d.profile c).jib (travel x.pos.rate (d.profile c).ts)
          (travel x.pos.speed (d.profile c).tt) x.ma x.mr ∧
        x.warn = drawEnvelope x.pos (d.profile c).jib (travel x.pos.rate (d.profile c).tw)
          (travel x.pos.speed (d.profile c).tt) x.ma x.mr

/-- R47: the radial band of both envelopes, clamped to 0..jib length, holds the radius, and a JIB footprint is tested
by angle alone. -/
def Obligations.RadialBandHoldsTheRadius : Prop :=
  (∀ (p : Position) (jib d e ma mr : Nat),
    let v := drawEnvelope p jib d e ma mr
    (p.speed < 0 → (v.rmin : Int) = min (max ((p.radius : Int) - e - mr) 0) jib) ∧
      (0 ≤ p.speed → (v.rmin : Int) = min (max ((p.radius : Int) - mr) 0) jib) ∧
      (0 < p.speed → (v.rmax : Int) = min (max ((p.radius : Int) + e + mr) 0) jib) ∧
      (p.speed ≤ 0 → (v.rmax : Int) = min (max ((p.radius : Int) + mr) 0) jib) ∧
      (p.radius ≤ jib → v.rmin ≤ p.radius ∧ p.radius ≤ v.rmax)) ∧
    (∀ (d : Device) (c : CraneIx) (r : Report),
      let x := reachRecord d c r
      x.stop.rmin = x.warn.rmin ∧ x.stop.rmax = x.warn.rmax ∧ x.pos.radius ≤ (d.profile c).jib) ∧
    ∀ (v w : Envelope) (f : Footprint), f.kind = 0 → v.start = w.start → v.span = w.span →
      intersects v f = intersects w f

/-- R48: when an arc contains an angle, which angle is its last, and when two arcs intersect, for spans 1 to 3600; a
position and an envelope are tested by the same arcs. -/
def Obligations.ArcsContainAndIntersect : Prop :=
  (∀ s l p : Nat, arcContains s l p = true ↔ ((p : Int) - s) % 3600 < l) ∧
    (∀ s l : Nat, s < 3600 → 1 ≤ l → l ≤ 3600 →
      arcEnd s l = (s + l - 1) % 3600 ∧ arcContains s l (arcEnd s l) = true ∧
        (l < 3600 → arcContains s l ((s + l) % 3600) = false)) ∧
    (∀ s l s' l' : Nat, arcsIntersect s l s' l' = true ↔ arcContains s l s' = true ∨ arcContains s' l' s = true) ∧
    (∀ s p : Nat, arcContains s 3600 p = true) ∧
    (∀ s p : Nat, s < 3600 → p < 3600 → (arcContains s 1 p = true ↔ p = s)) ∧
    (∀ s s' : Nat, s < 3600 → s' < 3600 → (arcsIntersect s 1 s' 1 = true ↔ s = s')) ∧
    (∀ (p : Position) (f : Footprint), f.kind = 0 → insideFootprint p f = arcContains f.start f.span p.slew) ∧
    ∀ (v : Envelope) (f : Footprint), f.kind = 0 → intersects v f = arcsIntersect v.start v.span f.start f.span

/-- R106: a real reading is count × scale / 64, rounded down and at most 600; it is what a taken reading produces,
and saturation raises no fault and leaves the channel state. -/
def Obligations.ReadingBecomesSpeed : Prop :=
  (∀ count scale : Nat, count * scale / 64 ≤ 600 → speedOf count scale = count * scale / 64) ∧
    (∀ count scale : Nat, 600 < count * scale / 64 → speedOf count scale = 600) ∧
    (∀ scale, speedOf 0 scale = 0) ∧ (∀ count, count ≤ 600 → speedOf count 64 = count) ∧
    ∀ (c : CraneIx) (count : Nat) (d : Device), count ≠ 65535 →
      ((takeReading c count d).windOf c).recent.getLast? = some (speedOf count (d.profile c).anemometer) ∧
        ((takeReading c count d).windOf c).channel = (d.windOf c).channel ∧
        (takeReading c count d).faults = d.faults

/-- R108: the gust is the rounded mean of the recent speeds, computed at every speed produced, and lies between the
least and the greatest of them. -/
def Obligations.GustIsRoundedMean : Prop :=
  (∀ l : List Nat, l ≠ [] → gustOf l = (l.sum + l.length / 2) / l.length) ∧
    (∀ a b c : Nat, gustOf [a, b, c] = (a + b + c + 1) / 3) ∧ (∀ a b : Nat, gustOf [a, b] = (a + b + 1) / 2) ∧
    (∀ a : Nat, gustOf [a] = a) ∧
    (∀ (l : List Nat) (lo hi : Nat), l ≠ [] → (∀ x ∈ l, lo ≤ x ∧ x ≤ hi) → lo ≤ gustOf l ∧ gustOf l ≤ hi) ∧
    (∀ (r : Site) (s : Nat) (w : WindRec),
      (handleSpeed r s w).lastGust = some (gustOf (handleSpeed r s w).recent) ∧
        (handleSpeed r s w).recent.length = min (w.recent.length + 1) 3) ∧
    ∀ (r : Site) (s : Nat) (w : WindRec), (handleSpeed r s w.warm).lastGust = some s

/-- A produced speed handled: the history takes the gust and keeps the last T; each of L, M, S and VG is set at N gusts
above its limit, cleared where no gust exceeds the limit less the hysteresis, and else kept; the mean takes the rounded
fraction k / 4096 of the distance, toward zero, and stays within 0..153600; VM is set above the vane mean limit,
cleared at or below the limit less the hysteresis, and else kept (R109 to R112). The computed level is the first of
VANE, HALT, WATCH, CALM that R118 gives; an evaluation outside VANE sets the wind state to a level below VANE with the
classes of R120, LIFTING bookings whose class is not allowed going to HOLD_LOWER, and in VANE keeps it with no class
(R119 to R121, R155). -/
def Obligations.FlagsMeanAndLadderFollowSpeeds : Prop :=
  (∀ m s k : Nat, m ≤ 153600 → s ≤ 600 → 1 ≤ k → k ≤ 4095 →
    (m ≤ 256 * s → meanStep m s k = m + (256 * s - m) * k / 4096) ∧
      (256 * s ≤ m → meanStep m s k = m - (m - 256 * s) * k / 4096)) ∧
    (∀ m s k : Nat, meanStep m s k ≤ 153600) ∧
    (∀ (r : Site) (s : Nat) (w : WindRec),
      let m := reportedMean (handleSpeed r s w).mean
      (handleSpeed r s w).mean = meanStep w.mean s r.filterK ∧
        (r.vaneMean < m → (handleSpeed r s w).flagVM = true) ∧
        (m ≤ r.vaneMean → m ≤ r.vaneMean - r.hysteresis → (handleSpeed r s w).flagVM = false) ∧
        (m ≤ r.vaneMean → r.vaneMean - r.hysteresis < m → (handleSpeed r s w).flagVM = w.flagVM)) ∧
    (∀ (r : Site) (s : Nat) (w : WindRec),
      let t := handleSpeed r s w
      let gust := gustOf t.recent
      let judged := fun (limit : Nat) (before after : Bool) =>
        (r.triggerN ≤ (t.history.filter fun g => limit < g).length → after = true) ∧
          ((t.history.filter fun g => limit < g).length < r.triggerN →
            ((∀ g ∈ t.history, g ≤ limit - r.hysteresis) → after = false) ∧
              ((∃ g ∈ t.history, limit - r.hysteresis < g) → after = before))
      t.history.length ≤ r.windowT ∧
        (w.history.length < r.windowT → t.history = w.history ++ [gust]) ∧
        (w.history.length = r.windowT → 1 ≤ r.windowT → t.history = w.history.tail ++ [gust]) ∧
        judged r.gustL w.flagL t.flagL ∧ judged r.gustM w.flagM t.flagM ∧ judged r.gustS w.flagS t.flagS ∧
        judged r.vaneGust w.flagVG t.flagVG) ∧
    ∀ (d : Device) (c : CraneIx),
      let w := d.windOf c
      let set := fun (state : WindState) (classes : SailSet) => { d with
        wind := d.wind.set c { w with state := state, classes := classes }
        bookings := d.bookings.map fun b =>
          if b.crane = c ∧ b.state = .lifting ∧ classes.has b.sail = false then { b with state := .holdLower } else b }
      let noClass := SailSet.mk false false false
      let upClasses := SailSet.mk (!w.flagM && !w.flagL) (!w.flagM) true
      (w.flagVG = true ∨ w.flagVM = true → d.level c = .vane) ∧
      (w.flagVG = false → w.flagVM = false →
        (w.flagS = true ∨ (d.source c = .link ∧ w.channel ≠ .live) → d.level c = .halt) ∧
        (w.flagS = false → (d.source c = .link → w.channel = .live) →
          (w.flagL = true ∨ w.flagM = true → d.level c = .watch) ∧
          (w.flagL = false → w.flagM = false → d.level c = .calm))) ∧
      (w.state.isVane = true → evaluate c d = set w.state noClass) ∧
      (w.state.isVane = false →
        (d.level c = .calm → evaluate c d = set .calm upClasses) ∧ (d.level c = .watch → evaluate c d = set .watch upClasses) ∧
        (d.level c = .halt → evaluate c d = set .halt noClass))

/-! ### Faults -/

/-- A raise of a pending kind changes nothing; of another it sets the kind pending, and captures kind, context and
site time exactly where the pointer is none and the kind is UNMASKED (section 11.3). -/
def Obligations.FirstUnmaskedRaiseCaptures : Prop :=
  ∀ (d : Device) (k : FaultKind) (crane cell booking : Option Nat),
    ((d.faultEntry k).pending = true → d.raise k crane cell booking = d) ∧
      ((d.faultEntry k).pending = false →
        let t := d.raise k crane cell booking
        t.faultEntry k = { d.faultEntry k with pending := true } ∧
          (∀ j, j ≠ k → t.faultEntry j = d.faultEntry j) ∧
          (d.faults.pointer = none → (d.faultEntry k).masked = false →
            t.faults.pointer = some k ∧ t.faults.context = some ⟨k, crane, cell, booking, d.clock.siteTime⟩) ∧
          (d.faults.pointer ≠ none ∨ (d.faultEntry k).masked = true →
            t.faults.pointer = d.faults.pointer ∧ t.faults.context = d.faults.context) ∧
          t = { d with faults := t.faults })

/-- R178: ALERT is high exactly while some kind is pending and UNMASKED, ALARM exactly while such a kind has severity
ALARM, both low while RESET is low; ALARM comes with ALERT. -/
def Obligations.AlertAndAlarmFollowEntries : Prop :=
  ∀ d : Device,
    (d.alert = true ↔
      d.resetLow = false ∧ ∃ k, (d.faultEntry k).pending = true ∧ (d.faultEntry k).masked = false) ∧
      (d.alarm = true ↔
        d.resetLow = false ∧
          ∃ k, (d.faultEntry k).pending = true ∧ (d.faultEntry k).masked = false ∧ (d.faultEntry k).alarm = true) ∧
      (d.alarm = true → d.alert = true)

/-- R180: CLEAR_FAULTS clears the kinds named, empties pointer and context where the pointer's kind is among them,
and leaves all else, ALERT and ALARM taking the levels of the entries; a set that names a kind outside Table 11-2 is
refused INVALID; and a raise before or after it ends as the order gives. -/
def Obligations.ClearFaultsClearsNamedKinds : Prop :=
  let levels := fun (t : Device) => t.resetLow = false →
    (t.alert = true ↔ ∃ k, (t.faultEntry k).pending = true ∧ (t.faultEntry k).masked = false) ∧
      (t.alarm = true ↔
        ∃ k, (t.faultEntry k).pending = true ∧ (t.faultEntry k).masked = false ∧ (t.faultEntry k).alarm = true)
  (∀ (kinds : BitVec 16) (s : State), s.takesCommands → kinds.toNat < 8192 →
    ∃ t, exec (.clearFaults kinds) s = .next t ∧
      t = s.answered 0x51 .ok [] { s.dev with faults := t.dev.faults } ∧ levels t.dev ∧
      (∀ k : FaultKind, kinds.getLsbD k.ix = true →
        t.dev.faultEntry k = { s.dev.faultEntry k with pending := false }) ∧
      (∀ k : FaultKind, kinds.getLsbD k.ix = false → t.dev.faultEntry k = s.dev.faultEntry k) ∧
      (∀ k, s.dev.faults.pointer = some k → kinds.getLsbD k.ix = true →
        t.dev.faults.pointer = none ∧ t.dev.faults.context = none) ∧
      (∀ k, s.dev.faults.pointer = some k → kinds.getLsbD k.ix = false →
        t.dev.faults.pointer = some k ∧ t.dev.faults.context = s.dev.faults.context) ∧
      (s.dev.faults.pointer = none → t.dev.faults.pointer = none ∧ t.dev.faults.context = s.dev.faults.context) ∧
      (∀ (k : FaultKind) (a b e : Option Nat), t.dev.faults.pointer = none → (t.dev.faultEntry k).pending = false →
        (t.dev.faultEntry k).masked = false →
        (t.dev.raise k a b e).faults.context = some ⟨k, a, b, e, t.dev.clock.siteTime⟩)) ∧
    (∀ (kinds : BitVec 16) (s : State), s.takesCommands → 8192 ≤ kinds.toNat →
      exec (.clearFaults kinds) s = .next (s.answered 0x51 .invalid [] s.dev)) ∧
    ∀ (kinds : BitVec 16) (k : FaultKind) (d : Device) (a b e : Option Nat), kinds.toNat < 8192 →
      kinds.getLsbD k.ix = true →
      ((clearFaults kinds (d.raise k a b e)).dev.faultEntry k).pending = false ∧
        (((clearFaults kinds d).dev.raise k a b e).faultEntry k).pending = true ∧
        levels (clearFaults kinds (d.raise k a b e)).dev ∧ levels ((clearFaults kinds d).dev.raise k a b e)

/-- SET_FAULT_MASK and SET_FAULT_SEVERITY give each kind named the value and change nothing else, no pointer and no
context captured; a kind or value out of range is refused INVALID with nothing changed (section 11.4). -/
def Obligations.MasksAndSeveritiesAreSet : Prop :=
  ∀ (kinds : BitVec 16) (s : State), s.takesCommands →
    (∀ value, value ≤ 1 → kinds.toNat < 8192 →
      (∃ t, exec (.setFaultMask kinds value) s = .next t ∧
        t = s.answered 0x52 .ok [] { s.dev with faults := { s.dev.faults with entries := t.dev.faults.entries } } ∧
        (∀ k : FaultKind, t.dev.faultEntry k =
          if kinds.getLsbD k.ix then { s.dev.faultEntry k with masked := decide (value = 1) }
          else s.dev.faultEntry k)) ∧
      ∃ t, exec (.setFaultSeverity kinds value) s = .next t ∧
        t = s.answered 0x53 .ok [] { s.dev with faults := { s.dev.faults with entries := t.dev.faults.entries } } ∧
        ∀ k : FaultKind, t.dev.faultEntry k =
          if kinds.getLsbD k.ix then { s.dev.faultEntry k with alarm := decide (value = 1) }
          else s.dev.faultEntry k) ∧
    ∀ value, 8192 ≤ kinds.toNat ∨ 1 < value →
      exec (.setFaultMask kinds value) s = .next (s.answered 0x52 .invalid [] s.dev) ∧
        exec (.setFaultSeverity kinds value) s = .next (s.answered 0x53 .invalid [] s.dev)

/-! ### The Supervisor Port -/

/-- READ_FAULTS is answered OK in every plan state with the fault record, and the placing of a reply makes the port
REPLY_WAITING, that of READ_FAULTS taking the levels of ALERT and ALARM as they then stand, before the record; nothing
else changes. The record gives for each kind pending, mask (0 MASKED, 1 UNMASKED) and severity, then the pointer, then
the context record, whose fields are absent where it is empty (R170, R174, R176, R179, entry 15). -/
def Obligations.FaultRecordIsReadWhole : Prop :=
  (∀ s : State, s.dev.resetLow = false → s.dev.sup = .idle →
    exec .readFaults s = .next (s.answered 0x50 .ok (faultBytes s.dev) s.dev)) ∧
    (∀ (s : State) (r : SupReply), s.dev.resetLow = false → s.dev.sup = .serving r →
      (r.echo = some 0x50 ∧ r.code = .ok →
        exec .replyPlaced s = .next { s with dev := { s.dev with sup := .waiting ⟨r.echo, r.code,
          (if s.dev.alert then 1 else 0) :: (if s.dev.alarm then 1 else 0) :: r.values⟩ } }) ∧
      (¬(r.echo = some 0x50 ∧ r.code = .ok) →
        exec .replyPlaced s = .next { s with dev := { s.dev with sup := .waiting r } })) ∧
    ∀ d : Device, (faultBytes d).length = 49 ∧
      (∀ k : FaultKind, ((faultBytes d).drop (3 * k.ix.val)).take 3 =
        [if (d.faultEntry k).pending then 1 else 0, if (d.faultEntry k).masked then 0 else 1,
          if (d.faultEntry k).alarm then 1 else 0]) ∧
      (d.faults.pointer = none → (faultBytes d)[39]? = some 255) ∧
      (∀ k, d.faults.pointer = some k → (faultBytes d)[39]? = some (byte k.ix.val)) ∧
      (d.faults.context = none → (faultBytes d).drop 40 = [255, 255, 255, 0, 0, 255, 255, 255, 255]) ∧
      ∀ x, d.faults.context = some x →
        (faultBytes d)[40]? = some (byte x.kind.ix.val) ∧
          (∀ n, x.crane = some n → (faultBytes d)[41]? = some (byte n)) ∧
          (x.crane = none → (faultBytes d)[41]? = some 255) ∧
          (∀ n, x.cell = some n → (faultBytes d)[42]? = some (byte n)) ∧
          (x.cell = none → (faultBytes d)[42]? = some 255) ∧
          ((faultBytes d).drop 43).take 2 = beBytes 2 (x.booking.getD 0) ∧
          (∀ n, x.siteTime = some n → (faultBytes d).drop 45 = beBytes 4 n) ∧
          (x.siteTime = none → (faultBytes d).drop 45 = [255, 255, 255, 255])

/-- Every command of Table 11-4 is dropped in SERVING, answered BUSY over the waiting reply in REPLY_WAITING, and, but
for READ_FAULTS, refused BUSY in IDLE while the plan is LOADING. A bad command frame is answered INVALID with no command
echoed in IDLE, dropped in SERVING, and answered BUSY over the waiting reply; a frame that names no command is answered
INVALID in every plan state. Nothing else changes (sections 11.1 and 11.2, entry 25). -/
def Obligations.PortStatesDecideWhatIsServed : Prop :=
  (∀ (i : Instr) (code : Nat) (args : List Byte) (s : State), commandBytes i = some (code, args) →
     s.dev.resetLow = false →
     (∀ r, s.dev.sup = .serving r → exec i s = .next s) ∧
       (∀ r, s.dev.sup = .waiting r →
         exec i s = .next { s with dev := { s.dev with sup := .waiting ⟨some (byte code), .busy, []⟩ } }) ∧
       (s.dev.sup = .idle → s.dev.planState = .loading → i ≠ .readFaults →
         exec i s = .next (s.answered (byte code) .busy [] s.dev))) ∧
   (∀ s : State, s.dev.resetLow = false →
      (∀ bytes, s.dev.sup = .idle →
        exec (.supervisorBadFrame bytes) s = .next { s with dev := { s.dev with sup := .waiting ⟨none, .invalid, []⟩ } }) ∧
      (∀ bytes r, s.dev.sup = .serving r → exec (.supervisorBadFrame bytes) s = .next s) ∧
      (∀ bytes r, s.dev.sup = .waiting r →
        exec (.supervisorBadFrame bytes) s =
          .next { s with dev := { s.dev with sup := .waiting ⟨bytes[2]?, .busy, []⟩ } }) ∧
      (∀ code args, s.dev.sup = .idle →
        exec (.unknownCommand code args) s = .next (s.answered code .invalid [] s.dev)) ∧
      (∀ code args r, s.dev.sup = .serving r → exec (.unknownCommand code args) s = .next s) ∧
      ∀ code args r, s.dev.sup = .waiting r →
        exec (.unknownCommand code args) s =
          .next { s with dev := { s.dev with sup := .waiting ⟨some code, .busy, []⟩ } })

/-- A read transfer in REPLY_WAITING shifts out all ones and then the waiting reply, which is consumed where it is
shifted out whole and else stays; in IDLE and SERVING it shifts out all ones and changes nothing else. READY is high
exactly in REPLY_WAITING (section 11.1). -/
def Obligations.ReadTransferTakesTheReply : Prop :=
  ∀ (s : State) (n : Nat), s.dev.resetLow = false →
    (∀ r, s.dev.sup = .waiting r → s.dev.ready = true ∧
      (r.bytes.length ≤ n → ∃ t, exec (.supervisorRead n) s = .next t ∧
        t = { s with dev := { s.dev with sup := .idle, sdo := t.dev.sdo } } ∧ t.dev.ready = false ∧
        t.dev.sdo.length = n + 1 ∧ t.dev.sdo.take (r.bytes.length + 1) = 255 :: r.bytes) ∧
      (n < r.bytes.length →
        exec (.supervisorRead n) s = .next { s with dev := { s.dev with sdo := 255 :: r.bytes.take n } })) ∧
    (s.dev.sup = .idle ∨ (∃ r, s.dev.sup = .serving r) → s.dev.ready = false ∧
      exec (.supervisorRead n) s = .next { s with dev := { s.dev with sdo := List.replicate (n + 1) 255 } })

/-! ### The Plan Store -/

/-- PLAN_BEGIN opens an edit session, and PLAN_ERASE empties the plan, where every crane is ABSENT and no booking
lives; else BUSY, and PLAN_BEGIN in EDITING WRONG_STATE. PLAN_END makes a valid plan ACTIVE with its digest, the CRC-32
of its canonical image, and every possession CLOSED; an invalid plan stays in EDITING and the reply carries the
violation, which the status item records; outside EDITING it is refused WRONG_STATE (sections 1.5, 1.7, 1.8). -/
def Obligations.PlanSessionsBeginEndAndErase : Prop :=
  (∀ s : State, s.takesCommands →
     (s.dev.planState = .editing → exec .planBegin s = .next (s.answered 0x01 .wrongState [] s.dev)) ∧
     ((∀ c, s.dev.membership c = .absent) → s.dev.bookings = [] →
       (s.dev.planState ≠ .editing →
         exec .planBegin s = .next (s.answered 0x01 .ok [] { s.dev with planState := .editing })) ∧
       exec .planErase s = .next (s.answered 0x07 .ok []
         { s.dev with
           plan := ⟨⟨1, 2, 3, 100, 140, 200, 250, 180, 20, 30, 3, 7, 64, 100, 10, 5, 1, 120⟩,
             Vector.replicate 10 ⟨0, 0, 0, 0, 0, 0, 0, 0, 0, 0, 0, 0, 0⟩, Vector.replicate 48 none⟩
           possession := Vector.replicate 48 .closed
           digest := 0#32
           planState := .empty })) ∧
     ((∃ c, s.dev.membership c ≠ .absent) ∨ s.dev.bookings ≠ [] →
       (s.dev.planState ≠ .editing → exec .planBegin s = .next (s.answered 0x01 .busy [] s.dev)) ∧
       exec .planErase s = .next (s.answered 0x07 .busy [] s.dev))) ∧
   (∀ s : State, s.takesCommands →
      (s.dev.planState ≠ .editing → exec .planEnd s = .next (s.answered 0x06 .wrongState [] s.dev)) ∧
      (s.dev.planState = .editing →
        (validate s.dev.plan = none → exec .planEnd s = .next (s.answered 0x06 .ok
          (beBytes 4 (crc32 (canonicalImage s.dev.plan)).toNat)
          { s.dev with
            validation := some .pass
            digest := crc32 (canonicalImage s.dev.plan)
            possession := Vector.replicate 48 .closed
            planState := .active })) ∧
        ∀ v, validate s.dev.plan = some v → exec .planEnd s = .next (s.answered 0x06 .invalid (violationBytes v)
          { s.dev with validation := some (.failed v) })))

/-- PLAN_PUT_SITE and PLAN_PUT_CRANE store a record that passes its own checks, and answer INVALID with the number of
the check violated, or WRONG_STATE outside EDITING, and change nothing (section 1.8). -/
def Obligations.PlanPutsStoreCheckedRecords : Prop :=
  ∀ s : State, s.takesCommands →
    (s.dev.planState ≠ .editing → ∀ r i p,
      exec (.planPutSite r) s = .next (s.answered 0x02 .wrongState [] s.dev) ∧
        exec (.planPutCrane i p) s = .next (s.answered 0x03 .wrongState [] s.dev)) ∧
    (s.dev.planState = .editing →
      (∀ r, siteInRange r = false → exec (.planPutSite r) s = .next (s.answered 0x02 .invalid [1] s.dev)) ∧
      (∀ r, siteInRange r = true → gustsAscend r = false →
        exec (.planPutSite r) s = .next (s.answered 0x02 .invalid [2] s.dev)) ∧
      (∀ r, siteInRange r = true → gustsAscend r = true →
        exec (.planPutSite r) s = .next (s.answered 0x02 .ok [] { s.dev with plan := { s.dev.plan with site := r } })) ∧
      (∀ i p, 10 ≤ i → exec (.planPutCrane i p) s = .next (s.answered 0x03 .invalid [3] s.dev)) ∧
      ∀ (c : CraneIx) (p : Profile),
        (1 < p.present ∨ (p.present = 1 ∧ profileInRange p = false) →
          exec (.planPutCrane c.val p) s = .next (s.answered 0x03 .invalid [3] s.dev)) ∧
        (p.present = 1 → profileInRange p = true → p.tw < p.ts →
          exec (.planPutCrane c.val p) s = .next (s.answered 0x03 .invalid [4] s.dev)) ∧
        (p.present = 0 ∨ (p.present = 1 ∧ profileInRange p = true ∧ p.ts ≤ p.tw) →
          exec (.planPutCrane c.val p) s = .next (s.answered 0x03 .ok []
            { s.dev with plan := { s.dev.plan with cranes := s.dev.plan.cranes.set c p } })))

/-- PLAN_PUT_CELL and PLAN_DROP_CELL by the table of R15: WRONG_STATE outside EDITING, INVALID, FIXED, the check
violated, and else the cell replaced or dropped with its possession CLOSED; a time of 255 stands for an omitted one,
20 s and 3 s (section 1.8, R174). -/
def Obligations.CellPutsAndDropsFollowTheTable : Prop :=
  ∀ s : State, s.takesCommands →
    (s.dev.planState ≠ .editing → ∀ i r,
      exec (.planPutCell i r) s = .next (s.answered 0x04 .wrongState [] s.dev) ∧
        exec (.planDropCell i) s = .next (s.answered 0x05 .wrongState [] s.dev)) ∧
    (s.dev.planState = .editing →
      (∀ i r, 48 ≤ i → exec (.planPutCell i r) s = .next (s.answered 0x04 .invalid [] s.dev) ∧
        exec (.planDropCell i) s = .next (s.answered 0x05 .invalid [] s.dev)) ∧
      ∀ k : CellIx,
        (∀ old r, s.dev.cellRec k = some old → old.fixed = 1 →
          exec (.planPutCell k.val r) s = .next (s.answered 0x04 .fixedCell [] s.dev) ∧
            exec (.planDropCell k.val) s = .next (s.answered 0x05 .fixedCell [] s.dev)) ∧
        ((∀ old, s.dev.cellRec k = some old → old.fixed ≠ 1) →
          (∀ r n f, cellCheck s.dev.plan true (fillOmitted r) = some (n, f) →
            exec (.planPutCell k.val r) s = .next (s.answered 0x04 .invalid [byte n] s.dev)) ∧
          (∀ r, cellCheck s.dev.plan true (fillOmitted r) = none →
            exec (.planPutCell k.val r) s = .next (s.answered 0x04 .ok []
              { s.dev with
                plan := { s.dev.plan with
                  cells := s.dev.plan.cells.set k (some { r with
                    takeUp := if r.takeUp = 255 then 20 else r.takeUp
                    linger := if r.linger = 255 then 3 else r.linger }) }
                possession := s.dev.possession.set k .closed })) ∧
          (s.dev.cellRec k = none → exec (.planDropCell k.val) s = .next (s.answered 0x05 .ok [] s.dev)) ∧
          (s.dev.cellRec k ≠ none → exec (.planDropCell k.val) s = .next (s.answered 0x05 .ok []
            { s.dev with
              plan := { s.dev.plan with cells := s.dev.plan.cells.set k none }
              possession := s.dev.possession.set k .closed }))))

/-- Every step keeps: an ACTIVE plan is valid and has its own digest, and while the plan is not ACTIVE every crane is
ABSENT and no booking lives, a load running in LOADING alone (R7, R8, section 1.6). What a plan that passes validation
satisfies throughout: constants in range with gust limits ascending, and in every defined cell 1 to 4 footprints, at
most one per crane and at most one JIB, each of a present crane, each HOOK band above its crane's park radius and
within its jib length, FIXED cells PROTECTED. -/
def Obligations.ActivePlansAreValid : Prop :=
  (∀ s t : State, s.dev.planLawful → step s = .next t → t.dev.planLawful) ∧
  ∀ p : Plan, validate p = none →
    siteInRange p.site = true ∧ p.site.gustL < p.site.gustM ∧ p.site.gustM < p.site.gustS ∧
      p.site.gustS < p.site.vaneGust ∧
      (∀ c : CraneIx, p.cranes[c].present = 1 → profileInRange p.cranes[c] = true ∧ p.cranes[c].ts ≤ p.cranes[c].tw) ∧
      ∀ (k : CellIx) (r : CellRec), p.cells[k] = some r →
        1 ≤ r.footprints.length ∧ r.footprints.length ≤ 4 ∧ (r.fixed = 1 → r.kind = 1) ∧
          (r.footprints.map fun f => f.crane).Nodup ∧
          (r.footprints.filter fun f => f.kind == 0).length ≤ 1 ∧
          ∀ f ∈ r.footprints, ∃ c : CraneIx, c.val = f.crane ∧ p.cranes[c].present = 1 ∧
            (f.kind = 0 ∨ (f.kind = 1 ∧ p.cranes[c].parkRadius < f.low ∧ f.low ≤ f.high ∧ f.high ≤ p.cranes[c].jib))

/-- POSSESSION by the table of R6: INVALID for an index or value out of range, WRONG_STATE unless the plan is ACTIVE
and the cell defined and PROTECTED, else the cell's possession takes the value and nothing else changes. -/
def Obligations.PossessionFollowsTheTable : Prop :=
  ∀ (s : State) (index value : Nat), s.takesCommands →
    (48 ≤ index ∨ 1 < value → exec (.possession index value) s = .next (s.answered 0x08 .invalid [] s.dev)) ∧
    (∀ k : CellIx, k.val = index → value ≤ 1 →
      (s.dev.planState ≠ .active ∨ s.dev.cellRec k = none ∨ (∃ r, s.dev.cellRec k = some r ∧ r.kind ≠ 1) →
        exec (.possession index value) s = .next (s.answered 0x08 .wrongState [] s.dev)) ∧
      (∀ r, s.dev.planState = .active → s.dev.cellRec k = some r → r.kind = 1 →
        exec (.possession index value) s = .next (s.answered 0x08 .ok []
          { s.dev with possession := s.dev.possession.set k (if value = 1 then .opened else .closed) })))

/-- The reading commands answer OK with the record named, as it stands, change nothing, and refuse an index out of
range INVALID and a booking id that is not live UNKNOWN_BOOKING (sections 1.10, 2.7, 4.10 and 8.8; NEXT_BOOKING with id
0 on an empty table, and the clock in refusals, are entry 16). The booking record has the 39 bytes of Table 10-7, the
cell claim record its fields in the order of R84, and the crane record the parts of six blocks in the order of R170 (R40,
R56, R98, R116, R132, R150), signed numbers, the history's count and flags being written as entry 20 has them. -/
def Obligations.ReadingCommandsAnswerTheRecord : Prop :=
  ∀ s : State, s.takesCommands →
    (∀ index, exec (.readPlanItem 0 index) s = .next (s.answered 0x10 .ok (siteBytes s.dev.plan.site) s.dev) ∧
      exec (.readPlanItem 3 index) s = .next (s.answered 0x10 .ok (statusBytes s.dev) s.dev)) ∧
    (∀ c : CraneIx,
      exec (.readPlanItem 1 c.val) s = .next (s.answered 0x10 .ok (profileBytes (s.dev.profile c)) s.dev) ∧
        exec (.readCrane c.val) s = .next (s.answered 0x11 .ok (craneBytes s.dev c) s.dev)) ∧
    (∀ k : CellIx,
      exec (.readPlanItem 2 k.val) s = .next (s.answered 0x10 .ok (planCellBytes s.dev k) s.dev) ∧
        exec (.readCell k.val) s = .next (s.answered 0x12 .ok (claimBytes s.dev k) s.dev)) ∧
    (∀ index, 10 ≤ index →
      exec (.readPlanItem 1 index) s = .next (s.answered 0x10 .invalid [] s.dev) ∧
        exec (.readCrane index) s = .next (s.answered 0x11 .invalid [] s.dev)) ∧
    (∀ index, 48 ≤ index →
      exec (.readPlanItem 2 index) s = .next (s.answered 0x10 .invalid [] s.dev) ∧
        exec (.readCell index) s = .next (s.answered 0x12 .invalid [] s.dev)) ∧
    (∀ item index, 3 < item → exec (.readPlanItem item index) s = .next (s.answered 0x10 .invalid [] s.dev)) ∧
    (∀ id b, s.dev.booking id = some b →
      exec (.readBooking id) s = .next (s.answered 0x13 .ok (clockBytes s.dev ++ bookingBytes b) s.dev)) ∧
    (∀ id, s.dev.booking id = none →
      exec (.readBooking id) s = .next (s.answered 0x13 .unknownBooking (clockBytes s.dev) s.dev)) ∧
    (∀ b l, s.dev.bookings = b :: l →
      exec (.nextBooking 0) s = .next (s.answered 0x14 .ok (clockBytes s.dev ++ bookingBytes b) s.dev)) ∧
    (s.dev.bookings = [] → exec (.nextBooking 0) s = .next (s.answered 0x14 .ok (clockBytes s.dev) s.dev)) ∧
    (∀ id, 1 ≤ id → s.dev.booking id = none →
      exec (.nextBooking id) s = .next (s.answered 0x14 .unknownBooking (clockBytes s.dev) s.dev)) ∧
    (∀ l b x l', 1 ≤ b.id → s.dev.bookings = l ++ b :: x :: l' → (∀ y ∈ l, y.id ≠ b.id) →
      exec (.nextBooking b.id) s = .next (s.answered 0x14 .ok (clockBytes s.dev ++ bookingBytes x) s.dev)) ∧
    ∀ l b, 1 ≤ b.id → s.dev.bookings = l ++ [b] → (∀ y ∈ l, y.id ≠ b.id) →
      exec (.nextBooking b.id) s = .next (s.answered 0x14 .ok (clockBytes s.dev) s.dev) ∧
    (∀ b : Booking, b.path.length ≤ 8 →
      let l := bookingBytes b
      let part := fun (from' n : Nat) => (l.drop from').take n
      l.length = 39 ∧ part 0 2 = beBytes 2 b.id ∧ l[2]? = some (byte b.crane.val) ∧
        l[3]? = some (match b.state with
          | .pending => (0 : Byte) | .opened => 1 | .lifting => 2 | .holdLower => 3 | .suspended => 4 | .chained => 5) ∧
        (∀ x y, b.window = some (x, y) → part 4 8 = beBytes 4 x ++ beBytes 4 y) ∧
        (b.window = none → part 4 8 = List.replicate 8 255) ∧ part 12 2 = beBytes 2 b.length ∧
        part 14 8 = beBytes 4 b.reservedStart ++ beBytes 4 b.reservedEnd ∧
        l[22]? = some (match b.sail with | .l => (0 : Byte) | .m => 1 | .s => 2) ∧ l[23]? = some (byte b.path.length) ∧
        part 24 8 = (b.path.map fun k => byte k.val) ++ List.replicate (8 - b.path.length) 255 ∧
        l[32]? = some (byte b.cycles) ∧ part 33 4 = beBytes 2 (b.pred.getD 0) ++ beBytes 2 (b.succ.getD 0) ∧
        l[37]? = some (if b.overrun then (1 : Byte) else 0) ∧
        l[38]? = some (match b.origin with | .crane => (0 : Byte) | .supervisor => 1)) ∧
    (∀ (d : Device) (k : CellIx),
      let l := claimBytes d k
      let r := d.cell k
      let cls := fun (x : ClaimClass) => (match x with
        | .weathervane => 0 | .lost => 1 | .emergency => 2 | .booked => 3 | .free => 4 : Byte)
      l.length = 13 + 2 * r.queue.length + r.inhibit.length + r.intruders.length ∧ l[0]? = some (byte k.val) ∧
        (r.standing = .free → (l.drop 1).take 7 = [0, 255, 255, 255, 255, 255, 255]) ∧
        (∀ c x n, r.standing = .granted c x n →
          (l.drop 1).take 7 = [1, byte c.val, cls x] ++ beBytes 2 n ++ [255, 255]) ∧
        (∀ c x, r.standing = .held c x none → (l.drop 1).take 7 = [2, byte c.val, cls x, 255, 255, 255, 255]) ∧
        (∀ c x n, r.standing = .held c x (some n) →
          (l.drop 1).take 7 = [2, byte c.val, cls x, 255, 255] ++ beBytes 2 n) ∧
        (∀ c x, r.standing = .draining c x → (l.drop 1).take 7 = [3, byte c.val, cls x, 255, 255, 255, 255]) ∧
        l.drop 8 = byte r.queue.length :: (r.queue.flatMap fun w => [byte w.crane.val, cls w.cls]) ++
          byte r.inhibit.length :: (r.inhibit.map fun c => byte c.val) ++
          byte r.intruders.length :: (r.intruders.map fun c => byte c.val) ++
          [if r.contested then 1 else 0, if r.intruded then 1 else 0]) ∧
    ∀ (d : Device) (c : CraneIx),
      let x := d.crane c
      let w := d.windOf c
      let opt : Nat → Option Nat → List Byte := fun n v => match v with
        | some v => beBytes n v | none => List.replicate n 255
      let flag : Bool → Byte := fun b => if b then 1 else 0
      let relation : Relation → Nat := fun v => match v with
        | .outside => 0 | .near => 1 | .approaching => 2 | .inside => 3
      let slew : SlewDir → Nat := fun v => match v with | .positive => 0 | .negative => 1
      let limit : Limit → Byte := fun v => match v with | .free => 0 | .slow => 1 | .stop => 2
      let quality : Quality → Byte := fun v => match v with | .good => 0 | .degraded => 1
      let wind : WindState → List Byte := fun v => match v with
        | .calm => [0, 255] | .watch => [1, 255] | .halt => [2, 255]
        | .vane .clearing => [3, 0] | .vane .vaneFree => [3, 1] | .vane .forced => [3, 2]
      let sails : SailSet → List Byte := fun v => byte (v.l.toNat + v.m.toNat + v.s.toNat) ::
        ((if v.l then [0] else []) ++ (if v.m then [1] else []) ++ if v.s then [2] else [])
      let speeds : List Nat → List Byte := fun v => byte v.length :: v.flatMap (beBytes 2)
      let cells : List CellIx → List Byte := fun v => byte v.length :: v.map fun k => byte k.val
      let ids := (d.bookings.filter fun b => b.crane == c).map fun b => b.id
      craneBytes d c =
        byte c.val :: (match x.membership with | .absent => 0 | .joining => 1 | .admitted => 2 | .lost => 3) ::
          quality x.quality :: byte x.errored :: byte x.lastPeriod :: opt 2 (x.joinWait.or x.link) ++
        (match d.reachOf c with
          | none => ([0] : List Byte)
          | some r => 1 :: beBytes 2 r.pos.slew ++ [byteOfInt r.pos.rate] ++ beBytes 2 r.pos.radius ++
            [byteOfInt r.pos.speed] ++ beBytes 2 r.pos.hook ++ beBytes 2 r.ma ++ [byte r.mr] ++
            ([r.stop, r.warn].flatMap fun v => beBytes 2 v.start ++ beBytes 2 v.span ++ beBytes 2 v.rmin ++
              beBytes 2 v.rmax) ++
            byte r.entries.length :: r.entries.flatMap fun e =>
              byte e.cell.val :: byte (relation e.now) :: opt 1 (e.prev.map relation) ++ opt 1 (e.slewToward.map slew) ++
                opt 1 (e.trolleyToward.map fun v => match v with | .out => 0 | .inward => 1) ++
                opt 1 (e.slewExit.map slew) ++
                opt 1 (e.trolleyExit.map fun v => match v with | .inward => 0 | .out => 1)) ++
        (match d.permitOf c with
          | none => ([0] : List Byte)
          | some p => 1 :: byte p.seq :: limit p.slewPlus :: limit p.slewMinus :: limit p.trolleyOut ::
            limit p.trolleyIn :: flag p.hoistStop :: flag p.release :: wind p.wind ++ sails p.classes ++
            [quality p.quality] ++ (match p.booking with
              | some (id, st) => beBytes 2 id ++ [match st with
                | .pending => (0 : Byte) | .opened => 1 | .lifting => 2 | .holdLower => 3 | .suspended => 4 | .chained => 5]
              | none => ([0, 0, 255] : List Byte)) ++
            cells p.heldList ++ cells p.grantedList ++ cells p.vacateList ++ cells p.waitingList) ++
        ((match w.source with | .profile => (0 : Byte) | .link => 1 | .mast => 2) ::
          (match d.source c with | .link => (0 : Byte) | .mast => 1) ::
          (match w.channel with | .warming => (0 : Byte) | .live => 1 | .stale => 2) :: opt 1 w.lastSeq ++ speeds w.recent ++
          [byte w.holdRun, byte w.liveRun] ++ opt 2 w.silence ++ opt 2 w.lastGust ++ speeds w.history ++
          beBytes 3 w.mean ++ beBytes 2 (reportedMean w.mean) ++
          [flag w.flagL, flag w.flagM, flag w.flagS, flag w.flagVG, flag w.flagVM] ++ beBytes 2 d.mast.lastCount ++
          beBytes 2 d.mast.speed) ++
        (wind w.state ++ sails w.classes ++ opt 2 w.vaneTimer ++
          [match d.level c with | .calm => (0 : Byte) | .watch => 1 | .halt => 2 | .vane => 3]) ++
        flag (d.hold c) :: speeds ids

/-- A load reads the memory at target address 0x54 group by group, each at the address after the last byte read. The
groups, each read whole, move it on: header to site, then cranes, cells and trailer as the selector names them; the
trailer of a staging copy that matches and is valid makes it the ACTIVE plan. A load that ends with a cause leaves the
plan as it stood, EMPTY with digest 0, records the cause and raises PLAN_LOAD_FAILED, a validation violation offering
the crane or cell it names: no acknowledge or 300 ticks passed READ, then SIGNATURE, whatever follows it, SELECTOR,
STRUCTURE, DIGEST and VALIDATION; outside a load nothing is read (section 1.9, entries 2, 9, 11). -/
def Obligations.AutoloadEndsActiveOrEmpty : Prop :=
  (∀ (s : State) (l : Load), s.dev.resetLow = false → s.dev.load = some l →
     (∀ sel : Byte, l.group = .header → 1 ≤ sel.toNat → sel.toNat ≤ 3 →
       exec (.autoloadRead (some [0xC3, 0xA9, sel])) s = .next { s with dev := { s.dev with
         load := some { l with group := .site, selector := some sel.toNat, address := l.address + 3 } } }) ∧
     (∀ bytes sel, l.group = .site → l.selector = some sel → bytes.length = 27 →
       exec (.autoloadRead (some bytes)) s = .next { s with dev := { s.dev with
         load := some { l with
           group := if sel < 2 then .trailer else .cranes
           address := l.address + 27
           staging := { l.staging with site := readSite bytes } } } }) ∧
     (∀ bytes sel, l.group = .cranes → l.selector = some sel → bytes.length = 190 →
       ∃ t, exec (.autoloadRead (some bytes)) s = .next t ∧
         t = { s with dev := { s.dev with load := t.dev.load } } ∧
         ∃ l', t.dev.load = some l' ∧ l'.group = (if sel = 3 then .cells else .trailer) ∧
           l'.selector = some sel ∧ l'.address = l.address + 190 ∧ l'.remaining = l.remaining ∧
           l'.staging.site = l.staging.site ∧ l'.staging.cells = l.staging.cells ∧
           ∀ c : CraneIx, l'.staging.cranes[c] = readProfile ((bytes.drop (19 * c.val)).take 19)) ∧
     (∀ bytes cells n, l.group = .cells → readCellGroup bytes = .cells cells n →
       exec (.autoloadRead (some bytes)) s = .next { s with dev := { s.dev with
         load := some { l with group := .trailer, address := l.address + n, staging := placeCells cells l.staging } } }) ∧
     (∀ bytes, l.group = .trailer → bytes.length = 4 →
       planDigest l.staging = BitVec.ofNat 32 (beNat bytes) → validate l.staging = none →
       exec (.autoloadRead (some bytes)) s = .next { s with dev := { s.dev with
         load := none
         plan := l.staging
         digest := planDigest l.staging
         possession := Vector.replicate 48 .closed
         validation := some .pass
         autoloadResult := some .pass
         planState := .active } })) ∧
   (∀ d : Device, (d.load = none → d.planRead = none) ∧ ∀ l, d.load = some l →
      d.planRead = some ⟨0x54, beBytes 2 l.address, match l.group with
        | .header => some 3 | .site => some 27 | .cranes => some 190 | .cells => none | .trailer => some 4⟩) ∧
   (∀ s : State, s.dev.resetLow = false →
      (s.dev.load = none → ∀ data, exec (.autoloadRead data) s = .next s ∧ exec .autoloadTimeout s = .next s) ∧
      (∀ l, s.dev.load = some l →
        let failed := fun (cause : AutoloadResult) (crane cell : Option Nat) (d : Device) =>
          State.mk
            (Device.raise
              { d with
                load := none
                digest := 0#32
                autoloadResult := some cause
                planState := PlanState.empty }
              .planLoadFailed crane cell none)
            s.pending
        exec (.autoloadRead none) s = .next (failed .read none none s.dev) ∧
          (l.remaining = 0 → exec .autoloadTimeout s = .next (failed .read none none s.dev)) ∧
          (l.remaining ≠ 0 → exec .autoloadTimeout s = .next s) ∧
          (∀ (a b : Byte) (rest : List Byte), l.group = .header → ¬(a = 0xC3 ∧ b = 0xA9) →
            exec (.autoloadRead (some (a :: b :: rest))) s = .next (failed .signature none none s.dev)) ∧
          (∀ sel : Byte, l.group = .header → sel = 0 ∨ 4 ≤ sel.toNat →
            exec (.autoloadRead (some [0xC3, 0xA9, sel])) s = .next (failed .selector none none s.dev)) ∧
          (∀ bytes, l.group = .cells → readCellGroup bytes = .bad →
            exec (.autoloadRead (some bytes)) s = .next (failed .structureFailure none none s.dev)) ∧
          (∀ bytes, l.group = .trailer → bytes.length = 4 →
            (planDigest l.staging ≠ BitVec.ofNat 32 (beNat bytes) →
              exec (.autoloadRead (some bytes)) s = .next (failed .digest none none s.dev)) ∧
            (∀ v, planDigest l.staging = BitVec.ofNat 32 (beNat bytes) → validate l.staging = some v →
              exec (.autoloadRead (some bytes)) s = .next (failed .validation
                (match v.item with | .crane i => some i | _ => none)
                (match v.item with | .cell k _ => some k | _ => none)
                { s.dev with validation := some (.failed v) })))))

/-! ### The crane links -/

/-- A frame made for a crane is sent at once, waits where one is being sent and fewer than four wait, and is discarded
where four wait; TRANSMIT_COMPLETE sends the oldest that waits; no other port and no other block changes (section
10.3). A PERMIT has the 38 bytes of Table 10-4, each cell list a 48-bit map, and a REPLY those of Table 10-5, its bytes at
offsets 4 to 7 free where it carries no record (entry 13); around them stands the frame of Table 10-1, a good one, with
the restart flag clear (sections 10.1 and 10.4). -/
def Obligations.FramesAreQueuedAndLaidOut : Prop :=
  (∀ (d : Device) (c : CraneIx) (f : TxFrame),
    ((d.port c).sending = none →
      d.sendFrame c f = { d with ports := d.ports.set c { d.port c with sending := some f } }) ∧
    ((d.port c).sending ≠ none → (d.port c).queue.length < 4 →
      d.sendFrame c f = { d with ports := d.ports.set c { d.port c with queue := (d.port c).queue ++ [f] } }) ∧
    ((d.port c).sending ≠ none → 4 ≤ (d.port c).queue.length → d.sendFrame c f = d)) ∧
    ∀ (s : State) (c : CraneIx), s.dev.resetLow = false →
      (∀ f g l, (s.dev.port c).sending = some f → (s.dev.port c).queue = g :: l →
        exec (.transmitComplete c) s = .next { s with dev := { s.dev with
          ports := s.dev.ports.set c { s.dev.port c with sending := some g, queue := l } } }) ∧
      (∀ f, (s.dev.port c).sending = some f → (s.dev.port c).queue = [] →
        exec (.transmitComplete c) s = .next { s with dev := { s.dev with
          ports := s.dev.ports.set c { s.dev.port c with sending := none } } }) ∧
      ((s.dev.port c).sending = none → exec (.transmitComplete c) s = .next s) ∧
   (∀ p : Permit,
     let l := permitBytes p
     let limit := fun (x : Limit) => (match x with | .free => 0 | .slow => 1 | .stop => 2 : Byte)
     let listed := fun (at' : Nat) (m : List CellIx) => ∀ k : CellIx,
       ∃ b : Byte, l[at' + k.val / 8]? = some b ∧ (b.getLsbD (k.val % 8) = true ↔ k ∈ m)
     l.length = 38 ∧ l.take 7 = [byte p.seq, limit p.slewPlus, limit p.slewMinus, limit p.trolleyOut, limit p.trolleyIn,
         if p.hoistStop then 1 else 0, if p.release then 1 else 0] ∧
       (l.drop 7).take 2 = (match p.wind with
         | .calm => ([0, 0] : List Byte) | .watch => [1, 0] | .halt => [2, 0]
         | .vane .clearing => [3, 1] | .vane .vaneFree => [3, 2] | .vane .forced => [3, 3]) ∧
       l[9]? = some ((if p.classes.l then (1 : Byte) else 0) + (if p.classes.m then 2 else 0) + if p.classes.s then 4 else 0) ∧
       l[10]? = some (match p.quality with | .good => (0 : Byte) | .degraded => 1) ∧
       (p.booking = none → (l.drop 11).take 3 = [0, 0, 0]) ∧
       (∀ id st, p.booking = some (id, st) → (l.drop 11).take 3 = beBytes 2 id ++ [match st with
         | .pending => (1 : Byte) | .opened => 2 | .lifting => 3 | .holdLower => 4 | .suspended => 5 | .chained => 6]) ∧
       listed 14 p.heldList ∧ listed 20 p.grantedList ∧ listed 26 p.vacateList ∧ listed 32 p.waitingList) ∧
   (∀ r : Reply,
     let l := replyBytes r
     let code := fun (x : ReplyCode) => (match x with
       | .ok => 0 | .queued => 1 | .already => 2 | .notAdmitted => 3 | .unknownCrane => 4 | .noPlan => 5
       | .planMismatch => 6 | .noFootprint => 7 | .isProtected => 8 | .reserved => 9 | .notHolder => 10 | .inCell => 11
       | .wrongState => 12 | .wind => 13 | .conflict => 14 | .full => 15 | .badWindow => 16 | .badChain => 17
       | .noClock => 18 | .held => 19 | .unknownBooking => 20 | .busy => 21 | .fixedCell => 22 | .invalid => 23 : Byte)
     let reason := (match r.reason with
       | .none => 0 | .complete => 1 | .expired => 2 | .cancelled => 3 | .detached => 4 | .chain => 5 : Byte)
     l.take 3 = [byte r.kind, code r.code, reason] ∧ (r.record = none → l[3]? = some 255 ∧ l.length = 8) ∧
       ∀ x, r.record = some x →
         l.drop 3 = byte x.item :: beBytes 2 x.index ++ byte x.segment :: byte x.count :: x.bytes) ∧
   ∀ (c : CraneIx) (f : TxFrame), (∀ r x, f = .reply r → r.record = some x → x.bytes.length ≤ 52) →
     ∃ l, f.bytes c = 0xA6 :: l ∧ candidateDone l = true ∧ candidateGood l = true ∧
       l.take 3 = [byte c.val, match f with | .permit _ => 0x81 | .reply _ => 0x82, byte f.payload.length] ∧
       (l.drop 3).take f.payload.length = f.payload

/-- A byte arriving on a port that hunts with nothing waiting is discarded unless it is 0xA6, which opens a candidate;
on an open candidate it is collected, and a candidate it finishes wrong fails. A byte that arrives while others wait is
held behind them in the line store, and discarded where 66 are held; bytes are taken from the rescan buffer first and
then from the line store, as one sequence (section 10.2). A rejected frame, a REPORT with slew angle above 3599 and a
BOOK with form above 1 add 1 to the errored count of a crane that is not ABSENT, up to 255, and change nothing else. A
failed candidate does so too and slips, the bytes it carries going to the front of the rescan buffer whatever stands
there (entry 7), which keeps the first 65 (entry 8; sections 2.6 and 10.2). -/
def Obligations.ReceiverHuntsAndCountsErrors : Prop :=
  (∀ (s : State) (c : CraneIx) (b : Byte), s.dev.resetLow = false → (s.dev.port c).rescan = [] →
     (s.dev.port c).line = [] →
     ((s.dev.port c).candidate = none → b ≠ 0xA6 → exec (.linkByteReceived c b) s = .next s) ∧
     ((s.dev.port c).candidate = none → b = 0xA6 →
       exec (.linkByteReceived c b) s = .next { s with dev := { s.dev with
         ports := s.dev.ports.set c { s.dev.port c with candidate := some [] } } }) ∧
     (∀ l, (s.dev.port c).candidate = some l → candidateDone (l ++ [b]) = false →
       exec (.linkByteReceived c b) s = .next { s with dev := { s.dev with
         ports := s.dev.ports.set c { s.dev.port c with candidate := some (l ++ [b]) } } }) ∧
     (∀ l, (s.dev.port c).candidate = some l → candidateDone (l ++ [b]) = true → candidateGood (l ++ [b]) = false →
       exec (.linkByteReceived c b) s =
         exec (.frameCheckFailed c (l ++ [b])) { s with dev := { s.dev with
           ports := s.dev.ports.set c { s.dev.port c with candidate := none } } })) ∧
   (∀ (s : State) (c : CraneIx), s.dev.resetLow = false →
      let counted := fun (d : Device) =>
        d.setCrane c { d.crane c with errored := min ((d.crane c).errored + 1) 255 }
      ((s.dev.membership c ≠ .absent → ∀ a k p restart r b, 3600 ≤ r.slew → 1 < b.form →
        exec (.frameRejected c a k p) s = .next { s with dev := counted s.dev } ∧
          exec (.report c restart r) s = .next { s with dev := counted s.dev } ∧
          exec (.book c restart b) s = .next { s with dev := counted s.dev }) ∧
        (s.dev.membership c = .absent → ∀ a k p restart r b, 3600 ≤ r.slew → 1 < b.form →
          exec (.frameRejected c a k p) s = .next s ∧ exec (.report c restart r) s = .next s ∧
            exec (.book c restart b) s = .next s)) ∧
      ∀ bytes, ∃ t, exec (.frameCheckFailed c bytes) s = .next t ∧
        t.dev.port c = { s.dev.port c with
          candidate := none, rescan := (bytes ++ (s.dev.port c).rescan).take 65 } ∧
        (s.dev.membership c ≠ .absent →
          t = { s with dev := { counted s.dev with ports := t.dev.ports } }) ∧
        (s.dev.membership c = .absent → t = { s with dev := { s.dev with ports := t.dev.ports } }) ∧
        ∀ x, x ≠ c → t.dev.port x = s.dev.port x) ∧
   (∀ (s : State) (c : CraneIx) (b : Byte), s.dev.resetLow = false →
      ((s.dev.port c).line.length < 66 → exec (.linkByteReceived c b) s = .next { s with
        dev := servePort c { s.dev with
          ports := s.dev.ports.set c { s.dev.port c with line := (s.dev.port c).line ++ [b] } } }) ∧
      (66 ≤ (s.dev.port c).line.length →
        exec (.linkByteReceived c b) s = .next { s with dev := servePort c s.dev })) ∧
   ∀ (p : Port) (n : Nat),
     let x := p.hunt n
     let y := Port.hunt n { p with rescan := [], line := p.rescan ++ p.line }
     x.2 = y.2 ∧ x.1.candidate = y.1.candidate ∧ x.1.rescan ++ x.1.line = y.1.line ∧
       (x.1.line ≠ p.line → x.1.rescan = [])

/-! ### Membership -/

/-- HELLO: refused NO_PLAN, UNKNOWN_CRANE and PLAN_MISMATCH in that order while ABSENT, the last two raising
JOIN_REFUSED, and else JOINING with join wait 10 s, the quality period and an errored count of 0; in the other states
compared with the digest, a mismatch in JOINING making the crane ABSENT (section 2.3). -/
def Obligations.HelloJoinsOrIsRefused : Prop :=
  ∀ (s : State) (c : CraneIx) (restart : Bool) (digest : BitVec 32), s.dev.resetLow = false →
    let d := s.dev
    let refused := d.raise .joinRefused (some c.val) none none
    (d.membership c = .absent →
      (d.planState ≠ .active → exec (.hello c restart digest) s = .next { s with dev := d.reply c 0x01 .noPlan }) ∧
      (d.planState = .active → (d.profile c).present ≠ 1 →
        exec (.hello c restart digest) s = .next { s with dev := refused.reply c 0x01 .unknownCrane }) ∧
      (d.planState = .active → (d.profile c).present = 1 → digest ≠ d.digest →
        exec (.hello c restart digest) s = .next { s with dev := refused.reply c 0x01 .planMismatch }) ∧
      (d.planState = .active → (d.profile c).present = 1 → digest = d.digest →
        exec (.hello c restart digest) s = .next { s with
          dev := (d.setCrane c { d.crane c with
            membership := .joining, joinWait := some 1000
            qualityTimer := some (100 * d.plan.site.qualityPeriod), errored := 0 }).reply c 0x01 .ok })) ∧
    (d.membership c = .joining →
      (digest = d.digest → exec (.hello c restart digest) s = .next { s with
        dev := (d.setCrane c { d.crane c with joinWait := some 1000 }).reply c 0x01 .ok }) ∧
      (digest ≠ d.digest → ∃ t, exec (.hello c restart digest) s = .next t ∧ d.wentAbsent c t.dev ∧
        t.dev.faults = refused.faults ∧ t.dev.port c = (d.reply c 0x01 .planMismatch).port c)) ∧
    (d.membership c = .lost →
      (digest = d.digest → exec (.hello c restart digest) s = .next { s with dev := d.reply c 0x01 .ok }) ∧
      (digest ≠ d.digest →
        exec (.hello c restart digest) s = .next { s with dev := refused.reply c 0x01 .planMismatch })) ∧
    (s.hears c restart →
      (digest = d.digest →
        exec (.hello c restart digest) s = .next { s with dev := (s.heard c restart).reply c 0x01 .ok }) ∧
      (digest ≠ d.digest → exec (.hello c restart digest) s = .next { s with
        dev := ((s.heard c restart).raise .joinRefused (some c.val) none none).reply c 0x01 .planMismatch }))

/-- A valid REPORT restarts the link timer of an ADMITTED crane, admits a JOINING one and returns a LOST one; it passes
the Reach Unit, the Cell Arbiter, with reconciliation at a return, the auto-claims and the Wind Unit, and the permit is
composed from the records as they stand afterwards and sent; an ABSENT crane is answered NOT_ADMITTED (sections 2.2,
2.4, 3.1, 4.8 and 5.2). A permit's axis limits are the most restrictive of the contributions of Table 5-2, of the
intrusion contributions and of the wind's, from cells the crane neither holds nor has been granted: the slew law; its
hoist, status fields, current booking and four cell lists are those of R92, R95 and R96 (sections 5.3 to 5.5). -/
def Obligations.ReportIsAnsweredByAPermit : Prop :=
  (∀ (s : State) (c : CraneIx) (restart : Bool) (r : Report), s.dev.resetLow = false → r.slew < 3600 →
    let timeout := some s.dev.plan.site.linkTimeout
    let x := s.dev.crane c
    let passed := fun (x' : CraneRec) (how : Arrival) (first : Bool) (reconciled : Device → Device) =>
      ∃ t, exec (.report c restart r) s = .next t ∧ t.dev.crane c = x' ∧
        t.dev.reachOf c = some (reachRecord s.dev c r) ∧ t.dev.permitOf c = some (compose t.dev c r.seq) ∧
        (compose t.dev c r.seq).seq = r.seq ∧
        t.dev.port c = (s.dev.sendFrame c (.permit (compose t.dev c r.seq))).port c ∧
        t.dev = sendPermit c r.seq (windReport c how r (autoClaims c (reportCells c first
          (reconciled ((s.dev.setCrane c x').setReach c (some (reachRecord s.dev c r)))))))
    (s.hears c restart → passed { x with streak := restart, link := timeout } .ordinary false id) ∧
      (x.membership = .joining →
        passed { x with membership := .admitted, joinWait := none, streak := false, link := timeout } .admission true id) ∧
      (x.membership = .lost →
        passed { x with membership := .admitted, link := timeout } .back false (reconcileCells c)) ∧
      (x.membership = .absent →
        exec (.report c restart r) s = .next { s with dev := s.dev.reply c 0x02 .notAdmitted })) ∧
   (∀ (d : Device) (c : CraneIx) (r : Report),
      ((reachRecord d c r).entries.map fun e => e.cell) = allCells.filter (fun k => (d.footprint c k).isSome) ∧
        ∀ e ∈ (reachRecord d c r).entries, (e.now = .inside ↔ e.slewExit ≠ none) ∧
          (e.now = .inside → e.slewToward = none ∧ e.trolleyToward = none)) ∧
   ∀ (d : Device) (c : CraneIx) (seq : Nat),
     let p := compose d c seq
     let w := d.windOf c
     let limits := fun (e : RelEntry) => e ∈ d.relEntries c ∧ (d.cell e.cell).standing.holder ≠ some c
     let clearing := w.state = .vane .clearing ∨ (w.state = .vane .vaneFree ∧ p.release = false)
     let follows := fun (l : Limit) (wind : Prop) (toward exits deeper : RelEntry → Prop) =>
       let stop := wind ∨ ∃ e, limits e ∧ ((e.now = .approaching ∧ toward e) ∨ (e.now = .inside ∧ deeper e))
       (l = .stop ↔ stop) ∧
         (l = .slow ↔ ¬stop ∧ ∃ e, limits e ∧ ((e.now = .near ∧ toward e) ∨ (e.now = .inside ∧ exits e)))
     let lifting := fun (b : Booking) => b.crane = c ∧ (b.state = .lifting ∨ b.state = .holdLower)
     follows p.slewPlus (p.release = true ∨ clearing) (fun e => e.slewToward = some .positive)
         (fun e => e.slewExit = some .positive) (fun e => e.slewExit = some .negative) ∧
       follows p.slewMinus (p.release = true ∨ clearing) (fun e => e.slewToward = some .negative)
         (fun e => e.slewExit = some .negative) (fun e => e.slewExit = some .positive) ∧
       follows p.trolleyOut (p.release = true ∨ clearing) (fun e => e.trolleyToward = some .out)
         (fun e => e.trolleyExit = some .out) (fun e => e.trolleyExit = some .inward) ∧
       follows p.trolleyIn (p.release = true) (fun e => e.trolleyToward = some .inward)
         (fun e => e.trolleyExit = some .inward) (fun e => e.trolleyExit = some .out) ∧
       (p.hoistStop = true ↔ w.state = .halt ∨ w.state = .vane .vaneFree ∨ w.state = .vane .forced ∨
         ∃ b ∈ d.bookings, b.crane = c ∧ b.state = .holdLower) ∧
       (p.seq = seq ∧ p.wind = w.state ∧ p.classes = w.classes ∧ p.quality = (d.crane c).quality) ∧
       (∀ l b l', d.bookings = l ++ b :: l' → lifting b → (∀ x ∈ l, ¬lifting x) → p.booking = some (b.id, b.state)) ∧
       (∀ l b l', d.bookings = l ++ b :: l' → b.crane = c → (∀ x ∈ l, x.crane ≠ c) → (∀ x ∈ d.bookings, ¬lifting x) →
         p.booking = some (b.id, b.state)) ∧
       ((∀ x ∈ d.bookings, x.crane ≠ c) → p.booking = none) ∧
       (∀ k, (k ∈ p.heldList ↔ (∃ x l, (d.cell k).standing = .held c x l) ∨ ∃ x, (d.cell k).standing = .draining c x) ∧
         (k ∈ p.grantedList ↔ ∃ x n, (d.cell k).standing = .granted c x n) ∧
         (k ∈ p.vacateList ↔ ∃ x, (d.cell k).standing = .draining c x) ∧
         (k ∈ p.waitingList ↔ ∃ x ∈ (d.cell k).queue, x.crane = c)) ∧
       ∀ l ∈ [p.heldList, p.grantedList, p.vacateList, p.waitingList], l.Pairwise (· < ·)

/-- A crane becomes LOST when its link timer has run out and expires, and when an ADMITTED crane sends a second flagged
frame in a row, which is discarded without an answer. LINK_LOST is raised; every cell it held or was granted is HELD at
class LOST, and in every other cell with its footprint it holds or waits at class LOST; of its wind record the timers
alone stop (sections 2.4 and 4.9, entry 2). At its return its cells are reconciled: one it is OUTSIDE is given on, one
it is near takes WEATHERVANE, BOOKED or FREE as R79 gives and drains where a stronger waiter or another crane's
reservation asks for it, and its LOST entries are withdrawn (section 4.9). -/
def Obligations.LossAndReturnConvertClaims : Prop :=
  (∀ (s : State) (c : CraneIx) (i : Instr), s.dev.resetLow = false →
    (i = .linkTimerExpiry c ∧ (s.dev.crane c).link = some 0) ∨
      (s.dev.membership c = .admitted ∧ (s.dev.crane c).streak = true ∧
        ∃ f : CraneFrame, i = f.instr c true ∧ (∀ r, f = .report r → r.slew < 3600) ∧ ∀ b, f = .book b → b.form ≤ 1) →
    ∃ t, exec i s = .next t ∧
      t.dev.crane c = { s.dev.crane c with membership := .lost, link := none, streak := false } ∧
      (t.dev.faultEntry .linkLost).pending = true ∧
      (∀ k, (s.dev.cell k).standing.holder = some c → (t.dev.cell k).standing = .held c .lost none) ∧
      (∀ k, (s.dev.cell k).standing.holder ≠ some c → s.dev.footprint c k ≠ none →
        (t.dev.cell k).standing = .held c .lost none ∨ ⟨c, .lost⟩ ∈ (t.dev.cell k).queue) ∧
      t.dev.windOf c = { s.dev.windOf c with silence := none, vaneTimer := none } ∧
      s.dev.sameElsewhere c t.dev ∧
      t = { s with dev := { s.dev with
        roster := t.dev.roster, cells := t.dev.cells, wind := t.dev.wind, faults := t.dev.faults } }) ∧
   ∀ (d : Device) (c : CraneIx) (k : CellIx),
     let t := reconcileCell c d k
     let r := d.cell k
     let vane := (d.windOf c).state.isVane = true ∧ d.hasJib c k = true
     (∀ j, j ≠ k → t.cell j = d.cell j) ∧ t = { d with cells := t.cells, faults := t.faults } ∧
     (r.standing.holder = some c → d.relation c k = .outside → d.givenOn k t) ∧
     (∀ x, r.standing = .held c .lost none → d.relation c k ≠ .outside →
       (vane ∧ x = .weathervane) ∨ (¬vane ∧ d.liftsOver c k ∧ x = .booked) ∨ (¬vane ∧ ¬d.liftsOver c k ∧ x = .free) →
       (r.queue = [] → ¬d.barred c k x → (t.cell k).standing = .held c x none) ∧
         (d.barred c k x → (t.cell k).standing = .draining c x) ∧
         ∀ w l, r.queue = w :: l → d.tier w.cls < d.tier x → (t.cell k).standing = .draining c x) ∧
     (∀ h x, r.queue = [⟨c, .lost⟩] → h ≠ c → r.standing = .held h x none ∨ r.standing = .draining h x →
       d.relation h k ≠ .outside → ¬d.barred h k x →
       (t.cell k).standing = .held h x none ∧ (t.cell k).queue = [] ∧ (t.cell k).contested = false) ∧
     (r.standing.holder ≠ some c → (∀ w ∈ r.queue, w.crane = c → w.cls ≠ .lost) → t = d)

/-- A join wait that has run out expires and makes the crane ABSENT without a reply or a fault, its claims, other
cranes' records and all else as they were; a timer that has not run out has no expiry (entry 2). At the end of a quality
period the errored count against the degrade and clear counts gives the quality, LINK_DEGRADED being raised on the
change from GOOD; the count is copied and cleared and the period restarts (sections 2.3, 2.5 and 2.6). -/
def Obligations.RosterTimersExpire : Prop :=
  (∀ (s : State) (c : CraneIx), s.dev.resetLow = false →
     ((s.dev.crane c).joinWait = some 0 → ∃ t, exec (.joinWaitExpiry c) s = .next t ∧ s.dev.wentAbsent c t.dev ∧
       s.dev.sameElsewhere c t.dev ∧
       (∀ k, (t.dev.cell k).standing = (s.dev.cell k).standing ∧ (t.dev.cell k).queue = (s.dev.cell k).queue ∧
         (t.dev.cell k).contested = (s.dev.cell k).contested ∧
         (t.dev.cell k).intruders = (s.dev.cell k).intruders.filter (· ≠ c) ∧
         (t.dev.cell k).inhibit = (s.dev.cell k).inhibit.filter (· ≠ c)) ∧
       t = { s with dev := { s.dev with
         roster := t.dev.roster, reach := t.dev.reach, permits := t.dev.permits, wind := t.dev.wind
         cells := t.dev.cells } }) ∧
     ((s.dev.crane c).joinWait ≠ some 0 → exec (.joinWaitExpiry c) s = .next s) ∧
     ((s.dev.crane c).link ≠ some 0 → exec (.linkTimerExpiry c) s = .next s)) ∧
   (∀ (s : State) (c : CraneIx), s.dev.resetLow = false →
      let x := s.dev.crane c
      let site := s.dev.plan.site
      let judged := fun (q : Quality) => s.dev.setCrane c { x with
        quality := q, lastPeriod := x.errored, errored := 0, qualityTimer := some (100 * site.qualityPeriod) }
      (x.qualityTimer ≠ some 0 → exec (.qualityPeriodExpiry c) s = .next s) ∧
        (x.qualityTimer = some 0 →
          (site.degradeCount ≤ x.errored → x.quality = .good → exec (.qualityPeriodExpiry c) s =
            .next { s with dev := (judged .degraded).raise .linkDegraded (some c.val) none none }) ∧
          (site.degradeCount ≤ x.errored → x.quality = .degraded →
            exec (.qualityPeriodExpiry c) s = .next { s with dev := judged .degraded }) ∧
          (x.errored < site.degradeCount → x.errored ≤ site.clearCount →
            exec (.qualityPeriodExpiry c) s = .next { s with dev := judged .good }) ∧
          (x.errored < site.degradeCount → site.clearCount < x.errored →
            exec (.qualityPeriodExpiry c) s = .next { s with dev := judged x.quality })))

/-- LEAVE by the table of R34: NOT_ADMITTED, WRONG_STATE and BUSY change nothing but the reply; OK takes the crane's
queue entries away and makes it ABSENT (section 2.5). -/
def Obligations.LeaveFollowsTheTable : Prop :=
  ∀ (s : State) (c : CraneIx) (restart : Bool), s.dev.resetLow = false →
    let left := ∃ t, exec (.leave c restart) s = .next t ∧ s.dev.wentAbsent c t.dev ∧ s.dev.sameElsewhere c t.dev ∧
      t.dev.port c = (s.dev.reply c 0x0B .ok).port c ∧ t.dev.bookings = s.dev.bookings ∧
      ((∀ k, (s.dev.cell k).standing.holder ≠ some c ∧ c ∉ (s.dev.cell k).intruders) →
        ∀ k, (t.dev.cell k).standing.holder ≠ some c ∧ ∀ w ∈ (t.dev.cell k).queue, w.crane ≠ c)
    (s.dev.membership c = .absent →
      exec (.leave c restart) s = .next { s with dev := s.dev.reply c 0x0B .notAdmitted }) ∧
    (s.dev.membership c = .joining → left) ∧
    (s.dev.membership c = .lost →
      exec (.leave c restart) s = .next { s with dev := s.dev.reply c 0x0B .wrongState }) ∧
    (s.hears c restart →
      ((∃ k, (s.dev.cell k).standing.holder = some c) ∨
          (∃ b ∈ s.dev.bookings, b.crane = c ∧ (b.state = .lifting ∨ b.state = .holdLower)) →
        exec (.leave c restart) s = .next { s with dev := (s.heard c restart).reply c 0x0B .busy }) ∧
      ((∀ k, (s.dev.cell k).standing.holder ≠ some c) →
        (∀ b ∈ s.dev.bookings, b.crane = c → b.state ≠ .lifting ∧ b.state ≠ .holdLower) → left))

/-- DETACH: INVALID for an index out of range, WRONG_STATE for an ABSENT crane, else the crane is ABSENT, has no
booking, and, where its cell records are lawful and it intrudes nowhere, no claim (sections 2.5 and 4.9). -/
def Obligations.DetachRemovesTheCrane : Prop :=
  ∀ s : State, s.takesCommands →
    (∀ index, 10 ≤ index → exec (.detach index) s = .next (s.answered 0x30 .invalid [] s.dev)) ∧
    ∀ c : CraneIx,
      (s.dev.membership c = .absent →
        exec (.detach c.val) s = .next (s.answered 0x30 .wrongState [] s.dev)) ∧
      (s.dev.membership c ≠ .absent → ∃ t, exec (.detach c.val) s = .next (s.answered 0x30 .ok [] t) ∧
        s.dev.wentAbsent c t ∧ s.dev.sameElsewhere c t ∧ (∀ b ∈ t.bookings, b.crane ≠ c) ∧
        (∀ b ∈ t.bookings, ∃ b' ∈ s.dev.bookings, b'.id = b.id) ∧
        ((∀ k, (s.dev.cell k).lawful ∧ c ∉ (s.dev.cell k).intruders) →
          ∀ k, (t.cell k).standing.holder ≠ some c ∧ ∀ w ∈ (t.cell k).queue, w.crane ≠ c) ∧
        t = { s.dev with
          roster := t.roster, reach := t.reach, permits := t.permits, wind := t.wind, cells := t.cells
          bookings := t.bookings, faults := t.faults })

/-! ### Claims -/

/-- A CLAIM is refused at the first of the conditions of R60, in order, with nothing changed but the crane's restart
streak, and its code sent (section 4.2). -/
def Obligations.RefusedClaimsChangeNothing : Prop :=
  ∀ (s : State) (c : CraneIx) (restart : Bool) (cell cls : Nat),
    (s.dev.resetLow = false → s.dev.membership c ≠ .admitted →
      exec (.claim c restart cell cls) s = .next { s with dev := s.dev.reply c 0x03 .notAdmitted }) ∧
    (s.hears c restart →
      (48 ≤ cell ∨ (cls ≠ 2 ∧ cls ≠ 4) →
        exec (.claim c restart cell cls) s = .next { s with dev := (s.heard c restart).reply c 0x03 .invalid }) ∧
      ∀ (k : CellIx) (x : ClaimClass), k.val = cell → cls = x.code → x = .free ∨ x = .emergency →
        (s.dev.footprint c k = none →
          exec (.claim c restart cell cls) s =
            .next { s with dev := (s.heard c restart).reply c 0x03 .noFootprint }) ∧
        (s.dev.footprint c k ≠ none → s.dev.protectedCell k = true → s.dev.tier x ≠ 0 →
          exec (.claim c restart cell cls) s =
            .next { s with dev := (s.heard c restart).reply c 0x03 .isProtected }) ∧
        (s.dev.footprint c k ≠ none → s.dev.protectedCell k = false → s.dev.reservedAgainst c k = true →
          s.dev.tier .booked < s.dev.tier x →
          exec (.claim c restart cell cls) s =
            .next { s with dev := (s.heard c restart).reply c 0x03 .reserved }))

/-- A CLAIM at FREE or EMERGENCY that is not refused takes a FREE cell at once: HELD where the crane is INSIDE, else
GRANTED for the take-up time, answered OK; EMERGENCY raises EMERGENCY_CLAIM. On a cell that another crane HOLDS, not
OUTSIDE it, it waits in the queue and is answered QUEUED: a holder of equal or lower tier number stays HELD, a weaker
one goes to DRAINING; a weaker grant is withdrawn, its crane waiting behind (sections 4.2, 4.3 and 4.5). From a crane
with a standing it is answered ALREADY: a stronger class, or EMERGENCY for FREE at equal tier, becomes the holder's or
the entry's class (R61). An auto-claim is raised for an entry exactly where the conditions of R54 hold, at BOOKED over
the crane's running lift and at FREE elsewhere. -/
def Obligations.ClaimIsGrantedOrWaits : Prop :=
  (∀ (s : State) (c : CraneIx) (restart : Bool) (k : CellIx) (x : ClaimClass), s.hears c restart →
     x = .free ∨ x = .emergency → s.dev.footprint c k ≠ none → s.dev.protectedCell k = false →
     ¬(s.dev.reservedAgainst c k = true ∧ s.dev.tier .booked < s.dev.tier x) → s.dev.tier x ≠ 0 →
     (s.dev.cell k).standing = .free → (s.dev.cell k).queue = [] →
     ∃ t, exec (.claim c restart k.val x.code) s = .next t ∧
       (t.dev.cell k).standing = s.dev.standingGranted k c x ∧ (t.dev.cell k).queue = [] ∧
       (t.dev.cell k).inhibit = (s.dev.cell k).inhibit ∧ c ∉ (t.dev.cell k).intruders ∧
       (t.dev.cell k).contested = false ∧ (∀ j, j ≠ k → t.dev.cell j = s.dev.cell j) ∧
       t.dev.port c = (s.dev.reply c 0x03 .ok).port c ∧ s.dev.sameElsewhere c t.dev ∧
       (x = .free → t.dev.faults = s.dev.faults) ∧
       (x = .emergency →
         t.dev.faults = (s.dev.raise .emergencyClaim (some c.val) (some k.val) none).faults) ∧
       t = { s with dev := { s.heard c restart with
         cells := t.dev.cells, ports := t.dev.ports, faults := t.dev.faults } }) ∧
   (∀ (s : State) (c h : CraneIx) (restart : Bool) (k : CellIx) (x hx : ClaimClass) (l : Option Nat),
      s.hears c restart → x = .free ∨ x = .emergency → s.dev.footprint c k ≠ none → s.dev.protectedCell k = false →
      ¬(s.dev.reservedAgainst c k = true ∧ s.dev.tier .booked < s.dev.tier x) → s.dev.tier x ≠ 0 →
      (s.dev.cell k).standing = .held h hx l → h ≠ c → (s.dev.cell k).queue = [] → s.dev.relation h k ≠ .outside →
      ¬(s.dev.reservedAgainst h k = true ∧ s.dev.tier .booked < s.dev.tier hx) →
      ∃ t, exec (.claim c restart k.val x.code) s = .next t ∧
        (t.dev.cell k).queue = [⟨c, x⟩] ∧ (s.dev.tier x < s.dev.tier hx → (t.dev.cell k).standing = .draining h hx) ∧
        (s.dev.tier hx ≤ s.dev.tier x → ∃ l', (t.dev.cell k).standing = .held h hx l') ∧
        (t.dev.cell k).inhibit = (s.dev.cell k).inhibit ∧ (t.dev.cell k).intruders = (s.dev.cell k).intruders ∧
        (∀ j, j ≠ k → t.dev.cell j = s.dev.cell j) ∧
        t.dev.port c = (s.dev.reply c 0x03 .queued).port c ∧ s.dev.sameElsewhere c t.dev ∧
        t = { s with dev := { s.heard c restart with
          cells := t.dev.cells, ports := t.dev.ports, faults := t.dev.faults } }) ∧
   (∀ (s : State) (c : CraneIx) (restart : Bool) (k : CellIx) (x : ClaimClass), s.hears c restart →
      x = .free ∨ x = .emergency → s.dev.footprint c k ≠ none → s.dev.protectedCell k = false →
      ¬s.dev.barred c k x → s.dev.tier x ≠ 0 →
      let r := s.dev.cell k
      let answered := fun (code : ReplyCode) (effect : CellClaim → Prop) =>
        ∃ t, exec (.claim c restart k.val x.code) s = .next t ∧ effect (t.dev.cell k) ∧
          (t.dev.cell k).inhibit = r.inhibit ∧ (∀ j, j ≠ k → t.dev.cell j = s.dev.cell j) ∧
          t.dev.port c = (s.dev.reply c 0x03 code).port c ∧ s.dev.sameElsewhere c t.dev ∧
          (x = .free → t.dev.faults = s.dev.faults) ∧
          t = { s with dev := { s.heard c restart with
            cells := t.dev.cells, ports := t.dev.ports, faults := t.dev.faults } }
      (∀ y z : ClaimClass,
        let stronger := s.dev.tier x < s.dev.tier y ∨ (s.dev.tier x = s.dev.tier y ∧ x = .emergency ∧ y = .free)
        (stronger ∧ z = x) ∨ (¬stronger ∧ z = y) →
        (∀ n, r.standing = .granted c y n → r.queue = [] →
          answered .already fun r' => r'.standing = .granted c z n ∧ r'.queue = []) ∧
        (r.standing = .held c y none → r.queue = [] → s.dev.relation c k ≠ .outside →
          answered .already fun r' => r'.standing = .held c z none ∧ r'.queue = []) ∧
        ∀ h hx, r.queue = [⟨c, y⟩] → h ≠ c → r.standing = .held h hx none → s.dev.relation h k ≠ .outside →
          ¬s.dev.barred h k hx →
          answered .already fun r' => r'.queue = [⟨c, z⟩] ∧
            (stronger → s.dev.tier x < s.dev.tier hx → r'.standing = .draining h hx) ∧
            (¬stronger ∨ s.dev.tier hx ≤ s.dev.tier x → r'.standing = .held h hx none)) ∧
      ∀ h hx n, h ≠ c → r.standing = .granted h hx n → r.queue = [] → ¬s.dev.barred h k hx →
        (s.dev.tier x < s.dev.tier hx →
          answered .queued fun r' => r'.standing = s.dev.standingGranted k c x ∧ r'.queue = [⟨h, hx⟩]) ∧
        (s.dev.tier hx ≤ s.dev.tier x →
          answered .queued fun r' => r'.standing = .granted h hx n ∧ r'.queue = [⟨c, x⟩])) ∧
   ∀ (d : Device) (c : CraneIx) (e : RelEntry),
     let k := e.cell
     let due := (d.profile c).autoClaim = 1 ∧ (e.now = .near ∨ e.now = .approaching) ∧
       (∃ r, d.cellRec k = some r ∧ r.kind = 0) ∧ (d.cell k).standing.holder ≠ some c ∧
       (∀ w ∈ (d.cell k).queue, w.crane ≠ c) ∧ c ∉ (d.cell k).inhibit
     (¬due → autoClaim c d e = d) ∧
       ∀ x, (d.liftsOver c k ∧ x = .booked) ∨ (¬d.liftsOver c k ∧ x = .free) → due →
         autoClaim c d e = request c k x d ∧
           (d.footprint c k ≠ none → ¬d.barred c k x → d.tier x ≠ 0 → (d.cell k).standing = .free →
             (d.cell k).queue = [] → ((autoClaim c d e).cell k).standing = d.standingGranted k c x)

/-- RELEASE by the table of R70: the refusals in order change nothing but the reply; a holder's cell is given on, a
waiter's entry goes and a cell that drained for it returns to HELD; the crane joins the inhibit set unless OUTSIDE
(section 4.4). -/
def Obligations.ReleaseGivesUpTheStanding : Prop :=
  ∀ (s : State) (c : CraneIx) (restart : Bool) (cell : Nat),
    (s.dev.resetLow = false → s.dev.membership c ≠ .admitted →
      exec (.release c restart cell) s = .next { s with dev := s.dev.reply c 0x04 .notAdmitted }) ∧
    (s.hears c restart →
      let refused := fun code => exec (.release c restart cell) s =
        .next { s with dev := (s.heard c restart).reply c 0x04 code }
      (48 ≤ cell → refused .invalid) ∧
      ∀ k : CellIx, k.val = cell →
        ((s.dev.cell k).standing.holder ≠ some c → (∀ w ∈ (s.dev.cell k).queue, w.crane ≠ c) → refused .notHolder) ∧
        (∀ x, (s.dev.cell k).standing.holder = some c → (s.dev.cell k).standing.cls = some x →
          (x ≠ .free → x ≠ .emergency → refused .wrongState) ∧
          (x = .free ∨ x = .emergency →
            (s.dev.relation c k = .inside → refused .inCell) ∧
            (s.dev.relation c k ≠ .inside → ∃ t, exec (.release c restart cell) s = .next t ∧
              s.dev.givenOn k t.dev ∧ s.dev.inhibitJoined c k t.dev ∧
              (∀ j, j ≠ k → t.dev.cell j = s.dev.cell j) ∧
              t.dev.port c = (s.dev.reply c 0x04 .ok).port c ∧ s.dev.sameElsewhere c t.dev ∧
              t = { s with dev := { s.heard c restart with
                cells := t.dev.cells, ports := t.dev.ports, faults := t.dev.faults } }))) ∧
        ∀ (h : CraneIx) (x hx : ClaimClass), (s.dev.cell k).queue = [⟨c, x⟩] → h ≠ c →
          (∃ l, (s.dev.cell k).standing = .held h hx l) ∨ (s.dev.cell k).standing = .draining h hx →
          (x ≠ .free → x ≠ .emergency → refused .wrongState) ∧
          (x = .free ∨ x = .emergency → s.dev.relation h k ≠ .outside →
            ¬(s.dev.reservedAgainst h k = true ∧ s.dev.tier .booked < s.dev.tier hx) →
            ∃ t, exec (.release c restart cell) s = .next t ∧ (t.dev.cell k).queue = [] ∧
              (∃ l', (t.dev.cell k).standing = .held h hx l') ∧ s.dev.inhibitJoined c k t.dev ∧
              (∀ j, j ≠ k → t.dev.cell j = s.dev.cell j) ∧
              t.dev.port c = (s.dev.reply c 0x04 .ok).port c ∧ s.dev.sameElsewhere c t.dev ∧
              t = { s with dev := { s.heard c restart with
                cells := t.dev.cells, ports := t.dev.ports, faults := t.dev.faults } }))

/-- A take-up timer that has run out expires and ends the grant: TAKEUP_LAPSE is raised, the grantee joins the inhibit
set unless OUTSIDE, and the cell is given on; a linger timer that has run out gives the cell on; without such a timer
nothing expires (sections 4.3 and 4.4, entry 2). At a report the six steps of R77 act on the cell of each relation
entry: OUTSIDE takes the crane from the inhibit set, starts the linger of a HELD cell and releases a DRAINING one;
INSIDE takes up a grant; NEAR or closer stops the linger; INSIDE a cell of another is an intrusion, or a grant where the
cell is FREE and a FREE request would pass; and out of the cell the crane leaves the intruder list (R64, R66, R67, R72,
R75, R76). -/
def Obligations.ReportsAndTimersMoveTheCell : Prop :=
  (∀ (s : State) (k : CellIx), s.dev.resetLow = false →
    (∀ c x, (s.dev.cell k).standing = .granted c x 0 → ∃ t, exec (.takeUpExpiry k) s = .next t ∧
      s.dev.givenOn k t.dev ∧ s.dev.inhibitJoined c k t.dev ∧ (t.dev.faultEntry .takeupLapse).pending = true ∧
      (∀ j, j ≠ k → t.dev.cell j = s.dev.cell j) ∧
      t = { s with dev := { s.dev with cells := t.dev.cells, faults := t.dev.faults } }) ∧
    (∀ c x, (s.dev.cell k).standing = .held c x (some 0) → ∃ t, exec (.lingerExpiry k) s = .next t ∧
      s.dev.givenOn k t.dev ∧ (t.dev.cell k).inhibit = (s.dev.cell k).inhibit ∧
      (∀ j, j ≠ k → t.dev.cell j = s.dev.cell j) ∧
      t = { s with dev := { s.dev with cells := t.dev.cells, faults := t.dev.faults } }) ∧
    ((∀ c x, (s.dev.cell k).standing ≠ .granted c x 0) → exec (.takeUpExpiry k) s = .next s) ∧
    ((∀ c x, (s.dev.cell k).standing ≠ .held c x (some 0)) → exec (.lingerExpiry k) s = .next s)) ∧
   ∀ (d : Device) (c : CraneIx) (first : Bool) (e : RelEntry),
     let t := reportCell c first d e
     let r := d.cell e.cell
     let r' := t.cell e.cell
     (∀ j, j ≠ e.cell → t.cell j = d.cell j) ∧ t = { d with cells := t.cells, faults := t.faults } ∧
     (∀ x, x ∈ r'.inhibit ↔ x ∈ r.inhibit ∧ ¬(x = c ∧ e.now = .outside)) ∧
     (e.now ≠ .inside → c ∉ r'.intruders) ∧
     (∀ x n, r.standing = .granted c x n →
       (e.now = .inside → r'.standing = .held c x none ∧ r'.queue = r.queue ∧ c ∉ r'.intruders) ∧
         (e.now ≠ .inside → r'.standing = .granted c x n ∧ r'.queue = r.queue)) ∧
     (∀ x l, r.standing = .held c x l → e.now ≠ .outside → r'.standing = .held c x none ∧ r'.queue = r.queue) ∧
     (∀ x l, r.standing = .held c x l → e.now = .outside → d.relation c e.cell = .outside → ¬d.barred c e.cell x →
       (∀ w ∈ r.queue.head?, d.tier x ≤ d.tier w.cls) →
       let exempt := x = .weathervane ∨ x = .lost ∨ (x = .booked ∧ d.liftsOver c e.cell)
       (exempt → r'.standing = .held c x none) ∧
         (¬exempt → (∀ n, l = some n → r'.standing = .held c x (some n)) ∧
           (l = none → d.lingerTicks e.cell ≠ 0 → r'.standing = .held c x (some (d.lingerTicks e.cell))) ∧
           (l = none → d.lingerTicks e.cell = 0 → d.givenOn e.cell t))) ∧
     (∀ x, r.standing = .draining c x → (e.now = .outside → d.givenOn e.cell t) ∧
       (e.now ≠ .outside → r'.standing = .draining c x ∧ r'.queue = r.queue)) ∧
     (e.now = .inside → r.standing.holder ≠ some c →
       (c ∈ r.intruders → t = d) ∧
       (c ∉ r.intruders →
         (r.standing = .free → freePasses d c e.cell = true → r.queue = [] → d.relation c e.cell = .inside →
           r'.standing = .held c .free none ∧ r'.queue = [] ∧ r'.intruders = r.intruders ∧
             (first = false → (t.faultEntry .intrusion).pending = true) ∧
             (first = true → t.faultEntry .intrusion = d.faultEntry .intrusion)) ∧
         (¬(r.standing = .free ∧ freePasses d c e.cell = true) →
           r'.standing = r.standing ∧ r'.queue = r.queue ∧ r'.intruders = r.intruders ++ [c] ∧ r'.intruded = true ∧
             (t.faultEntry .intrusion).pending = true)))

/-! ### Bookings -/

/-- BOOK, from a crane or the supervisor, that passes every test enters the table under an id that is not live:
PENDING with its window, or CHAINED behind its predecessor with the widest interval; the reply carries the record. A
window that has begun makes it OPEN at once, its reservation coming into force on the path. Said for a table in which
nothing is due, so that window matching acts on the new booking alone (sections 8.2 to 8.4 and 9.1). -/
def Obligations.BookInsertsARecord : Prop :=
  ∀ (s : State) (c : CraneIx) (restart : Bool) (b : BookReq) (sail : Sail) (path : List CellIx) (now : Nat),
    sail? b.sail = some sail → 1 ≤ b.cycles → b.cycles ≤ 255 → s.dev.clock.siteTime = some now →
    b.path = path.map (fun k => k.val) → 1 ≤ path.length → path.length ≤ 8 → path.Nodup →
    (∀ k ∈ path, s.dev.footprint c k ≠ none) → s.dev.bookings.length < 64 → nothingDue now s.dev.bookings →
    let id := s.dev.freshId
    (∀ x ∈ s.dev.bookings, x.id ≠ id) ∧
    (∀ new : Origin → Booking, b.form = 0 → b.first ≤ now → now < b.second → 60 ≤ b.second - b.first →
      b.second - b.first ≤ 14400 →
      (∀ x ∈ s.dev.bookings, overlap b.first b.second x.reservedStart x.reservedEnd = true →
        x.crane ≠ c ∧ ∀ k ∈ path, k ∉ x.path) →
      (∀ o, new o = ⟨id, c, .opened, some (b.first, b.second), b.second - b.first, b.first, b.second, sail, path,
        b.cycles, none, none, false, o⟩) →
      let entered := fun (o : Origin) (d : Device) =>
        reservePath c path { d with bookings := insertBooking (new o) s.dev.bookings, nextId := idAfter id }
      (s.hears c restart → exec (.book c restart b) s = .next { s with
        dev := (entered .crane (s.heard c restart)).sendFrame c
          (.reply ⟨0x05, .ok, .none, some ⟨6, id, 0, 1, bookingBytes (new .crane)⟩⟩) }) ∧
      (s.takesCommands → s.dev.planState = .active → (s.dev.profile c).present = 1 →
        exec (.supervisorBook c.val b) s =
          .next (s.answered 0x40 .ok (bookingBytes (new .supervisor)) (entered .supervisor s.dev)))) ∧
    ∀ (new : Origin → Booking) (table : Origin → List Booking),
      ((b.form = 0 ∧ b.first < b.second ∧ 60 ≤ b.second - b.first ∧ b.second - b.first ≤ 14400 ∧ now < b.first ∧
          (∀ x ∈ s.dev.bookings, overlap b.first b.second x.reservedStart x.reservedEnd = true →
            x.crane ≠ c ∧ ∀ k ∈ path, k ∉ x.path) ∧
          (∀ o, new o = ⟨id, c, .pending, some (b.first, b.second), b.second - b.first, b.first, b.second, sail, path,
            b.cycles, none, none, false, o⟩) ∧
          ∀ o, table o = insertBooking (new o) s.dev.bookings) ∨
        ∃ p, b.form = 1 ∧ s.dev.booking b.first = some p ∧ p.crane = c ∧ p.succ = none ∧ 60 ≤ b.second ∧
          b.second ≤ 14400 ∧ now < p.reservedEnd + b.second ∧
          (∀ x ∈ s.dev.bookings, conflictsWith c p.reservedStart (p.reservedEnd + b.second) path
            (chainBack (s.dev.bookings.length + 1) s.dev.bookings p.id) x = false) ∧
          (∀ o, new o = ⟨id, c, .chained, none, b.second, p.reservedStart, p.reservedEnd + b.second, sail, path,
            b.cycles, some p.id, none, false, o⟩) ∧
          ∀ o, table o = insertBooking (new o)
            (s.dev.bookings.map fun x => if x.id = p.id then { x with succ := some id } else x)) →
      (s.hears c restart → exec (.book c restart b) s = .next { s with
        dev := { s.heard c restart with bookings := table .crane, nextId := idAfter id }.sendFrame c
          (.reply ⟨0x05, .ok, .none, some ⟨6, id, 0, 1, bookingBytes (new .crane)⟩⟩) }) ∧
      (s.takesCommands → s.dev.planState = .active → (s.dev.profile c).present = 1 →
        exec (.supervisorBook c.val b) s = .next (s.answered 0x40 .ok (bookingBytes (new .supervisor))
          { s.dev with bookings := table .supervisor, nextId := idAfter id }))

/-- BOOK is refused at the first condition of Table 8-3 that holds, with nothing changed but a crane's restart streak
(section 8.3): INVALID, NO_CLOCK, NOT_ADMITTED, BAD_WINDOW, NO_FOOTPRINT, BAD_CHAIN, CONFLICT, FULL for a crane, and
NO_PLAN first and UNKNOWN_CRANE for NOT_ADMITTED for the supervisor. -/
def Obligations.RefusedBookChangesNothing : Prop :=
  ∀ (s : State) (c : CraneIx) (restart : Bool) (b : BookReq), b.form ≤ 1 →
    let refused := fun code => s.delivers c restart →
      exec (.book c restart b) s = .next { s with dev := (s.delivered c restart).reply c 0x05 code }
    let refusedSup := fun code => s.takesCommands →
      exec (.supervisorBook c.val b) s = .next (s.answered 0x40 code [] s.dev)
    (s.dev.planState ≠ .active → refusedSup .noPlan) ∧
    (s.takesCommands → s.dev.planState = .active → ∀ index, 10 ≤ index →
      exec (.supervisorBook index b) s = .next (s.answered 0x40 .invalid [] s.dev)) ∧
    (2 < b.sail ∨ b.cycles = 0 ∨ 255 < b.cycles →
      refused .invalid ∧ (s.dev.planState = .active → refusedSup .invalid)) ∧
    (b.sail ≤ 2 → 1 ≤ b.cycles → b.cycles ≤ 255 →
      (s.dev.clock.siteTime = none → refused .noClock ∧ (s.dev.planState = .active → refusedSup .noClock)) ∧
      (s.dev.clock.siteTime ≠ none →
        (s.dev.membership c ≠ .admitted → refused .notAdmitted) ∧
        (s.dev.planState = .active → (s.dev.profile c).present ≠ 1 → refusedSup .unknownCrane) ∧
        ∀ code, judgeBook s.dev c b = .error code →
          (s.dev.membership c = .admitted → refused code) ∧
          (s.dev.planState = .active → (s.dev.profile c).present = 1 → refusedSup code))) ∧
    (∀ now, s.dev.clock.siteTime = some now →
      (b.form = 0 → b.second ≤ b.first ∨ b.second - b.first < 60 ∨ 14400 < b.second - b.first ∨ b.second ≤ now →
        judgeBook s.dev c b = .error .badWindow) ∧
      (b.form = 1 → b.second < 60 ∨ 14400 < b.second → judgeBook s.dev c b = .error .badWindow) ∧
      (badWindow s.dev b = false →
        (b.path = [] ∨ 8 < b.path.length ∨ ¬b.path.Nodup ∨ (∃ n ∈ b.path, 48 ≤ n) ∨
            (∃ k : CellIx, k.val ∈ b.path ∧ s.dev.footprint c k = none) →
          judgeBook s.dev c b = .error .noFootprint) ∧
        ∀ path : List CellIx, b.path = path.map (fun k => k.val) → pathValid s.dev c path = true →
          (b.form = 1 → (s.dev.booking b.first = none ∨ ∃ p, s.dev.booking b.first = some p ∧
              (p.crane ≠ c ∨ p.succ ≠ none ∨ p.reservedEnd + b.second ≤ now)) →
            judgeBook s.dev c b = .error .badChain) ∧
          (b.form = 0 →
            (∃ x ∈ s.dev.bookings, overlap b.first b.second x.reservedStart x.reservedEnd = true ∧
              (x.crane = c ∨ ∃ k ∈ path, k ∈ x.path)) →
            judgeBook s.dev c b = .error .conflict) ∧
          (b.form = 0 → 64 ≤ s.dev.bookings.length →
            (∀ x ∈ s.dev.bookings, overlap b.first b.second x.reservedStart x.reservedEnd = true →
              x.crane ≠ c ∧ ∀ k ∈ path, k ∉ x.path) →
            judgeBook s.dev c b = .error .full)))

/-- CANCEL, CANCEL_BOOKING and ABORT_BOOKING by Table 8-4: refused in its order with nothing changed, else the booking
leaves the table and so does its successor; no other id comes in (section 8.6). -/
def Obligations.CancelledBookingsLeaveTheTable : Prop :=
  ∀ (s : State) (id : Nat),
    (∀ (c : CraneIx) (restart : Bool), s.dev.resetLow = false → s.dev.membership c ≠ .admitted →
      exec (.cancel c restart id) s = .next { s with dev := s.dev.reply c 0x06 .notAdmitted }) ∧
    (s.dev.booking id = none →
      (∀ c restart, s.hears c restart →
        exec (.cancel c restart id) s = .next { s with dev := (s.heard c restart).reply c 0x06 .unknownBooking }) ∧
      (s.takesCommands →
        exec (.cancelBooking id) s = .next (s.answered 0x41 .unknownBooking [] s.dev) ∧
          exec (.abortBooking id) s = .next (s.answered 0x42 .unknownBooking [] s.dev))) ∧
    (∀ b, s.dev.booking id = some b →
      let gone := fun (t : Device) => t.booking id = none ∧
        (∀ n, b.succ = some n → t.booking n = none) ∧ (∀ x ∈ t.bookings, ∃ y ∈ s.dev.bookings, y.id = x.id) ∧
        (b.succ = none → b.state = .pending ∨ b.state = .chained → t.cells = s.dev.cells ∧
          t.bookings = removeBooking id (s.dev.bookings.map fun x =>
            if b.pred = some x.id then { x with succ := none } else x))
      (∀ c restart, s.hears c restart →
        (b.crane ≠ c → exec (.cancel c restart id) s =
          .next { s with dev := (s.heard c restart).reply c 0x06 .unknownBooking }) ∧
        (b.crane = c → b.origin = .supervisor ∨ b.state.running = true → exec (.cancel c restart id) s =
          .next { s with dev := (s.heard c restart).reply c 0x06 .wrongState }) ∧
        (b.crane = c → b.origin = .crane → b.state.running = false →
          ∃ t, exec (.cancel c restart id) s = .next t ∧ gone t.dev ∧
            t.dev.port c = (s.dev.reply c 0x06 .ok).port c ∧ s.dev.sameElsewhere c t.dev ∧
            t = { s with dev := { s.heard c restart with
              cells := t.dev.cells, bookings := t.dev.bookings, ports := t.dev.ports, faults := t.dev.faults } })) ∧
      (s.takesCommands →
        (b.state.running = true → exec (.cancelBooking id) s = .next (s.answered 0x41 .wrongState [] s.dev)) ∧
        (b.state.running = false → ∃ t, exec (.cancelBooking id) s = .next (s.answered 0x41 .ok [] t) ∧ gone t ∧
          t = { s.dev with cells := t.cells, bookings := t.bookings, faults := t.faults }) ∧
        ∃ t, exec (.abortBooking id) s = .next (s.answered 0x42 .ok [] t) ∧ gone t ∧
          t = { s.dev with cells := t.cells, bookings := t.bookings, faults := t.faults }))

/-- SET_CLOCK is refused BUSY while a booking is in a state other than PENDING; else site time takes the value and
windows are matched, which changes nothing where nothing is due; the reply carries site time and the reference state
(entry 19). HOLD_BOOKINGS sets one crane's hold, or is refused INVALID (sections 8.1 and 8.6). Window matching takes the
bookings in table order by the rows of R145: EXPIRED at or past the window end in PENDING, OPEN and SUSPENDED, overrun
in LIFTING and HOLD_LOWER, EXPIRED at or past the reserved end in CHAINED, and PENDING to OPEN at the window start, with
the reservation coming into force on the path (R151). On each path cell that removes weaker entries of other cranes,
drains a weaker HELD holder, and withdraws a weaker grant without queueing its crane (R82). -/
def Obligations.ClockIsSetAndWindowsMatched : Prop :=
  ∀ s : State, s.takesCommands →
    (∀ time, (∃ b ∈ s.dev.bookings, b.state ≠ .pending) →
      exec (.setClock time) s = .next (s.answered 0x20 .busy (clockBytes s.dev) s.dev)) ∧
    (∀ time, (∀ b ∈ s.dev.bookings, b.state = .pending) →
      ∃ t, exec (.setClock time) s = .next (s.answered 0x20 .ok (clockBytes t) t) ∧
        t.clock = { s.dev.clock with siteTime := some time } ∧ (nothingDue time s.dev.bookings →
          t.bookings = s.dev.bookings ∧ t.cells = s.dev.cells ∧ t.faults = s.dev.faults) ∧
        t = { s.dev with clock := t.clock, bookings := t.bookings, cells := t.cells, faults := t.faults }) ∧
    (∀ index value, 10 ≤ index ∨ 1 < value →
      exec (.holdBookings index value) s = .next (s.answered 0x43 .invalid [] s.dev)) ∧
    ∀ (c : CraneIx) (value : Nat), value ≤ 1 →
      exec (.holdBookings c.val value) s = .next (s.answered 0x43 .ok []
        { s.dev with holds := s.dev.holds.set c (decide (value = 1)) }) ∧
   (∀ (d : Device) (now id : Nat) (b : Booking), d.booking id = some b →
      let t := matchBooking now d id
      let expired := t.booking id = none ∧ (t.faultEntry .bookingExpired).pending = true ∧
        ∀ x ∈ t.bookings, ∃ y ∈ d.bookings, y.id = x.id
      let changed := fun (f : Booking → Booking) => t.bookings = d.bookings.map fun x => if x.id = id then f x else x
      (∀ x y, b.window = some (x, y) →
        (b.state = .pending ∨ b.state = .opened ∨ b.state = .suspended → y ≤ now → expired) ∧
        (b.state = .lifting ∨ b.state = .holdLower → y ≤ now →
          changed (fun z => { z with overrun := true }) ∧ t = { d with bookings := t.bookings }) ∧
        (b.state = .pending → now < y → x ≤ now →
          changed (fun z => { z with state := .opened }) ∧ (∀ k, k ∉ b.path → t.cell k = d.cell k) ∧
            t = { d with bookings := t.bookings, cells := t.cells, faults := t.faults }) ∧
        (now < y → b.state = .opened ∨ b.state = .suspended ∨ b.state = .lifting ∨ b.state = .holdLower ∨
          (b.state = .pending ∧ now < x) → t = d)) ∧
      (b.state = .chained → (b.reservedEnd ≤ now → expired) ∧ (now < b.reservedEnd → t = d))) ∧
   (∀ (d : Device) (now : Nat), d.clock.siteTime = some now →
      windowMatching d = (d.bookings.map fun b => b.id).foldl (matchBooking now) d) ∧
   ∀ (d : Device) (b : CraneIx) (k : CellIx),
      let t := reserveCell b d k
      let r := d.cell k
      let kept := r.queue.filter fun w => w.crane = b ∨ d.tier w.cls ≤ d.tier .booked
      (∀ j, j ≠ k → t.cell j = d.cell j) ∧ t = { d with cells := t.cells, faults := t.faults } ∧
      (r.standing = .free → (t.cell k).standing = .free ∧ (t.cell k).queue = kept) ∧
      (∀ h x l, r.standing = .held h x l → d.barred h k x → d.relation h k ≠ .outside →
        (t.cell k).standing = .draining h x ∧ (t.cell k).queue = kept) ∧
      (∀ h x, r.standing = .held h x none → ¬d.barred h k x → d.relation h k ≠ .outside →
        (∀ w ∈ kept.head?, d.tier x ≤ d.tier w.cls) → (t.cell k).standing = .held h x none ∧ (t.cell k).queue = kept) ∧
      (∀ h x n, r.standing = .granted h x n → d.barred h k x →
        (kept = [] → r.intruders = [] → (t.cell k).standing = .free ∧ (t.cell k).queue = []) ∧
          ∀ w, kept = [w] → d.tier w.cls ≠ 0 → ¬d.barred w.crane k w.cls →
            (t.cell k).standing = d.standingGranted k w.crane w.cls ∧ (t.cell k).queue = [])

/-! ### Lifts -/

/-- LIFT_START is refused at the first condition of R153 that holds, LIFT_END and LIFT_ABORT under its first two and
WRONG_STATE where no cycle runs, with nothing changed but the crane's restart streak (sections 9.2, 9.4, 9.5). -/
def Obligations.RefusedLiftsChangeNothing : Prop :=
  (∀ (s : State) (c : CraneIx) (restart : Bool) (id : Nat),
     (s.dev.resetLow = false → s.dev.membership c ≠ .admitted →
       exec (.liftStart c restart id) s = .next { s with dev := s.dev.reply c 0x07 .notAdmitted }) ∧
     (s.hears c restart →
       let refused := fun code => exec (.liftStart c restart id) s =
         .next { s with dev := (s.heard c restart).reply c 0x07 code }
       (s.dev.booking id = none → refused .unknownBooking) ∧
       ∀ b, s.dev.booking id = some b →
         (b.crane ≠ c → refused .unknownBooking) ∧
         (b.crane = c → b.state ≠ .opened → refused .wrongState) ∧
         (b.crane = c → b.state = .opened →
           ((∃ x ∈ s.dev.bookings, x.crane = c ∧ x.state.running = true) → refused .wrongState) ∧
           ((∀ x ∈ s.dev.bookings, x.crane = c → x.state.running = false) →
             (s.dev.hold c = true → refused .held) ∧
             (s.dev.hold c = false →
               ((s.dev.windOf c).state.isCalmOrWatch = false ∨ (s.dev.windOf c).classes.has b.sail = false →
                 refused .wind) ∧
               ((s.dev.windOf c).state.isCalmOrWatch = true → (s.dev.windOf c).classes.has b.sail = true →
                 (∃ k ∈ b.path, s.dev.protectedCell k = true ∧ s.dev.possessionOf k = .closed) →
                 refused .isProtected)))))) ∧
   (∀ (s : State) (c : CraneIx) (restart : Bool) (id : Nat),
      let refused := fun (d : Device) code =>
        exec (.liftEnd c restart id) s = .next { s with dev := d.reply c 0x08 code } ∧
          exec (.liftAbort c restart id) s = .next { s with dev := d.reply c 0x09 code }
      (s.dev.resetLow = false → s.dev.membership c ≠ .admitted → refused s.dev .notAdmitted) ∧
      (s.hears c restart →
        (s.dev.booking id = none → refused (s.heard c restart) .unknownBooking) ∧
        ∀ b, s.dev.booking id = some b →
          (b.crane ≠ c → refused (s.heard c restart) .unknownBooking) ∧
          (b.crane = c → b.state.running = false → refused (s.heard c restart) .wrongState)))

/-- A LIFT_START that is taken makes the booking LIFTING and asks BOOKED for every path cell: a FREE one that no crane
waits for is the crane's at once, HELD where it is INSIDE and else GRANTED; no other cell changes, and the reply carries
the booking's record (section 9.2). -/
def Obligations.LiftStartClaimsThePath : Prop :=
  ∀ (s : State) (c : CraneIx) (restart : Bool) (id : Nat) (b : Booking), s.hears c restart →
    s.dev.booking id = some b → b.crane = c → b.state = .opened →
    (∀ x ∈ s.dev.bookings, x.crane = c → x.state.running = false) → s.dev.hold c = false →
    (s.dev.windOf c).state.isCalmOrWatch = true → (s.dev.windOf c).classes.has b.sail = true →
    (∀ k ∈ b.path, s.dev.protectedCell k = true → s.dev.possessionOf k = .opened) →
    ∃ t, exec (.liftStart c restart id) s = .next t ∧
      t.dev.bookings = (s.dev.bookings.map fun x => if x.id = id then { x with state := .lifting } else x) ∧
      (∀ k, k ∉ b.path → t.dev.cell k = s.dev.cell k) ∧
      (∀ k ∈ b.path, s.dev.footprint c k ≠ none → s.dev.tier .booked ≠ 0 → (s.dev.cell k).standing = .free →
        (s.dev.cell k).queue = [] →
        (t.dev.cell k).standing = s.dev.standingGranted k c .booked ∧ (t.dev.cell k).queue = []) ∧
      t.dev.port c = (s.dev.sendFrame c
        (.reply ⟨0x07, .ok, .none, some ⟨6, id, 0, 1, bookingBytes { b with state := .lifting }⟩⟩)).port c ∧
      s.dev.sameElsewhere c t.dev ∧
      t = { s with dev := { s.heard c restart with
        cells := t.dev.cells, bookings := t.dev.bookings, ports := t.dev.ports, faults := t.dev.faults } }

/-- LIFT_END takes one cycle off and opens the booking again, retires it EXPIRED where it is overrun, and COMPLETE at
the last cycle, a CHAINED successor then opening at once with its window cut at its reserved end; LIFT_ABORT suspends
the booking, or retires it EXPIRED where it is overrun. BOOKED claims on the path become FREE (sections 9.4 to 9.7). -/
def Obligations.LiftStopsEndTheCycle : Prop :=
  ∀ (s : State) (c : CraneIx) (restart : Bool) (id : Nat) (b : Booking), s.hears c restart →
    s.dev.booking id = some b → b.crane = c → b.state.running = true →
    let done := fun (kind : Nat) (i : Instr) (reply : Reply) (effect : Device → Prop) => ∃ t, exec i s = .next t ∧
      effect t.dev ∧ reply.kind = kind ∧ t.dev.port c = (s.dev.sendFrame c (.reply reply)).port c ∧
      s.dev.sameElsewhere c t.dev ∧
      (s.dev.tier .free ≠ 0 →
        ∀ k, k ∈ b.path → ∀ l, (s.dev.cell k).standing = .held c .booked l → (s.dev.cell k).queue = [] →
        s.dev.relation c k = .inside → (∀ x ∈ s.dev.bookings, x.crane ≠ c → k ∉ x.path) →
        (t.dev.cell k).standing = .held c .free l) ∧
      t = { s with dev := { s.heard c restart with
        cells := t.dev.cells, bookings := t.dev.bookings, ports := t.dev.ports, faults := t.dev.faults } }
    let changed := fun (f : Booking → Booking) (t : Device) =>
      t.bookings = (s.dev.bookings.map fun x => if x.id = id then f x else x) ∧
        ∀ k, k ∉ b.path → t.cell k = s.dev.cell k
    let retired := fun (t : Device) => t.booking id = none ∧ (t.faultEntry .bookingExpired).pending = true
    (2 ≤ b.cycles → b.overrun = false →
      done 0x08 (.liftEnd c restart id)
        ⟨0x08, .ok, .none, some ⟨6, id, 0, 1, bookingBytes { b with cycles := b.cycles - 1, state := .opened }⟩⟩
        (changed fun x => { x with cycles := x.cycles - 1, state := .opened })) ∧
    (2 ≤ b.cycles → b.overrun = true →
      done 0x08 (.liftEnd c restart id) ⟨0x08, .ok, .expired, none⟩ retired) ∧
    (b.cycles = 1 → done 0x08 (.liftEnd c restart id) ⟨0x08, .ok, .complete, none⟩ fun t => t.booking id = none ∧
      ∀ n x, b.succ = some n → b.pred = none → n ≠ id → s.dev.booking n = some x →
        t.booking n = some { x with
          state := .opened
          window := some (s.dev.now, min (s.dev.now + x.length) x.reservedEnd)
          reservedStart := s.dev.now
          reservedEnd := min (s.dev.now + x.length) x.reservedEnd
          pred := none }) ∧
    (b.overrun = false →
      done 0x09 (.liftAbort c restart id)
        ⟨0x09, .ok, .none, some ⟨6, id, 0, 1, bookingBytes { b with state := .suspended }⟩⟩
        (changed fun x => { x with state := .suspended })) ∧
    (b.overrun = true → done 0x09 (.liftAbort c restart id) ⟨0x09, .ok, .expired, none⟩ retired)

/-! ### Wind and weathervaning -/

/-- RESUME: NOT_ADMITTED, WIND outside VANE and at computed level VANE, else the crane stands at its computed level
with its timer stopped and its classes recomputed; a weathervane claim on a cell it is OUTSIDE, which no crane asks
for, ends at once (section 7.6). Entry into VANE sets VANE_CLEARING with no class, raises VANE_ENTERED, asks for
WEATHERVANE on every JIB cell, and starts the vane clear timer where the crane is ADMITTED (R122); a rejoin sets
VANE_CLEARING and a return keeps the substate, both ask again and raise no VANE_ENTERED (R129, R130). The clearing
check makes VANE_CLEARING VANE_FREE where the crane is parked and holds its weathervane claims, and drops VANE_FREE back
where it is not (R124, R125); it ends the Wind Unit's handling of each report. -/
def Obligations.VaneIsEnteredClearedAndLeft : Prop :=
  ∀ (s : State) (c : CraneIx) (restart : Bool),
    (s.dev.resetLow = false → s.dev.membership c ≠ .admitted →
      exec (.resume c restart) s = .next { s with dev := s.dev.reply c 0x0A .notAdmitted }) ∧
    (s.hears c restart →
      ((s.dev.windOf c).state.isVane = false ∨ s.dev.level c = .vane →
        exec (.resume c restart) s = .next { s with dev := (s.heard c restart).reply c 0x0A .wind }) ∧
      ((s.dev.windOf c).state.isVane = true → s.dev.level c ≠ .vane →
        ∃ t, exec (.resume c restart) s = .next t ∧
          t.dev.windOf c = { s.dev.windOf c with
            state := match s.dev.level c with | .calm => .calm | .watch => .watch | _ => .halt
            vaneTimer := none
            classes :=
              let up := s.dev.level c == .calm || s.dev.level c == .watch
              ⟨up && !(s.dev.windOf c).flagM && !(s.dev.windOf c).flagL, up && !(s.dev.windOf c).flagM, up⟩ } ∧
          (∀ k l, (s.dev.cell k).standing = .held c .weathervane l → s.dev.relation c k = .outside →
            (s.dev.cell k).queue = [] → (s.dev.cell k).intruders = [] → (t.dev.cell k).standing = .free) ∧
          t.dev.port c = (s.dev.reply c 0x0A .ok).port c ∧ s.dev.sameElsewhere c t.dev ∧
          t = { s with dev := { s.heard c restart with
            wind := t.dev.wind, cells := t.dev.cells, bookings := t.dev.bookings, ports := t.dev.ports
            faults := t.dev.faults } })) ∧
   ∀ (d : Device) (c : CraneIx),
     let w := d.windOf c
     let full := some (100 * d.plan.site.vaneClearLimit)
     let wind := fun (x : WindRec) => { d with wind := d.wind.set c x }
     let asked := fun (t : Device) (x : WindRec) => t.windOf c = x ∧ d.vaneAsked c t ∧
       t = { d with wind := d.wind.set c x, cells := t.cells, faults := t.faults }
     (asked (enterVane c d) { w with
         state := .vane .clearing, classes := ⟨false, false, false⟩
         vaneTimer := if d.membership c = .admitted then full else w.vaneTimer } ∧
       ((enterVane c d).faultEntry .vaneEntered).pending = true) ∧
     (w.state.isVane = false → d.level c = .vane → evaluate c d = windHanding c (enterVane c d)) ∧
     (asked (rejoinVane c d) { w with state := .vane .clearing, vaneTimer := full } ∧
       (rejoinVane c d).faultEntry .vaneEntered = d.faultEntry .vaneEntered) ∧
     (asked (returnVane c d) { w with vaneTimer := if w.state = .vane .clearing then full else w.vaneTimer } ∧
       (returnVane c d).faultEntry .vaneEntered = d.faultEntry .vaneEntered) ∧
     (w.state = .vane .clearing →
       (d.readyToVane c → clearingCheck c d = wind { w with state := .vane .vaneFree, vaneTimer := none }) ∧
         (¬d.readyToVane c → clearingCheck c d = d)) ∧
     (w.state = .vane .vaneFree →
       (d.readyToVane c → clearingCheck c d = d) ∧
         (¬d.readyToVane c → clearingCheck c d = wind { w with state := .vane .clearing, vaneTimer := full })) ∧
     (w.state = .vane .forced ∨ w.state.isVane = false → clearingCheck c d = d) ∧
     ∀ r : Report, windReport c .ordinary r d = clearingCheck c (evaluate c (examineSample c r d)) ∧
       (w.state.isVane = true →
         windReport c .admission r d =
           clearingCheck c (rejoinVane c (evaluate c (examineSample c r (startChannel c d)))) ∧
         windReport c .back r d =
           clearingCheck c (returnVane c (evaluate c (examineSample c r (returnChannel c d))))) ∧
       (w.state.isVane = false →
         windReport c .admission r d = clearingCheck c (evaluate c (examineSample c r (startChannel c d))) ∧
         windReport c .back r d = clearingCheck c (evaluate c (examineSample c r (returnChannel c d))))

/-- Samples: examined under LINK at a new sequence number alone, a gap filled with one or two holds, or at 4 and more
STALE, then the reading; a hold repeats the newest speed and the third in a row makes the channel STALE, WIND_STALE being
raised at each change into STALE; three good samples in a row make it LIVE (R101 to R105). Admission and return start
the channel (R115). A silence timer that has run out makes the channel STALE with live run 0; a crane under LINK with VG
and VM clear, not in VANE, then stands at HALT with no class permitted, and its LIFTING bookings go to HOLD_LOWER. A
vane clear timer that has run out raises VANE_BLOCKED with the lowest JIB cell the crane does not hold at WEATHERVANE;
a timer that has not run out has no expiry (sections 6.3, 6.4, 7.2 and 7.4, entry 2). -/
def Obligations.ChannelFollowsSamplesAndTimers : Prop :=
  (∀ (s : State) (c : CraneIx), s.dev.resetLow = false →
    let w := s.dev.windOf c
    (w.silence ≠ some 0 → exec (.silenceTimerExpiry c) s = .next s) ∧
    (w.vaneTimer ≠ some 0 → exec (.vaneClearTimerExpiry c) s = .next s) ∧
    (w.silence = some 0 → s.dev.source c = .link → w.flagVG = false → w.flagVM = false → w.state.isVane = false →
      exec (.silenceTimerExpiry c) s = .next { s with dev := { s.dev with
        wind := s.dev.wind.set c { w with
          silence := none, channel := .stale, liveRun := 0, state := .halt, classes := ⟨false, false, false⟩ }
        bookings := s.dev.bookings.map fun b =>
          if b.crane = c ∧ b.state = .lifting then { b with state := .holdLower } else b
        faults := if w.channel = .stale then s.dev.faults
          else (s.dev.raise .windStale (some c.val) none none).faults } }) ∧
    (w.silence = some 0 → ∃ t, exec (.silenceTimerExpiry c) s = .next t ∧ (t.dev.windOf c).channel = .stale ∧
      (t.dev.windOf c).liveRun = 0 ∧ (t.dev.windOf c).silence = none ∧ s.dev.sameElsewhere c t.dev ∧
      (w.channel ≠ .stale → (t.dev.faultEntry .windStale).pending = true)) ∧
    (w.vaneTimer = some 0 → ∃ cell : Option CellIx,
      exec (.vaneClearTimerExpiry c) s = .next { s with
        dev := (s.dev.setWind c { w with vaneTimer := none }).raise .vaneBlocked (some c.val)
          (cell.map fun k => k.val) none } ∧
      let lacks := fun k => s.dev.hasJib c k = true ∧ ¬((s.dev.cell k).standing.holder = some c ∧
        (s.dev.cell k).standing.cls = some .weathervane)
      (∀ k, cell = some k → lacks k ∧ ∀ j, lacks j → k ≤ j) ∧ (cell = none → ∀ j, ¬lacks j))) ∧
   (∀ last seq : Nat, last ≤ 255 → seq ≤ 255 → sampleGap none seq = none ∧
      ∃ gap, sampleGap (some last) seq = some gap ∧ gap ≤ 255 ∧ (last + gap) % 256 = seq) ∧
   ∀ (d : Device) (c : CraneIx),
     let w := d.windOf c
     let site := d.plan.site
     let wind := fun (x : WindRec) => { d with wind := d.wind.set c x }
     let stale := fun (x : WindRec) => { wind { x with channel := .stale, liveRun := 0 } with
       faults := if w.channel = .stale then d.faults else (d.raise .windStale (some c.val) none none).faults }
     (w.holdRun < 2 → (w.recent = [] → takeHold c d = wind { w with holdRun := w.holdRun + 1 }) ∧
       ∀ l s, w.recent = l ++ [s] → takeHold c d = wind (handleSpeed site s { w with holdRun := w.holdRun + 1 })) ∧
     (2 ≤ w.holdRun → takeHold c d = stale w) ∧
     (takeGap c none d = d ∧ takeGap c (some 1) d = d ∧
       (w.holdRun < 2 → takeGap c (some 2) d = takeHold c d) ∧
       (w.holdRun = 0 → takeGap c (some 3) d = takeHold c (takeHold c d)) ∧
       (w.holdRun = 1 → takeGap c (some 3) d = goStale c (takeHold c d)) ∧
       (2 ≤ w.holdRun → takeGap c (some 2) d = stale w ∧ takeGap c (some 3) d = stale w) ∧
       ∀ gap, 4 ≤ gap → takeGap c (some gap) d = stale { w with holdRun := 2 }) ∧
     (takeReading c 65535 d = takeHold c d ∧ ∀ count, count ≠ 65535 → takeReading c count d =
       wind { handleSpeed site (speedOf count (d.profile c).anemometer) w with holdRun := 0 }) ∧
     (∀ (seq count : Nat) (gap : Option Nat), gap ≠ some 0 →
       let t := takeSample c seq count gap d
       let before := takeReading c count (takeGap c gap
         (wind { w with lastSeq := some seq, silence := some 300 }))
       let good := count ≠ 65535 ∧ (gap = none ∨ gap = some 1)
       (good → t.windOf c = { before.windOf c with
         liveRun := min (w.liveRun + 1) 3, channel := if 2 ≤ w.liveRun then .live else w.channel }) ∧
       (¬good → t.windOf c = { before.windOf c with liveRun := 0 }) ∧
       t.faults = before.faults ∧ d.sameElsewhere c t ∧ t = { d with wind := t.wind, faults := t.faults }) ∧
     (∀ r : Report, (d.source c = .mast → examineSample c r d = d) ∧
       (d.source c = .link → (sampleGap w.lastSeq r.windSeq = some 0 → examineSample c r d = d) ∧
         (sampleGap w.lastSeq r.windSeq ≠ some 0 →
           examineSample c r d = takeSample c r.windSeq r.pulses (sampleGap w.lastSeq r.windSeq) d))) ∧
     let warm : WindRec := { w with
       lastSeq := none, recent := [], history := [], lastGust := none, holdRun := 0, liveRun := 0
       flagL := false, flagM := false, flagS := false, flagVG := false }
     (d.source c = .link → startChannel c d = wind { warm with channel := .warming, silence := some 300 } ∧
       returnChannel c d = wind { w with silence := some 300 }) ∧
     (d.source c = .mast → startChannel c d = wind { warm with channel := .live } ∧ returnChannel c d = d)

/-- FORCE_VANE by the table of R127: INVALID, WRONG_STATE, and else VANE_FORCED with the vane clear timer stopped;
permits composed from then on show brake RELEASE with every axis and the hoist STOP (section 7.5). SET_WIND_SOURCE by
the table of R100: INVALID, else the setting; the channel switches only where the effective source changes for an
ADMITTED or LOST crane: LIVE with hold run 0 and no silence timer under MAST, WARMING, with the timer at 300 ticks
where ADMITTED, under LINK (section 6.2). -/
def Obligations.WindCommandsFollowTheirTables : Prop :=
  (∀ s : State, s.takesCommands →
     (∀ index, 10 ≤ index → exec (.forceVane index) s = .next (s.answered 0x31 .invalid [] s.dev)) ∧
     ∀ c : CraneIx,
       (s.dev.membership c = .absent ∨ s.dev.membership c = .joining ∨ (s.dev.windOf c).state.isVane = false →
         exec (.forceVane c.val) s = .next (s.answered 0x31 .wrongState [] s.dev)) ∧
       (s.dev.membership c = .admitted ∨ s.dev.membership c = .lost →
         ((s.dev.windOf c).state = .vane .forced →
           exec (.forceVane c.val) s = .next (s.answered 0x31 .ok [] s.dev)) ∧
         ((s.dev.windOf c).state = .vane .clearing ∨ (s.dev.windOf c).state = .vane .vaneFree →
           let t : Device := { s.dev with
             wind := s.dev.wind.set c { s.dev.windOf c with state := .vane .forced, vaneTimer := none } }
           exec (.forceVane c.val) s = .next (s.answered 0x31 .ok [] t) ∧ ∀ seq,
             (compose t c seq).release = true ∧ (compose t c seq).slewPlus = .stop ∧
               (compose t c seq).slewMinus = .stop ∧ (compose t c seq).trolleyOut = .stop ∧
               (compose t c seq).trolleyIn = .stop ∧ (compose t c seq).hoistStop = true))) ∧
   (∀ s : State, s.takesCommands →
      (∀ index value, 10 ≤ index ∨ 1 < value →
        exec (.setWindSource index value) s = .next (s.answered 0x32 .invalid [] s.dev)) ∧
      ∀ (c : CraneIx) (value : Nat) (setting : SourceSetting) (now : WindSource),
        (value = 0 ∧ setting = .link ∧ now = .link) ∨ (value = 1 ∧ setting = .mast ∧ now = .mast) →
        let w := s.dev.windOf c
        (s.dev.source c = now ∨ s.dev.membership c = .absent ∨ s.dev.membership c = .joining →
          exec (.setWindSource c.val value) s = .next (s.answered 0x32 .ok []
            { s.dev with wind := s.dev.wind.set c { w with source := setting } })) ∧
        (s.dev.source c ≠ now → s.dev.membership c = .admitted ∨ s.dev.membership c = .lost →
          ∃ t, exec (.setWindSource c.val value) s = .next (s.answered 0x32 .ok [] t) ∧
            (t.windOf c).source = setting ∧ s.dev.sameElsewhere c t ∧
            (now = .mast → (t.windOf c).channel = .live ∧ (t.windOf c).holdRun = 0 ∧ (t.windOf c).silence = none ∧
              (t.windOf c).recent = w.recent ∧ (t.windOf c).history = w.history ∧ (t.windOf c).mean = w.mean) ∧
            (now = .link → (t.windOf c).channel = .warming ∧ (t.windOf c).recent = [] ∧ (t.windOf c).history = [] ∧
              (t.windOf c).lastSeq = none ∧ (t.windOf c).mean = w.mean ∧ (t.windOf c).flagVM = w.flagVM ∧
              (s.dev.membership c = .admitted → (t.windOf c).silence = some 300)) ∧
            t = { s.dev with wind := t.wind, cells := t.cells, bookings := t.bookings, faults := t.faults }))

/-! ### Pulses and the clock -/

/-- A pulse on MAST counts up to 65535. A pulse on PPS in FOLLOWING is a glitch within 50 ticks of the last one taken,
and else raises a site second; in FALLBACK it raises none, counts the pulse run, and at the third well-spaced pulse
returns the clock to FOLLOWING, with a site second unless one came within 50 ticks (entry 27). A pulse wait timer that
has run out puts the clock in FALLBACK with pulse run 0, raises CLOCK_REF_LOST and two site seconds, and starts the
fallback timer, whose expiry raises one and restarts it; a timer that has not run out, as after a pulse taken first, has
no expiry (section 8.1, entry 2). A site second adds 1 to site time where it is set and not at its greatest, matches
windows, opens each SUSPENDED booking whose class its crane's wind allows, and latches the mast count, each crane on MAST
that is ADMITTED or LOST taking the mast speed times its height factor (sections 6.8, 8.1 and 9.6). -/
def Obligations.PulsesAndFallbackDriveTheClock : Prop :=
  (∀ s : State, s.dev.resetLow = false →
     let x := s.dev.clock
     let after := fun (t : Option Nat) => t.map fun n => if n < 4294967295 then n + 1 else n
     let latched := fun (t : State) => t.dev.mast = ⟨0, s.dev.mast.pulses, speedOf s.dev.mast.pulses s.dev.plan.site.mastScale⟩
     let second := fun (clock : Clock) => ∃ t, exec .ppsPulse s = .next t ∧ t.dev.clock = clock ∧ latched t ∧
       t = { s with dev := { s.dev with
         clock := t.dev.clock, mast := t.dev.mast, cells := t.dev.cells, wind := t.dev.wind
         bookings := t.dev.bookings, faults := t.dev.faults, picks := t.dev.picks } }
     exec .mastPulse s = .next { s with dev := { s.dev with
       mast := { s.dev.mast with pulses := min (s.dev.mast.pulses + 1) 65535 } } } ∧
     (x.following = true →
       (∀ n, x.lastPulse = some n → n < 50 → exec .ppsPulse s = .next s) ∧
       (x.lastPulse = none ∨ (∃ n, x.lastPulse = some n ∧ 50 ≤ n) →
         second { x with lastPulse := some 0, pulseWait := some 200, siteTime := after x.siteTime })) ∧
     (x.following = false →
       ((x.lastPulse = none ∨ ∃ n, x.lastPulse = some n ∧ (n < 95 ∨ 105 < n)) →
         exec .ppsPulse s = .next { s with dev := { s.dev with
           clock := { x with lastPulse := some 0, pulseRun := 1 } } }) ∧
       (∀ n, x.lastPulse = some n → 95 ≤ n → n ≤ 105 →
         (x.pulseRun < 2 → exec .ppsPulse s = .next { s with dev := { s.dev with
           clock := { x with lastPulse := some 0, pulseRun := x.pulseRun + 1 } } }) ∧
         (x.pulseRun = 2 →
           let back : Clock := ⟨x.siteTime, true, some 200, none, some 0, 3⟩
           (∀ m, x.fallback = some m → 50 ≤ m → m ≤ 100 →
             exec .ppsPulse s = .next { s with dev := { s.dev with clock := back } }) ∧
           (x.fallback = none ∨ (∃ m, x.fallback = some m ∧ m < 50) →
             second { back with siteTime := after x.siteTime }))))) ∧
   (∀ s : State, s.dev.resetLow = false →
      let x := s.dev.clock
      let after := fun (t : Option Nat) => t.map fun n => if n < 4294967295 then n + 1 else n
      let frame := fun (t : State) => t = { s with dev := { s.dev with
        clock := t.dev.clock, mast := t.dev.mast, cells := t.dev.cells, wind := t.dev.wind
        bookings := t.dev.bookings, faults := t.dev.faults, picks := t.dev.picks } }
      (x.pulseWait ≠ some 0 → exec .pulseWaitTimerExpiry s = .next s) ∧
      (x.fallback ≠ some 0 → exec .fallbackTimerExpiry s = .next s) ∧
      (x.pulseWait = some 0 → ∃ t, exec .pulseWaitTimerExpiry s = .next t ∧
        t.dev.clock = { x with
          siteTime := after (after x.siteTime), following := false, pulseWait := none, fallback := some 100
          pulseRun := 0 } ∧
        t.dev.mast = ⟨0, 0, 0⟩ ∧ (t.dev.faultEntry .clockRefLost).pending = true ∧ frame t) ∧
      (x.fallback = some 0 → ∃ t, exec .fallbackTimerExpiry s = .next t ∧
        t.dev.clock = { x with siteTime := after x.siteTime, fallback := some 100 } ∧
        t.dev.mast = ⟨0, s.dev.mast.pulses, speedOf s.dev.mast.pulses s.dev.plan.site.mastScale⟩ ∧ frame t)) ∧
   ∀ d : Device,
     siteSecond d = mastSample (reopenSuspended (windowMatching { d with clock := { d.clock with
       siteTime := d.clock.siteTime.map fun n => if n < 4294967295 then n + 1 else n } })) ∧
     (∀ l : List Booking, d.bookings = l → ∃ l' : List Booking, reopenSuspended d = { d with bookings := l' } ∧
       l'.length = l.length ∧ ∀ (i : Nat) (b : Booking), l[i]? = some b →
         (b.state = .suspended → d.sailAllowed b.crane b.sail → l'[i]? = some { b with state := .opened }) ∧
           (b.state ≠ .suspended ∨ ¬d.sailAllowed b.crane b.sail → l'[i]? = some b)) ∧
     ∀ c : CraneIx,
       let speed := speedOf d.mast.pulses d.plan.site.mastScale
       (d.source c = .mast → d.membership c = .admitted ∨ d.membership c = .lost →
         ((mastSample d).windOf c).holdRun = 0 ∧
           ((mastSample d).windOf c).mean = (handleSpeed d.plan.site (min (speed * (d.profile c).height / 256) 600)
             (d.windOf c)).mean ∧
           ((mastSample d).windOf c).recent.getLast? = some (min (speed * (d.profile c).height / 256) 600)) ∧
       (d.source c ≠ .mast ∨ d.membership c = .absent ∨ d.membership c = .joining →
         (mastSample d).windOf c = d.windOf c)

/-! ### Queries and the warm restart -/

/-- QUERY is answered in every membership state with the segment it names of the record it names, 52 bytes to a
segment; BUSY for a plan item while LOADING, UNKNOWN_BOOKING for an id that is not live, INVALID for an item kind,
index or segment out of range, index 0 of a booking among them (entry 17). A booking is answered with its record alone,
without the clock (entry 16), and the index given for an item whose index is ignored is free (entry 29; sections 10.4
and 10.5). -/
def Obligations.QueryAnswersASegment : Prop :=
  ∀ (s : State) (c : CraneIx) (restart : Bool), s.delivers c restart →
    let answers := fun (item index : Nat) (l : List Byte) => ∀ segment,
      (segment * 52 < l.length ∨ segment = 0 → exec (.query c restart item index segment) s =
        .next { s with
          dev := (s.delivered c restart).sendFrame c (.reply ⟨0x0C, .ok, .none, some ⟨item, index, segment,
            max 1 ((l.length + 51) / 52), (l.drop (segment * 52)).take 52⟩⟩) }) ∧
      (l.length ≤ segment * 52 → segment ≠ 0 → exec (.query c restart item index segment) s =
        .next { s with dev := (s.delivered c restart).reply c 0x0C .invalid })
    let refused := fun (item index : Nat) (code : ReplyCode) => ∀ segment,
      exec (.query c restart item index segment) s =
        .next { s with dev := (s.delivered c restart).reply c 0x0C code }
    (∀ x : CraneIx, answers 4 x.val (craneBytes (s.delivered c restart) x)) ∧
    (∀ k : CellIx, answers 5 k.val (claimBytes s.dev k)) ∧
    (∀ id b, 1 ≤ id → id ≤ 65535 → s.dev.booking id = some b → answers 6 id (bookingBytes b)) ∧
    (∀ id, 1 ≤ id → id ≤ 65535 → s.dev.booking id = none → refused 6 id .unknownBooking) ∧
    (∀ item index, item ≤ 3 → s.dev.planState = .loading → refused item index .busy) ∧
    (s.dev.planState ≠ .loading →
      (∀ x : CraneIx, answers 1 x.val (profileBytes (s.dev.profile x))) ∧
      (∀ k : CellIx, answers 2 k.val (planCellBytes s.dev k)) ∧
      (∀ index, refused 1 (index + 10) .invalid ∧ refused 2 (index + 48) .invalid) ∧
      ∀ index, ∃ given, (∀ item l, (item = 0 ∧ l = siteBytes s.dev.plan.site) ∨ (item = 3 ∧ l = statusBytes s.dev) →
        ∀ segment, segment * 52 < l.length → exec (.query c restart item index segment) s =
          .next { s with
            dev := (s.delivered c restart).sendFrame c (.reply ⟨0x0C, .ok, .none, some ⟨item, given, segment,
              max 1 ((l.length + 51) / 52), (l.drop (segment * 52)).take 52⟩⟩) })) ∧
    (∀ index, refused 4 (index + 10) .invalid ∧ refused 5 (index + 48) .invalid) ∧
    (∀ index, index = 0 ∨ 65535 < index → refused 6 index .invalid) ∧
    ∀ item index, 6 < item → refused item index .invalid

/-- WARM_RESTART answers OK with every block at its warm reset values: plan, possession, clock, holds and next id
kept, cranes, claims, permits and ports as after a cold reset, channels WARMING with mean, VM and source kept, wind
states kept, no booking running or overrun in a cycle, no fault pending with masks and severities kept (section
11.5). -/
def Obligations.WarmRestartKeepsWhatR182Keeps : Prop :=
  ∀ s : State, s.takesCommands →
    ∃ t, exec .warmRestart s = .next (s.answered 0x60 .ok [] t) ∧
      (∀ c, t.crane c = ⟨.absent, .good, 0, 0, false, none, none, none⟩ ∧ t.reachOf c = none ∧ t.permitOf c = none ∧
        t.port c = ⟨none, [], [], none, []⟩ ∧
        t.windOf c = { s.dev.windOf c with
          channel := .warming, lastSeq := none, recent := [], history := [], lastGust := none, holdRun := 0
          liveRun := 0, flagL := false, flagM := false, flagS := false, flagVG := false, silence := none
          vaneTimer := none }) ∧
      (∀ k, t.cell k = ⟨.free, [], [], [], false, false⟩) ∧
      t.mast = { s.dev.mast with pulses := 0 } ∧
      (∀ k, t.faultEntry k = { s.dev.faultEntry k with pending := false }) ∧ t.faults.pointer = none ∧
      t.faults.context = none ∧
      ((s.dev.bookings.map fun b => b.id).Nodup →
        (∀ b ∈ t.bookings, b.state.running = false) ∧
        (∀ b ∈ s.dev.bookings, b.state.running = true → b.overrun = true → t.booking b.id = none) ∧
        ((∀ b ∈ s.dev.bookings, b.overrun = false) → t.bookings = s.dev.bookings.map fun b =>
          if b.state.running then { b with state := .suspended } else b)) ∧
      t = { s.dev with
        roster := t.roster, reach := t.reach, cells := t.cells, permits := t.permits, wind := t.wind
        mast := t.mast, bookings := t.bookings, ports := t.ports, faults := t.faults }
end

