-- ==== Sys2Proof/Laws/State.lean ====
section
/-! SUPPORT. One lemma per field per update of the part's records, each by unfolding, and what a record reads as after
an update of it. -/

namespace Sys2Proof.Machine

/-! ### setCrane -/

@[simp] theorem Device.setCrane_resetLow (d : Device) (c : CraneIx) (r : CraneRec) : (d.setCrane c r).resetLow = d.resetLow := rfl
@[simp] theorem Device.setCrane_planState (d : Device) (c : CraneIx) (r : CraneRec) : (d.setCrane c r).planState = d.planState := rfl
@[simp] theorem Device.setCrane_plan (d : Device) (c : CraneIx) (r : CraneRec) : (d.setCrane c r).plan = d.plan := rfl
@[simp] theorem Device.setCrane_possession (d : Device) (c : CraneIx) (r : CraneRec) : (d.setCrane c r).possession = d.possession := rfl
@[simp] theorem Device.setCrane_digest (d : Device) (c : CraneIx) (r : CraneRec) : (d.setCrane c r).digest = d.digest := rfl
@[simp] theorem Device.setCrane_validation (d : Device) (c : CraneIx) (r : CraneRec) : (d.setCrane c r).validation = d.validation := rfl
@[simp] theorem Device.setCrane_autoloadResult (d : Device) (c : CraneIx) (r : CraneRec) : (d.setCrane c r).autoloadResult = d.autoloadResult := rfl
@[simp] theorem Device.setCrane_load (d : Device) (c : CraneIx) (r : CraneRec) : (d.setCrane c r).load = d.load := rfl
@[simp] theorem Device.setCrane_reach (d : Device) (c : CraneIx) (r : CraneRec) : (d.setCrane c r).reach = d.reach := rfl
@[simp] theorem Device.setCrane_cells (d : Device) (c : CraneIx) (r : CraneRec) : (d.setCrane c r).cells = d.cells := rfl
@[simp] theorem Device.setCrane_permits (d : Device) (c : CraneIx) (r : CraneRec) : (d.setCrane c r).permits = d.permits := rfl
@[simp] theorem Device.setCrane_wind (d : Device) (c : CraneIx) (r : CraneRec) : (d.setCrane c r).wind = d.wind := rfl
@[simp] theorem Device.setCrane_mast (d : Device) (c : CraneIx) (r : CraneRec) : (d.setCrane c r).mast = d.mast := rfl
@[simp] theorem Device.setCrane_clock (d : Device) (c : CraneIx) (r : CraneRec) : (d.setCrane c r).clock = d.clock := rfl
@[simp] theorem Device.setCrane_bookings (d : Device) (c : CraneIx) (r : CraneRec) : (d.setCrane c r).bookings = d.bookings := rfl
@[simp] theorem Device.setCrane_nextId (d : Device) (c : CraneIx) (r : CraneRec) : (d.setCrane c r).nextId = d.nextId := rfl
@[simp] theorem Device.setCrane_holds (d : Device) (c : CraneIx) (r : CraneRec) : (d.setCrane c r).holds = d.holds := rfl
@[simp] theorem Device.setCrane_ports (d : Device) (c : CraneIx) (r : CraneRec) : (d.setCrane c r).ports = d.ports := rfl
@[simp] theorem Device.setCrane_sup (d : Device) (c : CraneIx) (r : CraneRec) : (d.setCrane c r).sup = d.sup := rfl
@[simp] theorem Device.setCrane_sdo (d : Device) (c : CraneIx) (r : CraneRec) : (d.setCrane c r).sdo = d.sdo := rfl
@[simp] theorem Device.setCrane_faults (d : Device) (c : CraneIx) (r : CraneRec) : (d.setCrane c r).faults = d.faults := rfl
@[simp] theorem Device.setCrane_picks (d : Device) (c : CraneIx) (r : CraneRec) : (d.setCrane c r).picks = d.picks := rfl
@[simp] theorem Device.setCrane_reachOf (d : Device) (c : CraneIx) (r : CraneRec) (x : CraneIx) : (d.setCrane c r).reachOf x = d.reachOf x := rfl
@[simp] theorem Device.setCrane_cell (d : Device) (c : CraneIx) (r : CraneRec) (x : CellIx) : (d.setCrane c r).cell x = d.cell x := rfl
@[simp] theorem Device.setCrane_permitOf (d : Device) (c : CraneIx) (r : CraneRec) (x : CraneIx) : (d.setCrane c r).permitOf x = d.permitOf x := rfl
@[simp] theorem Device.setCrane_windOf (d : Device) (c : CraneIx) (r : CraneRec) (x : CraneIx) : (d.setCrane c r).windOf x = d.windOf x := rfl
@[simp] theorem Device.setCrane_port (d : Device) (c : CraneIx) (r : CraneRec) (x : CraneIx) : (d.setCrane c r).port x = d.port x := rfl
@[simp] theorem Device.setCrane_hold (d : Device) (c : CraneIx) (r : CraneRec) (x : CraneIx) : (d.setCrane c r).hold x = d.hold x := rfl
@[simp] theorem Device.setCrane_crane_self (d : Device) (c : CraneIx) (r : CraneRec) : (d.setCrane c r).crane c = r := by
  simp [Device.setCrane, Device.crane]
@[simp] theorem Device.setCrane_crane_of_ne (d : Device) (c : CraneIx) (r : CraneRec) (x : CraneIx) (h : x ≠ c) : (d.setCrane c r).crane x = d.crane x := by
  have h' : c.val ≠ x.val := fun e => h (Fin.ext e.symm)
  simp [Device.setCrane, Device.crane, h']
theorem Device.setCrane_crane (d : Device) (c : CraneIx) (r : CraneRec) (x : CraneIx) :
    (d.setCrane c r).crane x = if x = c then r else d.crane x := by
  by_cases h : x = c
  · subst h; simp
  · simp [h]
theorem Device.setCrane_eq_self (d : Device) (c : CraneIx) : d.setCrane c (d.crane c) = d := by
  simp [Device.setCrane, Device.crane]

/-! ### setReach -/

@[simp] theorem Device.setReach_resetLow (d : Device) (c : CraneIx) (r : Option ReachRec) : (d.setReach c r).resetLow = d.resetLow := rfl
@[simp] theorem Device.setReach_planState (d : Device) (c : CraneIx) (r : Option ReachRec) : (d.setReach c r).planState = d.planState := rfl
@[simp] theorem Device.setReach_plan (d : Device) (c : CraneIx) (r : Option ReachRec) : (d.setReach c r).plan = d.plan := rfl
@[simp] theorem Device.setReach_possession (d : Device) (c : CraneIx) (r : Option ReachRec) : (d.setReach c r).possession = d.possession := rfl
@[simp] theorem Device.setReach_digest (d : Device) (c : CraneIx) (r : Option ReachRec) : (d.setReach c r).digest = d.digest := rfl
@[simp] theorem Device.setReach_validation (d : Device) (c : CraneIx) (r : Option ReachRec) : (d.setReach c r).validation = d.validation := rfl
@[simp] theorem Device.setReach_autoloadResult (d : Device) (c : CraneIx) (r : Option ReachRec) : (d.setReach c r).autoloadResult = d.autoloadResult := rfl
@[simp] theorem Device.setReach_load (d : Device) (c : CraneIx) (r : Option ReachRec) : (d.setReach c r).load = d.load := rfl
@[simp] theorem Device.setReach_roster (d : Device) (c : CraneIx) (r : Option ReachRec) : (d.setReach c r).roster = d.roster := rfl
@[simp] theorem Device.setReach_cells (d : Device) (c : CraneIx) (r : Option ReachRec) : (d.setReach c r).cells = d.cells := rfl
@[simp] theorem Device.setReach_permits (d : Device) (c : CraneIx) (r : Option ReachRec) : (d.setReach c r).permits = d.permits := rfl
@[simp] theorem Device.setReach_wind (d : Device) (c : CraneIx) (r : Option ReachRec) : (d.setReach c r).wind = d.wind := rfl
@[simp] theorem Device.setReach_mast (d : Device) (c : CraneIx) (r : Option ReachRec) : (d.setReach c r).mast = d.mast := rfl
@[simp] theorem Device.setReach_clock (d : Device) (c : CraneIx) (r : Option ReachRec) : (d.setReach c r).clock = d.clock := rfl
@[simp] theorem Device.setReach_bookings (d : Device) (c : CraneIx) (r : Option ReachRec) : (d.setReach c r).bookings = d.bookings := rfl
@[simp] theorem Device.setReach_nextId (d : Device) (c : CraneIx) (r : Option ReachRec) : (d.setReach c r).nextId = d.nextId := rfl
@[simp] theorem Device.setReach_holds (d : Device) (c : CraneIx) (r : Option ReachRec) : (d.setReach c r).holds = d.holds := rfl
@[simp] theorem Device.setReach_ports (d : Device) (c : CraneIx) (r : Option ReachRec) : (d.setReach c r).ports = d.ports := rfl
@[simp] theorem Device.setReach_sup (d : Device) (c : CraneIx) (r : Option ReachRec) : (d.setReach c r).sup = d.sup := rfl
@[simp] theorem Device.setReach_sdo (d : Device) (c : CraneIx) (r : Option ReachRec) : (d.setReach c r).sdo = d.sdo := rfl
@[simp] theorem Device.setReach_faults (d : Device) (c : CraneIx) (r : Option ReachRec) : (d.setReach c r).faults = d.faults := rfl
@[simp] theorem Device.setReach_picks (d : Device) (c : CraneIx) (r : Option ReachRec) : (d.setReach c r).picks = d.picks := rfl
@[simp] theorem Device.setReach_crane (d : Device) (c : CraneIx) (r : Option ReachRec) (x : CraneIx) : (d.setReach c r).crane x = d.crane x := rfl
@[simp] theorem Device.setReach_cell (d : Device) (c : CraneIx) (r : Option ReachRec) (x : CellIx) : (d.setReach c r).cell x = d.cell x := rfl
@[simp] theorem Device.setReach_permitOf (d : Device) (c : CraneIx) (r : Option ReachRec) (x : CraneIx) : (d.setReach c r).permitOf x = d.permitOf x := rfl
@[simp] theorem Device.setReach_windOf (d : Device) (c : CraneIx) (r : Option ReachRec) (x : CraneIx) : (d.setReach c r).windOf x = d.windOf x := rfl
@[simp] theorem Device.setReach_port (d : Device) (c : CraneIx) (r : Option ReachRec) (x : CraneIx) : (d.setReach c r).port x = d.port x := rfl
@[simp] theorem Device.setReach_hold (d : Device) (c : CraneIx) (r : Option ReachRec) (x : CraneIx) : (d.setReach c r).hold x = d.hold x := rfl
@[simp] theorem Device.setReach_reachOf_self (d : Device) (c : CraneIx) (r : Option ReachRec) : (d.setReach c r).reachOf c = r := by
  simp [Device.setReach, Device.reachOf]
@[simp] theorem Device.setReach_reachOf_of_ne (d : Device) (c : CraneIx) (r : Option ReachRec) (x : CraneIx) (h : x ≠ c) : (d.setReach c r).reachOf x = d.reachOf x := by
  have h' : c.val ≠ x.val := fun e => h (Fin.ext e.symm)
  simp [Device.setReach, Device.reachOf, h']
theorem Device.setReach_reachOf (d : Device) (c : CraneIx) (r : Option ReachRec) (x : CraneIx) :
    (d.setReach c r).reachOf x = if x = c then r else d.reachOf x := by
  by_cases h : x = c
  · subst h; simp
  · simp [h]
theorem Device.setReach_eq_self (d : Device) (c : CraneIx) : d.setReach c (d.reachOf c) = d := by
  simp [Device.setReach, Device.reachOf]

/-! ### setCell -/

@[simp] theorem Device.setCell_resetLow (d : Device) (k : CellIx) (r : CellClaim) : (d.setCell k r).resetLow = d.resetLow := rfl
@[simp] theorem Device.setCell_planState (d : Device) (k : CellIx) (r : CellClaim) : (d.setCell k r).planState = d.planState := rfl
@[simp] theorem Device.setCell_plan (d : Device) (k : CellIx) (r : CellClaim) : (d.setCell k r).plan = d.plan := rfl
@[simp] theorem Device.setCell_possession (d : Device) (k : CellIx) (r : CellClaim) : (d.setCell k r).possession = d.possession := rfl
@[simp] theorem Device.setCell_digest (d : Device) (k : CellIx) (r : CellClaim) : (d.setCell k r).digest = d.digest := rfl
@[simp] theorem Device.setCell_validation (d : Device) (k : CellIx) (r : CellClaim) : (d.setCell k r).validation = d.validation := rfl
@[simp] theorem Device.setCell_autoloadResult (d : Device) (k : CellIx) (r : CellClaim) : (d.setCell k r).autoloadResult = d.autoloadResult := rfl
@[simp] theorem Device.setCell_load (d : Device) (k : CellIx) (r : CellClaim) : (d.setCell k r).load = d.load := rfl
@[simp] theorem Device.setCell_roster (d : Device) (k : CellIx) (r : CellClaim) : (d.setCell k r).roster = d.roster := rfl
@[simp] theorem Device.setCell_reach (d : Device) (k : CellIx) (r : CellClaim) : (d.setCell k r).reach = d.reach := rfl
@[simp] theorem Device.setCell_permits (d : Device) (k : CellIx) (r : CellClaim) : (d.setCell k r).permits = d.permits := rfl
@[simp] theorem Device.setCell_wind (d : Device) (k : CellIx) (r : CellClaim) : (d.setCell k r).wind = d.wind := rfl
@[simp] theorem Device.setCell_mast (d : Device) (k : CellIx) (r : CellClaim) : (d.setCell k r).mast = d.mast := rfl
@[simp] theorem Device.setCell_clock (d : Device) (k : CellIx) (r : CellClaim) : (d.setCell k r).clock = d.clock := rfl
@[simp] theorem Device.setCell_bookings (d : Device) (k : CellIx) (r : CellClaim) : (d.setCell k r).bookings = d.bookings := rfl
@[simp] theorem Device.setCell_nextId (d : Device) (k : CellIx) (r : CellClaim) : (d.setCell k r).nextId = d.nextId := rfl
@[simp] theorem Device.setCell_holds (d : Device) (k : CellIx) (r : CellClaim) : (d.setCell k r).holds = d.holds := rfl
@[simp] theorem Device.setCell_ports (d : Device) (k : CellIx) (r : CellClaim) : (d.setCell k r).ports = d.ports := rfl
@[simp] theorem Device.setCell_sup (d : Device) (k : CellIx) (r : CellClaim) : (d.setCell k r).sup = d.sup := rfl
@[simp] theorem Device.setCell_sdo (d : Device) (k : CellIx) (r : CellClaim) : (d.setCell k r).sdo = d.sdo := rfl
@[simp] theorem Device.setCell_faults (d : Device) (k : CellIx) (r : CellClaim) : (d.setCell k r).faults = d.faults := rfl
@[simp] theorem Device.setCell_picks (d : Device) (k : CellIx) (r : CellClaim) : (d.setCell k r).picks = d.picks := rfl
@[simp] theorem Device.setCell_crane (d : Device) (k : CellIx) (r : CellClaim) (x : CraneIx) : (d.setCell k r).crane x = d.crane x := rfl
@[simp] theorem Device.setCell_reachOf (d : Device) (k : CellIx) (r : CellClaim) (x : CraneIx) : (d.setCell k r).reachOf x = d.reachOf x := rfl
@[simp] theorem Device.setCell_permitOf (d : Device) (k : CellIx) (r : CellClaim) (x : CraneIx) : (d.setCell k r).permitOf x = d.permitOf x := rfl
@[simp] theorem Device.setCell_windOf (d : Device) (k : CellIx) (r : CellClaim) (x : CraneIx) : (d.setCell k r).windOf x = d.windOf x := rfl
@[simp] theorem Device.setCell_port (d : Device) (k : CellIx) (r : CellClaim) (x : CraneIx) : (d.setCell k r).port x = d.port x := rfl
@[simp] theorem Device.setCell_hold (d : Device) (k : CellIx) (r : CellClaim) (x : CraneIx) : (d.setCell k r).hold x = d.hold x := rfl
@[simp] theorem Device.setCell_cell_self (d : Device) (k : CellIx) (r : CellClaim) : (d.setCell k r).cell k = r := by
  simp [Device.setCell, Device.cell]
@[simp] theorem Device.setCell_cell_of_ne (d : Device) (k : CellIx) (r : CellClaim) (x : CellIx) (h : x ≠ k) : (d.setCell k r).cell x = d.cell x := by
  have h' : k.val ≠ x.val := fun e => h (Fin.ext e.symm)
  simp [Device.setCell, Device.cell, h']
theorem Device.setCell_cell (d : Device) (k : CellIx) (r : CellClaim) (x : CellIx) :
    (d.setCell k r).cell x = if x = k then r else d.cell x := by
  by_cases h : x = k
  · subst h; simp
  · simp [h]
theorem Device.setCell_eq_self (d : Device) (k : CellIx) : d.setCell k (d.cell k) = d := by
  simp [Device.setCell, Device.cell]

/-! ### setPermit -/

@[simp] theorem Device.setPermit_resetLow (d : Device) (c : CraneIx) (r : Option Permit) : (d.setPermit c r).resetLow = d.resetLow := rfl
@[simp] theorem Device.setPermit_planState (d : Device) (c : CraneIx) (r : Option Permit) : (d.setPermit c r).planState = d.planState := rfl
@[simp] theorem Device.setPermit_plan (d : Device) (c : CraneIx) (r : Option Permit) : (d.setPermit c r).plan = d.plan := rfl
@[simp] theorem Device.setPermit_possession (d : Device) (c : CraneIx) (r : Option Permit) : (d.setPermit c r).possession = d.possession := rfl
@[simp] theorem Device.setPermit_digest (d : Device) (c : CraneIx) (r : Option Permit) : (d.setPermit c r).digest = d.digest := rfl
@[simp] theorem Device.setPermit_validation (d : Device) (c : CraneIx) (r : Option Permit) : (d.setPermit c r).validation = d.validation := rfl
@[simp] theorem Device.setPermit_autoloadResult (d : Device) (c : CraneIx) (r : Option Permit) : (d.setPermit c r).autoloadResult = d.autoloadResult := rfl
@[simp] theorem Device.setPermit_load (d : Device) (c : CraneIx) (r : Option Permit) : (d.setPermit c r).load = d.load := rfl
@[simp] theorem Device.setPermit_roster (d : Device) (c : CraneIx) (r : Option Permit) : (d.setPermit c r).roster = d.roster := rfl
@[simp] theorem Device.setPermit_reach (d : Device) (c : CraneIx) (r : Option Permit) : (d.setPermit c r).reach = d.reach := rfl
@[simp] theorem Device.setPermit_cells (d : Device) (c : CraneIx) (r : Option Permit) : (d.setPermit c r).cells = d.cells := rfl
@[simp] theorem Device.setPermit_wind (d : Device) (c : CraneIx) (r : Option Permit) : (d.setPermit c r).wind = d.wind := rfl
@[simp] theorem Device.setPermit_mast (d : Device) (c : CraneIx) (r : Option Permit) : (d.setPermit c r).mast = d.mast := rfl
@[simp] theorem Device.setPermit_clock (d : Device) (c : CraneIx) (r : Option Permit) : (d.setPermit c r).clock = d.clock := rfl
@[simp] theorem Device.setPermit_bookings (d : Device) (c : CraneIx) (r : Option Permit) : (d.setPermit c r).bookings = d.bookings := rfl
@[simp] theorem Device.setPermit_nextId (d : Device) (c : CraneIx) (r : Option Permit) : (d.setPermit c r).nextId = d.nextId := rfl
@[simp] theorem Device.setPermit_holds (d : Device) (c : CraneIx) (r : Option Permit) : (d.setPermit c r).holds = d.holds := rfl
@[simp] theorem Device.setPermit_ports (d : Device) (c : CraneIx) (r : Option Permit) : (d.setPermit c r).ports = d.ports := rfl
@[simp] theorem Device.setPermit_sup (d : Device) (c : CraneIx) (r : Option Permit) : (d.setPermit c r).sup = d.sup := rfl
@[simp] theorem Device.setPermit_sdo (d : Device) (c : CraneIx) (r : Option Permit) : (d.setPermit c r).sdo = d.sdo := rfl
@[simp] theorem Device.setPermit_faults (d : Device) (c : CraneIx) (r : Option Permit) : (d.setPermit c r).faults = d.faults := rfl
@[simp] theorem Device.setPermit_picks (d : Device) (c : CraneIx) (r : Option Permit) : (d.setPermit c r).picks = d.picks := rfl
@[simp] theorem Device.setPermit_crane (d : Device) (c : CraneIx) (r : Option Permit) (x : CraneIx) : (d.setPermit c r).crane x = d.crane x := rfl
@[simp] theorem Device.setPermit_reachOf (d : Device) (c : CraneIx) (r : Option Permit) (x : CraneIx) : (d.setPermit c r).reachOf x = d.reachOf x := rfl
@[simp] theorem Device.setPermit_cell (d : Device) (c : CraneIx) (r : Option Permit) (x : CellIx) : (d.setPermit c r).cell x = d.cell x := rfl
@[simp] theorem Device.setPermit_windOf (d : Device) (c : CraneIx) (r : Option Permit) (x : CraneIx) : (d.setPermit c r).windOf x = d.windOf x := rfl
@[simp] theorem Device.setPermit_port (d : Device) (c : CraneIx) (r : Option Permit) (x : CraneIx) : (d.setPermit c r).port x = d.port x := rfl
@[simp] theorem Device.setPermit_hold (d : Device) (c : CraneIx) (r : Option Permit) (x : CraneIx) : (d.setPermit c r).hold x = d.hold x := rfl
@[simp] theorem Device.setPermit_permitOf_self (d : Device) (c : CraneIx) (r : Option Permit) : (d.setPermit c r).permitOf c = r := by
  simp [Device.setPermit, Device.permitOf]
@[simp] theorem Device.setPermit_permitOf_of_ne (d : Device) (c : CraneIx) (r : Option Permit) (x : CraneIx) (h : x ≠ c) : (d.setPermit c r).permitOf x = d.permitOf x := by
  have h' : c.val ≠ x.val := fun e => h (Fin.ext e.symm)
  simp [Device.setPermit, Device.permitOf, h']
theorem Device.setPermit_permitOf (d : Device) (c : CraneIx) (r : Option Permit) (x : CraneIx) :
    (d.setPermit c r).permitOf x = if x = c then r else d.permitOf x := by
  by_cases h : x = c
  · subst h; simp
  · simp [h]
theorem Device.setPermit_eq_self (d : Device) (c : CraneIx) : d.setPermit c (d.permitOf c) = d := by
  simp [Device.setPermit, Device.permitOf]

/-! ### setWind -/

@[simp] theorem Device.setWind_resetLow (d : Device) (c : CraneIx) (r : WindRec) : (d.setWind c r).resetLow = d.resetLow := rfl
@[simp] theorem Device.setWind_planState (d : Device) (c : CraneIx) (r : WindRec) : (d.setWind c r).planState = d.planState := rfl
@[simp] theorem Device.setWind_plan (d : Device) (c : CraneIx) (r : WindRec) : (d.setWind c r).plan = d.plan := rfl
@[simp] theorem Device.setWind_possession (d : Device) (c : CraneIx) (r : WindRec) : (d.setWind c r).possession = d.possession := rfl
@[simp] theorem Device.setWind_digest (d : Device) (c : CraneIx) (r : WindRec) : (d.setWind c r).digest = d.digest := rfl
@[simp] theorem Device.setWind_validation (d : Device) (c : CraneIx) (r : WindRec) : (d.setWind c r).validation = d.validation := rfl
@[simp] theorem Device.setWind_autoloadResult (d : Device) (c : CraneIx) (r : WindRec) : (d.setWind c r).autoloadResult = d.autoloadResult := rfl
@[simp] theorem Device.setWind_load (d : Device) (c : CraneIx) (r : WindRec) : (d.setWind c r).load = d.load := rfl
@[simp] theorem Device.setWind_roster (d : Device) (c : CraneIx) (r : WindRec) : (d.setWind c r).roster = d.roster := rfl
@[simp] theorem Device.setWind_reach (d : Device) (c : CraneIx) (r : WindRec) : (d.setWind c r).reach = d.reach := rfl
@[simp] theorem Device.setWind_cells (d : Device) (c : CraneIx) (r : WindRec) : (d.setWind c r).cells = d.cells := rfl
@[simp] theorem Device.setWind_permits (d : Device) (c : CraneIx) (r : WindRec) : (d.setWind c r).permits = d.permits := rfl
@[simp] theorem Device.setWind_mast (d : Device) (c : CraneIx) (r : WindRec) : (d.setWind c r).mast = d.mast := rfl
@[simp] theorem Device.setWind_clock (d : Device) (c : CraneIx) (r : WindRec) : (d.setWind c r).clock = d.clock := rfl
@[simp] theorem Device.setWind_bookings (d : Device) (c : CraneIx) (r : WindRec) : (d.setWind c r).bookings = d.bookings := rfl
@[simp] theorem Device.setWind_nextId (d : Device) (c : CraneIx) (r : WindRec) : (d.setWind c r).nextId = d.nextId := rfl
@[simp] theorem Device.setWind_holds (d : Device) (c : CraneIx) (r : WindRec) : (d.setWind c r).holds = d.holds := rfl
@[simp] theorem Device.setWind_ports (d : Device) (c : CraneIx) (r : WindRec) : (d.setWind c r).ports = d.ports := rfl
@[simp] theorem Device.setWind_sup (d : Device) (c : CraneIx) (r : WindRec) : (d.setWind c r).sup = d.sup := rfl
@[simp] theorem Device.setWind_sdo (d : Device) (c : CraneIx) (r : WindRec) : (d.setWind c r).sdo = d.sdo := rfl
@[simp] theorem Device.setWind_faults (d : Device) (c : CraneIx) (r : WindRec) : (d.setWind c r).faults = d.faults := rfl
@[simp] theorem Device.setWind_picks (d : Device) (c : CraneIx) (r : WindRec) : (d.setWind c r).picks = d.picks := rfl
@[simp] theorem Device.setWind_crane (d : Device) (c : CraneIx) (r : WindRec) (x : CraneIx) : (d.setWind c r).crane x = d.crane x := rfl
@[simp] theorem Device.setWind_reachOf (d : Device) (c : CraneIx) (r : WindRec) (x : CraneIx) : (d.setWind c r).reachOf x = d.reachOf x := rfl
@[simp] theorem Device.setWind_cell (d : Device) (c : CraneIx) (r : WindRec) (x : CellIx) : (d.setWind c r).cell x = d.cell x := rfl
@[simp] theorem Device.setWind_permitOf (d : Device) (c : CraneIx) (r : WindRec) (x : CraneIx) : (d.setWind c r).permitOf x = d.permitOf x := rfl
@[simp] theorem Device.setWind_port (d : Device) (c : CraneIx) (r : WindRec) (x : CraneIx) : (d.setWind c r).port x = d.port x := rfl
@[simp] theorem Device.setWind_hold (d : Device) (c : CraneIx) (r : WindRec) (x : CraneIx) : (d.setWind c r).hold x = d.hold x := rfl
@[simp] theorem Device.setWind_windOf_self (d : Device) (c : CraneIx) (r : WindRec) : (d.setWind c r).windOf c = r := by
  simp [Device.setWind, Device.windOf]
@[simp] theorem Device.setWind_windOf_of_ne (d : Device) (c : CraneIx) (r : WindRec) (x : CraneIx) (h : x ≠ c) : (d.setWind c r).windOf x = d.windOf x := by
  have h' : c.val ≠ x.val := fun e => h (Fin.ext e.symm)
  simp [Device.setWind, Device.windOf, h']
theorem Device.setWind_windOf (d : Device) (c : CraneIx) (r : WindRec) (x : CraneIx) :
    (d.setWind c r).windOf x = if x = c then r else d.windOf x := by
  by_cases h : x = c
  · subst h; simp
  · simp [h]
theorem Device.setWind_eq_self (d : Device) (c : CraneIx) : d.setWind c (d.windOf c) = d := by
  simp [Device.setWind, Device.windOf]

/-! ### setPort -/

@[simp] theorem Device.setPort_resetLow (d : Device) (c : CraneIx) (r : Port) : (d.setPort c r).resetLow = d.resetLow := rfl
@[simp] theorem Device.setPort_planState (d : Device) (c : CraneIx) (r : Port) : (d.setPort c r).planState = d.planState := rfl
@[simp] theorem Device.setPort_plan (d : Device) (c : CraneIx) (r : Port) : (d.setPort c r).plan = d.plan := rfl
@[simp] theorem Device.setPort_possession (d : Device) (c : CraneIx) (r : Port) : (d.setPort c r).possession = d.possession := rfl
@[simp] theorem Device.setPort_digest (d : Device) (c : CraneIx) (r : Port) : (d.setPort c r).digest = d.digest := rfl
@[simp] theorem Device.setPort_validation (d : Device) (c : CraneIx) (r : Port) : (d.setPort c r).validation = d.validation := rfl
@[simp] theorem Device.setPort_autoloadResult (d : Device) (c : CraneIx) (r : Port) : (d.setPort c r).autoloadResult = d.autoloadResult := rfl
@[simp] theorem Device.setPort_load (d : Device) (c : CraneIx) (r : Port) : (d.setPort c r).load = d.load := rfl
@[simp] theorem Device.setPort_roster (d : Device) (c : CraneIx) (r : Port) : (d.setPort c r).roster = d.roster := rfl
@[simp] theorem Device.setPort_reach (d : Device) (c : CraneIx) (r : Port) : (d.setPort c r).reach = d.reach := rfl
@[simp] theorem Device.setPort_cells (d : Device) (c : CraneIx) (r : Port) : (d.setPort c r).cells = d.cells := rfl
@[simp] theorem Device.setPort_permits (d : Device) (c : CraneIx) (r : Port) : (d.setPort c r).permits = d.permits := rfl
@[simp] theorem Device.setPort_wind (d : Device) (c : CraneIx) (r : Port) : (d.setPort c r).wind = d.wind := rfl
@[simp] theorem Device.setPort_mast (d : Device) (c : CraneIx) (r : Port) : (d.setPort c r).mast = d.mast := rfl
@[simp] theorem Device.setPort_clock (d : Device) (c : CraneIx) (r : Port) : (d.setPort c r).clock = d.clock := rfl
@[simp] theorem Device.setPort_bookings (d : Device) (c : CraneIx) (r : Port) : (d.setPort c r).bookings = d.bookings := rfl
@[simp] theorem Device.setPort_nextId (d : Device) (c : CraneIx) (r : Port) : (d.setPort c r).nextId = d.nextId := rfl
@[simp] theorem Device.setPort_holds (d : Device) (c : CraneIx) (r : Port) : (d.setPort c r).holds = d.holds := rfl
@[simp] theorem Device.setPort_sup (d : Device) (c : CraneIx) (r : Port) : (d.setPort c r).sup = d.sup := rfl
@[simp] theorem Device.setPort_sdo (d : Device) (c : CraneIx) (r : Port) : (d.setPort c r).sdo = d.sdo := rfl
@[simp] theorem Device.setPort_faults (d : Device) (c : CraneIx) (r : Port) : (d.setPort c r).faults = d.faults := rfl
@[simp] theorem Device.setPort_picks (d : Device) (c : CraneIx) (r : Port) : (d.setPort c r).picks = d.picks := rfl
@[simp] theorem Device.setPort_crane (d : Device) (c : CraneIx) (r : Port) (x : CraneIx) : (d.setPort c r).crane x = d.crane x := rfl
@[simp] theorem Device.setPort_reachOf (d : Device) (c : CraneIx) (r : Port) (x : CraneIx) : (d.setPort c r).reachOf x = d.reachOf x := rfl
@[simp] theorem Device.setPort_cell (d : Device) (c : CraneIx) (r : Port) (x : CellIx) : (d.setPort c r).cell x = d.cell x := rfl
@[simp] theorem Device.setPort_permitOf (d : Device) (c : CraneIx) (r : Port) (x : CraneIx) : (d.setPort c r).permitOf x = d.permitOf x := rfl
@[simp] theorem Device.setPort_windOf (d : Device) (c : CraneIx) (r : Port) (x : CraneIx) : (d.setPort c r).windOf x = d.windOf x := rfl
@[simp] theorem Device.setPort_hold (d : Device) (c : CraneIx) (r : Port) (x : CraneIx) : (d.setPort c r).hold x = d.hold x := rfl
@[simp] theorem Device.setPort_port_self (d : Device) (c : CraneIx) (r : Port) : (d.setPort c r).port c = r := by
  simp [Device.setPort, Device.port]
@[simp] theorem Device.setPort_port_of_ne (d : Device) (c : CraneIx) (r : Port) (x : CraneIx) (h : x ≠ c) : (d.setPort c r).port x = d.port x := by
  have h' : c.val ≠ x.val := fun e => h (Fin.ext e.symm)
  simp [Device.setPort, Device.port, h']
theorem Device.setPort_port (d : Device) (c : CraneIx) (r : Port) (x : CraneIx) :
    (d.setPort c r).port x = if x = c then r else d.port x := by
  by_cases h : x = c
  · subst h; simp
  · simp [h]
theorem Device.setPort_eq_self (d : Device) (c : CraneIx) : d.setPort c (d.port c) = d := by
  simp [Device.setPort, Device.port]

/-! ### setHold -/

@[simp] theorem Device.setHold_resetLow (d : Device) (c : CraneIx) (r : Bool) : (d.setHold c r).resetLow = d.resetLow := rfl
@[simp] theorem Device.setHold_planState (d : Device) (c : CraneIx) (r : Bool) : (d.setHold c r).planState = d.planState := rfl
@[simp] theorem Device.setHold_plan (d : Device) (c : CraneIx) (r : Bool) : (d.setHold c r).plan = d.plan := rfl
@[simp] theorem Device.setHold_possession (d : Device) (c : CraneIx) (r : Bool) : (d.setHold c r).possession = d.possession := rfl
@[simp] theorem Device.setHold_digest (d : Device) (c : CraneIx) (r : Bool) : (d.setHold c r).digest = d.digest := rfl
@[simp] theorem Device.setHold_validation (d : Device) (c : CraneIx) (r : Bool) : (d.setHold c r).validation = d.validation := rfl
@[simp] theorem Device.setHold_autoloadResult (d : Device) (c : CraneIx) (r : Bool) : (d.setHold c r).autoloadResult = d.autoloadResult := rfl
@[simp] theorem Device.setHold_load (d : Device) (c : CraneIx) (r : Bool) : (d.setHold c r).load = d.load := rfl
@[simp] theorem Device.setHold_roster (d : Device) (c : CraneIx) (r : Bool) : (d.setHold c r).roster = d.roster := rfl
@[simp] theorem Device.setHold_reach (d : Device) (c : CraneIx) (r : Bool) : (d.setHold c r).reach = d.reach := rfl
@[simp] theorem Device.setHold_cells (d : Device) (c : CraneIx) (r : Bool) : (d.setHold c r).cells = d.cells := rfl
@[simp] theorem Device.setHold_permits (d : Device) (c : CraneIx) (r : Bool) : (d.setHold c r).permits = d.permits := rfl
@[simp] theorem Device.setHold_wind (d : Device) (c : CraneIx) (r : Bool) : (d.setHold c r).wind = d.wind := rfl
@[simp] theorem Device.setHold_mast (d : Device) (c : CraneIx) (r : Bool) : (d.setHold c r).mast = d.mast := rfl
@[simp] theorem Device.setHold_clock (d : Device) (c : CraneIx) (r : Bool) : (d.setHold c r).clock = d.clock := rfl
@[simp] theorem Device.setHold_bookings (d : Device) (c : CraneIx) (r : Bool) : (d.setHold c r).bookings = d.bookings := rfl
@[simp] theorem Device.setHold_nextId (d : Device) (c : CraneIx) (r : Bool) : (d.setHold c r).nextId = d.nextId := rfl
@[simp] theorem Device.setHold_ports (d : Device) (c : CraneIx) (r : Bool) : (d.setHold c r).ports = d.ports := rfl
@[simp] theorem Device.setHold_sup (d : Device) (c : CraneIx) (r : Bool) : (d.setHold c r).sup = d.sup := rfl
@[simp] theorem Device.setHold_sdo (d : Device) (c : CraneIx) (r : Bool) : (d.setHold c r).sdo = d.sdo := rfl
@[simp] theorem Device.setHold_faults (d : Device) (c : CraneIx) (r : Bool) : (d.setHold c r).faults = d.faults := rfl
@[simp] theorem Device.setHold_picks (d : Device) (c : CraneIx) (r : Bool) : (d.setHold c r).picks = d.picks := rfl
@[simp] theorem Device.setHold_crane (d : Device) (c : CraneIx) (r : Bool) (x : CraneIx) : (d.setHold c r).crane x = d.crane x := rfl
@[simp] theorem Device.setHold_reachOf (d : Device) (c : CraneIx) (r : Bool) (x : CraneIx) : (d.setHold c r).reachOf x = d.reachOf x := rfl
@[simp] theorem Device.setHold_cell (d : Device) (c : CraneIx) (r : Bool) (x : CellIx) : (d.setHold c r).cell x = d.cell x := rfl
@[simp] theorem Device.setHold_permitOf (d : Device) (c : CraneIx) (r : Bool) (x : CraneIx) : (d.setHold c r).permitOf x = d.permitOf x := rfl
@[simp] theorem Device.setHold_windOf (d : Device) (c : CraneIx) (r : Bool) (x : CraneIx) : (d.setHold c r).windOf x = d.windOf x := rfl
@[simp] theorem Device.setHold_port (d : Device) (c : CraneIx) (r : Bool) (x : CraneIx) : (d.setHold c r).port x = d.port x := rfl
@[simp] theorem Device.setHold_hold_self (d : Device) (c : CraneIx) (r : Bool) : (d.setHold c r).hold c = r := by
  simp [Device.setHold, Device.hold]
@[simp] theorem Device.setHold_hold_of_ne (d : Device) (c : CraneIx) (r : Bool) (x : CraneIx) (h : x ≠ c) : (d.setHold c r).hold x = d.hold x := by
  have h' : c.val ≠ x.val := fun e => h (Fin.ext e.symm)
  simp [Device.setHold, Device.hold, h']
theorem Device.setHold_hold (d : Device) (c : CraneIx) (r : Bool) (x : CraneIx) :
    (d.setHold c r).hold x = if x = c then r else d.hold x := by
  by_cases h : x = c
  · subst h; simp
  · simp [h]
theorem Device.setHold_eq_self (d : Device) (c : CraneIx) : d.setHold c (d.hold c) = d := by
  simp [Device.setHold, Device.hold]

end Sys2Proof.Machine
end

