-- ==== Sys2Proof/Laws/Kept.lean ====
section
/-! SUPPORT. `Kept`: what every operation of the part keeps of the laws of `Safety`, proved for the shared operations
that the other files of this folder build on; and what a raise and a frame sent change. -/

namespace Sys2Proof.Machine

/-- An operation that takes the part from `d` to `t` keeps each law of `Safety` that held. -/
structure Kept (d t : Device) : Prop where
  faults : d.faults.lawful → t.faults.lawful
  classes : (∀ c, (d.windOf c).classesLawful) → ∀ c, (t.windOf c).classesLawful
  ranges : (∀ c, (d.windOf c).rangesLawful) → ∀ c, (t.windOf c).rangesLawful
  permits : d.permitsLawful → t.permitsLawful
  ports : (∀ c, (d.port c).lawful) → ∀ c, (t.port c).lawful
  cells : (∀ k, (d.cell k).lawful) → ∀ k, (t.cell k).lawful
  table : d.tableLawful → t.tableLawful

theorem Kept.refl (d : Device) : Kept d d := ⟨id, id, id, id, id, id, id⟩

theorem Kept.trans {d e t : Device} (h : Kept d e) (h' : Kept e t) : Kept d t :=
  ⟨h'.faults ∘ h.faults, h'.classes ∘ h.classes, h'.ranges ∘ h.ranges, h'.permits ∘ h.permits, h'.ports ∘ h.ports,
    h'.cells ∘ h.cells, h'.table ∘ h.table⟩

/-- An update of other records keeps every law. -/
theorem Kept.of_eq {d t : Device} (hf : t.faults = d.faults) (hw : t.wind = d.wind) (hp : t.permits = d.permits)
    (ho : t.ports = d.ports) (hc : t.cells = d.cells) (hb : t.bookings = d.bookings) (hn : t.nextId = d.nextId) :
    Kept d t := by
  constructor <;>
    simp [Device.windOf, Device.permitsLawful, Device.permitOf, Device.port, Device.cell, Device.tableLawful, *]

/-- A fold of operations that each keep the laws keeps them. -/
theorem Kept.foldl {α : Type} (f : Device → α → Device) (hf : ∀ d x, Kept d (f d x)) (l : List α) (d : Device) :
    Kept d (l.foldl f d) := by
  induction l generalizing d with
  | nil => exact Kept.refl d
  | cons x l ih => exact (hf d x).trans (ih (f d x))

theorem FaultKind.ix_inj {j k : FaultKind} (h : j.ix = k.ix) : j = k := by
  cases j <;> cases k <;> first | rfl | (simp [FaultKind.ix] at h)

/-! ### A raise -/

/-- What a raise changes: the fault record alone. -/
theorem raise_eq (d : Device) (k : FaultKind) (a b e : Option Nat) :
    d.raise k a b e = { d with faults := (d.raise k a b e).faults } := by
  unfold Device.raise
  dsimp only
  split
  · rfl
  · split <;> rfl

section raise_fields
variable (d : Device) (k : FaultKind) (a b e : Option Nat)

@[simp] theorem raise_resetLow : (d.raise k a b e).resetLow = d.resetLow := by rw [raise_eq]
@[simp] theorem raise_planState : (d.raise k a b e).planState = d.planState := by rw [raise_eq]
@[simp] theorem raise_plan : (d.raise k a b e).plan = d.plan := by rw [raise_eq]
@[simp] theorem raise_possession : (d.raise k a b e).possession = d.possession := by rw [raise_eq]
@[simp] theorem raise_digest : (d.raise k a b e).digest = d.digest := by rw [raise_eq]
@[simp] theorem raise_validation : (d.raise k a b e).validation = d.validation := by rw [raise_eq]
@[simp] theorem raise_autoloadResult : (d.raise k a b e).autoloadResult = d.autoloadResult := by rw [raise_eq]
@[simp] theorem raise_load : (d.raise k a b e).load = d.load := by rw [raise_eq]
@[simp] theorem raise_roster : (d.raise k a b e).roster = d.roster := by rw [raise_eq]
@[simp] theorem raise_reach : (d.raise k a b e).reach = d.reach := by rw [raise_eq]
@[simp] theorem raise_cells : (d.raise k a b e).cells = d.cells := by rw [raise_eq]
@[simp] theorem raise_permits : (d.raise k a b e).permits = d.permits := by rw [raise_eq]
@[simp] theorem raise_wind : (d.raise k a b e).wind = d.wind := by rw [raise_eq]
@[simp] theorem raise_mast : (d.raise k a b e).mast = d.mast := by rw [raise_eq]
@[simp] theorem raise_clock : (d.raise k a b e).clock = d.clock := by rw [raise_eq]
@[simp] theorem raise_bookings : (d.raise k a b e).bookings = d.bookings := by rw [raise_eq]
@[simp] theorem raise_nextId : (d.raise k a b e).nextId = d.nextId := by rw [raise_eq]
@[simp] theorem raise_holds : (d.raise k a b e).holds = d.holds := by rw [raise_eq]
@[simp] theorem raise_ports : (d.raise k a b e).ports = d.ports := by rw [raise_eq]
@[simp] theorem raise_sup : (d.raise k a b e).sup = d.sup := by rw [raise_eq]
@[simp] theorem raise_sdo : (d.raise k a b e).sdo = d.sdo := by rw [raise_eq]
@[simp] theorem raise_picks : (d.raise k a b e).picks = d.picks := by rw [raise_eq]
@[simp] theorem raise_crane (c : CraneIx) : (d.raise k a b e).crane c = d.crane c := by rw [raise_eq]; rfl
@[simp] theorem raise_cell (j : CellIx) : (d.raise k a b e).cell j = d.cell j := by rw [raise_eq]; rfl
@[simp] theorem raise_windOf (c : CraneIx) : (d.raise k a b e).windOf c = d.windOf c := by rw [raise_eq]; rfl
@[simp] theorem raise_port (c : CraneIx) : (d.raise k a b e).port c = d.port c := by rw [raise_eq]; rfl
@[simp] theorem raise_permitOf (c : CraneIx) : (d.raise k a b e).permitOf c = d.permitOf c := by rw [raise_eq]; rfl
@[simp] theorem raise_reachOf (c : CraneIx) : (d.raise k a b e).reachOf c = d.reachOf c := by rw [raise_eq]; rfl

end raise_fields

/-- The fault entries after a raise: the kind raised is pending, the others are as they were. -/
theorem raise_entry (d : Device) (k j : FaultKind) (a b e : Option Nat) :
    (d.raise k a b e).faultEntry j =
      if j = k then { d.faultEntry k with pending := true } else d.faultEntry j := by
  by_cases hp : (d.faultEntry k).pending = true
  · have h1 : d.raise k a b e = d := by simp [Device.raise, hp]
    rw [h1]
    split
    · next h => subst h; rw [← hp]
    · rfl
  · have key : (d.raise k a b e).faults.entries = d.faults.entries.set k.ix { d.faultEntry k with pending := true } := by
      unfold Device.raise
      dsimp only
      rw [if_neg hp]
      split <;> rfl
    simp only [Device.faultEntry, key]
    by_cases hj : j = k
    · subst hj; simp
    · have : k.ix.val ≠ j.ix.val := fun h => hj (FaultKind.ix_inj (Fin.ext h.symm))
      simp [hj, this]

/-- A raise leaves its kind pending. -/
theorem raise_pending (d : Device) (k : FaultKind) (a b e : Option Nat) :
    ((d.raise k a b e).faultEntry k).pending = true := by simp [raise_entry]

/-- A raise clears no kind. -/
theorem raise_pending_mono (d : Device) (k j : FaultKind) (a b e : Option Nat) (h : (d.faultEntry j).pending = true) :
    ((d.raise k a b e).faultEntry j).pending = true := by
  rw [raise_entry]
  split
  · rfl
  · exact h

/-- A raise keeps the law of the fault record. -/
theorem raise_faults_lawful (d : Device) (k : FaultKind) (a b e : Option Nat) (h : d.faults.lawful) :
    (d.raise k a b e).faults.lawful := by
  have mono := fun j => raise_pending_mono d k j a b e
  have pend := raise_pending d k a b e
  unfold FaultUnit.lawful at h ⊢
  cases hp : d.faults.pointer with
  | none =>
    rw [hp] at h
    by_cases he : (d.faultEntry k).pending = true
    · have : d.raise k a b e = d := by simp [Device.raise, he]
      rw [this, hp]; exact h
    · by_cases hm : (d.faultEntry k).masked = true
      · have h1 : (d.raise k a b e).faults.pointer = none := by simp [Device.raise, he, hm, hp]
        have h2 : (d.raise k a b e).faults.context = none := by simp [Device.raise, he, hm, h]
        rw [h1]; exact h2
      · have h1 : (d.raise k a b e).faults.pointer = some k := by simp [Device.raise, he, hm, hp]
        have h2 : (d.raise k a b e).faults.context = some ⟨k, a, b, e, d.clock.siteTime⟩ := by
          simp [Device.raise, he, hm, hp]
        rw [h1]
        exact ⟨pend, _, h2, rfl⟩
  | some j =>
    rw [hp] at h
    have h1 : (d.raise k a b e).faults.pointer = some j := by
      unfold Device.raise
      dsimp only
      split
      · exact hp
      · simp [hp]
    have h2 : (d.raise k a b e).faults.context = d.faults.context := by
      unfold Device.raise
      dsimp only
      split
      · rfl
      · simp [hp]
    rw [h1, h2]
    exact ⟨mono j h.1, h.2⟩

theorem Kept.raise (d : Device) (k : FaultKind) (a b e : Option Nat) : Kept d (d.raise k a b e) := by
  refine ⟨raise_faults_lawful d k a b e, ?_, ?_, ?_, ?_, ?_, ?_⟩ <;>
    simp [Device.permitsLawful, Device.tableLawful]

/-! ### A frame sent -/

/-- What sending a frame changes: the crane's port. -/
theorem sendFrame_eq (d : Device) (c : CraneIx) (f : TxFrame) :
    d.sendFrame c f = d.setPort c ((d.sendFrame c f).port c) := by
  unfold Device.sendFrame
  dsimp only
  split
  · simp
  · split
    · simp
    · exact (Device.setPort_eq_self d c).symm

/-- A port whose frames are lawful sends a lawful frame: the law stays. -/
theorem sendFrame_port (d : Device) (c : CraneIx) (f : TxFrame) :
    (d.sendFrame c f).port c =
      match (d.port c).sending with
      | none => { d.port c with sending := some f }
      | some _ =>
        if (d.port c).queue.length < Config.transmitCapacity then { d.port c with queue := (d.port c).queue ++ [f] }
        else d.port c := by
  unfold Device.sendFrame
  dsimp only
  split
  · next h => simp [h]
  · next h =>
    split
    · next hl => simp [h]
    · next hl => simp [h]

/-- Sending a frame keeps every law, where a permit sent obeys the weathervane law. -/
theorem Kept.sendFrame (d : Device) (c : CraneIx) (f : TxFrame) (hf : ∀ p, f = .permit p → p.lawful) :
    Kept d (d.sendFrame c f) := by
  rw [sendFrame_eq]
  have key := sendFrame_port d c f
  refine ⟨by simp, by simp, by simp, ?_, ?_, by simp, by simp [Device.tableLawful]⟩
  · intro h x
    refine ⟨by simpa using (h x).1, ?_⟩
    rw [Device.setPort_port]
    split
    · next hx =>
      rw [key]
      have hq := (h c).2
      split
      · next hs =>
        refine ⟨?_, hq.2⟩
        intro p hp
        simp only [Option.some.injEq] at hp
        exact hf p hp
      · next g hs =>
        split
        · refine ⟨hq.1, ?_⟩
          intro p hp
          simp only [List.mem_append, List.mem_singleton] at hp
          rcases hp with hp | hp
          · exact hq.2 p hp
          · exact hf p hp.symm
        · exact hq
    · exact (h x).2
  · intro h x
    rw [Device.setPort_port]
    split
    · rw [key]
      have hq := h c
      unfold Port.lawful at hq ⊢
      split
      · next hs => exact ⟨hq.1, hq.2.1, hq.2.2.1, by simp⟩
      · next g hs =>
        split
        · next hl =>
          refine ⟨hq.1, hq.2.1, ?_, by simp [hs]⟩
          simp only [Config.transmitCapacity] at hl
          simp; omega
        · exact hq
    · exact h x

theorem Kept.reply (d : Device) (c : CraneIx) (kind : Nat) (code : ReplyCode) : Kept d (d.reply c kind code) :=
  Kept.sendFrame d c _ (by simp)

theorem Kept.replyRetired (d : Device) (c : CraneIx) (kind : Nat) (reason : RetireReason) :
    Kept d (d.replyRetired c kind reason) :=
  Kept.sendFrame d c _ (by simp)

end Sys2Proof.Machine
end

