-- ==== Sys2Proof/Laws/Cells.lean ====
section
/-! SUPPORT. What the operations over one claim record keep: the queue and list laws of `CellClaim.lawful`, the
inhibit set, and the absence of a crane that has no place in the record. -/

namespace Sys2Proof.Machine

/-- The laws of a claim record but for its INTRUDED flag, which `judge` and `touchCell` set. -/
def CellClaim.sound (r : CellClaim) : Prop :=
  (r.queue.map fun w => w.crane).Nodup ∧
    (∀ c, r.standing.holder = some c → c ∉ (r.queue.map fun w => w.crane) ∧ c ∉ r.intruders) ∧ r.intruders.Nodup

theorem CellClaim.lawful_iff (r : CellClaim) :
    r.lawful ↔ r.sound ∧ (r.intruded = true ↔ r.intruders ≠ []) := by
  unfold CellClaim.lawful CellClaim.sound
  tauto

/-- A crane has no place in a record: neither holder, nor waiter, nor intruder. -/
def CellClaim.lacks (c : CraneIx) (r : CellClaim) : Prop :=
  r.standing.holder ≠ some c ∧ (∀ w ∈ r.queue, w.crane ≠ c) ∧ c ∉ r.intruders

/-! ### Queue and list operations -/

/-- Placing an entry is a permutation of putting it first. -/
theorem enqueue_perm (d : Device) (w : Waiter) (q : List Waiter) : (enqueue d w q).Perm (w :: q) := by
  unfold enqueue
  refine List.perm_middle.trans ?_
  rw [List.takeWhile_append_dropWhile]

@[simp] theorem mem_enqueue (d : Device) (w x : Waiter) (q : List Waiter) : x ∈ enqueue d w q ↔ x = w ∨ x ∈ q := by
  rw [(enqueue_perm d w q).mem_iff]; simp

theorem enqueue_cranes (d : Device) (w : Waiter) (q : List Waiter) :
    ((enqueue d w q).map fun x => x.crane).Perm (w.crane :: q.map fun x => x.crane) :=
  (enqueue_perm d w q).map fun x => x.crane

@[simp] theorem mem_dequeue (c : CraneIx) (w : Waiter) (q : List Waiter) :
    w ∈ dequeue c q ↔ w ∈ q ∧ w.crane ≠ c := by simp [dequeue]

theorem dequeue_cranes (c : CraneIx) (q : List Waiter) :
    ((dequeue c q).map fun x => x.crane).Sublist (q.map fun x => x.crane) :=
  (List.filter_sublist).map _

@[simp] theorem mem_dropCrane (c x : CraneIx) (l : List CraneIx) : x ∈ dropCrane c l ↔ x ∈ l ∧ x ≠ c := by
  simp [dropCrane]

theorem dropCrane_sublist (c : CraneIx) (l : List CraneIx) : (dropCrane c l).Sublist l := List.filter_sublist

@[simp] theorem mem_addCrane (c x : CraneIx) (l : List CraneIx) : x ∈ addCrane c l ↔ x = c ∨ x ∈ l := by
  simp [addCrane, allCranes]

theorem reclass_cranes (c : CraneIx) (cls : ClaimClass) (q : List Waiter) :
    (reclass c cls q).map (fun x => x.crane) = q.map fun x => x.crane := by
  unfold reclass
  rw [List.map_map]
  apply List.map_congr_left
  intro w _
  simp only [Function.comp]
  split <;> rfl

/-- No entry of a crane is found exactly where none of the queue is its. -/
theorem entryOf_eq_none (c : CraneIx) (q : List Waiter) : entryOf c q = none ↔ ∀ w ∈ q, w.crane ≠ c := by
  simp [entryOf, List.find?_eq_none]

theorem entryOf_some (c : CraneIx) (q : List Waiter) (w : Waiter) (h : entryOf c q = some w) :
    w ∈ q ∧ w.crane = c := by
  unfold entryOf at h
  exact ⟨List.mem_of_find?_eq_some h, by simpa using List.find?_some h⟩

/-! ### Grants -/

@[simp] theorem grant_holder (d : Device) (k : CellIx) (c : CraneIx) (cls : ClaimClass) (r : CellClaim) :
    (grant d k c cls r).standing.holder = some c := by
  unfold grant
  dsimp only
  split <;> rfl

@[simp] theorem grant_cls (d : Device) (k : CellIx) (c : CraneIx) (cls : ClaimClass) (r : CellClaim) :
    (grant d k c cls r).standing.cls = some cls := by
  unfold grant
  dsimp only
  split <;> rfl

@[simp] theorem grant_queue (d : Device) (k : CellIx) (c : CraneIx) (cls : ClaimClass) (r : CellClaim) :
    (grant d k c cls r).queue = dequeue c r.queue := rfl

@[simp] theorem grant_intruders (d : Device) (k : CellIx) (c : CraneIx) (cls : ClaimClass) (r : CellClaim) :
    (grant d k c cls r).intruders = dropCrane c r.intruders := rfl

@[simp] theorem grant_inhibit (d : Device) (k : CellIx) (c : CraneIx) (cls : ClaimClass) (r : CellClaim) :
    (grant d k c cls r).inhibit = r.inhibit := rfl

/-- A grant of a record with distinct waiters and distinct intruders is sound. -/
theorem grant_sound (d : Device) (k : CellIx) (c : CraneIx) (cls : ClaimClass) (r : CellClaim)
    (hq : (r.queue.map fun w => w.crane).Nodup) (hi : r.intruders.Nodup) : (grant d k c cls r).sound := by
  refine ⟨?_, ?_, ?_⟩
  · exact hq.sublist (dequeue_cranes c r.queue)
  · intro x hx
    rw [grant_holder] at hx
    cases hx
    simp
  · exact hi.sublist (dropCrane_sublist c r.intruders)

/-- Giving a cell on: to its head waiter, to an intruder that passes, or to none. -/
theorem giveOn_cases (d : Device) (k : CellIx) (r : CellClaim) :
    (∃ w ∈ r.queue, giveOn d k r = grant d k w.crane w.cls r) ∨
      (r.queue = [] ∧ ∃ c ∈ r.intruders, giveOn d k r = grant d k c .free r) ∨
      (r.queue = [] ∧ giveOn d k r = { r with standing := .free }) := by
  unfold giveOn
  split
  · next w l h => exact .inl ⟨w, by simp [h], rfl⟩
  · next h =>
    split
    · next c hc => exact .inr (.inl ⟨h, c, List.mem_of_find?_eq_some hc, rfl⟩)
    · exact .inr (.inr ⟨h, rfl⟩)

theorem giveOn_sound (d : Device) (k : CellIx) (r : CellClaim)
    (hq : (r.queue.map fun w => w.crane).Nodup) (hi : r.intruders.Nodup) : (giveOn d k r).sound := by
  rcases giveOn_cases d k r with ⟨w, _, h⟩ | ⟨_, c, _, h⟩ | ⟨_, h⟩
  · rw [h]; exact grant_sound d k _ _ r hq hi
  · rw [h]; exact grant_sound d k _ _ r hq hi
  · rw [h]; exact ⟨hq, by simp [Standing.holder], hi⟩

@[simp] theorem giveOn_inhibit (d : Device) (k : CellIx) (r : CellClaim) : (giveOn d k r).inhibit = r.inhibit := by
  rcases giveOn_cases d k r with ⟨w, _, h⟩ | ⟨_, c, _, h⟩ | ⟨_, h⟩ <;> simp [h]

theorem grant_lacks (d : Device) (k : CellIx) (c x : CraneIx) (cls : ClaimClass) (r : CellClaim) (hc : c ≠ x)
    (h : (∀ w ∈ r.queue, w.crane ≠ x) ∧ x ∉ r.intruders) : (grant d k c cls r).lacks x := by
  refine ⟨by simp [hc], ?_, ?_⟩
  · intro w hw
    simp only [grant_queue, mem_dequeue] at hw
    exact h.1 w hw.1
  · simp only [grant_intruders, mem_dropCrane]
    exact fun hx => h.2 hx.1

/-- Giving a cell on brings in no crane that neither waits nor intrudes. -/
theorem giveOn_lacks (d : Device) (k : CellIx) (x : CraneIx) (r : CellClaim)
    (h : (∀ w ∈ r.queue, w.crane ≠ x) ∧ x ∉ r.intruders) : (giveOn d k r).lacks x := by
  rcases giveOn_cases d k r with ⟨w, hw, he⟩ | ⟨_, c, hc, he⟩ | ⟨hq, he⟩
  · rw [he]; exact grant_lacks d k _ x _ r (h.1 w hw) h
  · rw [he]; exact grant_lacks d k _ x _ r (fun e => h.2 (e ▸ hc)) h
  · rw [he]; exact ⟨by simp [Standing.holder], h.1, h.2⟩

/-! ### Re-judgement -/

/-- An induction over re-judgement: what giving on keeps, what a withdrawal keeps, and what a change of the holder's
state keeps, re-judgement keeps. -/
theorem settle_induction (d : Device) (k : CellIx) (P : CellClaim → Prop)
    (hgive : ∀ r, P r → P (giveOn d k r))
    (hwithdraw : ∀ r c cls t, P r → r.standing = .granted c cls t →
      P (giveOn d k { r with queue := enqueue d ⟨c, cls⟩ r.queue }))
    (hstand : ∀ r st, P r → st.holder = r.standing.holder → P { r with standing := st }) :
    ∀ (n : Nat) (r : CellClaim), P r → P (settle n d k r)
  | 0, r, h => h
  | n + 1, r, h => by
    unfold settle
    split
    · exact h
    · next c cls t hs =>
      split
      · exact settle_induction d k P hgive hwithdraw hstand n _ (hgive r h)
      · split
        · exact settle_induction d k P hgive hwithdraw hstand n _ (hwithdraw r c cls t h hs)
        · exact h
    · next c cls l hs =>
      split
      · split
        · exact settle_induction d k P hgive hwithdraw hstand n _ (hgive r h)
        · exact hstand r _ h (by rw [hs]; rfl)
      · split
        · next st hst =>
          refine hstand r st h ?_
          rw [hs]
          unfold lingerRule at hst
          split at hst
          · cases hst; rfl
          · split at hst
            · split at hst
              · cases hst
              · cases hst; rfl
            · cases hst; rfl
        · exact settle_induction d k P hgive hwithdraw hstand n _ (hgive r h)
    · next c cls hs =>
      split
      · exact h
      · split
        · next st hst =>
          refine hstand r st h ?_
          rw [hs]
          unfold lingerRule at hst
          split at hst
          · cases hst; rfl
          · split at hst
            · split at hst
              · cases hst
              · cases hst; rfl
            · cases hst; rfl
        · exact settle_induction d k P hgive hwithdraw hstand n _ (hgive r h)

theorem settle_sound (n : Nat) (d : Device) (k : CellIx) (r : CellClaim) (h : r.sound) : (settle n d k r).sound := by
  refine settle_induction d k CellClaim.sound ?_ ?_ ?_ n r h
  · intro r h; exact giveOn_sound d k r h.1 h.2.2
  · intro r c cls t h hs
    have hc : r.standing.holder = some c := by rw [hs]; rfl
    refine giveOn_sound d k _ ?_ h.2.2
    exact ((enqueue_cranes d ⟨c, cls⟩ r.queue).nodup_iff).2 (List.nodup_cons.2 ⟨(h.2.1 c hc).1, h.1⟩)
  · intro r st h hst
    refine ⟨h.1, ?_, h.2.2⟩
    intro c hc
    exact h.2.1 c (by rw [← hst]; exact hc)

theorem settle_inhibit (n : Nat) (d : Device) (k : CellIx) (r : CellClaim) : (settle n d k r).inhibit = r.inhibit := by
  refine settle_induction d k (fun x => x.inhibit = r.inhibit) ?_ ?_ ?_ n r rfl
  · intro r h; simpa using h
  · intro r c cls t h hs; simpa using h
  · intro r st h hst; exact h

/-- Re-judgement brings in no crane that has no place in the record. -/
theorem settle_lacks (n : Nat) (d : Device) (k : CellIx) (x : CraneIx) (r : CellClaim) (h : r.lacks x) :
    (settle n d k r).lacks x := by
  refine settle_induction d k (CellClaim.lacks x) ?_ ?_ ?_ n r h
  · intro r h; exact giveOn_lacks d k x r h.2
  · intro r c cls t h hs
    refine giveOn_lacks d k x _ ⟨?_, h.2.2⟩
    intro w hw
    simp only [mem_enqueue] at hw
    rcases hw with rfl | hw
    · intro e
      exact h.1 (by rw [hs]; exact congrArg some e)
    · exact h.2.1 w hw
  · intro r st h hst
    exact ⟨by rw [hst]; exact h.1, h.2⟩

theorem judge_lawful (d : Device) (k : CellIx) (r : CellClaim) (h : r.sound) : (judge d k r).lawful := by
  rw [CellClaim.lawful_iff]
  refine ⟨settle_sound (settleBound r) d k r h, ?_⟩
  simp [judge]

@[simp] theorem judge_inhibit (d : Device) (k : CellIx) (r : CellClaim) : (judge d k r).inhibit = r.inhibit :=
  settle_inhibit (settleBound r) d k r

theorem judge_lacks (d : Device) (k : CellIx) (x : CraneIx) (r : CellClaim) (h : r.lacks x) : (judge d k r).lacks x :=
  settle_lacks (settleBound r) d k x r h

/-! ### What a request writes -/

@[simp] theorem setHolderClass_holder (d : Device) (cls : ClaimClass) (r : CellClaim) :
    (setHolderClass d cls r).standing.holder = r.standing.holder := by
  unfold setHolderClass
  cases h : r.standing with
  | free => rfl
  | granted c x t => simp only; split <;> rfl
  | held c x l => rfl
  | draining c x => rfl

theorem setHolderClass_sound (d : Device) (cls : ClaimClass) (r : CellClaim) (h : r.sound) :
    (setHolderClass d cls r).sound := by
  refine ⟨h.1, ?_, h.2.2⟩
  intro c hc
  rw [setHolderClass_holder] at hc
  exact h.2.1 c hc

theorem dequeue_sound (c : CraneIx) (r : CellClaim) (h : r.sound) :
    ({ r with queue := dequeue c r.queue } : CellClaim).sound := by
  refine ⟨h.1.sublist (dequeue_cranes c r.queue), ?_, h.2.2⟩
  intro x hx
  exact ⟨fun hm => (h.2.1 x hx).1 ((dequeue_cranes c r.queue).subset hm), (h.2.1 x hx).2⟩

/-- A queue that gains an entry of a crane with no standing stays sound. -/
theorem enqueue_sound (d : Device) (c : CraneIx) (cls : ClaimClass) (r : CellClaim) (h : r.sound)
    (hh : r.standing.holder ≠ some c) (hq : ∀ w ∈ r.queue, w.crane ≠ c) :
    ({ r with queue := enqueue d ⟨c, cls⟩ r.queue } : CellClaim).sound := by
  have hmem : c ∉ r.queue.map fun w => w.crane := by simpa using hq
  refine ⟨((enqueue_cranes d ⟨c, cls⟩ r.queue).nodup_iff).2 (List.nodup_cons.2 ⟨hmem, h.1⟩), ?_, h.2.2⟩
  intro x hx
  refine ⟨?_, (h.2.1 x hx).2⟩
  intro hm
  rw [(enqueue_cranes d ⟨c, cls⟩ r.queue).mem_iff, List.mem_cons] at hm
  rcases hm with rfl | hm
  · exact hh hx
  · exact (h.2.1 x hx).1 hm

theorem requeue_sound (d : Device) (c : CraneIx) (cls : ClaimClass) (r : CellClaim) (h : r.sound)
    (hh : r.standing.holder ≠ some c) : ({ r with queue := requeue d c cls r.queue } : CellClaim).sound :=
  enqueue_sound d c cls { r with queue := dequeue c r.queue } (dequeue_sound c r h) hh (by simp)

theorem reclass_sound (c : CraneIx) (cls : ClaimClass) (r : CellClaim) (h : r.sound) :
    ({ r with queue := reclass c cls r.queue } : CellClaim).sound := by
  refine ⟨by rw [reclass_cranes]; exact h.1, ?_, h.2.2⟩
  intro x hx
  rw [reclass_cranes]
  exact h.2.1 x hx

end Sys2Proof.Machine
end

