-- ==== Sys2Proof/Laws/Arbiter.lean ====
section
/-! SUPPORT. What the Cell Arbiter's operations change and keep: `CellsOnly` says that claim records and the fault record
alone change, `Local` that an operation on one cell reads and writes no other cell's record. -/

namespace Sys2Proof.Machine

/-- Between two states of the part the claim records and the fault record alone differ. -/
def CellsOnly (d t : Device) : Prop := t = { d with cells := t.cells, faults := t.faults }

theorem CellsOnly.refl (d : Device) : CellsOnly d d := rfl

theorem CellsOnly.trans {d e t : Device} (h : CellsOnly d e) (h' : CellsOnly e t) : CellsOnly d t := by
  unfold CellsOnly at *
  rw [h'] ; rw [h]

theorem CellsOnly.foldl {α : Type} (f : Device → α → Device) (hf : ∀ d x, CellsOnly d (f d x)) (l : List α)
    (d : Device) : CellsOnly d (l.foldl f d) := by
  induction l generalizing d with
  | nil => exact CellsOnly.refl d
  | cons x l ih => exact (hf d x).trans (ih (f d x))

theorem CellsOnly.raise (d : Device) (k : FaultKind) (a b e : Option Nat) : CellsOnly d (d.raise k a b e) := by
  unfold CellsOnly
  rw [raise_eq]

theorem CellsOnly.setCell (d : Device) (k : CellIx) (r : CellClaim) : CellsOnly d (d.setCell k r) := rfl

section reads
variable {d t : Device} (h : CellsOnly d t)
include h

theorem CellsOnly.plan : t.plan = d.plan := by rw [h]
theorem CellsOnly.planState : t.planState = d.planState := by rw [h]
theorem CellsOnly.roster : t.roster = d.roster := by rw [h]
theorem CellsOnly.reach : t.reach = d.reach := by rw [h]
theorem CellsOnly.permits : t.permits = d.permits := by rw [h]
theorem CellsOnly.wind : t.wind = d.wind := by rw [h]
theorem CellsOnly.clock : t.clock = d.clock := by rw [h]
theorem CellsOnly.bookings : t.bookings = d.bookings := by rw [h]
theorem CellsOnly.nextId : t.nextId = d.nextId := by rw [h]
theorem CellsOnly.ports : t.ports = d.ports := by rw [h]
theorem CellsOnly.crane (c : CraneIx) : t.crane c = d.crane c := by rw [h]; rfl
theorem CellsOnly.windOf (c : CraneIx) : t.windOf c = d.windOf c := by rw [h]; rfl
theorem CellsOnly.port (c : CraneIx) : t.port c = d.port c := by rw [h]; rfl
theorem CellsOnly.footprint (c : CraneIx) (k : CellIx) : t.footprint c k = d.footprint c k := by rw [h]; rfl
theorem CellsOnly.relation (c : CraneIx) (k : CellIx) : t.relation c k = d.relation c k := by rw [h]; rfl
theorem CellsOnly.tier (x : ClaimClass) : t.tier x = d.tier x := by rw [h]; rfl
theorem CellsOnly.protectedCell (k : CellIx) : t.protectedCell k = d.protectedCell k := by rw [h]; rfl
theorem CellsOnly.reservedAgainst (c : CraneIx) (k : CellIx) : t.reservedAgainst c k = d.reservedAgainst c k := by
  rw [h]; rfl

/-- An operation that changes claim records and faults alone keeps the laws of all else. -/
theorem CellsOnly.kept (hf : d.faults.lawful → t.faults.lawful)
    (hc : (∀ k, (d.cell k).lawful) → ∀ k, (t.cell k).lawful) : Kept d t := by
  refine ⟨hf, ?_, ?_, ?_, ?_, hc, ?_⟩
  · intro hw c; rw [h.windOf]; exact hw c
  · intro hw c; rw [h.windOf]; exact hw c
  · unfold Device.permitsLawful Device.permitOf
    intro hp c
    rw [h.port, h.permits]; exact hp c
  · intro hp c; rw [h.port]; exact hp c
  · unfold Device.tableLawful
    rw [h.bookings, h.nextId]; exact id

end reads

/-! ### Re-judgement reads plan, positions and bookings alone -/

theorem settle_reads (d : Device) (cs : Vector CellClaim 48) (fs : FaultUnit) (k : CellIx) :
    ∀ (n : Nat) (r : CellClaim), settle n { d with cells := cs, faults := fs } k r = settle n d k r
  | 0, r => rfl
  | n + 1, r => by
    have ih := settle_reads d cs fs k n
    have h1 : ∀ r, giveOn { d with cells := cs, faults := fs } k r = giveOn d k r := fun _ => rfl
    have h2 : ∀ c x q, displaced { d with cells := cs, faults := fs } k c x q = displaced d k c x q := fun _ _ _ => rfl
    have h3 : ∀ c x l, lingerRule { d with cells := cs, faults := fs } k c x l = lingerRule d k c x l :=
      fun _ _ _ => rfl
    have h4 : ∀ w q, enqueue { d with cells := cs, faults := fs } w q = enqueue d w q := fun _ _ => rfl
    have h5 : ∀ c x, displacedByReservation { d with cells := cs, faults := fs } k c x
        = displacedByReservation d k c x := fun _ _ => rfl
    have h6 : ∀ x q, displacedByWaiter { d with cells := cs, faults := fs } x q = displacedByWaiter d x q :=
      fun _ _ => rfl
    have h7 : ∀ c, Device.relation { d with cells := cs, faults := fs } c k = d.relation c k := fun _ => rfl
    simp only [settle, ih, h1, h2, h3, h4, h5, h6, h7]

theorem CellsOnly.judge {d t : Device} (h : CellsOnly d t) (k : CellIx) (r : CellClaim) :
    Machine.judge t k r = Machine.judge d k r := by
  rw [h]
  unfold Machine.judge
  rw [settle_reads]
  rfl

/-! ### One cell changed -/

theorem updCell_cellsOnly (k : CellIx) (f : CellClaim → CellClaim) (d : Device) : CellsOnly d (updCell k f d) := by
  unfold updCell
  dsimp only
  split
  · exact (CellsOnly.setCell d k _).trans (CellsOnly.raise _ _ _ _ _)
  · exact CellsOnly.setCell d k _

/-- The record of the cell changed, re-judged. -/
@[simp] theorem updCell_cell (k : CellIx) (f : CellClaim → CellClaim) (d : Device) :
    (updCell k f d).cell k = judge d k (f (d.cell k)) := by
  unfold updCell
  dsimp only
  split <;> simp

/-- No other cell's record changes. -/
theorem updCell_cell_of_ne (k j : CellIx) (f : CellClaim → CellClaim) (d : Device) (h : j ≠ k) :
    (updCell k f d).cell j = d.cell j := by
  unfold updCell
  dsimp only
  split <;> simp [h]

/-- The faults after a change of one cell: CONTEST is raised where CONTESTED goes from clear to set. -/
theorem updCell_faults (k : CellIx) (f : CellClaim → CellClaim) (d : Device)
    (h : (judge d k (f (d.cell k))).contested = false ∨ (d.cell k).contested = true) :
    (updCell k f d).faults = d.faults := by
  unfold updCell
  dsimp only
  rw [if_neg]
  · rfl
  · rcases h with h | h <;> simp [h]

theorem updCell_pending (k : CellIx) (f : CellClaim → CellClaim) (d : Device) (j : FaultKind)
    (h : (d.faultEntry j).pending = true) : ((updCell k f d).faultEntry j).pending = true := by
  unfold updCell
  dsimp only
  split
  · exact raise_pending_mono _ _ _ _ _ _ h
  · exact h

theorem Kept.updCell (k : CellIx) (f : CellClaim → CellClaim) (d : Device)
    (hf : (d.cell k).sound → (f (d.cell k)).sound) : Kept d (updCell k f d) := by
  refine (updCell_cellsOnly k f d).kept ?_ ?_
  · intro h
    unfold Machine.updCell
    dsimp only
    split
    · exact raise_faults_lawful _ _ _ _ _ h
    · exact h
  · intro h j
    by_cases hj : j = k
    · subst hj
      rw [updCell_cell]
      exact judge_lawful d j _ (hf ((CellClaim.lawful_iff _).1 (h j)).1)
    · rw [updCell_cell_of_ne k j f d hj]; exact h j

theorem touchCell_cellsOnly (k : CellIx) (f : CellClaim → CellClaim) (d : Device) : CellsOnly d (touchCell k f d) := rfl

@[simp] theorem touchCell_cell (k : CellIx) (f : CellClaim → CellClaim) (d : Device) :
    (touchCell k f d).cell k = { f (d.cell k) with intruded := !(f (d.cell k)).intruders.isEmpty } := by
  simp [touchCell]

theorem touchCell_cell_of_ne (k j : CellIx) (f : CellClaim → CellClaim) (d : Device) (h : j ≠ k) :
    (touchCell k f d).cell j = d.cell j := by simp [touchCell, h]

@[simp] theorem touchCell_faults (k : CellIx) (f : CellClaim → CellClaim) (d : Device) :
    (touchCell k f d).faults = d.faults := rfl

theorem Kept.touchCell (k : CellIx) (f : CellClaim → CellClaim) (d : Device)
    (hf : (d.cell k).sound → (f (d.cell k)).sound) : Kept d (touchCell k f d) := by
  refine (touchCell_cellsOnly k f d).kept id ?_
  intro h j
  by_cases hj : j = k
  · subst hj
    rw [touchCell_cell, CellClaim.lawful_iff]
    exact ⟨hf ((CellClaim.lawful_iff _).1 (h j)).1, by simp⟩
  · rw [touchCell_cell_of_ne k j f d hj]; exact h j

/-! ### Operations local to one cell -/

/-- An operation on one cell: claim records and faults alone change, no other cell's record, no pending fault is
cleared, and the cell's new record depends on no other cell's. -/
structure Local (f : Device → CellIx → Device) : Prop where
  only : ∀ d k, CellsOnly d (f d k)
  other : ∀ d k j, j ≠ k → (f d k).cell j = d.cell j
  pending : ∀ d k j, (d.faultEntry j).pending = true → ((f d k).faultEntry j).pending = true
  reads : ∀ d t k, CellsOnly d t → t.cell k = d.cell k → (f t k).cell k = (f d k).cell k

/-- A local operation folded over cells, each named once, gives each the record it gives alone. -/
theorem Local.foldl_cell {f : Device → CellIx → Device} (hf : Local f) (l : List CellIx) (hl : l.Nodup) (d : Device)
    (k : CellIx) : (l.foldl f d).cell k = if k ∈ l then (f d k).cell k else d.cell k := by
  induction l generalizing d with
  | nil => simp
  | cons x l ih =>
    rw [List.foldl_cons, ih (List.nodup_cons.1 hl).2]
    by_cases hk : k = x
    · subst hk
      simp [(List.nodup_cons.1 hl).1]
    · have h1 : (f d x).cell k = d.cell k := hf.other d x k hk
      have h2 : (f (f d x) k).cell k = (f d k).cell k := hf.reads d (f d x) k (hf.only d x) h1
      simp [hk, h1, h2]

theorem Local.foldl_pending {f : Device → CellIx → Device} (hf : Local f) (l : List CellIx) (d : Device) (j : FaultKind)
    (h : (d.faultEntry j).pending = true) : ((l.foldl f d).faultEntry j).pending = true := by
  induction l generalizing d with
  | nil => exact h
  | cons x l ih => exact ih (f d x) (hf.pending d x j h)

theorem Local.foldl_only {f : Device → CellIx → Device} (hf : Local f) (l : List CellIx) (d : Device) :
    CellsOnly d (l.foldl f d) := CellsOnly.foldl f hf.only l d

theorem allCells_nodup : allCells.Nodup := List.nodup_finRange 48

@[simp] theorem mem_allCells (k : CellIx) : k ∈ allCells := List.mem_finRange k

@[simp] theorem mem_allCranes (c : CraneIx) : c ∈ allCranes := List.mem_finRange c

/-- A change of one cell whose function depends on no claim record is local. -/
theorem Local.updCell (g : Device → CellIx → CellClaim → CellClaim)
    (hg : ∀ d t k, CellsOnly d t → g t k = g d k) : Local fun d k => updCell k (g d k) d where
  only d k := updCell_cellsOnly k _ d
  other d k j h := updCell_cell_of_ne k j _ d h
  pending d k j h := updCell_pending k _ d j h
  reads d t k h hc := by simp only [updCell_cell, hc, h.judge, hg d t k h]

theorem Local.touchCell (g : CellIx → CellClaim → CellClaim) : Local fun d k => touchCell k (g k) d where
  only d k := touchCell_cellsOnly k _ d
  other d k j h := touchCell_cell_of_ne k j _ d h
  pending d k j h := h
  reads d t k h hc := by simp only [touchCell_cell, hc]

theorem Local.id : Local fun d _ => d where
  only d _ := CellsOnly.refl d
  other _ _ _ _ := rfl
  pending _ _ _ h := h
  reads _ _ _ _ hc := hc

/-- A choice between local operations by the cell's own record and what no claim record holds is local. -/
theorem Local.ite {f g : Device → CellIx → Device} (hf : Local f) (hg : Local g) (p : Device → CellIx → Bool)
    (hp : ∀ d t k, CellsOnly d t → t.cell k = d.cell k → p t k = p d k) :
    Local fun d k => if p d k then f d k else g d k where
  only d k := by split; exacts [hf.only d k, hg.only d k]
  other d k j h := by split; exacts [hf.other d k j h, hg.other d k j h]
  pending d k j h := by split; exacts [hf.pending d k j h, hg.pending d k j h]
  reads d t k h hc := by
    rw [hp d t k h hc]
    split
    exacts [hf.reads d t k h hc, hg.reads d t k h hc]

end Sys2Proof.Machine
end

