-- ==== Sys2Proof/Laws/Claims.lean ====
section
/-! SUPPORT. The Cell Arbiter's named operations (Machine/Arbiter.lean): each is local to its cell, or a fold of such,
and keeps the laws. -/

namespace Sys2Proof.Machine

section more_reads
variable {d t : Device} (h : CellsOnly d t)
include h

theorem CellsOnly.possessionOf (k : CellIx) : t.possessionOf k = d.possessionOf k := by rw [h]; rfl
theorem CellsOnly.liftLists (c : CraneIx) (k : CellIx) : t.liftLists c k = d.liftLists c k := by rw [h]; rfl
theorem CellsOnly.hasJib (c : CraneIx) (k : CellIx) : t.hasJib c k = d.hasJib c k := by rw [h]; rfl
theorem CellsOnly.serviceClass (c : CraneIx) (k : CellIx) : serviceClass t c k = serviceClass d c k := by rw [h]; rfl
theorem CellsOnly.grant (k : CellIx) (c : CraneIx) (x : ClaimClass) (r : CellClaim) : grant t k c x r = grant d k c x r := by
  rw [h]; rfl
theorem CellsOnly.giveOn (k : CellIx) (r : CellClaim) : giveOn t k r = giveOn d k r := by rw [h]; rfl
theorem CellsOnly.enqueue (w : Waiter) (q : List Waiter) : enqueue t w q = enqueue d w q := by rw [h]; rfl
theorem CellsOnly.requeue (c : CraneIx) (x : ClaimClass) (q : List Waiter) : requeue t c x q = requeue d c x q := by
  rw [h]; rfl
theorem CellsOnly.setHolderClass (x : ClaimClass) (r : CellClaim) : setHolderClass t x r = setHolderClass d x r := by
  rw [h]; rfl
theorem CellsOnly.equalTierUpgrade (x y : ClaimClass) : equalTierUpgrade t x y = equalTierUpgrade d x y := by
  rw [h]; rfl
theorem CellsOnly.freePasses (c : CraneIx) (k : CellIx) : freePasses t c k = freePasses d c k := by rw [h]; rfl

theorem CellsOnly.requestCode (c : CraneIx) (k : CellIx) (x : ClaimClass) (hc : t.cell k = d.cell k) :
    requestCode t c k x = requestCode d c k x := by
  unfold Machine.requestCode
  rw [hc, h.footprint, h.protectedCell, h.tier, h.tier, h.possessionOf, h.reservedAgainst]

end more_reads

/-! ### Release -/

theorem Local.releaseCell : Local fun d k => releaseCell k d :=
  Local.updCell (fun d k => giveOn d k) fun _ _ k h => funext fun r => h.giveOn k r

theorem Kept.releaseCell (k : CellIx) (d : Device) : Kept d (releaseCell k d) :=
  Kept.updCell k _ d fun h => giveOn_sound d k _ h.1 h.2.2

theorem Local.rejudgeCell : Local fun d k => rejudgeCell k d :=
  Local.updCell (fun _ _ r => r) fun _ _ _ _ => rfl

theorem Kept.rejudgeCell (k : CellIx) (d : Device) : Kept d (rejudgeCell k d) := Kept.updCell k _ d fun h => h

/-! ### Requests -/

theorem Local.upgrade (c : CraneIx) (x : ClaimClass) : Local fun d k => upgrade c k x d where
  only d k := by
    unfold Machine.upgrade
    dsimp only
    split
    · split
      · split
        · exact updCell_cellsOnly _ _ _
        · exact CellsOnly.refl d
      · exact CellsOnly.refl d
    · split
      · split
        · exact updCell_cellsOnly _ _ _
        · split
          · exact updCell_cellsOnly _ _ _
          · exact CellsOnly.refl d
      · exact CellsOnly.refl d
  other d k j h := by
    unfold Machine.upgrade
    dsimp only
    split
    · split
      · split
        · exact updCell_cell_of_ne _ _ _ _ h
        · rfl
      · rfl
    · split
      · split
        · exact updCell_cell_of_ne _ _ _ _ h
        · split
          · exact updCell_cell_of_ne _ _ _ _ h
          · rfl
      · rfl
  pending d k j h := by
    unfold Machine.upgrade
    dsimp only
    split
    · split
      · split
        · exact updCell_pending _ _ _ _ h
        · exact h
      · exact h
    · split
      · split
        · exact updCell_pending _ _ _ _ h
        · split
          · exact updCell_pending _ _ _ _ h
          · exact h
      · exact h
  reads d t k h hc := by
    unfold Machine.upgrade
    dsimp only
    simp only [hc, h.tier, h.equalTierUpgrade]
    split
    · split
      · split
        · simp only [updCell_cell, hc, h.judge, h.setHolderClass]
        · exact hc
      · exact hc
    · split
      · split
        · simp only [updCell_cell, hc, h.judge, h.requeue]
        · split
          · simp only [updCell_cell, hc, h.judge]
          · exact hc
      · exact hc

theorem Local.request (c : CraneIx) (x : ClaimClass) : Local fun d k => request c k x d where
  only d k := by
    unfold Machine.request
    split
    · exact updCell_cellsOnly _ _ _
    · exact updCell_cellsOnly _ _ _
    · exact (Local.upgrade c x).only d k
    · exact CellsOnly.refl d
  other d k j h := by
    unfold Machine.request
    split
    · exact updCell_cell_of_ne _ _ _ _ h
    · exact updCell_cell_of_ne _ _ _ _ h
    · exact (Local.upgrade c x).other d k j h
    · rfl
  pending d k j h := by
    unfold Machine.request
    split
    · exact updCell_pending _ _ _ _ h
    · exact updCell_pending _ _ _ _ h
    · exact (Local.upgrade c x).pending d k j h
    · exact h
  reads d t k h hc := by
    unfold Machine.request
    rw [h.requestCode c k x hc]
    split
    · simp only [updCell_cell, hc, h.judge, h.grant]
    · simp only [updCell_cell, hc, h.judge, h.enqueue]
    · exact (Local.upgrade c x).reads d t k h hc
    · exact hc

/-- A request answered QUEUED comes from a crane with no standing in the cell. -/
theorem requestCode_queued {d : Device} {c : CraneIx} {k : CellIx} {x : ClaimClass}
    (h : requestCode d c k x = .queued) :
    (d.cell k).standing.holder ≠ some c ∧ ∀ w ∈ (d.cell k).queue, w.crane ≠ c := by
  unfold requestCode at h
  split at h
  · cases h
  · split at h
    · cases h
    · split at h
      · cases h
      · split at h
        · cases h
        · next hn =>
          simp only [Bool.or_eq_true, beq_iff_eq, not_or, Bool.not_eq_true, Option.isSome_eq_false_iff,
            Option.isNone_iff_eq_none] at hn
          exact ⟨hn.1, (entryOf_eq_none c _).1 hn.2⟩

theorem Kept.upgrade (c : CraneIx) (k : CellIx) (x : ClaimClass) (d : Device) : Kept d (upgrade c k x d) := by
  unfold Machine.upgrade
  dsimp only
  split
  · split
    · split
      · exact Kept.updCell k _ d (setHolderClass_sound d x _)
      · exact Kept.refl d
    · exact Kept.refl d
  · next hh =>
    have hh' : (d.cell k).standing.holder ≠ some c := by simpa using hh
    split
    · split
      · exact Kept.updCell k _ d fun h => requeue_sound d c x _ h hh'
      · split
        · exact Kept.updCell k _ d fun h => reclass_sound c x _ h
        · exact Kept.refl d
    · exact Kept.refl d

theorem Kept.request (c : CraneIx) (k : CellIx) (x : ClaimClass) (d : Device) : Kept d (request c k x d) := by
  unfold Machine.request
  split
  · exact Kept.updCell k _ d fun h => grant_sound d k c x _ h.1 h.2.2
  · next hq =>
    have := requestCode_queued hq
    exact Kept.updCell k _ d fun h => enqueue_sound d c x _ h this.1 this.2
  · exact Kept.upgrade c k x d
  · exact Kept.refl d

theorem requestAll_cellsOnly (c : CraneIx) (x : ClaimClass) (ks : List CellIx) (d : Device) :
    CellsOnly d (requestAll c x ks d) := (Local.request c x).foldl_only ks d

theorem Kept.requestAll (c : CraneIx) (x : ClaimClass) (ks : List CellIx) (d : Device) :
    Kept d (requestAll c x ks d) := Kept.foldl _ (fun d k => Kept.request c k x d) ks d

/-! ### Handling a report -/

theorem reportInhibit_cellsOnly (c : CraneIx) (e : RelEntry) (d : Device) : CellsOnly d (reportInhibit c e d) := by
  unfold reportInhibit
  split
  exacts [touchCell_cellsOnly _ _ _, CellsOnly.refl d]

theorem Kept.reportInhibit (c : CraneIx) (e : RelEntry) (d : Device) : Kept d (reportInhibit c e d) := by
  unfold Machine.reportInhibit
  split
  exacts [Kept.touchCell _ _ d fun h => h, Kept.refl d]

theorem reportTakeUp_cellsOnly (c : CraneIx) (e : RelEntry) (d : Device) : CellsOnly d (reportTakeUp c e d) := by
  unfold reportTakeUp
  split
  · split
    exacts [touchCell_cellsOnly _ _ _, CellsOnly.refl d]
  · exact CellsOnly.refl d

theorem Kept.reportTakeUp (c : CraneIx) (e : RelEntry) (d : Device) : Kept d (reportTakeUp c e d) := by
  unfold Machine.reportTakeUp
  split
  · next h x t hs =>
    split
    · refine Kept.touchCell _ _ d fun hr => ⟨hr.1, ?_, hr.2.2.sublist (dropCrane_sublist c _)⟩
      intro y hy
      have := hr.2.1 y (by rw [hs]; exact hy)
      exact ⟨this.1, fun hm => this.2 ((dropCrane_sublist c _).subset hm)⟩
    · exact Kept.refl d
  · exact Kept.refl d

theorem reportLinger_cellsOnly (c : CraneIx) (e : RelEntry) (d : Device) : CellsOnly d (reportLinger c e d) := by
  unfold reportLinger
  split
  · split
    · split
      exacts [updCell_cellsOnly _ _ _, touchCell_cellsOnly _ _ _]
    · exact CellsOnly.refl d
  · exact CellsOnly.refl d

theorem Kept.reportLinger (c : CraneIx) (e : RelEntry) (d : Device) : Kept d (reportLinger c e d) := by
  unfold Machine.reportLinger
  split
  · next h x l hs =>
    split
    · split
      · exact Kept.rejudgeCell _ d
      · refine Kept.touchCell _ _ d fun hr => ⟨hr.1, ?_, hr.2.2⟩
        intro y hy
        exact hr.2.1 y (by rw [hs]; exact hy)
    · exact Kept.refl d
  · exact Kept.refl d

theorem reportDrain_cellsOnly (c : CraneIx) (e : RelEntry) (d : Device) : CellsOnly d (reportDrain c e d) := by
  unfold reportDrain
  split
  · split
    exacts [updCell_cellsOnly _ _ _, CellsOnly.refl d]
  · exact CellsOnly.refl d

theorem Kept.reportDrain (c : CraneIx) (e : RelEntry) (d : Device) : Kept d (reportDrain c e d) := by
  unfold Machine.reportDrain
  split
  · split
    exacts [Kept.releaseCell _ d, Kept.refl d]
  · exact Kept.refl d

theorem reportIntrusion_cellsOnly (c : CraneIx) (first : Bool) (e : RelEntry) (d : Device) :
    CellsOnly d (reportIntrusion c first e d) := by
  unfold reportIntrusion
  dsimp only
  split
  · split
    · split
      exacts [updCell_cellsOnly _ _ _, (updCell_cellsOnly _ _ _).trans (CellsOnly.raise _ _ _ _ _)]
    · exact (touchCell_cellsOnly _ _ _).trans (CellsOnly.raise _ _ _ _ _)
  · exact CellsOnly.refl d

theorem Kept.reportIntrusion (c : CraneIx) (first : Bool) (e : RelEntry) (d : Device) :
    Kept d (reportIntrusion c first e d) := by
  unfold Machine.reportIntrusion
  dsimp only
  split
  · next hi =>
    simp only [Bool.and_eq_true, bne_iff_ne, ne_eq, Bool.not_eq_true', List.contains_eq_mem,
      decide_eq_false_iff_not] at hi
    split
    · have hk := Kept.updCell e.cell (grant d e.cell c .free) d fun h => grant_sound d e.cell c .free _ h.1 h.2.2
      split
      · exact hk
      · exact hk.trans (Kept.raise _ _ _ _ _)
    · refine Kept.trans (Kept.touchCell _ _ d fun hr => ⟨hr.1, ?_, ?_⟩) (Kept.raise _ _ _ _ _)
      · intro y hy
        refine ⟨(hr.2.1 y hy).1, ?_⟩
        simp only [List.mem_append, List.mem_singleton, not_or]
        exact ⟨(hr.2.1 y hy).2, fun hyc => hi.1.2 (hyc ▸ hy)⟩
      · have := hr.2.2
        refine List.nodup_append.2 ⟨this, List.nodup_singleton c, ?_⟩
        intro a ha b hb
        simp only [List.mem_singleton] at hb
        exact fun hab => hi.2 (hb ▸ hab ▸ ha)
  · exact Kept.refl d

theorem reportLeaveIntruders_cellsOnly (c : CraneIx) (e : RelEntry) (d : Device) :
    CellsOnly d (reportLeaveIntruders c e d) := by
  unfold reportLeaveIntruders
  split
  exacts [CellsOnly.refl d, touchCell_cellsOnly _ _ _]

/-- Dropping a crane from the two lists of a record keeps it sound. -/
theorem dropIntruder_sound (c : CraneIx) (r : CellClaim) (l : List CraneIx) (h : r.sound) :
    ({ r with intruders := dropCrane c r.intruders, inhibit := l } : CellClaim).sound :=
  ⟨h.1, fun y hy => ⟨(h.2.1 y hy).1, fun hm => (h.2.1 y hy).2 ((dropCrane_sublist c _).subset hm)⟩,
    h.2.2.sublist (dropCrane_sublist c _)⟩

theorem Kept.reportLeaveIntruders (c : CraneIx) (e : RelEntry) (d : Device) :
    Kept d (reportLeaveIntruders c e d) := by
  unfold Machine.reportLeaveIntruders
  split
  exacts [Kept.refl d, Kept.touchCell _ _ d fun h => dropIntruder_sound c _ _ h]

theorem reportCell_cellsOnly (c : CraneIx) (first : Bool) (d : Device) (e : RelEntry) :
    CellsOnly d (reportCell c first d e) :=
  (((((reportInhibit_cellsOnly c e _).trans (reportTakeUp_cellsOnly c e _)).trans (reportLinger_cellsOnly c e _)).trans
    (reportDrain_cellsOnly c e _)).trans (reportIntrusion_cellsOnly c first e _)).trans
    (reportLeaveIntruders_cellsOnly c e _)

theorem Kept.reportCell (c : CraneIx) (first : Bool) (d : Device) (e : RelEntry) : Kept d (reportCell c first d e) :=
  (((((Kept.reportInhibit c e _).trans (Kept.reportTakeUp c e _)).trans (Kept.reportLinger c e _)).trans
    (Kept.reportDrain c e _)).trans (Kept.reportIntrusion c first e _)).trans (Kept.reportLeaveIntruders c e _)

theorem reportCells_cellsOnly (c : CraneIx) (first : Bool) (d : Device) : CellsOnly d (reportCells c first d) :=
  CellsOnly.foldl _ (reportCell_cellsOnly c first) _ d

theorem Kept.reportCells (c : CraneIx) (first : Bool) (d : Device) : Kept d (reportCells c first d) :=
  Kept.foldl _ (Kept.reportCell c first) _ d

/-! ### Conversions of one crane's claims -/

theorem Local.loseCell (c : CraneIx) : Local (loseCell c) where
  only d k := by
    unfold Machine.loseCell
    dsimp only
    split
    · exact updCell_cellsOnly _ _ _
    · split
      exacts [updCell_cellsOnly _ _ _, (Local.request c .lost).only d k]
  other d k j h := by
    unfold Machine.loseCell
    dsimp only
    split
    · exact updCell_cell_of_ne _ _ _ _ h
    · split
      exacts [updCell_cell_of_ne _ _ _ _ h, (Local.request c .lost).other d k j h]
  pending d k j h := by
    unfold Machine.loseCell
    dsimp only
    split
    · exact updCell_pending _ _ _ _ h
    · split
      exacts [updCell_pending _ _ _ _ h, (Local.request c .lost).pending d k j h]
  reads d t k h hc := by
    unfold Machine.loseCell
    dsimp only
    simp only [hc]
    split
    · simp only [updCell_cell, hc, h.judge, h.setHolderClass]
    · split
      · simp only [updCell_cell, hc, h.judge, h.requeue]
      · exact (Local.request c .lost).reads d t k h hc

theorem Kept.loseCell (c : CraneIx) (d : Device) (k : CellIx) : Kept d (loseCell c d k) := by
  unfold Machine.loseCell
  dsimp only
  split
  · exact Kept.updCell k _ d (setHolderClass_sound d .lost _)
  · next hh =>
    split
    · exact Kept.updCell k _ d fun h => requeue_sound d c .lost _ h (by simpa using hh)
    · exact Kept.request c k .lost d

theorem Local.reconcileCell (c : CraneIx) : Local (reconcileCell c) where
  only d k := by
    unfold Machine.reconcileCell
    dsimp only
    split
    · split
      exacts [updCell_cellsOnly _ _ _, updCell_cellsOnly _ _ _]
    · split
      · split
        exacts [updCell_cellsOnly _ _ _, CellsOnly.refl d]
      · exact CellsOnly.refl d
  other d k j h := by
    unfold Machine.reconcileCell
    dsimp only
    split
    · split
      exacts [updCell_cell_of_ne _ _ _ _ h, updCell_cell_of_ne _ _ _ _ h]
    · split
      · split
        exacts [updCell_cell_of_ne _ _ _ _ h, rfl]
      · rfl
  pending d k j h := by
    unfold Machine.reconcileCell
    dsimp only
    split
    · split
      exacts [updCell_pending _ _ _ _ h, updCell_pending _ _ _ _ h]
    · split
      · split
        exacts [updCell_pending _ _ _ _ h, h]
      · exact h
  reads d t k h hc := by
    unfold Machine.reconcileCell
    dsimp only
    simp only [hc, h.relation]
    split
    · split
      · exact Local.releaseCell.reads d t k h hc
      · simp only [updCell_cell, hc, h.judge, h.setHolderClass, h.windOf, h.hasJib, h.serviceClass]
    · split
      · split
        · simp only [updCell_cell, hc, h.judge]
        · exact hc
      · exact hc

theorem Kept.reconcileCell (c : CraneIx) (d : Device) (k : CellIx) : Kept d (reconcileCell c d k) := by
  unfold Machine.reconcileCell
  dsimp only
  split
  · split
    · exact Kept.releaseCell k d
    · exact Kept.updCell k _ d (setHolderClass_sound d _ _)
  · split
    · split
      exacts [Kept.updCell k _ d (dequeue_sound c _), Kept.refl d]
    · exact Kept.refl d

theorem Local.resumeCell (c : CraneIx) : Local (resumeCell c) where
  only d k := by
    unfold Machine.resumeCell
    dsimp only
    split
    · split
      exacts [updCell_cellsOnly _ _ _, updCell_cellsOnly _ _ _]
    · split
      · split
        exacts [updCell_cellsOnly _ _ _, CellsOnly.refl d]
      · exact CellsOnly.refl d
  other d k j h := by
    unfold Machine.resumeCell
    dsimp only
    split
    · split
      exacts [updCell_cell_of_ne _ _ _ _ h, updCell_cell_of_ne _ _ _ _ h]
    · split
      · split
        exacts [updCell_cell_of_ne _ _ _ _ h, rfl]
      · rfl
  pending d k j h := by
    unfold Machine.resumeCell
    dsimp only
    split
    · split
      exacts [updCell_pending _ _ _ _ h, updCell_pending _ _ _ _ h]
    · split
      · split
        exacts [updCell_pending _ _ _ _ h, h]
      · exact h
  reads d t k h hc := by
    unfold Machine.resumeCell
    dsimp only
    simp only [hc, h.relation]
    split
    · split
      · exact Local.releaseCell.reads d t k h hc
      · simp only [updCell_cell, hc, h.judge, h.setHolderClass, h.serviceClass]
    · split
      · split
        · simp only [updCell_cell, hc, h.judge]
        · exact hc
      · exact hc

theorem Kept.resumeCell (c : CraneIx) (d : Device) (k : CellIx) : Kept d (resumeCell c d k) := by
  unfold Machine.resumeCell
  dsimp only
  split
  · split
    · exact Kept.releaseCell k d
    · exact Kept.updCell k _ d (setHolderClass_sound d _ _)
  · split
    · split
      exacts [Kept.updCell k _ d (dequeue_sound c _), Kept.refl d]
    · exact Kept.refl d

theorem Local.revertCell (c : CraneIx) : Local (revertCell c) where
  only d k := by
    unfold Machine.revertCell
    dsimp only
    split
    · split
      exacts [updCell_cellsOnly _ _ _, CellsOnly.refl d]
    · split
      · split
        · split
          exacts [updCell_cellsOnly _ _ _, updCell_cellsOnly _ _ _]
        · exact CellsOnly.refl d
      · exact CellsOnly.refl d
  other d k j h := by
    unfold Machine.revertCell
    dsimp only
    split
    · split
      exacts [updCell_cell_of_ne _ _ _ _ h, rfl]
    · split
      · split
        · split
          exacts [updCell_cell_of_ne _ _ _ _ h, updCell_cell_of_ne _ _ _ _ h]
        · rfl
      · rfl
  pending d k j h := by
    unfold Machine.revertCell
    dsimp only
    split
    · split
      exacts [updCell_pending _ _ _ _ h, h]
    · split
      · split
        · split
          exacts [updCell_pending _ _ _ _ h, updCell_pending _ _ _ _ h]
        · exact h
      · exact h
  reads d t k h hc := by
    unfold Machine.revertCell
    dsimp only
    simp only [hc, h.tier]
    split
    · split
      · simp only [updCell_cell, hc, h.judge, h.setHolderClass]
      · exact hc
    · split
      · split
        · split
          · simp only [updCell_cell, hc, h.judge]
          · simp only [updCell_cell, hc, h.judge, h.requeue]
        · exact hc
      · exact hc

theorem Kept.revertCell (c : CraneIx) (d : Device) (k : CellIx) : Kept d (revertCell c d k) := by
  unfold Machine.revertCell
  dsimp only
  split
  · split
    exacts [Kept.updCell k _ d (setHolderClass_sound d _ _), Kept.refl d]
  · next hh =>
    split
    · split
      · split
        · exact Kept.updCell k _ d (reclass_sound c _ _)
        · exact Kept.updCell k _ d fun h => requeue_sound d c _ _ h (by simpa using hh)
      · exact Kept.refl d
    · exact Kept.refl d

theorem Local.reserveCell (b : CraneIx) : Local (reserveCell b) :=
  Local.updCell _ fun d t k h => by simp only [h.tier]

theorem Kept.reserveCell (b : CraneIx) (d : Device) (k : CellIx) : Kept d (reserveCell b d k) :=
  Kept.updCell k _ d fun h =>
    ⟨h.1.sublist (List.filter_sublist.map _), fun c hc =>
      ⟨fun hm => (h.2.1 c hc).1 ((List.filter_sublist.map _).subset hm), (h.2.1 c hc).2⟩, h.2.2⟩

theorem Local.withdrawEntry (c : CraneIx) : Local (withdrawEntry c) :=
  Local.ite (Local.updCell (fun _ _ r => { r with queue := dequeue c r.queue }) fun _ _ _ _ => rfl) Local.id
    (fun d k => (entryOf c (d.cell k).queue).isSome) fun d t k _ hc => by simp only [hc]

theorem Kept.withdrawEntry (c : CraneIx) (d : Device) (k : CellIx) : Kept d (withdrawEntry c d k) := by
  unfold Machine.withdrawEntry
  split
  exacts [Kept.updCell k _ d (dequeue_sound c _), Kept.refl d]

theorem Local.releaseHeld (c : CraneIx) : Local (releaseHeld c) :=
  Local.ite Local.releaseCell Local.id (fun d k => (d.cell k).standing.holder == some c)
    fun d t k _ hc => by simp only [hc]

theorem Kept.releaseHeld (c : CraneIx) (d : Device) (k : CellIx) : Kept d (releaseHeld c d k) := by
  unfold Machine.releaseHeld
  split
  exacts [Kept.releaseCell k d, Kept.refl d]

/-- A crane taken out of the two lists of a cell. -/
def forgetCell (c : CraneIx) (d : Device) (k : CellIx) : Device :=
  touchCell k (fun r => { r with inhibit := dropCrane c r.inhibit, intruders := dropCrane c r.intruders }) d

theorem forgetCrane_eq (c : CraneIx) (d : Device) : forgetCrane c d = allCells.foldl (forgetCell c) d := rfl

theorem Local.forgetCell (c : CraneIx) : Local (forgetCell c) := Local.touchCell _

theorem Kept.forgetCell (c : CraneIx) (d : Device) (k : CellIx) : Kept d (forgetCell c d k) :=
  Kept.touchCell k _ d fun h => dropIntruder_sound c _ _ h

section folds
variable (c : CraneIx) (d : Device)

theorem loseCells_cellsOnly : CellsOnly d (loseCells c d) := (Local.loseCell c).foldl_only _ d
theorem Kept.loseCells : Kept d (loseCells c d) := Kept.foldl _ (Kept.loseCell c) _ d
theorem reconcileCells_cellsOnly : CellsOnly d (reconcileCells c d) := (Local.reconcileCell c).foldl_only _ d
theorem Kept.reconcileCells : Kept d (reconcileCells c d) := Kept.foldl _ (Kept.reconcileCell c) _ d
theorem resumeCells_cellsOnly : CellsOnly d (resumeCells c d) := (Local.resumeCell c).foldl_only _ d
theorem Kept.resumeCells : Kept d (resumeCells c d) := Kept.foldl _ (Kept.resumeCell c) _ d
theorem revertPath_cellsOnly (path : List CellIx) : CellsOnly d (revertPath c path d) :=
  (Local.revertCell c).foldl_only _ d
theorem Kept.revertPath (path : List CellIx) : Kept d (revertPath c path d) := Kept.foldl _ (Kept.revertCell c) _ d
theorem reservePath_cellsOnly (path : List CellIx) : CellsOnly d (reservePath c path d) :=
  (Local.reserveCell c).foldl_only _ d
theorem Kept.reservePath (path : List CellIx) : Kept d (reservePath c path d) := Kept.foldl _ (Kept.reserveCell c) _ d
theorem rejudgePath_cellsOnly (path : List CellIx) : CellsOnly d (rejudgePath path d) :=
  Local.rejudgeCell.foldl_only _ d
theorem Kept.rejudgePath (path : List CellIx) : Kept d (rejudgePath path d) :=
  Kept.foldl _ (fun d k => Kept.rejudgeCell k d) _ d
theorem withdrawEntries_cellsOnly : CellsOnly d (withdrawEntries c d) := (Local.withdrawEntry c).foldl_only _ d
theorem Kept.withdrawEntries : Kept d (withdrawEntries c d) := Kept.foldl _ (Kept.withdrawEntry c) _ d
theorem releaseAllHeld_cellsOnly : CellsOnly d (releaseAllHeld c d) := (Local.releaseHeld c).foldl_only _ d
theorem Kept.releaseAllHeld : Kept d (releaseAllHeld c d) := Kept.foldl _ (Kept.releaseHeld c) _ d
theorem forgetCrane_cellsOnly : CellsOnly d (forgetCrane c d) := (Local.forgetCell c).foldl_only _ d
theorem Kept.forgetCrane : Kept d (forgetCrane c d) := Kept.foldl _ (Kept.forgetCell c) _ d

/-- What each cell's record is once a crane has left the lists of every cell. -/
theorem forgetCrane_cell (k : CellIx) :
    (forgetCrane c d).cell k =
      { d.cell k with
        inhibit := dropCrane c (d.cell k).inhibit
        intruders := dropCrane c (d.cell k).intruders
        intruded := !(dropCrane c (d.cell k).intruders).isEmpty } := by
  rw [forgetCrane_eq, (Local.forgetCell c).foldl_cell _ allCells_nodup]
  simp [Machine.forgetCell]

end folds

@[simp] theorem mem_ascending (k : CellIx) (path : List CellIx) : k ∈ ascending path ↔ k ∈ path := by
  simp [ascending]

theorem ascending_nodup (path : List CellIx) : (ascending path).Nodup := allCells_nodup.filter _

/-! ### Expiries and RELEASE -/

theorem joinInhibit_cellsOnly (c : CraneIx) (k : CellIx) (d : Device) : CellsOnly d (joinInhibit c k d) := by
  unfold joinInhibit
  split
  exacts [CellsOnly.refl d, touchCell_cellsOnly _ _ _]

theorem Kept.joinInhibit (c : CraneIx) (k : CellIx) (d : Device) : Kept d (joinInhibit c k d) := by
  unfold Machine.joinInhibit
  split
  exacts [Kept.refl d, Kept.touchCell _ _ d fun h => h]

@[simp] theorem joinInhibit_faults (c : CraneIx) (k : CellIx) (d : Device) : (joinInhibit c k d).faults = d.faults := by
  unfold joinInhibit
  split <;> rfl

theorem takeUpExpired_cellsOnly (k : CellIx) (d : Device) : CellsOnly d (takeUpExpired k d) := by
  unfold takeUpExpired
  split
  · exact ((joinInhibit_cellsOnly _ _ _).trans (CellsOnly.raise _ _ _ _ _)).trans (updCell_cellsOnly _ _ _)
  · exact CellsOnly.refl d

theorem Kept.takeUpExpired (k : CellIx) (d : Device) : Kept d (takeUpExpired k d) := by
  unfold Machine.takeUpExpired
  split
  · exact ((Kept.joinInhibit _ _ _).trans (Kept.raise _ _ _ _ _)).trans (Kept.releaseCell _ _)
  · exact Kept.refl d

theorem lingerExpired_cellsOnly (k : CellIx) (d : Device) : CellsOnly d (lingerExpired k d) := by
  unfold lingerExpired
  split
  exacts [updCell_cellsOnly _ _ _, CellsOnly.refl d]

theorem Kept.lingerExpired (k : CellIx) (d : Device) : Kept d (lingerExpired k d) := by
  unfold Machine.lingerExpired
  split
  exacts [Kept.releaseCell _ _, Kept.refl d]

theorem giveUp_cellsOnly (c : CraneIx) (k : CellIx) (d : Device) : CellsOnly d (giveUp c k d) := by
  unfold giveUp
  split
  exacts [(joinInhibit_cellsOnly _ _ _).trans (updCell_cellsOnly _ _ _),
    (joinInhibit_cellsOnly _ _ _).trans (updCell_cellsOnly _ _ _)]

theorem Kept.giveUp (c : CraneIx) (k : CellIx) (d : Device) : Kept d (giveUp c k d) := by
  unfold Machine.giveUp
  split
  exacts [(Kept.joinInhibit _ _ _).trans (Kept.releaseCell _ _),
    (Kept.joinInhibit _ _ _).trans (Kept.updCell _ _ _ (dequeue_sound c _))]

end Sys2Proof.Machine
end

