-- ==== Sys2Proof/Laws/Table.lean ====
section
/-! SUPPORT. The booking table as a list: what removal, change in place and insertion keep of `tableLawful`, and that the
id an insertion takes is not live. -/

namespace Sys2Proof.Machine

/-! ### Lists of bookings -/

theorem tableLawful_sublist {l l' : List Booking} (h : l'.Sublist l) (hl : tableLawful l) : tableLawful l' := by
  obtain ⟨h1, h2, h3, h4, h5⟩ := hl
  exact ⟨h.length_le.trans h1, h2.sublist h, h3.sublist (h.map _), fun b hb => h4 b (h.subset hb),
    fun b hb b' hb' => h5 b (h.subset hb) b' (h.subset hb')⟩

/-- A change in place that keeps each booking's id, place and lawfulness and starts no cycle keeps the table lawful. -/
theorem tableLawful_map {l : List Booking} (f : Booking → Booking)
    (hf : ∀ b ∈ l, (f b).id = b.id ∧ (f b).crane = b.crane ∧ (f b).reservedStart = b.reservedStart ∧
      (b.lawful → (f b).lawful) ∧ ((f b).state.running = true → b.state.running = true))
    (hl : tableLawful l) : tableLawful (l.map f) := by
  obtain ⟨h1, h2, h3, h4, h5⟩ := hl
  refine ⟨by simpa using h1, ?_, ?_, ?_, ?_⟩
  · rw [List.pairwise_map]
    refine h2.imp_of_mem fun {a b} ha hb h => ?_
    simpa [bookingBefore, (hf a ha).1, (hf b hb).1, (hf a ha).2.2.1, (hf b hb).2.2.1] using h
  · rw [List.map_map]
    have e : l.map ((fun b : Booking => b.id) ∘ f) = l.map fun b => b.id :=
      List.map_congr_left fun b hb => (hf b hb).1
    rw [e]
    exact h3
  · simp only [List.mem_map]
    rintro _ ⟨b, hb, rfl⟩
    exact (hf b hb).2.2.2.1 (h4 b hb)
  · simp only [List.mem_map]
    rintro _ ⟨b, hb, rfl⟩ _ ⟨b', hb', rfl⟩ hc hr hr'
    rw [h5 b hb b' hb' (by rw [← (hf b hb).2.1, ← (hf b' hb').2.1]; exact hc) ((hf b hb).2.2.2.2 hr)
      ((hf b' hb').2.2.2.2 hr')]

theorem removeBooking_sublist (id : Nat) (l : List Booking) : (removeBooking id l).Sublist l := List.filter_sublist

@[simp] theorem mem_removeBooking (id : Nat) (l : List Booking) (b : Booking) :
    b ∈ removeBooking id l ↔ b ∈ l ∧ b.id ≠ id := by simp [removeBooking]

theorem insertBooking_perm (b : Booking) : ∀ l : List Booking, (insertBooking b l).Perm (b :: l)
  | [] => .refl _
  | x :: l => by
    unfold insertBooking
    split
    · exact .refl _
    · exact ((insertBooking_perm b l).cons x).trans (.swap b x l)

@[simp] theorem mem_insertBooking (b x : Booking) (l : List Booking) : x ∈ insertBooking b l ↔ x = b ∨ x ∈ l := by
  rw [(insertBooking_perm b l).mem_iff, List.mem_cons]

theorem bookingBefore_trans {a b c : Booking} (h : bookingBefore a b = true) (h' : bookingBefore b c = true) :
    bookingBefore a c = true := by
  simp only [bookingBefore, Bool.or_eq_true, decide_eq_true_eq, Bool.and_eq_true, beq_iff_eq] at *
  omega

theorem bookingBefore_total {a b : Booking} (h : bookingBefore a b = false) (hne : a.id ≠ b.id) :
    bookingBefore b a = true := by
  simp only [bookingBefore, Bool.or_eq_true, decide_eq_true_eq, Bool.and_eq_true, beq_iff_eq, Bool.or_eq_false_iff,
    decide_eq_false_iff_not, Bool.and_eq_false_iff, beq_eq_false_iff_ne] at *
  omega

theorem insertBooking_sorted (b : Booking) : ∀ l : List Booking, (∀ x ∈ l, x.id ≠ b.id) →
    l.Pairwise (fun a b => bookingBefore a b = true) → (insertBooking b l).Pairwise fun a b => bookingBefore a b = true
  | [], _, _ => by simp [insertBooking]
  | x :: l, hne, h => by
    rw [List.pairwise_cons] at h
    unfold insertBooking
    split
    · next hb =>
      refine List.Pairwise.cons ?_ (List.Pairwise.cons h.1 h.2)
      intro y hy
      rcases List.mem_cons.1 hy with rfl | hy
      · exact hb
      · exact bookingBefore_trans hb (h.1 y hy)
    · next hb =>
      have hb' : bookingBefore b x = false := by simpa using hb
      refine List.Pairwise.cons ?_ (insertBooking_sorted b l (fun y hy => hne y (List.mem_cons_of_mem _ hy)) h.2)
      intro y hy
      rcases (mem_insertBooking b y l).1 hy with rfl | hy
      · exact bookingBefore_total hb' (Ne.symm (hne x List.mem_cons_self))
      · exact h.1 y hy

/-- A lawful booking that runs no cycle, under an id that is not live, enters a table with room. -/
theorem tableLawful_insert {l : List Booking} {b : Booking} (hl : tableLawful l) (hlen : l.length < 64) (hb : b.lawful)
    (hid : ∀ x ∈ l, x.id ≠ b.id) (hr : b.state.running = false) : tableLawful (insertBooking b l) := by
  obtain ⟨-, h2, h3, h4, h5⟩ := hl
  have hp := insertBooking_perm b l
  refine ⟨by rw [hp.length_eq]; simpa using hlen, insertBooking_sorted b l hid h2, ?_, ?_, ?_⟩
  · rw [(hp.map _).nodup_iff]
    simp only [List.map_cons, List.nodup_cons]
    refine ⟨?_, h3⟩
    simp only [List.mem_map, not_exists, not_and]
    exact fun x hx => hid x hx
  · intro x hx
    rcases (mem_insertBooking b x l).1 hx with rfl | hx
    · exact hb
    · exact h4 x hx
  · intro x hx y hy hc hrx hry
    rcases (mem_insertBooking b x l).1 hx with rfl | hx
    · rw [hr] at hrx; cases hrx
    · rcases (mem_insertBooking b y l).1 hy with rfl | hy
      · rw [hr] at hry; cases hry
      · exact h5 x hx y hy hc hrx hry

theorem booking_mem {d : Device} {id : Nat} {b : Booking} (h : d.booking id = some b) : b ∈ d.bookings :=
  List.mem_of_find?_eq_some h

theorem booking_id {d : Device} {id : Nat} {b : Booking} (h : d.booking id = some b) : b.id = id := by
  simpa using List.find?_some h

theorem booking_eq_none {d : Device} {id : Nat} : d.booking id = none ↔ ∀ x ∈ d.bookings, x.id ≠ id := by
  simp [Device.booking]

theorem removeBooking_length_lt {l : List Booking} {b : Booking} (h : b ∈ l) :
    (removeBooking b.id l).length < l.length := by
  unfold removeBooking
  rw [List.length_filter_lt_length_iff_exists]
  exact ⟨b, h, by simp⟩

/-- The booking of an id becomes a running one, where no booking of its crane ran. -/
theorem tableLawful_start {l : List Booking} {b : Booking} (hl : tableLawful l) (hb : b ∈ l)
    (hr : ∀ x ∈ l, x.crane = b.crane → x.state.running = false) (st : BookingState) :
    tableLawful (modifyBooking b.id (fun x => { x with state := st }) l) := by
  obtain ⟨h1, h2, h3, h4, h5⟩ := hl
  have hid : ∀ x ∈ l, x.id = b.id → x = b := by
    intro x hx e
    have := List.inj_on_of_nodup_map h3
    exact this hx hb e
  unfold modifyBooking
  refine ⟨by simpa using h1, ?_, ?_, ?_, ?_⟩
  · rw [List.pairwise_map]
    refine h2.imp fun {a c} h => ?_
    have e : ∀ y : Booking, (if (y.id == b.id) = true then { y with state := st } else y).id = y.id ∧
        (if (y.id == b.id) = true then { y with state := st } else y).reservedStart = y.reservedStart := by
      intro y; split <;> exact ⟨rfl, rfl⟩
    unfold bookingBefore at h ⊢
    rw [(e a).1, (e a).2, (e c).1, (e c).2]
    exact h
  · rw [List.map_map]
    have : (fun b => b.id) ∘ (fun y : Booking => if (y.id == b.id) = true then { y with state := st } else y)
        = fun y : Booking => y.id := by
      funext y
      simp only [Function.comp]
      split <;> rfl
    rw [this]
    exact h3
  · simp only [List.mem_map]
    rintro _ ⟨x, hx, rfl⟩
    have := h4 x hx
    split
    · exact this
    · exact this
  · simp only [List.mem_map]
    rintro _ ⟨x, hx, rfl⟩ _ ⟨y, hy, rfl⟩ hc hrx hry
    by_cases ex : x.id = b.id
    · by_cases ey : y.id = b.id
      · rw [hid x hx ex, hid y hy ey]
      · have exb := hid x hx ex
        subst exb
        simp only [beq_self_eq_true, if_true, beq_iff_eq, ey, if_false] at hc hry
        rw [hr y hy hc.symm] at hry
        cases hry
    · by_cases ey : y.id = b.id
      · have eyb := hid y hy ey
        subst eyb
        simp only [beq_self_eq_true, if_true, beq_iff_eq, ex, if_false] at hc hrx
        rw [hr x hx hc] at hrx
        cases hrx
      · simp only [beq_iff_eq, ex, ey, if_false] at hc hrx hry ⊢
        exact h5 x hx y hy hc hrx hry

/-! ### Fresh ids -/

/-- The id `i` places after `n` (R140). -/
def idAt (n : Nat) : Nat → Nat
  | 0 => n
  | i + 1 => idAt (idAfter n) i

theorem idAfter_range (n : Nat) : 1 ≤ idAfter n ∧ idAfter n ≤ 65535 := by
  unfold idAfter; split <;> omega

theorem idAt_eq {n : Nat} (h : 1 ≤ n) (h' : n ≤ 65535) (i : Nat) : idAt n i = (n - 1 + i) % 65535 + 1 := by
  induction i generalizing n with
  | zero => unfold idAt; omega
  | succ i ih =>
    unfold idAt
    rw [ih (idAfter_range n).1 (idAfter_range n).2]
    unfold idAfter
    split <;> omega

theorem idAt_inj (n : Nat) {i j : Nat} (hi : i ≤ 65534) (hj : j ≤ 65534) (h : idAt n i = idAt n j) : i = j := by
  have key : ∀ m, 1 ≤ m → m ≤ 65535 → ∀ i j, i ≤ 65534 → j ≤ 65534 → idAt m i = idAt m j → i = j := by
    intro m h1 h2 i j hi hj h
    rw [idAt_eq h1 h2, idAt_eq h1 h2] at h
    omega
  by_cases hn : 1 ≤ n ∧ n ≤ 65535
  · exact key n hn.1 hn.2 i j hi hj h
  · have r := idAfter_range n
    cases i with
    | zero =>
      cases j with
      | zero => rfl
      | succ j => rw [idAt, idAt, idAt_eq r.1 r.2] at h; omega
    | succ i =>
      cases j with
      | zero => rw [idAt, idAt, idAt_eq r.1 r.2] at h; omega
      | succ j =>
        rw [idAt, idAt] at h
        rw [key _ r.1 r.2 i j (by omega) (by omega) h]

theorem freeIdFrom_live (l : List Booking) : ∀ (fuel n : Nat), (∃ b ∈ l, b.id = freeIdFrom fuel l n) →
    ∀ i, i ≤ fuel → ∃ b ∈ l, b.id = idAt n i
  | 0, n, h, i, hi => by
    obtain rfl : i = 0 := by omega
    exact h
  | fuel + 1, n, h, i, hi => by
    unfold freeIdFrom at h
    split at h
    · next hn =>
      cases i with
      | zero => simpa [idAt] using hn
      | succ i => exact freeIdFrom_live l fuel (idAfter n) h i (by omega)
    · next hn =>
      exfalso
      apply hn
      simpa using h

/-- The id an insertion takes is not live. -/
theorem freeIdFrom_free (l : List Booking) (n : Nat) (hl : l.length ≤ 65533) :
    ∀ b ∈ l, b.id ≠ freeIdFrom (l.length + 1) l n := by
  intro b hb he
  have live := freeIdFrom_live l (l.length + 1) n ⟨b, hb, he⟩
  have sub : (List.range (l.length + 2)).map (idAt n) ⊆ l.map fun b => b.id := by
    intro x hx
    simp only [List.mem_map, List.mem_range] at hx ⊢
    obtain ⟨i, hi, rfl⟩ := hx
    exact live i (by omega)
  have nd : ((List.range (l.length + 2)).map (idAt n)).Nodup := by
    rw [List.nodup_map_iff_inj_on List.nodup_range]
    intro i hi j hj e
    simp only [List.mem_range] at hi hj
    exact idAt_inj n (by omega) (by omega) e
  have := (nd.subperm sub).length_le
  simp at this

theorem freeIdFrom_range (l : List Booking) : ∀ (fuel n : Nat), 1 ≤ n → n ≤ 65535 →
    1 ≤ freeIdFrom fuel l n ∧ freeIdFrom fuel l n ≤ 65535
  | 0, _, h, h' => ⟨h, h'⟩
  | fuel + 1, n, h, h' => by
    unfold freeIdFrom
    split
    · exact freeIdFrom_range l fuel _ (idAfter_range n).1 (idAfter_range n).2
    · exact ⟨h, h'⟩

end Sys2Proof.Machine
end

