-- ==== Sys2Proof/Laws/Bookings.lean ====
section
/-! SUPPORT. What the Booking Table's operations change and keep: `ClaimsOnly` says that claim records, bookings and the
fault record alone change. -/

namespace Sys2Proof.Machine

/-- Between two states of the part the claim records, the booking table and the fault record alone differ. -/
def ClaimsOnly (d t : Device) : Prop := t = { d with cells := t.cells, bookings := t.bookings, faults := t.faults }

theorem ClaimsOnly.refl (d : Device) : ClaimsOnly d d := rfl

theorem ClaimsOnly.trans {d e t : Device} (h : ClaimsOnly d e) (h' : ClaimsOnly e t) : ClaimsOnly d t := by
  unfold ClaimsOnly at *
  rw [h', h]

theorem CellsOnly.claimsOnly {d t : Device} (h : CellsOnly d t) : ClaimsOnly d t := by
  unfold ClaimsOnly
  unfold CellsOnly at h
  rw [h]

theorem ClaimsOnly.foldl {α : Type} (f : Device → α → Device) (hf : ∀ d x, ClaimsOnly d (f d x)) (l : List α)
    (d : Device) : ClaimsOnly d (l.foldl f d) := by
  induction l generalizing d with
  | nil => exact ClaimsOnly.refl d
  | cons x l ih => exact (hf d x).trans (ih (f d x))

theorem ClaimsOnly.modBooking (d : Device) (id : Nat) (f : Booking → Booking) : ClaimsOnly d (d.modBooking id f) := rfl

theorem ClaimsOnly.ite {d : Device} {p : Prop} [Decidable p] {a b : Device} (ha : ClaimsOnly d a) (hb : ClaimsOnly d b) :
    ClaimsOnly d (if p then a else b) := by
  split <;> assumption

theorem Kept.ite {d : Device} {p : Prop} [Decidable p] {a b : Device} (ha : Kept d a) (hb : Kept d b) :
    Kept d (if p then a else b) := by
  split <;> assumption

section reads
variable {d t : Device} (h : ClaimsOnly d t)
include h

theorem ClaimsOnly.plan : t.plan = d.plan := by rw [h]
theorem ClaimsOnly.roster : t.roster = d.roster := by rw [h]
theorem ClaimsOnly.reach : t.reach = d.reach := by rw [h]
theorem ClaimsOnly.permits : t.permits = d.permits := by rw [h]
theorem ClaimsOnly.wind : t.wind = d.wind := by rw [h]
theorem ClaimsOnly.clock : t.clock = d.clock := by rw [h]
theorem ClaimsOnly.mast : t.mast = d.mast := by rw [h]
theorem ClaimsOnly.nextId : t.nextId = d.nextId := by rw [h]
theorem ClaimsOnly.ports : t.ports = d.ports := by rw [h]
theorem ClaimsOnly.picks : t.picks = d.picks := by rw [h]
theorem ClaimsOnly.crane (c : CraneIx) : t.crane c = d.crane c := by rw [h]; rfl
theorem ClaimsOnly.windOf (c : CraneIx) : t.windOf c = d.windOf c := by rw [h]; rfl
theorem ClaimsOnly.port (c : CraneIx) : t.port c = d.port c := by rw [h]; rfl
theorem ClaimsOnly.reachOf (c : CraneIx) : t.reachOf c = d.reachOf c := by rw [h]; rfl
theorem ClaimsOnly.permitOf (c : CraneIx) : t.permitOf c = d.permitOf c := by rw [h]; rfl
theorem ClaimsOnly.hold (c : CraneIx) : t.hold c = d.hold c := by rw [h]; rfl

end reads

/-- A change of the booking table alone keeps the laws where the table stays lawful. -/
theorem Kept.bookings (d : Device) (l : List Booking) (h : tableLawful d.bookings → tableLawful l) :
    Kept d { d with bookings := l } :=
  ⟨id, id, id, id, id, id, fun ht => ⟨h ht.1, ht.2⟩⟩

/-- A change of bookings in place keeps the laws. -/
theorem Kept.modBooking (d : Device) (id : Nat) (f : Booking → Booking)
    (hf : ∀ b ∈ d.bookings, b.id = id → (f b).id = b.id ∧ (f b).crane = b.crane ∧
      (f b).reservedStart = b.reservedStart ∧ (b.lawful → (f b).lawful) ∧
      ((f b).state.running = true → b.state.running = true)) : Kept d (d.modBooking id f) := by
  refine Kept.bookings d _ (tableLawful_map _ ?_)
  intro b hb
  split
  · next h => exact hf b hb (by simpa using h)
  · exact ⟨rfl, rfl, rfl, fun h => h, fun h => h⟩

theorem tableLawful_unlinkPred {l : List Booking} (b : Booking) (h : tableLawful l) : tableLawful (unlinkPred b l) := by
  unfold unlinkPred
  split
  · refine tableLawful_map _ ?_ h
    intro x _
    split <;> exact ⟨rfl, rfl, rfl, fun h => h, fun h => h⟩
  · exact h

/-! ### Retirement and activation -/

theorem activate_claimsOnly (id : Nat) (d : Device) : ClaimsOnly d (activate id d) := by
  unfold activate
  split
  · exact ClaimsOnly.trans (e := { d with bookings := _ }) rfl (reservePath_cellsOnly _ _ _).claimsOnly
  · exact ClaimsOnly.refl d

theorem Kept.activate (id : Nat) (d : Device) : Kept d (activate id d) := by
  unfold Machine.activate
  split
  · next b hb =>
    refine Kept.trans (Kept.bookings d _ fun ht => ?_) (Kept.reservePath _ _ _)
    have hm := booking_mem hb
    have hlt := removeBooking_length_lt hm
    rw [booking_id hb] at hlt
    have h1 := ht.1
    refine tableLawful_insert (tableLawful_sublist (removeBooking_sublist _ _) ht) (by omega) (ht.2.2.2.1 b hm) ?_ rfl
    intro x hx
    rw [mem_removeBooking] at hx
    intro e
    have e' : x.id = b.id := e
    exact hx.2 (e'.trans (booking_id hb))
  · exact Kept.refl d

theorem retireOne_claimsOnly (b : Booking) (reason : RetireReason) (d : Device) : ClaimsOnly d (retireOne b reason d) := by
  unfold retireOne
  dsimp only
  refine ClaimsOnly.trans (e := if b.state.running then revertPath b.crane b.path d else d)
    (ClaimsOnly.ite (revertPath_cellsOnly _ _ _).claimsOnly (ClaimsOnly.refl d)) ?_
  generalize (if b.state.running then revertPath b.crane b.path d else d) = e
  refine ClaimsOnly.trans (e := { e with bookings := removeBooking b.id (unlinkPred b e.bookings) }) rfl ?_
  generalize ({ e with bookings := removeBooking b.id (unlinkPred b e.bookings) } : Device) = e
  refine ClaimsOnly.trans (e := if b.state.inForce then rejudgePath b.path e else e)
    (ClaimsOnly.ite (rejudgePath_cellsOnly _ _).claimsOnly (ClaimsOnly.refl e)) ?_
  exact ClaimsOnly.ite (CellsOnly.raise _ _ _ _ _).claimsOnly (ClaimsOnly.refl _)

theorem Kept.retireOne (b : Booking) (reason : RetireReason) (d : Device) : Kept d (retireOne b reason d) := by
  unfold Machine.retireOne
  dsimp only
  refine Kept.trans (e := if b.state.running then Machine.revertPath b.crane b.path d else d)
    (Kept.ite (Kept.revertPath _ _ _) (Kept.refl d)) ?_
  generalize (if b.state.running then Machine.revertPath b.crane b.path d else d) = e
  refine Kept.trans (Kept.bookings e (removeBooking b.id (unlinkPred b e.bookings)) fun ht =>
    tableLawful_sublist (removeBooking_sublist _ _) (tableLawful_unlinkPred b ht)) ?_
  generalize ({ e with bookings := removeBooking b.id (unlinkPred b e.bookings) } : Device) = e
  refine Kept.trans (e := if b.state.inForce then Machine.rejudgePath b.path e else e)
    (Kept.ite (Kept.rejudgePath _ _) (Kept.refl e)) ?_
  exact Kept.ite (Kept.raise _ _ _ _ _) (Kept.refl _)

/-- What retirement leaves of the table: the bookings that were not the one retired, its predecessor unlinked. -/
theorem retireOne_bookings (b : Booking) (reason : RetireReason) (d : Device) :
    (retireOne b reason d).bookings = removeBooking b.id (unlinkPred b d.bookings) := by
  unfold retireOne
  dsimp only
  have h1 : (if b.state.running then revertPath b.crane b.path d else d).bookings = d.bookings := by
    split
    · exact (revertPath_cellsOnly _ _ _).bookings
    · rfl
  generalize (if b.state.running then revertPath b.crane b.path d else d) = e at h1
  rw [← h1]
  split
  · rw [raise_bookings]
    split
    · rw [(rejudgePath_cellsOnly _ _).bookings]
    · rfl
  · split
    · rw [(rejudgePath_cellsOnly _ _).bookings]
    · rfl

theorem retireChain_claimsOnly : ∀ (fuel id : Nat) (reason : RetireReason) (d : Device),
    ClaimsOnly d (retireChain fuel id reason d)
  | 0, _, _, d => ClaimsOnly.refl d
  | fuel + 1, id, reason, d => by
    unfold retireChain
    split
    · exact ClaimsOnly.refl d
    · next b _ =>
      have h := retireOne_claimsOnly b reason d
      dsimp only
      split
      · exact h
      · split
        · exact h.trans (activate_claimsOnly _ _)
        · exact h
        · exact h.trans (retireChain_claimsOnly fuel _ _ _)

theorem Kept.retireChain : ∀ (fuel id : Nat) (reason : RetireReason) (d : Device),
    Kept d (retireChain fuel id reason d)
  | 0, _, _, d => Kept.refl d
  | fuel + 1, id, reason, d => by
    unfold Machine.retireChain
    split
    · exact Kept.refl d
    · next b _ =>
      have h := Kept.retireOne b reason d
      dsimp only
      split
      · exact h
      · split
        · exact h.trans (Kept.activate _ _)
        · exact h
        · exact h.trans (Kept.retireChain fuel _ _ _)

theorem retire_claimsOnly (id : Nat) (reason : RetireReason) (d : Device) : ClaimsOnly d (retire id reason d) :=
  retireChain_claimsOnly _ _ _ d

theorem Kept.retire (id : Nat) (reason : RetireReason) (d : Device) : Kept d (retire id reason d) :=
  Kept.retireChain _ _ _ d

theorem retireAllOf_claimsOnly (c : CraneIx) (d : Device) : ClaimsOnly d (retireAllOf c d) :=
  ClaimsOnly.foldl _ (fun d id => retire_claimsOnly id _ d) _ d

theorem Kept.retireAllOf (c : CraneIx) (d : Device) : Kept d (retireAllOf c d) :=
  Kept.foldl _ (fun d id => Kept.retire id _ d) _ d

/-! ### Window matching -/

theorem matchBooking_claimsOnly (now : Nat) (d : Device) (id : Nat) : ClaimsOnly d (matchBooking now d id) := by
  unfold matchBooking
  split
  · exact ClaimsOnly.refl d
  · split
    · exact ClaimsOnly.ite (retire_claimsOnly _ _ _) (ClaimsOnly.refl d)
    · exact ClaimsOnly.ite (retire_claimsOnly _ _ _) (ClaimsOnly.ite
        (ClaimsOnly.trans (ClaimsOnly.modBooking _ _ _) (reservePath_cellsOnly _ _ _).claimsOnly) (ClaimsOnly.refl d))
    · exact ClaimsOnly.ite (retire_claimsOnly _ _ _) (ClaimsOnly.refl d)
    · exact ClaimsOnly.ite (retire_claimsOnly _ _ _) (ClaimsOnly.refl d)
    · exact ClaimsOnly.ite (ClaimsOnly.modBooking _ _ _) (ClaimsOnly.refl d)
    · exact ClaimsOnly.ite (ClaimsOnly.modBooking _ _ _) (ClaimsOnly.refl d)

theorem Kept.matchBooking (now : Nat) (d : Device) (id : Nat) : Kept d (matchBooking now d id) := by
  unfold Machine.matchBooking
  split
  · exact Kept.refl d
  · split
    · exact Kept.ite (Kept.retire _ _ _) (Kept.refl d)
    · exact Kept.ite (Kept.retire _ _ _) (Kept.ite
        (Kept.trans (e := d.modBooking id fun b => { b with state := .opened })
          (Kept.modBooking _ _ _ fun b _ _ => ⟨rfl, rfl, rfl, fun h => h, by simp [BookingState.running]⟩)
          (Kept.reservePath _ _ _)) (Kept.refl d))
    · exact Kept.ite (Kept.retire _ _ _) (Kept.refl d)
    · exact Kept.ite (Kept.retire _ _ _) (Kept.refl d)
    · exact Kept.ite (Kept.modBooking _ _ _ fun b _ _ => ⟨rfl, rfl, rfl, fun h => h, fun h => h⟩) (Kept.refl d)
    · exact Kept.ite (Kept.modBooking _ _ _ fun b _ _ => ⟨rfl, rfl, rfl, fun h => h, fun h => h⟩) (Kept.refl d)

theorem windowMatching_claimsOnly (d : Device) : ClaimsOnly d (windowMatching d) := by
  unfold windowMatching
  split
  · exact ClaimsOnly.refl d
  · exact ClaimsOnly.foldl _ (matchBooking_claimsOnly _) _ d

theorem Kept.windowMatching (d : Device) : Kept d (windowMatching d) := by
  unfold Machine.windowMatching
  split
  · exact Kept.refl d
  · exact Kept.foldl _ (Kept.matchBooking _) _ d

/-- Window matching changes nothing where nothing is due. -/
theorem windowMatching_of_nothingDue (d : Device) (h : ∀ now, d.clock.siteTime = some now → nothingDue now d.bookings) :
    windowMatching d = d := by
  unfold windowMatching
  split
  · rfl
  · next now hn =>
    have hd := h now hn
    have key : ∀ id, matchBooking now d id = d := by
      intro id
      unfold matchBooking
      split
      · rfl
      · next b hb =>
        have hb' := hd b (booking_mem hb)
        have hend : b.windowEnd.any (· ≤ now) = false := by
          cases e : b.windowEnd with
          | none => rfl
          | some x => simpa using hb'.2.1 x e
        split
        · rw [if_neg (by omega)]
        · next hs =>
          have hst : b.windowStart.any (· ≤ now) = false := by
            cases e : b.windowStart with
            | none => rfl
            | some x => simpa using hb'.2.2 hs x e
          simp [hend, hst]
        all_goals simp [hend]
    generalize d.bookings.map (fun b => b.id) = l
    induction l with
    | nil => rfl
    | cons x l ih => rw [List.foldl_cons, key x]; exact ih

/-! ### Wind and bookings -/

theorem reopenSuspended_claimsOnly (d : Device) : ClaimsOnly d (reopenSuspended d) := rfl

theorem Kept.reopenSuspended (d : Device) : Kept d (reopenSuspended d) := by
  refine Kept.bookings d _ (tableLawful_map _ ?_)
  intro b _
  split
  · exact ⟨rfl, rfl, rfl, fun h => h, by simp [BookingState.running]⟩
  · exact ⟨rfl, rfl, rfl, fun h => h, fun h => h⟩

theorem windHanding_claimsOnly (c : CraneIx) (d : Device) : ClaimsOnly d (windHanding c d) := rfl

theorem Kept.windHanding (c : CraneIx) (d : Device) : Kept d (windHanding c d) := by
  refine Kept.bookings d _ (tableLawful_map _ ?_)
  intro b _
  split
  · next h =>
    simp only [Bool.and_eq_true, beq_iff_eq] at h
    exact ⟨rfl, rfl, rfl, fun h => h, by simp [h.1.2, BookingState.running]⟩
  · exact ⟨rfl, rfl, rfl, fun h => h, fun h => h⟩

/-! ### Lift cycles -/

theorem startLift_claimsOnly (c : CraneIx) (id : Nat) (d : Device) : ClaimsOnly d (startLift c id d) := by
  unfold startLift
  split
  · exact ClaimsOnly.trans (ClaimsOnly.modBooking _ _ _) (requestAll_cellsOnly _ _ _ _).claimsOnly
  · exact ClaimsOnly.refl d

theorem liftRunning_false {d : Device} {c : CraneIx} :
    d.liftRunning c = false ↔ ∀ x ∈ d.bookings, x.crane = c → x.state.running = false := by
  simp [Device.liftRunning]

theorem Kept.startLift (c : CraneIx) (id : Nat) (d : Device) (h : liftStartRefusal d c id = none) :
    Kept d (startLift c id d) := by
  unfold Machine.startLift
  unfold liftStartRefusal at h
  split
  · next b hb =>
    rw [hb] at h
    have hr : d.liftRunning c = false ∧ b.crane = c := by
      by_contra hn
      by_cases h1 : d.membership c = .admitted <;> by_cases h2 : b.crane = c <;> by_cases h3 : b.state = .opened <;>
        by_cases h4 : d.liftRunning c = true <;> simp_all
    refine Kept.trans (Kept.bookings d _ fun ht => ?_) (Kept.requestAll _ _ _ _)
    have := tableLawful_start ht (booking_mem hb) (by rw [hr.2]; exact liftRunning_false.1 hr.1) .lifting
    rw [booking_id hb] at this
    exact this
  · exact Kept.refl d

theorem endLift_claimsOnly (c : CraneIx) (id : Nat) (d : Device) : ClaimsOnly d (endLift c id d).1 := by
  unfold endLift
  split
  · exact ClaimsOnly.refl d
  · split
    · exact retire_claimsOnly _ _ _
    · dsimp only
      split
      · exact ClaimsOnly.trans (ClaimsOnly.modBooking _ _ _) (retire_claimsOnly _ _ _)
      · exact ClaimsOnly.trans ((ClaimsOnly.modBooking _ _ _).trans (ClaimsOnly.modBooking _ _ _))
          (revertPath_cellsOnly _ _ _).claimsOnly

theorem Kept.modCycles {d : Device} {id : Nat} {b : Booking} (hb : d.booking id = some b) (h : 2 ≤ b.cycles) :
    Kept d (d.modBooking id fun b => { b with cycles := b.cycles - 1 }) := by
  refine Kept.bookings d _ fun ht => ?_
  have hinj := List.inj_on_of_nodup_map ht.2.2.1
  refine tableLawful_map _ ?_ ht
  intro x hx
  split
  · next e =>
    have e' : x.id = b.id := by rw [booking_id hb]; simpa using e
    obtain rfl := hinj hx (booking_mem hb) e'
    refine ⟨rfl, rfl, rfl, fun hl => ?_, fun h => h⟩
    obtain ⟨h1, h2, h3, h4, h5, h6⟩ := hl
    exact ⟨h1, h2, h3, by show 1 ≤ x.cycles - 1; omega, by show x.cycles - 1 ≤ 255; omega, h6⟩
  · exact ⟨rfl, rfl, rfl, fun h => h, fun h => h⟩

theorem Kept.endLift (c : CraneIx) (id : Nat) (d : Device) : Kept d (endLift c id d).1 := by
  unfold Machine.endLift
  split
  · exact Kept.refl d
  · next b hb =>
    split
    · exact Kept.retire _ _ _
    · next hc =>
      have hc' : 2 ≤ b.cycles := by
        simp only [beq_iff_eq] at hc; omega
      have h1 := Kept.modCycles hb hc'
      dsimp only
      split
      · exact h1.trans (Kept.retire _ _ _)
      · refine h1.trans (Kept.trans (Kept.modBooking _ _ _ fun x _ _ => ?_) (Kept.revertPath _ _ _))
        exact ⟨rfl, rfl, rfl, fun h => h, by simp [BookingState.running]⟩

theorem abortLift_claimsOnly (c : CraneIx) (id : Nat) (d : Device) : ClaimsOnly d (abortLift c id d).1 := by
  unfold abortLift
  split
  · exact ClaimsOnly.refl d
  · split
    · exact retire_claimsOnly _ _ _
    · exact ClaimsOnly.trans (ClaimsOnly.modBooking _ _ _) (revertPath_cellsOnly _ _ _).claimsOnly

theorem Kept.abortLift (c : CraneIx) (id : Nat) (d : Device) : Kept d (abortLift c id d).1 := by
  unfold Machine.abortLift
  split
  · exact Kept.refl d
  · split
    · exact Kept.retire _ _ _
    · refine Kept.trans (Kept.modBooking _ _ _ fun x _ _ => ?_) (Kept.revertPath _ _ _)
      exact ⟨rfl, rfl, rfl, fun h => h, by simp [BookingState.running]⟩

/-! ### A booking made -/

theorem judgeBook_ok {d : Device} {c : CraneIx} {b : BookReq} {path : List CellIx} {p : BookPlan}
    (h : judgeBook d c b = .ok (path, p)) : pathValid d c path = true ∧ d.bookings.length < 64 := by
  unfold judgeBook at h
  split at h
  · cases h
  · split at h
    · cases h
    · split at h
      · cases h
      · next hv =>
        split at h
        · cases h
        · next q _ =>
          dsimp only at h
          rw [ite_eq_iff] at h
          rcases h with ⟨-, h⟩ | ⟨-, h⟩
          · cases h
          · split at h
            · cases h
            · next hl =>
              simp only [Except.ok.injEq, Prod.mk.injEq] at h
              obtain ⟨rfl, rfl⟩ := h
              simp only [Config.bookingCapacity] at hl
              exact ⟨by simpa using hv, by omega⟩

theorem tableLawful_linkPred {l : List Booking} (pred : Option Nat) (id : Nat) (h : tableLawful l) :
    tableLawful (linkPred pred id l) := by
  unfold linkPred
  split
  · refine tableLawful_map _ ?_ h
    intro x _
    split <;> exact ⟨rfl, rfl, rfl, fun h => h, fun h => h⟩
  · exact h

theorem linkPred_ids (pred : Option Nat) (id : Nat) (l : List Booking) :
    (linkPred pred id l).map (fun b => b.id) = l.map fun b => b.id := by
  unfold linkPred modifyBooking
  split
  · rw [List.map_map]
    refine List.map_congr_left fun b _ => ?_
    simp only [Function.comp]
    split <;> rfl
  · rfl

theorem Kept.insertRequest (c : CraneIx) (b : BookReq) (sail : Sail) (o : Origin) (path : List CellIx) (p : BookPlan)
    (d : Device) (h : judgeBook d c b = .ok (path, p)) (hc : 1 ≤ b.cycles) (hc' : b.cycles ≤ 255) :
    Kept d (insertRequest c b sail o path p d) := by
  unfold Machine.insertRequest
  dsimp only
  refine Kept.trans (e := { d with bookings := _, nextId := _ }) ?_ (Kept.windowMatching _)
  obtain ⟨hv, hl⟩ := judgeBook_ok h
  refine ⟨id, id, id, id, id, id, fun ht => ?_⟩
  have hlen : (linkPred p.pred d.freshId d.bookings).length = d.bookings.length := by
    simpa using congrArg List.length (linkPred_ids p.pred d.freshId d.bookings)
  have hr := freeIdFrom_range d.bookings (d.bookings.length + 1) d.nextId ht.2.1 ht.2.2
  refine ⟨tableLawful_insert (tableLawful_linkPred _ _ ht.1) (by omega) ?_ ?_ ?_, idAfter_range _⟩
  · simp only [pathValid, Bool.and_eq_true, decide_eq_true_eq] at hv
    exact ⟨hv.1.1.1, hv.1.1.2, hv.1.2, hc, hc', hr⟩
  · intro x hx
    have : x.id ∈ (linkPred p.pred d.freshId d.bookings).map fun b => b.id := List.mem_map_of_mem hx
    rw [linkPred_ids] at this
    obtain ⟨y, hy, e⟩ := List.mem_map.1 this
    rw [← e]
    exact freeIdFrom_free d.bookings d.nextId (by omega) y hy
  · unfold newBooking
    dsimp only
    split <;> rfl

/-! ### The table across a warm reset -/

theorem tableLawful_dropChain : ∀ (fuel id : Nat) (l : List Booking), tableLawful l → tableLawful (dropChain fuel id l)
  | 0, _, _, h => h
  | fuel + 1, id, l, h => by
    unfold dropChain
    split
    · exact h
    · next b _ =>
      have h' := tableLawful_sublist (removeBooking_sublist id _) (tableLawful_unlinkPred b h)
      dsimp only
      split
      · exact tableLawful_dropChain fuel _ _ h'
      · exact h'

theorem tableLawful_warmBooking (l : List Booking) (id : Nat) (h : tableLawful l) : tableLawful (warmBooking l id) := by
  unfold warmBooking
  split
  · exact h
  · split
    · split
      · exact tableLawful_dropChain _ _ _ h
      · refine tableLawful_map _ ?_ h
        intro x _
        split
        · exact ⟨rfl, rfl, rfl, fun h => h, by simp [BookingState.running]⟩
        · exact ⟨rfl, rfl, rfl, fun h => h, fun h => h⟩
    · exact h

theorem tableLawful_warmBookings (l : List Booking) (h : tableLawful l) : tableLawful (warmBookings l) := by
  unfold warmBookings
  generalize l.map (fun b => b.id) = ids
  induction ids generalizing l with
  | nil => exact h
  | cons x ids ih => exact ih _ (tableLawful_warmBooking l x h)

end Sys2Proof.Machine
end

