-- ==== Sys2Proof/Laws/Wind.lean ====
section
/-! SUPPORT. What the Wind Unit's operations change and keep. -/

namespace Sys2Proof.Machine

/-! ### Figures -/

theorem speedOf_le (count scale : Nat) : speedOf count scale ≤ 600 := Nat.min_le_right _ _

theorem mastSpeedFor_le (mast height : Nat) : mastSpeedFor mast height ≤ 600 := Nat.min_le_right _ _

theorem pushBounded_length (n x : Nat) (l : List Nat) : (pushBounded n x l).length = min (l.length + 1) n := by
  simp [pushBounded, lastN]; omega

theorem mem_pushBounded {n x y : Nat} {l : List Nat} (h : y ∈ pushBounded n x l) : y = x ∨ y ∈ l := by
  have := List.mem_of_mem_drop h
  simp at this
  tauto

theorem handleSpeed_ranges (r : Site) (s : Nat) (w : WindRec) (h : w.rangesLawful) (hs : s ≤ 600) :
    (handleSpeed r s w).rangesLawful := by
  obtain ⟨h1, h2, h3, h4, h5⟩ := h
  refine ⟨h1, h2, ?_, ?_, ?_⟩
  · show (pushBounded 3 s w.recent).length ≤ 3
    rw [pushBounded_length]; omega
  · intro x hx
    rcases mem_pushBounded hx with rfl | hx
    · exact hs
    · exact h4 x hx
  · exact Nat.min_le_right _ _

theorem permittedClasses_lawful (w : WindRec) (state : WindState) : (w.settleAt state).classesLawful := by
  unfold WindRec.settleAt WindRec.classesLawful permittedClasses
  cases h : state.isCalmOrWatch <;> cases w.flagL <;> cases w.flagM <;> simp [SailSet.empty]

/-! ### Changes of one crane's wind record -/

@[simp] theorem modWind_windOf_self (c : CraneIx) (f : WindRec → WindRec) (d : Device) :
    (modWind c f d).windOf c = f (d.windOf c) := by simp [modWind]

theorem modWind_windOf (c x : CraneIx) (f : WindRec → WindRec) (d : Device) :
    (modWind c f d).windOf x = if x = c then f (d.windOf c) else d.windOf x := by simp [modWind, Device.setWind_windOf]

theorem Kept.modWind (c : CraneIx) (f : WindRec → WindRec) (d : Device)
    (hc : (d.windOf c).classesLawful → (f (d.windOf c)).classesLawful)
    (hr : (d.windOf c).rangesLawful → (f (d.windOf c)).rangesLawful) : Kept d (modWind c f d) := by
  refine ⟨id, fun h x => ?_, fun h x => ?_, id, id, id, id⟩
  · rw [modWind_windOf]
    split
    exacts [hc (h c), h x]
  · rw [modWind_windOf]
    split
    exacts [hr (h c), h x]

/-- Between two states of the part the wind record of one crane and the fault record alone differ. -/
def WindOnly (c : CraneIx) (d t : Device) : Prop :=
  t = { d with wind := d.wind.set c (t.windOf c), faults := t.faults }

theorem WindOnly.refl (c : CraneIx) (d : Device) : WindOnly c d d := by
  unfold WindOnly Device.windOf
  simp

theorem WindOnly.wind {c : CraneIx} {d t : Device} (h : WindOnly c d t) : t.wind = d.wind.set c (t.windOf c) :=
  congrArg Device.wind h

theorem WindOnly.trans {c : CraneIx} {d e t : Device} (h : WindOnly c d e) (h' : WindOnly c e t) : WindOnly c d t := by
  have hw := h.wind
  have ht := h'.wind
  have e1 : e = { d with wind := e.wind, faults := e.faults } := by
    conv_lhs => rw [h]
    rw [← hw]
  have e2 : t = { e with wind := t.wind, faults := t.faults } := by
    conv_lhs => rw [h']
    rw [← ht]
  unfold WindOnly
  conv_lhs => rw [e2, e1]
  have : t.wind = d.wind.set c (t.windOf c) := by
    rw [ht, hw]
    simp
  simp only [this]

theorem WindOnly.modWind (c : CraneIx) (f : WindRec → WindRec) (d : Device) : WindOnly c d (modWind c f d) := by
  unfold WindOnly
  rw [modWind_windOf_self]
  rfl

theorem WindOnly.raise (c : CraneIx) (d : Device) (k : FaultKind) (a b e : Option Nat) :
    WindOnly c d (d.raise k a b e) := by
  unfold WindOnly
  rw [raise_eq]
  simp [Device.windOf]

theorem WindOnly.windOf_of_ne {c x : CraneIx} {d t : Device} (h : WindOnly c d t) (hx : x ≠ c) :
    t.windOf x = d.windOf x := by
  have h' : c.val ≠ x.val := fun e => hx (Fin.ext e.symm)
  have := h.wind
  unfold Device.windOf at *
  rw [this]
  simp [h']

/-! ### Samples -/

theorem goStale_windOf (c : CraneIx) (d : Device) :
    (goStale c d).windOf c = { d.windOf c with channel := .stale, liveRun := 0 } := by
  unfold goStale
  dsimp only
  split <;> simp

theorem goStale_windOnly (c : CraneIx) (d : Device) : WindOnly c d (goStale c d) := by
  unfold goStale
  dsimp only
  split
  · exact WindOnly.modWind _ _ _
  · exact (WindOnly.modWind _ _ _).trans (WindOnly.raise _ _ _ _ _ _)

theorem Kept.goStale (c : CraneIx) (d : Device) : Kept d (goStale c d) := by
  have h : Kept d (Machine.modWind c (fun w => { w with channel := .stale, liveRun := 0 }) d) :=
    Kept.modWind _ _ _ (fun h => h) fun h => ⟨h.1, Nat.zero_le _, h.2.2⟩
  unfold Machine.goStale
  dsimp only
  split
  exacts [h, h.trans (Kept.raise _ _ _ _ _)]

theorem produceSpeed_windOnly (c : CraneIx) (s : Nat) (d : Device) : WindOnly c d (produceSpeed c s d) :=
  WindOnly.modWind _ _ _

theorem Kept.produceSpeed (c : CraneIx) (s : Nat) (d : Device) (hs : (d.windOf c).rangesLawful → s ≤ 600) :
    Kept d (produceSpeed c s d) :=
  Kept.modWind _ _ _ (fun h => h) fun h => handleSpeed_ranges _ _ _ h (hs h)

theorem takeHold_windOnly (c : CraneIx) (d : Device) : WindOnly c d (takeHold c d) := by
  unfold takeHold
  dsimp only
  split
  · split
    · exact (WindOnly.modWind _ _ _).trans (produceSpeed_windOnly _ _ _)
    · exact WindOnly.modWind _ _ _
  · exact goStale_windOnly c d

theorem takeHold_state (c : CraneIx) (d : Device) :
    ((takeHold c d).windOf c).state = (d.windOf c).state ∧ ((takeHold c d).windOf c).classes = (d.windOf c).classes := by
  unfold takeHold
  dsimp only
  split
  · split
    · simp [produceSpeed, handleSpeed]
    · simp
  · simp [goStale_windOf]

theorem Kept.takeHold (c : CraneIx) (d : Device) : Kept d (takeHold c d) := by
  unfold Machine.takeHold
  dsimp only
  split
  · next hlt =>
    have h1 : Kept d (Machine.modWind c (fun w => { w with holdRun := w.holdRun + 1 }) d) :=
      Kept.modWind _ _ _ (fun h => h) fun h => ⟨by show (d.windOf c).holdRun + 1 ≤ 2; omega, h.2⟩
    split
    · next s hs =>
      refine h1.trans (Kept.produceSpeed _ _ _ fun h => ?_)
      rw [modWind_windOf_self] at h
      exact h.2.2.2.1 s (List.mem_of_mem_getLast? hs)
    · exact h1
  · exact Kept.goStale c d

theorem fillHolds_windOnly : ∀ (n : Nat) (c : CraneIx) (d : Device), WindOnly c d (fillHolds n c d)
  | 0, c, d => WindOnly.refl c d
  | n + 1, c, d => by
    unfold fillHolds
    split
    · exact (takeHold_windOnly c d).trans (fillHolds_windOnly n c _)
    · exact goStale_windOnly c d

theorem fillHolds_state : ∀ (n : Nat) (c : CraneIx) (d : Device),
    ((fillHolds n c d).windOf c).state = (d.windOf c).state ∧ ((fillHolds n c d).windOf c).classes = (d.windOf c).classes
  | 0, c, d => ⟨rfl, rfl⟩
  | n + 1, c, d => by
    unfold fillHolds
    split
    · rw [(fillHolds_state n c _).1, (fillHolds_state n c _).2]; exact takeHold_state c d
    · simp [goStale_windOf]

theorem Kept.fillHolds : ∀ (n : Nat) (c : CraneIx) (d : Device), Kept d (fillHolds n c d)
  | 0, _, d => Kept.refl d
  | n + 1, c, d => by
    unfold Machine.fillHolds
    split
    · exact (Kept.takeHold c d).trans (Kept.fillHolds n c _)
    · exact Kept.goStale c d

theorem takeReading_windOnly (c : CraneIx) (count : Nat) (d : Device) : WindOnly c d (takeReading c count d) := by
  unfold takeReading
  split
  · exact takeHold_windOnly c d
  · exact (produceSpeed_windOnly _ _ _).trans (WindOnly.modWind _ _ _)

theorem takeReading_state (c : CraneIx) (count : Nat) (d : Device) :
    ((takeReading c count d).windOf c).state = (d.windOf c).state ∧
      ((takeReading c count d).windOf c).classes = (d.windOf c).classes := by
  unfold takeReading
  split
  · exact takeHold_state c d
  · simp [produceSpeed, handleSpeed]

theorem Kept.takeReading (c : CraneIx) (count : Nat) (d : Device) : Kept d (takeReading c count d) := by
  unfold Machine.takeReading
  split
  · exact Kept.takeHold c d
  · exact (Kept.produceSpeed c _ d fun _ => speedOf_le _ _).trans
      (Kept.modWind _ _ _ (fun h => h) fun h => ⟨Nat.zero_le _, h.2⟩)

theorem countLive_windOf (c : CraneIx) (good : Bool) (d : Device) :
    ((countLive c good d).windOf c).state = (d.windOf c).state ∧
      ((countLive c good d).windOf c).classes = (d.windOf c).classes := by
  unfold countLive
  cases good <;> simp

theorem countLive_windOnly (c : CraneIx) (good : Bool) (d : Device) : WindOnly c d (countLive c good d) :=
  WindOnly.modWind _ _ _

theorem Kept.countLive (c : CraneIx) (good : Bool) (d : Device) : Kept d (countLive c good d) := by
  unfold Machine.countLive
  refine Kept.modWind _ _ _ ?_ ?_
  · intro h; split <;> exact h
  · intro h
    split
    · exact ⟨h.1, Nat.min_le_right _ _, h.2.2⟩
    · exact ⟨h.1, Nat.zero_le _, h.2.2⟩

theorem takeGap_windOnly (c : CraneIx) (gap : Option Nat) (d : Device) : WindOnly c d (takeGap c gap d) := by
  unfold takeGap
  split
  · exact WindOnly.refl c d
  · exact WindOnly.refl c d
  · exact WindOnly.refl c d
  · exact fillHolds_windOnly _ _ _
  · exact fillHolds_windOnly _ _ _
  · exact (goStale_windOnly c d).trans (WindOnly.modWind _ _ _)

theorem takeGap_state (c : CraneIx) (gap : Option Nat) (d : Device) :
    ((takeGap c gap d).windOf c).state = (d.windOf c).state ∧
      ((takeGap c gap d).windOf c).classes = (d.windOf c).classes := by
  unfold takeGap
  split
  · exact ⟨rfl, rfl⟩
  · exact ⟨rfl, rfl⟩
  · exact ⟨rfl, rfl⟩
  · exact fillHolds_state _ _ _
  · exact fillHolds_state _ _ _
  · simp [goStale_windOf]

theorem Kept.takeGap (c : CraneIx) (gap : Option Nat) (d : Device) : Kept d (takeGap c gap d) := by
  unfold Machine.takeGap
  split
  · exact Kept.refl d
  · exact Kept.refl d
  · exact Kept.refl d
  · exact Kept.fillHolds _ _ _
  · exact Kept.fillHolds _ _ _
  · exact (Kept.goStale c d).trans (Kept.modWind _ _ _ (fun h => h) fun h => ⟨Nat.le_refl 2, h.2⟩)

theorem takeSample_windOnly (c : CraneIx) (seq count : Nat) (gap : Option Nat) (d : Device) :
    WindOnly c d (takeSample c seq count gap d) :=
  (((WindOnly.modWind _ _ _).trans (takeGap_windOnly _ _ _)).trans (takeReading_windOnly _ _ _)).trans
    (countLive_windOnly _ _ _)

theorem takeSample_state (c : CraneIx) (seq count : Nat) (gap : Option Nat) (d : Device) :
    ((takeSample c seq count gap d).windOf c).state = (d.windOf c).state ∧
      ((takeSample c seq count gap d).windOf c).classes = (d.windOf c).classes := by
  unfold takeSample
  dsimp only
  rw [(countLive_windOf _ _ _).1, (countLive_windOf _ _ _).2, (takeReading_state _ _ _).1, (takeReading_state _ _ _).2,
    (takeGap_state _ _ _).1, (takeGap_state _ _ _).2]
  simp

theorem Kept.takeSample (c : CraneIx) (seq count : Nat) (gap : Option Nat) (d : Device) :
    Kept d (takeSample c seq count gap d) :=
  (((Kept.modWind _ _ _ (fun h => h) fun h => h).trans (Kept.takeGap _ _ _)).trans (Kept.takeReading _ _ _)).trans
    (Kept.countLive _ _ _)

theorem examineSample_windOnly (c : CraneIx) (r : Report) (d : Device) : WindOnly c d (examineSample c r d) := by
  unfold examineSample
  split
  · exact WindOnly.refl c d
  · dsimp only
    split
    · exact WindOnly.refl c d
    · exact takeSample_windOnly _ _ _ _ _

theorem examineSample_state (c : CraneIx) (r : Report) (d : Device) :
    ((examineSample c r d).windOf c).state = (d.windOf c).state ∧
      ((examineSample c r d).windOf c).classes = (d.windOf c).classes := by
  unfold examineSample
  split
  · exact ⟨rfl, rfl⟩
  · dsimp only
    split
    · exact ⟨rfl, rfl⟩
    · exact takeSample_state _ _ _ _ _

theorem Kept.examineSample (c : CraneIx) (r : Report) (d : Device) : Kept d (examineSample c r d) := by
  unfold Machine.examineSample
  split
  · exact Kept.refl d
  · dsimp only
    split
    · exact Kept.refl d
    · exact Kept.takeSample _ _ _ _ _

/-! ### The ladder -/

/-- Between two states of the part the claim records, one crane's wind record, the bookings and the fault record alone
differ. -/
def WindClaims (c : CraneIx) (d t : Device) : Prop :=
  t = { d with wind := d.wind.set c (t.windOf c), cells := t.cells, bookings := t.bookings, faults := t.faults }

theorem WindClaims.refl (c : CraneIx) (d : Device) : WindClaims c d d := by
  unfold WindClaims Device.windOf
  simp

theorem WindClaims.wind {c : CraneIx} {d t : Device} (h : WindClaims c d t) : t.wind = d.wind.set c (t.windOf c) :=
  congrArg Device.wind h

theorem WindClaims.trans {c : CraneIx} {d e t : Device} (h : WindClaims c d e) (h' : WindClaims c e t) :
    WindClaims c d t := by
  have hw := h.wind
  have ht := h'.wind
  have e1 : e = { d with wind := e.wind, cells := e.cells, bookings := e.bookings, faults := e.faults } := by
    conv_lhs => rw [h]
    rw [← hw]
  have e2 : t = { e with wind := t.wind, cells := t.cells, bookings := t.bookings, faults := t.faults } := by
    conv_lhs => rw [h']
    rw [← ht]
  unfold WindClaims
  conv_lhs => rw [e2, e1]
  have : t.wind = d.wind.set c (t.windOf c) := by
    rw [ht, hw]
    simp
  simp only [this]

theorem WindOnly.windClaims {c : CraneIx} {d t : Device} (h : WindOnly c d t) : WindClaims c d t := by
  unfold WindClaims
  have := h.wind
  conv_lhs => rw [h]
  have h1 : t.cells = d.cells := by rw [h]
  have h2 : t.bookings = d.bookings := by rw [h]
  rw [h1, h2]

theorem ClaimsOnly.windClaims {d t : Device} (c : CraneIx) (h : ClaimsOnly d t) : WindClaims c d t := by
  unfold WindClaims
  have : d.wind.set c (t.windOf c) = d.wind := by
    rw [h.windOf]
    simp [Device.windOf]
  rw [this]
  exact h

theorem WindClaims.windOf_of_ne {c x : CraneIx} {d t : Device} (h : WindClaims c d t) (hx : x ≠ c) :
    t.windOf x = d.windOf x := by
  have h' : c.val ≠ x.val := fun e => hx (Fin.ext e.symm)
  have := h.wind
  unfold Device.windOf at *
  rw [this]
  simp [h']

theorem startVaneTimer_windOnly (c : CraneIx) (d : Device) : WindOnly c d (startVaneTimer c d) := WindOnly.modWind _ _ _

theorem Kept.startVaneTimer (c : CraneIx) (d : Device) : Kept d (startVaneTimer c d) :=
  Kept.modWind _ _ _ (fun h => h) fun h => h

theorem Kept.requestVane (c : CraneIx) (d : Device) : Kept d (requestVane c d) := Kept.requestAll _ _ _ _

theorem requestVane_cellsOnly (c : CraneIx) (d : Device) : CellsOnly d (requestVane c d) := requestAll_cellsOnly _ _ _ _

theorem enterVane_windClaims (c : CraneIx) (d : Device) : WindClaims c d (enterVane c d) := by
  have h := (WindOnly.modWind c (fun w => { w with state := .vane .clearing, classes := .empty }) d).windClaims.trans
    ((WindOnly.raise c _ .vaneEntered (some c.val) none none).windClaims.trans
      ((requestVane_cellsOnly c _).claimsOnly.windClaims c))
  unfold enterVane
  dsimp only
  split
  · exact h.trans (startVaneTimer_windOnly c _).windClaims
  · exact h

theorem Kept.enterVane (c : CraneIx) (d : Device) : Kept d (enterVane c d) := by
  have h : Kept d (Machine.requestVane c ((Machine.modWind c
      (fun w => { w with state := .vane .clearing, classes := .empty }) d).raise .vaneEntered (some c.val) none none)) :=
    (Kept.modWind _ _ _ (fun _ => ⟨by simp [SailSet.empty], by simp [SailSet.empty], fun _ => rfl⟩) fun h => h).trans
      ((Kept.raise _ _ _ _ _).trans (Kept.requestVane c _))
  unfold Machine.enterVane
  dsimp only
  split
  · exact h.trans (Kept.startVaneTimer c _)
  · exact h

theorem enterVane_state (c : CraneIx) (d : Device) : ((enterVane c d).windOf c).state = .vane .clearing := by
  have h := (requestVane_cellsOnly c ((modWind c
      (fun w => { w with state := .vane .clearing, classes := .empty }) d).raise .vaneEntered (some c.val) none none)).windOf c
  unfold enterVane
  dsimp only
  split
  · simp only [startVaneTimer, modWind_windOf_self, h, raise_windOf]
  · simp [h]

theorem evaluate_windClaims (c : CraneIx) (d : Device) : WindClaims c d (evaluate c d) := by
  unfold evaluate
  dsimp only
  split
  · exact (WindOnly.modWind c _ d).windClaims.trans ((windHanding_claimsOnly c _).windClaims c)
  · split
    · exact (enterVane_windClaims c d).trans ((windHanding_claimsOnly c _).windClaims c)
    · exact (WindOnly.modWind c _ d).windClaims.trans ((windHanding_claimsOnly c _).windClaims c)

theorem Kept.evaluate (c : CraneIx) (d : Device) : Kept d (evaluate c d) := by
  unfold Machine.evaluate
  dsimp only
  refine Kept.trans ?_ (Kept.windHanding c _)
  split
  · exact Kept.modWind _ _ _ (fun _ => permittedClasses_lawful _ _) fun h => h
  · split
    · exact Kept.enterVane c d
    · exact Kept.modWind _ _ _ (fun _ => permittedClasses_lawful _ _) fun h => h

/-- In VANE an evaluation leaves the wind state and permits no class. -/
theorem evaluate_vane (c : CraneIx) (d : Device) (h : (d.windOf c).state.isVane = true) :
    ((evaluate c d).windOf c).state = (d.windOf c).state ∧ ((evaluate c d).windOf c).classes = SailSet.empty := by
  unfold evaluate
  dsimp only
  rw [if_pos h, (windHanding_claimsOnly c _).windOf]
  rw [modWind_windOf_self]
  refine ⟨rfl, ?_⟩
  cases hs : (d.windOf c).state <;> simp [hs, WindState.isVane] at h
  simp [WindRec.settleAt, permittedClasses, WindState.isCalmOrWatch, SailSet.empty]

/-! ### A report's turn -/

theorem clearingCheck_windOnly (c : CraneIx) (d : Device) : WindOnly c d (clearingCheck c d) := by
  unfold clearingCheck
  split
  · split
    exacts [WindOnly.modWind _ _ _, WindOnly.refl c d]
  · split
    exacts [WindOnly.refl c d, (WindOnly.modWind _ _ _).trans (startVaneTimer_windOnly _ _)]
  · exact WindOnly.refl c d

theorem classesLawful_of_vane {w : WindRec} (h : w.classesLawful) (hv : w.state.isCalmOrWatch = false)
    {st : WindState} : ({ w with state := st } : WindRec).classesLawful := by
  have := h.2.2 hv
  refine ⟨h.1, h.2.1, fun _ => this⟩

theorem Kept.clearingCheck (c : CraneIx) (d : Device) : Kept d (clearingCheck c d) := by
  unfold Machine.clearingCheck
  split
  · next hs =>
    split
    · refine Kept.modWind _ _ _ (fun h => ?_) fun h => h
      exact ⟨h.1, h.2.1, fun _ => h.2.2 (by rw [hs]; rfl)⟩
    · exact Kept.refl d
  · next hs =>
    split
    · exact Kept.refl d
    · refine Kept.trans (Kept.modWind _ _ _ (fun h => ?_) fun h => h) (Kept.startVaneTimer c _)
      exact ⟨h.1, h.2.1, fun _ => h.2.2 (by rw [hs]; rfl)⟩
  · exact Kept.refl d

theorem warm_ranges {w : WindRec} (h : w.rangesLawful) (x : ChannelState) (t t' : Option Nat) :
    ({ w.warm with channel := x, silence := t, vaneTimer := t' } : WindRec).rangesLawful :=
  ⟨Nat.zero_le _, Nat.zero_le _, Nat.zero_le _, by simp [WindRec.warm], h.2.2.2.2⟩

theorem startChannel_windOnly (c : CraneIx) (d : Device) : WindOnly c d (startChannel c d) := by
  unfold startChannel
  split <;> exact WindOnly.modWind _ _ _

theorem startChannel_state (c : CraneIx) (d : Device) :
    ((startChannel c d).windOf c).state = (d.windOf c).state ∧
      ((startChannel c d).windOf c).classes = (d.windOf c).classes := by
  unfold startChannel
  split <;> simp [WindRec.warm]

theorem Kept.startChannel (c : CraneIx) (d : Device) : Kept d (startChannel c d) := by
  unfold Machine.startChannel
  split <;> exact Kept.modWind _ _ _ (fun h => h) fun h => warm_ranges h _ _ _

theorem returnChannel_windOnly (c : CraneIx) (d : Device) : WindOnly c d (returnChannel c d) := by
  unfold returnChannel
  split
  exacts [WindOnly.modWind _ _ _, WindOnly.refl c d]

theorem returnChannel_state (c : CraneIx) (d : Device) :
    ((returnChannel c d).windOf c).state = (d.windOf c).state ∧
      ((returnChannel c d).windOf c).classes = (d.windOf c).classes := by
  unfold returnChannel
  split <;> simp

theorem Kept.returnChannel (c : CraneIx) (d : Device) : Kept d (returnChannel c d) := by
  unfold Machine.returnChannel
  split
  exacts [Kept.modWind _ _ _ (fun h => h) fun h => h, Kept.refl d]

theorem rejoinVane_windClaims (c : CraneIx) (d : Device) : WindClaims c d (rejoinVane c d) :=
  ((WindOnly.modWind c _ d).trans (startVaneTimer_windOnly c _)).windClaims.trans
    ((requestVane_cellsOnly c _).claimsOnly.windClaims c)

theorem Kept.rejoinVane (c : CraneIx) (d : Device) (h : (d.windOf c).classes = SailSet.empty) :
    Kept d (rejoinVane c d) := by
  refine Kept.trans (Kept.trans (Kept.modWind _ _ _ (fun hl => ?_) fun h => h) (Kept.startVaneTimer c _))
    (Kept.requestVane c _)
  exact ⟨hl.1, hl.2.1, fun _ => h⟩

theorem returnVane_windClaims (c : CraneIx) (d : Device) : WindClaims c d (returnVane c d) := by
  have h := (requestVane_cellsOnly c d).claimsOnly.windClaims c
  unfold returnVane
  dsimp only
  split
  · exact h.trans (startVaneTimer_windOnly c _).windClaims
  · exact h

theorem Kept.returnVane (c : CraneIx) (d : Device) : Kept d (returnVane c d) := by
  have h := Kept.requestVane c d
  unfold Machine.returnVane
  dsimp only
  split
  · exact h.trans (Kept.startVaneTimer c _)
  · exact h

theorem windReport_windClaims (c : CraneIx) (how : Arrival) (r : Report) (d : Device) :
    WindClaims c d (windReport c how r d) := by
  have key : ∀ e, WindOnly c d e → WindClaims c d (evaluate c (examineSample c r e)) := fun e he =>
    (he.trans (examineSample_windOnly c r e)).windClaims.trans (evaluate_windClaims c _)
  unfold windReport
  cases how with
  | admission =>
    dsimp only
    have := key _ (startChannel_windOnly c d)
    split
    · exact (this.trans (rejoinVane_windClaims c _)).trans (clearingCheck_windOnly c _).windClaims
    · exact this.trans (clearingCheck_windOnly c _).windClaims
  | ordinary => exact (key _ (WindOnly.refl c d)).trans (clearingCheck_windOnly c _).windClaims
  | back =>
    dsimp only
    have := key _ (returnChannel_windOnly c d)
    split
    · exact (this.trans (returnVane_windClaims c _)).trans (clearingCheck_windOnly c _).windClaims
    · exact this.trans (clearingCheck_windOnly c _).windClaims

theorem Kept.windReport (c : CraneIx) (how : Arrival) (r : Report) (d : Device) : Kept d (windReport c how r d) := by
  have key : ∀ e, Kept d e → Kept d (Machine.evaluate c (Machine.examineSample c r e)) := fun e he =>
    (he.trans (Kept.examineSample c r e)).trans (Kept.evaluate c _)
  unfold Machine.windReport
  cases how with
  | admission =>
    dsimp only
    have := key _ (Kept.startChannel c d)
    split
    · next hv =>
      refine (this.trans (Kept.rejoinVane c _ ?_)).trans (Kept.clearingCheck c _)
      apply (evaluate_vane c _ _).2
      rw [(examineSample_state c r _).1, (startChannel_state c d).1]
      exact hv
    · exact this.trans (Kept.clearingCheck c _)
  | ordinary => exact (key _ (Kept.refl d)).trans (Kept.clearingCheck c _)
  | back =>
    dsimp only
    have := key _ (Kept.returnChannel c d)
    split
    · exact (this.trans (Kept.returnVane c _)).trans (Kept.clearingCheck c _)
    · exact this.trans (Kept.clearingCheck c _)

/-! ### Events outside reports -/

theorem windLost_windOnly (c : CraneIx) (d : Device) : WindOnly c d (windLost c d) := WindOnly.modWind _ _ _

theorem Kept.windLost (c : CraneIx) (d : Device) : Kept d (windLost c d) :=
  Kept.modWind _ _ _ (fun h => h) fun h => h

theorem windAbsent_windOnly (c : CraneIx) (d : Device) : WindOnly c d (windAbsent c d) := WindOnly.modWind _ _ _

theorem Kept.windAbsent (c : CraneIx) (d : Device) : Kept d (windAbsent c d) :=
  Kept.modWind _ _ _ (fun h => h) fun h => warm_ranges h _ _ _

theorem silenceExpired_windClaims (c : CraneIx) (d : Device) : WindClaims c d (silenceExpired c d) :=
  ((WindOnly.modWind c _ d).trans (goStale_windOnly c _)).windClaims.trans (evaluate_windClaims c _)

theorem Kept.silenceExpired (c : CraneIx) (d : Device) : Kept d (silenceExpired c d) :=
  ((Kept.modWind _ _ _ (fun h => h) fun h => h).trans (Kept.goStale c _)).trans (Kept.evaluate c _)

theorem vaneClearExpired_windOnly (c : CraneIx) (d : Device) : WindOnly c d (vaneClearExpired c d) :=
  (WindOnly.modWind c _ d).trans (WindOnly.raise c _ _ _ _ _)

theorem Kept.vaneClearExpired (c : CraneIx) (d : Device) : Kept d (vaneClearExpired c d) :=
  (Kept.modWind _ _ _ (fun h => h) fun h => h).trans (Kept.raise _ _ _ _ _)

theorem mastCrane_windClaims (d : Device) (c : CraneIx) : WindClaims c d (mastCrane d c) :=
  ((produceSpeed_windOnly c _ d).trans (WindOnly.modWind c _ _)).windClaims.trans (evaluate_windClaims c _)

theorem Kept.mastCrane (d : Device) (c : CraneIx) : Kept d (mastCrane d c) :=
  ((Kept.produceSpeed c _ d fun _ => mastSpeedFor_le _ _).trans
    (Kept.modWind _ _ _ (fun h => h) fun h => ⟨Nat.zero_le _, h.2⟩)).trans (Kept.evaluate c _)

theorem Kept.mastSample (d : Device) : Kept d (mastSample d) := by
  unfold Machine.mastSample
  dsimp only
  refine Kept.trans ?_ (Kept.foldl _ Kept.mastCrane _ _)
  exact Kept.of_eq rfl rfl rfl rfl rfl rfl rfl

theorem changeSource_windClaims (c : CraneIx) (s : SourceSetting) (d : Device) : WindClaims c d (changeSource c s d) := by
  unfold changeSource
  dsimp only
  have h := (WindOnly.modWind c (fun w => { w with source := s }) d).windClaims
  split
  · exact h
  · split
    · exact h.trans ((WindOnly.modWind c _ _).windClaims.trans (evaluate_windClaims c _))
    · exact h.trans ((WindOnly.modWind c _ _).windClaims.trans (evaluate_windClaims c _))

theorem Kept.changeSource (c : CraneIx) (s : SourceSetting) (d : Device) : Kept d (changeSource c s d) := by
  unfold Machine.changeSource
  dsimp only
  have h : Kept d (Machine.modWind c (fun w => { w with source := s }) d) :=
    Kept.modWind _ _ _ (fun h => h) fun h => h
  generalize Machine.modWind c (fun w => { w with source := s }) d = e at h ⊢
  split
  · exact h
  · split
    · exact h.trans ((Kept.modWind _ _ _ (fun h => h) fun h => ⟨Nat.zero_le _, h.2⟩).trans (Kept.evaluate c _))
    · refine h.trans (Kept.trans ?_ (Kept.evaluate c _))
      exact Kept.modWind _ _ _ (fun h => h) fun h => warm_ranges (w := e.windOf c) h _ _ _

theorem returnToService_windClaims (c : CraneIx) (d : Device) : WindClaims c d (returnToService c d) :=
  (WindOnly.modWind c _ d).windClaims.trans
    (((resumeCells_cellsOnly c _).claimsOnly.trans (windHanding_claimsOnly c _)).windClaims c)

theorem Kept.returnToService (c : CraneIx) (d : Device) : Kept d (returnToService c d) := by
  unfold Machine.returnToService
  dsimp only
  have h : Kept d (Machine.modWind c (fun w => { w.settleAt (d.level c).toState with vaneTimer := none }) d) :=
    Kept.modWind _ _ _ (fun _ => permittedClasses_lawful (d.windOf c) (d.level c).toState) fun h => h
  generalize Machine.modWind c (fun w => { w.settleAt (d.level c).toState with vaneTimer := none }) d = e at h
  exact h.trans ((Kept.resumeCells c e).trans (Kept.windHanding c _))

end Sys2Proof.Machine
end

