-- ==== Sys2Proof/Laws/Frames.lean ====
section
/-! SUPPORT. What the Permit Composer, the Crane Roster and the Link Ports keep of the laws of `Safety`: one lemma per
operation, and the weathervane law of a composed permit. -/

namespace Sys2Proof.Machine

/-! ### Permits -/

theorem mostRestrictive_stop (l : List Limit) : mostRestrictive .stop l = .stop := by
  induction l with
  | nil => rfl
  | cons x l ih => simpa [mostRestrictive, Limit.join] using ih

/-- A permit composed with the brake released stops every axis and the hoist, in VANE, free or forced (R94). -/
theorem compose_lawful (d : Device) (c : CraneIx) (seq : Nat) : (compose d c seq).lawful := by
  intro h
  have h' : d.brakeReleased c = true := h
  have hw : ∀ b, d.windLimit c b = .stop := by intro b; simp [Device.windLimit, h']
  have hs : (d.windOf c).state = .vane .vaneFree ∨ (d.windOf c).state = .vane .forced := by
    unfold Device.brakeReleased at h'
    split at h'
    · next e => exact Or.inr e
    · next e => exact Or.inl e
    · cases h'
  refine ⟨?_, ?_, ?_, ?_, ?_, hs⟩
  · simp [compose, Device.slewLimit, hw, mostRestrictive_stop]
  · simp [compose, Device.slewLimit, hw, mostRestrictive_stop]
  · simp [compose, Device.trolleyLimit, hw, mostRestrictive_stop]
  · simp [compose, Device.trolleyLimit, hw, mostRestrictive_stop]
  · rcases hs with e | e <;> simp [compose, Device.hoistStopped, e]

theorem Kept.setPermit (d : Device) (c : CraneIx) (p : Option Permit) (h : ∀ x, p = some x → x.lawful) :
    Kept d (d.setPermit c p) := by
  refine ⟨id, id, id, fun hl x => ?_, id, id, id⟩
  rw [Device.setPermit_permitOf]
  split
  · exact ⟨h, (hl x).2⟩
  · exact hl x

theorem Kept.sendPermit (c : CraneIx) (seq : Nat) (d : Device) : Kept d (sendPermit c seq d) := by
  refine (Kept.setPermit d c (some (compose d c seq)) ?_).trans (Kept.sendFrame _ _ _ ?_)
  · rintro _ ⟨⟩; exact compose_lawful d c seq
  · rintro _ ⟨⟩; exact compose_lawful d c seq

/-! ### Crane Roster -/

theorem Kept.setCrane (d : Device) (c : CraneIx) (r : CraneRec) : Kept d (d.setCrane c r) :=
  Kept.of_eq rfl rfl rfl rfl rfl rfl rfl

theorem Kept.setReach (d : Device) (c : CraneIx) (r : Option ReachRec) : Kept d (d.setReach c r) :=
  Kept.of_eq rfl rfl rfl rfl rfl rfl rfl

theorem Kept.goAbsent (c : CraneIx) (d : Device) : Kept d (goAbsent c d) :=
  (((Kept.setCrane d c _).trans (Kept.setReach _ c none)).trans
    ((Kept.setPermit _ c none (by simp)).trans (Kept.forgetCrane c _))).trans (Kept.windAbsent c _)

theorem Kept.loseCrane (c : CraneIx) (d : Device) : Kept d (loseCrane c d) :=
  ((Kept.setCrane d c _).trans (Kept.raise _ _ _ _ _)).trans ((Kept.loseCells c _).trans (Kept.windLost c _))

theorem Kept.countErrored (c : CraneIx) (d : Device) : Kept d (countErrored c d) :=
  Kept.ite (Kept.refl d) (Kept.setCrane d c _)

theorem Kept.withStreak (c : CraneIx) (restart : Bool) (serve : Device → Device) (d : Device)
    (h : ∀ e, Kept e (serve e)) : Kept d (withStreak c restart serve d) := by
  unfold Machine.withStreak
  dsimp only
  split
  · split
    · exact Kept.loseCrane c d
    · exact (Kept.setCrane d c _).trans (h _)
  · exact h d

theorem Kept.hello (c : CraneIx) (digest : BitVec 32) (d : Device) : Kept d (hello c digest d) := by
  have hr : Kept d (refuseJoin c d) := Kept.raise _ _ _ _ _
  unfold Machine.hello
  dsimp only
  split
  · split
    · exact Kept.reply _ _ _ _
    · split
      · exact hr.trans (Kept.reply _ _ _ _)
      · split
        · exact hr.trans (Kept.reply _ _ _ _)
        · exact (Kept.setCrane d c _).trans (Kept.reply _ _ _ _)
  · split
    · exact (Kept.setCrane d c _).trans (Kept.reply _ _ _ _)
    · exact (hr.trans (Kept.goAbsent c _)).trans (Kept.reply _ _ _ _)
  · split
    · exact Kept.reply _ _ _ _
    · exact hr.trans (Kept.reply _ _ _ _)

theorem Kept.joinWaitExpired (c : CraneIx) (d : Device) : Kept d (joinWaitExpired c d) :=
  Kept.ite (Kept.goAbsent c d) (Kept.refl d)

theorem Kept.linkExpired (c : CraneIx) (d : Device) : Kept d (linkExpired c d) :=
  Kept.ite (Kept.loseCrane c d) (Kept.refl d)

theorem Kept.autoClaim (c : CraneIx) (d : Device) (e : RelEntry) : Kept d (autoClaim c d e) :=
  Kept.ite (Kept.request c _ _ d) (Kept.refl d)

theorem autoClaim_cellsOnly (c : CraneIx) (d : Device) (e : RelEntry) : CellsOnly d (autoClaim c d e) := by
  unfold autoClaim
  split
  · exact (Local.request c _).only d e.cell
  · exact CellsOnly.refl d

theorem autoClaims_cellsOnly (c : CraneIx) (d : Device) : CellsOnly d (autoClaims c d) :=
  CellsOnly.foldl _ (autoClaim_cellsOnly c) _ d

theorem Kept.autoClaims (c : CraneIx) (d : Device) : Kept d (autoClaims c d) := Kept.foldl _ (Kept.autoClaim c) _ d

theorem Kept.passReport (c : CraneIx) (how : Arrival) (r : Report) (d : Device) : Kept d (passReport c how r d) := by
  unfold Machine.passReport
  dsimp only
  refine Kept.trans ?_ (Kept.sendPermit c _ _)
  refine Kept.trans ?_ (Kept.windReport c how r _)
  refine Kept.trans ?_ (Kept.autoClaims c _)
  refine Kept.trans ?_ (Kept.reportCells c _ _)
  exact Kept.ite ((Kept.setReach d c _).trans (Kept.reconcileCells c _)) (Kept.setReach d c _)

theorem Kept.takeReport (c : CraneIx) (r : Report) (d : Device) : Kept d (takeReport c r d) := by
  unfold Machine.takeReport
  dsimp only
  split
  · exact Kept.reply _ _ _ _
  all_goals exact (Kept.setCrane d c _).trans (Kept.passReport c _ r _)

theorem Kept.leave (c : CraneIx) (d : Device) : Kept d (leave c d) := by
  unfold Machine.leave
  split
  · exact ((Kept.withdrawEntries c d).trans (Kept.goAbsent c _)).trans (Kept.reply _ _ _ _)
  · exact Kept.reply _ _ _ _

theorem Kept.detach (index : Nat) (d : Device) : Kept d (detach index d).dev := by
  unfold Machine.detach
  split
  · exact Kept.refl d
  · split
    · exact Kept.refl d
    · exact ((Kept.withdrawEntries _ d).trans (Kept.releaseAllHeld _ _)).trans
        ((Kept.retireAllOf _ _).trans (Kept.goAbsent _ _))

theorem Kept.qualityExpired (c : CraneIx) (d : Device) : Kept d (qualityExpired c d) := by
  unfold Machine.qualityExpired
  dsimp only
  split
  · exact Kept.refl d
  · split
    · exact (Kept.setCrane d c _).trans (Kept.raise _ _ _ _ _)
    · exact Kept.setCrane d c _

/-! ### Frames served -/

theorem Kept.claimFrame (c : CraneIx) (cell cls : Nat) (d : Device) : Kept d (claimFrame c cell cls d) := by
  unfold Machine.claimFrame
  split
  · exact Kept.reply _ _ _ _
  · split
    · exact (Kept.request _ _ _ d).trans (Kept.reply _ _ _ _)
    · dsimp only
      refine Kept.trans ?_ (Kept.reply _ _ _ _)
      split
      · exact (Kept.request _ _ _ d).trans (Kept.raise _ _ _ _ _)
      · exact Kept.request _ _ _ d
    · exact Kept.reply _ _ _ _

theorem Kept.releaseFrame (c : CraneIx) (cell : Nat) (d : Device) : Kept d (releaseFrame c cell d) := by
  unfold Machine.releaseFrame
  dsimp only
  split
  · exact (Kept.ite (Kept.giveUp c _ d) (Kept.refl d)).trans (Kept.reply _ _ _ _)
  · exact Kept.reply _ _ _ _

theorem Kept.replyBooking (c : CraneIx) (kind id : Nat) (d : Device) : Kept d (d.replyBooking c kind id) := by
  unfold Device.replyBooking
  split
  · exact Kept.sendFrame _ _ _ (by simp)
  · exact Kept.reply _ _ _ _

theorem Kept.bookFrame (c : CraneIx) (b : BookReq) (d : Device) : Kept d (bookFrame c b d) := by
  unfold Machine.bookFrame
  split
  · exact Kept.reply _ _ _ _
  · split
    · exact Kept.reply _ _ _ _
    · next hw =>
      split
      · exact Kept.reply _ _ _ _
      · split
        · exact Kept.reply _ _ _ _
        · split
          · exact Kept.reply _ _ _ _
          · next path p hj =>
            have hw' : 1 ≤ b.cycles ∧ b.cycles ≤ 255 := by
              simp only [within, Bool.not_eq_true', Bool.not_eq_false, Bool.and_eq_true, decide_eq_true_eq] at hw
              exact hw
            exact (Kept.insertRequest c b _ _ path p d hj hw'.1 hw'.2).trans (Kept.replyBooking _ _ _ _)

theorem Kept.cancelFrame (c : CraneIx) (id : Nat) (d : Device) : Kept d (cancelFrame c id d) := by
  unfold Machine.cancelFrame
  split
  · exact Kept.reply _ _ _ _
  · exact (Kept.retire _ _ d).trans (Kept.reply _ _ _ _)

theorem Kept.liftStartFrame (c : CraneIx) (id : Nat) (d : Device) : Kept d (liftStartFrame c id d) := by
  unfold Machine.liftStartFrame
  split
  · exact Kept.reply _ _ _ _
  · next h => exact (Kept.startLift c id d h).trans (Kept.replyBooking _ _ _ _)

theorem Kept.replyLift (c : CraneIx) (kind id : Nat) (reason : RetireReason) (d : Device) :
    Kept d (d.replyLift c kind id reason) := by
  unfold Device.replyLift
  split
  · exact Kept.replyBooking _ _ _ _
  · exact Kept.replyRetired _ _ _ _

theorem Kept.liftEndFrame (c : CraneIx) (id : Nat) (d : Device) : Kept d (liftEndFrame c id d) := by
  unfold Machine.liftEndFrame
  split
  · exact Kept.reply _ _ _ _
  · exact (Kept.endLift c id d).trans (Kept.replyLift _ _ _ _ _)

theorem Kept.liftAbortFrame (c : CraneIx) (id : Nat) (d : Device) : Kept d (liftAbortFrame c id d) := by
  unfold Machine.liftAbortFrame
  split
  · exact Kept.reply _ _ _ _
  · exact (Kept.abortLift c id d).trans (Kept.replyLift _ _ _ _ _)

theorem Kept.resumeFrame (c : CraneIx) (d : Device) : Kept d (resumeFrame c d) :=
  Kept.ite (Kept.reply _ _ _ _) (Kept.ite (Kept.reply _ _ _ _)
    ((Kept.returnToService c d).trans (Kept.reply _ _ _ _)))

theorem Kept.queryFrame (c : CraneIx) (item index segment : Nat) (d : Device) :
    Kept d (queryFrame c item index segment d) := by
  unfold Machine.queryFrame
  split
  · exact Kept.reply _ _ _ _
  · split
    · exact Kept.sendFrame _ _ _ (by simp)
    · exact Kept.reply _ _ _ _

theorem Kept.deliver (c : CraneIx) (restart : Bool) (f : CraneFrame) (d : Device) : Kept d (deliver c restart f d) := by
  cases f with
  | hello x => exact Kept.withStreak _ _ _ _ (Kept.hello c x)
  | report r => exact Kept.ite (Kept.withStreak _ _ _ _ (Kept.takeReport c r)) (Kept.countErrored c d)
  | claim x y => exact Kept.withStreak _ _ _ _ (Kept.claimFrame c x y)
  | release x => exact Kept.withStreak _ _ _ _ (Kept.releaseFrame c x)
  | book b => exact Kept.ite (Kept.withStreak _ _ _ _ (Kept.bookFrame c b)) (Kept.countErrored c d)
  | cancel x => exact Kept.withStreak _ _ _ _ (Kept.cancelFrame c x)
  | liftStart x => exact Kept.withStreak _ _ _ _ (Kept.liftStartFrame c x)
  | liftEnd x => exact Kept.withStreak _ _ _ _ (Kept.liftEndFrame c x)
  | liftAbort x => exact Kept.withStreak _ _ _ _ (Kept.liftAbortFrame c x)
  | resume => exact Kept.withStreak _ _ _ _ (Kept.resumeFrame c)
  | leave => exact Kept.withStreak _ _ _ _ (Kept.leave c)
  | query x y z => exact Kept.withStreak _ _ _ _ (Kept.queryFrame c x y z)

/-! ### Receiving and transmitting -/

/-- A port replaced keeps the laws where the port itself keeps them. -/
theorem Kept.setPort (d : Device) (c : CraneIx) (p : Port) (hl : (d.port c).lawful → p.lawful)
    (hf : (d.port c).framesLawful → p.framesLawful) : Kept d (d.setPort c p) := by
  refine ⟨id, id, id, fun h x => ?_, fun h x => ?_, id, id⟩
  · refine ⟨(h x).1, ?_⟩
    rw [Device.setPort_port]
    split
    exacts [hf (h c).2, (h x).2]
  · rw [Device.setPort_port]
    split
    exacts [hl (h c), h x]

/-- What the receiver's work leaves of a port: its frames as they were, its buffers no longer. -/
def Port.shrinks (p q : Port) : Prop :=
  q.sending = p.sending ∧ q.queue = p.queue ∧ q.rescan.length ≤ p.rescan.length ∧ q.line.length ≤ p.line.length

theorem Port.shrinks.lawful {p q : Port} (h : p.shrinks q) (hp : p.lawful) : q.lawful := by
  obtain ⟨h1, h2, h3, h4⟩ := h
  unfold Port.lawful at *
  rw [h1, h2]
  exact ⟨by omega, by omega, hp.2.2⟩

theorem Port.shrinks.frames {p q : Port} (h : p.shrinks q) (hp : p.framesLawful) : q.framesLawful := by
  unfold Port.framesLawful at *
  rw [h.1, h.2.1]
  exact hp

theorem Port.shrinks.trans {p q r : Port} (h : p.shrinks q) (h' : q.shrinks r) : p.shrinks r :=
  ⟨h'.1.trans h.1, h'.2.1.trans h.2.1, h'.2.2.1.trans h.2.2.1, h'.2.2.2.trans h.2.2.2⟩

theorem Port.take_shrinks (p : Port) (b : Byte) : p.shrinks (p.take b).1 := by
  unfold Port.take
  split
  · exact ⟨rfl, rfl, Nat.le_refl _, Nat.le_refl _⟩
  · split <;> exact ⟨rfl, rfl, Nat.le_refl _, Nat.le_refl _⟩

theorem Port.next_shrinks (p q : Port) (b : Byte) (h : p.next = some (b, q)) : p.shrinks q := by
  unfold Port.next at h
  split at h
  · next hr =>
    simp only [Option.some.injEq, Prod.mk.injEq] at h
    obtain ⟨-, rfl⟩ := h
    exact ⟨rfl, rfl, by simp [hr], Nat.le_refl _⟩
  · next hl =>
    simp only [Option.some.injEq, Prod.mk.injEq] at h
    obtain ⟨-, rfl⟩ := h
    exact ⟨rfl, rfl, Nat.le_refl _, by simp [hl]⟩
  · cases h

theorem Port.hunt_shrinks : ∀ (n : Nat) (p : Port), p.shrinks (p.hunt n).1
  | 0, _ => ⟨rfl, rfl, Nat.le_refl _, Nat.le_refl _⟩
  | n + 1, p => by
    unfold Port.hunt
    split
    · exact ⟨rfl, rfl, Nat.le_refl _, Nat.le_refl _⟩
    · next b q hq =>
      have h1 := p.next_shrinks q b hq
      have h2 := q.take_shrinks b
      split
      · next q' e =>
        rw [e] at h2
        exact (h1.trans h2).trans (Port.hunt_shrinks n q')
      · next q' l e =>
        rw [e] at h2
        exact h1.trans h2

theorem Port.slip_lawful (p : Port) (bytes : List Byte) (h : p.lawful) : (p.slip bytes).lawful := by
  refine ⟨?_, h.2⟩
  simp only [Port.slip, List.length_take, Config.rescanCapacity]
  omega

theorem Port.arrive_lawful (p : Port) (b : Byte) (h : p.lawful) : (p.arrive b).lawful := by
  unfold Port.arrive
  split
  · next hl =>
    refine ⟨h.1, ?_, h.2.2⟩
    simp only [Config.lineCapacity] at hl
    simp; omega
  · exact h

theorem Port.arrive_frames (p : Port) (b : Byte) (h : p.framesLawful) : (p.arrive b).framesLawful := by
  unfold Port.arrive
  split <;> exact h

theorem Port.sent_lawful (p : Port) (h : p.lawful) : p.sent.lawful := by
  unfold Port.sent
  split
  · exact h
  · next hq => exact ⟨h.1, h.2.1, h.2.2.1, fun _ => hq⟩
  · next f l hs hq =>
    refine ⟨h.1, h.2.1, ?_, by simp⟩
    have := h.2.2.1
    rw [hq] at this
    simp at this ⊢
    omega

theorem Port.sent_frames (p : Port) (h : p.framesLawful) : p.sent.framesLawful := by
  unfold Port.sent
  split
  · exact h
  · exact ⟨by simp, h.2⟩
  · next f l _ hq =>
    have h2 := h.2
    rw [hq] at h2
    refine ⟨?_, fun x hx => h2 x (List.mem_cons_of_mem _ hx)⟩
    intro x hx
    simp only [Option.some.injEq] at hx
    exact h2 x (by rw [← hx]; exact List.mem_cons_self)

theorem Kept.failCandidate (c : CraneIx) (bytes : List Byte) (d : Device) : Kept d (failCandidate c bytes d) :=
  (Kept.setPort d c _ (Port.slip_lawful _ _) fun h => h).trans (Kept.countErrored c _)

theorem Kept.finishCandidate (c : CraneIx) (bytes : List Byte) (d : Device) : Kept d (finishCandidate c bytes d) := by
  unfold Machine.finishCandidate
  split
  · split
    · exact Kept.deliver _ _ _ _
    · exact Kept.countErrored c d
  · exact Kept.failCandidate c bytes d

theorem Kept.servePort (c : CraneIx) (d : Device) : Kept d (servePort c d) := by
  have h := (d.port c).hunt_shrinks (d.port c).waiting
  unfold Machine.servePort
  split
  · next p e =>
    rw [e] at h
    exact Kept.setPort d c _ h.lawful h.frames
  · next p bytes e =>
    rw [e] at h
    exact (Kept.setPort d c _ h.lawful h.frames).trans (Kept.finishCandidate c bytes _)

theorem Kept.byteReceived (c : CraneIx) (b : Byte) (d : Device) : Kept d (byteReceived c b d) :=
  (Kept.setPort d c _ (Port.arrive_lawful _ b) (Port.arrive_frames _ b)).trans (Kept.servePort c _)

theorem Kept.transmitDone (c : CraneIx) (d : Device) : Kept d (transmitDone c d) :=
  Kept.setPort d c _ (Port.sent_lawful _) (Port.sent_frames _)

end Sys2Proof.Machine
end

