-- ==== Sys2Proof/Laws/Absent.lean ====
section
/-! SUPPORT. What `goAbsent` writes and what it leaves (R36, R83, R115, R131). -/

namespace Sys2Proof.Machine

theorem forgetCrane_faults (c : CraneIx) (d : Device) : (forgetCrane c d).faults = d.faults := by
  unfold forgetCrane
  generalize allCells = l
  induction l generalizing d with
  | nil => rfl
  | cons x l ih => rw [List.foldl_cons, ih]; rfl

@[simp] theorem windAbsent_cell (c : CraneIx) (d : Device) (k : CellIx) : (windAbsent c d).cell k = d.cell k := rfl
@[simp] theorem windAbsent_crane (c : CraneIx) (d : Device) (x : CraneIx) : (windAbsent c d).crane x = d.crane x := rfl
@[simp] theorem windAbsent_reachOf (c : CraneIx) (d : Device) (x : CraneIx) : (windAbsent c d).reachOf x = d.reachOf x := rfl
@[simp] theorem windAbsent_permitOf (c : CraneIx) (d : Device) (x : CraneIx) : (windAbsent c d).permitOf x = d.permitOf x := rfl

/-- The blocks that a crane's going ABSENT reaches. -/
theorem goAbsent_eq (c : CraneIx) (d : Device) :
    goAbsent c d =
      { d with
        roster := (goAbsent c d).roster, reach := (goAbsent c d).reach, permits := (goAbsent c d).permits
        wind := (goAbsent c d).wind, cells := (goAbsent c d).cells } := by
  have h := forgetCrane_cellsOnly c (((d.setCrane c CraneRec.reset).setReach c none).setPermit c none)
  have hf := forgetCrane_faults c (((d.setCrane c CraneRec.reset).setReach c none).setPermit c none)
  unfold goAbsent
  generalize forgetCrane c (((d.setCrane c CraneRec.reset).setReach c none).setPermit c none) = e at *
  unfold CellsOnly at h
  rw [hf] at h
  rw [h]; rfl

/-- What a crane's going ABSENT does to one cell. -/
theorem goAbsent_cell (c : CraneIx) (d : Device) (k : CellIx) :
    (goAbsent c d).cell k =
      { d.cell k with
        inhibit := dropCrane c (d.cell k).inhibit
        intruders := dropCrane c (d.cell k).intruders
        intruded := !(dropCrane c (d.cell k).intruders).isEmpty } := by
  unfold goAbsent
  rw [windAbsent_cell, forgetCrane_cell]
  simp only [Device.setPermit_cell, Device.setReach_cell, Device.setCrane_cell]

/-- A crane that has gone ABSENT has the records of `Device.wentAbsent`. -/
theorem goAbsent_records (c : CraneIx) (d : Device) : Device.wentAbsent c d (goAbsent c d) := by
  have h := forgetCrane_cellsOnly c (((d.setCrane c CraneRec.reset).setReach c none).setPermit c none)
  refine ⟨?_, ?_, ?_, ?_, fun k => ?_⟩
  · unfold goAbsent
    rw [windAbsent_crane, h.crane]
    simp [CraneRec.reset]
  · unfold goAbsent
    rw [windAbsent_reachOf, Device.reachOf, h.reach, Device.setPermit_reach]
    exact Device.setReach_reachOf_self (d.setCrane c CraneRec.reset) c none
  · unfold goAbsent
    rw [windAbsent_permitOf, Device.permitOf, h.permits]
    exact Device.setPermit_permitOf_self ((d.setCrane c CraneRec.reset).setReach c none) c none
  · unfold goAbsent windAbsent
    rw [modWind_windOf_self, h.windOf]
    simp [WindRec.warm]
  · rw [goAbsent_cell]
    simp

end Sys2Proof.Machine
end

