-- ==== Sys2Proof/Laws/Bytes.lean ====
section
/-! SUPPORT. Byte order and layouts: what is written reads back, for numbers, for each record of Table 1-6, for the
payloads of Table 10-3, and for the two frames' checks. -/

namespace Sys2Proof.Machine

/-! ### Numbers -/

@[simp] theorem byte_toNat (n : Nat) : (byte n).toNat = n % 256 := by simp [byte]

@[simp] theorem beBytes_length (w n : Nat) : (beBytes w n).length = w := by
  induction w generalizing n with
  | zero => rfl
  | succ w ih => simp [beBytes, ih]

theorem beBytes_two (n : Nat) : beBytes 2 n = [byte (n / 256), byte n] := rfl

theorem beBytes_four (n : Nat) :
    beBytes 4 n = [byte (n / 256 / 256 / 256), byte (n / 256 / 256), byte (n / 256), byte n] := rfl

theorem field_succ (off w : Nat) (b : Byte) (l : List Byte) : field (off + 1) w (b :: l) = field off w l := rfl

theorem field_one (b : Byte) (l : List Byte) : field 0 1 (b :: l) = b.toNat := by simp [field, beNat]

theorem field_two (a b : Byte) (l : List Byte) : field 0 2 (a :: b :: l) = 256 * a.toNat + b.toNat := by
  simp [field, beNat]

theorem field_four (a b c e : Byte) (l : List Byte) :
    field 0 4 (a :: b :: c :: e :: l) = 256 * (256 * (256 * a.toNat + b.toNat) + c.toNat) + e.toNat := by
  simp [field, beNat]

theorem beNat_two (n : Nat) (h : n < 65536) : beNat (beBytes 2 n) = n := by
  simp [beBytes_two, beNat]
  omega

theorem signedByte_byteOfInt (i : Int) (h : -128 ≤ i) (h' : i ≤ 127) : signedByte (byteOfInt i).toNat = i := by
  simp only [signedByte, byteOfInt, byte, BitVec.ofNat_toNat, BitVec.setWidth_eq, BitVec.toInt_ofInt]
  rw [Int.bmod_eq_of_le] <;> omega

/-! ### Records -/

theorem readSite_siteBytes (r : Site) (h : r.wf = true) : readSite (siteBytes r) = r := by
  simp only [Site.wf, oneByte, twoBytes, Bool.and_eq_true, decide_eq_true_eq] at h
  obtain ⟨⟨⟨⟨⟨⟨⟨⟨⟨⟨⟨⟨⟨⟨⟨⟨⟨h1, h2⟩, h3⟩, h4⟩, h5⟩, h6⟩, h7⟩, h8⟩, h9⟩, h10⟩, h11⟩, h12⟩, h13⟩, h14⟩, h15⟩, h16⟩, h17⟩, h18⟩ := h
  cases r
  simp only [siteBytes, readSite, beBytes_two, List.cons_append, List.nil_append, field_succ,
    field_one, field_two, byte_toNat, Site.mk.injEq] at *
  refine ⟨?_, ?_, ?_, ?_, ?_, ?_, ?_, ?_, ?_, ?_, ?_, ?_, ?_, ?_, ?_, ?_, ?_, ?_⟩ <;> omega

theorem siteBytes_length (r : Site) : (siteBytes r).length = 27 := by simp [siteBytes]

/-- A profile reads back whatever bytes follow it. -/
theorem readProfile_profileBytes (p : Profile) (l : List Byte) (h : p.wf = true) :
    readProfile (profileBytes p ++ l) = p := by
  simp only [Profile.wf, oneByte, twoBytes, Bool.and_eq_true, decide_eq_true_eq] at h
  obtain ⟨⟨⟨⟨⟨⟨⟨⟨⟨⟨⟨⟨h1, h2⟩, h3⟩, h4⟩, h5⟩, h6⟩, h7⟩, h8⟩, h9⟩, h10⟩, h11⟩, h12⟩, h13⟩ := h
  cases p
  simp only [profileBytes, readProfile, beBytes_two, List.cons_append, List.nil_append, field_succ,
    field_one, field_two, byte_toNat, Profile.mk.injEq] at *
  refine ⟨?_, ?_, ?_, ?_, ?_, ?_, ?_, ?_, ?_, ?_, ?_, ?_, ?_⟩ <;> omega

theorem profileBytes_length (p : Profile) : (profileBytes p).length = 19 := by simp [profileBytes]

theorem footprintBytes_length (f : Footprint) : (footprintBytes f).length = 10 := by simp [footprintBytes]

theorem readFootprint_footprintBytes (f : Footprint) (h : f.wf = true) : readFootprint (footprintBytes f) = f := by
  simp only [Footprint.wf, oneByte, twoBytes, Bool.and_eq_true, decide_eq_true_eq] at h
  obtain ⟨⟨⟨⟨⟨h1, h2⟩, h3⟩, h4⟩, h5⟩, h6⟩ := h
  cases f
  simp only [footprintBytes, readFootprint, beBytes_two, List.cons_append, List.nil_append, field_succ,
    field_one, field_two, byte_toNat, Footprint.mk.injEq] at *
  refine ⟨?_, ?_, ?_, ?_, ?_, ?_⟩ <;> omega

theorem readFootprints_flatMap : ∀ (l : List Footprint) (rest : List Byte), (∀ f ∈ l, f.wf = true) →
    readFootprints l.length (l.flatMap footprintBytes ++ rest) = l
  | [], _, _ => rfl
  | f :: l, rest, h => by
    have h1 : (f :: l).flatMap footprintBytes ++ rest = footprintBytes f ++ (l.flatMap footprintBytes ++ rest) := by simp
    have h2 : (footprintBytes f ++ (l.flatMap footprintBytes ++ rest)).take 10 = footprintBytes f := by
      rw [List.take_append_of_le_length (by simp [footprintBytes_length]), List.take_of_length_le]
      simp [footprintBytes_length]
    have h3 : (footprintBytes f ++ (l.flatMap footprintBytes ++ rest)).drop 10 = l.flatMap footprintBytes ++ rest := by
      rw [List.drop_append_of_le_length (by simp [footprintBytes_length]), List.drop_of_length_le]
      · rfl
      · simp [footprintBytes_length]
    rw [h1]
    show readFootprint _ :: readFootprints l.length _ = f :: l
    rw [h2, h3, readFootprint_footprintBytes f (h f List.mem_cons_self),
      readFootprints_flatMap l rest fun g hg => h g (List.mem_cons_of_mem _ hg)]

theorem cellBytes_length (k : Nat) (r : CellRec) : (cellBytes k r).length = 6 + 10 * r.footprints.length := by
  have : ∀ l : List Footprint, (l.flatMap footprintBytes).length = 10 * l.length := by
    intro l
    induction l with
    | nil => rfl
    | cons f l ih => simp [ih, footprintBytes_length]; omega
  simp [cellBytes, this]
  omega

theorem readCellRec_cellBytes (k : Nat) (r : CellRec) (h : r.wf = true) : readCellRec (cellBytes k r) = r := by
  simp only [CellRec.wf, oneByte, Bool.and_eq_true, decide_eq_true_eq, List.all_eq_true] at h
  obtain ⟨⟨⟨⟨⟨h1, h2⟩, h3⟩, h4⟩, h5⟩, h6⟩ := h
  have hf := readFootprints_flatMap r.footprints [] h6
  rw [List.append_nil] at hf
  cases r
  simp only [cellBytes, readCellRec, List.cons_append, List.nil_append, field_succ, field_one, byte_toNat,
    CellRec.mk.injEq, List.drop_succ_cons, List.drop_zero] at *
  rw [Nat.mod_eq_of_lt h5]
  refine ⟨?_, ?_, ?_, ?_, hf⟩ <;> omega

theorem bookBytes_length (b : BookReq) : (bookBytes b).length = 12 + b.path.length := by
  simp [bookBytes]; omega

theorem readBook_bookBytes (b : BookReq) (h : b.wf = true) : readBook (bookBytes b) = b := by
  simp only [BookReq.wf, oneByte, fourBytes, Bool.and_eq_true, decide_eq_true_eq, List.all_eq_true] at h
  obtain ⟨⟨⟨⟨⟨h1, h2⟩, h3⟩, h4⟩, h5⟩, h6⟩ := h
  have hp : (b.path.map byte).map BitVec.toNat = b.path := by
    rw [List.map_map]
    conv_rhs => rw [← List.map_id b.path]
    refine List.map_congr_left fun n hn => ?_
    have := h6 n hn
    simp only [Function.comp, byte_toNat, id]
    omega
  cases b
  simp only [bookBytes, readBook, beBytes_four, List.cons_append, List.nil_append, field_succ,
    field_one, field_four, byte_toNat, BookReq.mk.injEq, List.drop_succ_cons, List.drop_zero] at *
  refine ⟨?_, ?_, ?_, ?_, ?_, hp⟩ <;> omega

theorem bookBytes_count (b : BookReq) (h : b.path.length < 256) : field 11 1 (bookBytes b) = b.path.length := by
  simp only [bookBytes, beBytes_four, List.cons_append, List.nil_append, field_succ, field_one,
    byte_toNat]
  omega

theorem bookBytes_form (b : BookReq) (h : b.form < 256) : field 0 1 (bookBytes b) = b.form := by
  simp only [bookBytes, List.cons_append, List.nil_append, List.append_assoc, field_one, byte_toNat]
  omega

theorem reportBytes_length (r : Report) : (reportBytes r).length = 12 := by simp [reportBytes]

theorem readReport_reportBytes (r : Report) (h : r.wf = true) : readReport (reportBytes r) = r := by
  simp only [Report.wf, oneByte, twoBytes, signedOneByte, Bool.and_eq_true, decide_eq_true_eq] at h
  obtain ⟨⟨⟨⟨⟨⟨⟨h1, h2⟩, h3⟩, h4⟩, h5⟩, h6⟩, h7⟩, h8⟩ := h
  cases r
  simp only [reportBytes, readReport, beBytes_two, List.cons_append, List.nil_append, field_succ,
    field_one, field_two, byte_toNat, Report.mk.injEq] at *
  refine ⟨?_, ?_, signedByte_byteOfInt _ h3.1 h3.2, ?_, signedByte_byteOfInt _ h5.1 h5.2, ?_, ?_, ?_⟩ <;> omega

/-! ### Frames -/

theorem crcBytes_length (l : List Byte) : (crcBytes l).length = 2 := by simp [crcBytes]

theorem beNat_crcBytes (l : List Byte) : beNat (crcBytes l) = (crc16 l).toNat := by
  unfold crcBytes
  rw [beNat_two _ (crc16 l).isLt]

theorem encodeFrameBody_eq (a k : Nat) (p : List Byte) :
    encodeFrameBody a k p = byte a :: byte k :: byte p.length ::
      (p ++ crcBytes (byte a :: byte k :: byte p.length :: p)) := rfl

/-- The bytes of a frame with a payload of at most 60 bytes are a finished candidate that is good. -/
theorem encodeFrameBody_good (a k : Nat) (p : List Byte) (h : p.length ≤ 60) :
    candidateDone (encodeFrameBody a k p) = true ∧ candidateGood (encodeFrameBody a k p) = true := by
  rw [encodeFrameBody_eq]
  generalize hc : crcBytes (byte a :: byte k :: byte p.length :: p) = c
  have hl : c.length = 2 := by rw [← hc]; exact crcBytes_length _
  have hlen : (byte p.length).toNat = p.length := by rw [byte_toNat]; omega
  refine ⟨?_, ?_⟩
  · simp only [candidateDone, hlen, List.length_append, hl]
    simp
  · have h1 : (p ++ c).drop p.length = c := by simp
    have h2 : (p ++ c).take p.length = p := by simp
    simp only [candidateGood, hlen, List.length_append, hl, h1, h2]
    rw [← hc, beNat_crcBytes]
    simp [h]

/-- No shorter part of a frame's bytes is a finished candidate. -/
theorem encodeFrameBody_take (a k : Nat) (p : List Byte) (h : p.length ≤ 60) (n : Nat)
    (hn : n < (encodeFrameBody a k p).length) : candidateDone ((encodeFrameBody a k p).take n) = false := by
  rw [encodeFrameBody_eq] at hn ⊢
  generalize hc : crcBytes (byte a :: byte k :: byte p.length :: p) = c at hn ⊢
  have hl : c.length = 2 := by rw [← hc]; exact crcBytes_length _
  have hlen : (byte p.length).toNat = p.length := by rw [byte_toNat]; omega
  match n with
  | 0 => rfl
  | 1 => rfl
  | 2 => rfl
  | n + 3 =>
    simp only [List.length_cons, List.length_append, hl] at hn
    simp only [List.take_succ_cons, candidateDone, hlen, List.length_take, List.length_append, hl, Bool.or_eq_false_iff,
      decide_eq_false_iff_not]
    omega

/-- What the checks of R165 make of a frame's bytes. -/
theorem judgeCandidate_encode (c : CraneIx) (a k : Nat) (p : List Byte) (h : p.length ≤ 60) :
    judgeCandidate c (encodeFrameBody a k p) = judgeFrame c (byte a) (byte k) p := by
  rw [encodeFrameBody_eq]
  have hlen : (byte p.length).toNat = p.length := by rw [byte_toNat]; omega
  simp only [judgeCandidate, hlen]
  rw [List.take_append_of_le_length (Nat.le_refl _), List.take_length]

/-- The bytes of a supervisor frame are good, and give back its code and the bytes after it. -/
theorem encodeSupervisorBody_good (code : Nat) (rest : List Byte) (h : rest.length < 65535) :
    supervisorFrameGood (encodeSupervisorBody code rest) = true ∧
      field 0 2 (encodeSupervisorBody code rest) = rest.length + 1 ∧
      field 2 1 (encodeSupervisorBody code rest) = code % 256 ∧
      ((encodeSupervisorBody code rest).drop 3).take rest.length = rest := by
  have e : encodeSupervisorBody code rest = byte ((rest.length + 1) / 256) :: byte (rest.length + 1) :: byte code ::
      (rest ++ crcBytes (byte ((rest.length + 1) / 256) :: byte (rest.length + 1) :: byte code :: rest)) := rfl
  rw [e]
  generalize hc : crcBytes (byte ((rest.length + 1) / 256) :: byte (rest.length + 1) :: byte code :: rest) = c
  have hl : c.length = 2 := by rw [← hc]; exact crcBytes_length _
  have hn : field 0 2 (byte ((rest.length + 1) / 256) :: byte (rest.length + 1) :: byte code :: (rest ++ c)) =
      rest.length + 1 := by
    rw [field_two]
    simp only [byte_toNat]
    omega
  refine ⟨?_, hn, ?_, ?_⟩
  · unfold supervisorFrameGood
    dsimp only
    rw [hn]
    have h1 : field (2 + (rest.length + 1)) 2
        (byte ((rest.length + 1) / 256) :: byte (rest.length + 1) :: byte code :: (rest ++ c)) = beNat c := by
      unfold field
      have : (byte ((rest.length + 1) / 256) :: byte (rest.length + 1) :: byte code :: (rest ++ c)).drop
          (2 + (rest.length + 1)) = c := by
        rw [show 2 + (rest.length + 1) = rest.length + 3 by omega]
        simp
      rw [this, List.take_of_length_le (by omega)]
    have h2 : (byte ((rest.length + 1) / 256) :: byte (rest.length + 1) :: byte code :: (rest ++ c)).take
        (2 + (rest.length + 1)) = byte ((rest.length + 1) / 256) :: byte (rest.length + 1) :: byte code :: rest := by
      rw [show 2 + (rest.length + 1) = rest.length + 3 by omega]
      simp
    rw [h1, h2, ← hc, beNat_crcBytes]
    simp [crcBytes_length]
  · rw [field_succ, field_succ, field_one, byte_toNat]
  · simp

end Sys2Proof.Machine
end

