-- ==== Sys2Proof/Laws/PerInstr.lean ====
section
/-! SUPPORT. One lemma per command: a crane frame is the command its frame stands for, a supervisor command has a code
of Table 11-4, and no command is both. -/

/-- What the frames of a command say of it (R163, R174, R175): the frame read from a crane command stands for that
command; a supervisor command has a code up to 0x60 and is no crane frame. -/
def Sys2Proof.Laws.FrameOf.Statement (i : Sys2Proof.Instr) : Prop :=
  (∀ c restart f, i.craneFrame = some (c, restart, f) → f.instr c restart = i) ∧
    ∀ code args, Sys2Proof.commandBytes i = some (code, args) → code ≤ 0x60 ∧ i.craneFrame = none

namespace Sys2Proof.Laws.FrameOf

open Sys2Proof

/-- A command that is neither frame nor supervisor command satisfies the statement. -/
theorem of_event {i : Instr} (h : i.craneFrame = none) (h' : commandBytes i = none) : Statement i :=
  ⟨fun _ _ _ e => (nomatch h.symm.trans e), fun _ _ e => (nomatch h'.symm.trans e)⟩

/-- A crane frame satisfies the statement. -/
theorem of_frame {i : Instr} {c : CraneIx} {restart : Bool} {f : CraneFrame} (h : i.craneFrame = some (c, restart, f))
    (h' : f.instr c restart = i) (h'' : commandBytes i = none) : Statement i := by
  refine ⟨fun c' r' f' e => ?_, fun _ _ e => (nomatch h''.symm.trans e)⟩
  obtain ⟨rfl, rfl, rfl⟩ : c = c' ∧ restart = r' ∧ f = f' := by simpa [h] using e
  exact h'

/-- A supervisor command satisfies the statement. -/
theorem of_command {i : Instr} {n : Nat} {l : List Byte} (h : commandBytes i = some (n, l)) (hn : n ≤ 0x60)
    (h' : i.craneFrame = none) : Statement i := by
  refine ⟨fun _ _ _ e => (nomatch h'.symm.trans e), fun code args e => ⟨?_, h'⟩⟩
  obtain ⟨rfl, -⟩ : n = code ∧ l = args := by simpa [h] using e
  exact hn

theorem coldReset : Statement .coldReset := of_event rfl rfl
theorem autoloadRead (data : Option (List Byte)) : Statement (.autoloadRead data) := of_event rfl rfl
theorem autoloadTimeout : Statement .autoloadTimeout := of_event rfl rfl
theorem frameCheckFailed (c : CraneIx) (bytes : List Byte) : Statement (.frameCheckFailed c bytes) := of_event rfl rfl
theorem frameRejected (c : CraneIx) (address kind : Byte) (payload : List Byte) : Statement (.frameRejected c address kind payload) := of_event rfl rfl
theorem hello (c : CraneIx) (restart : Bool) (digest : BitVec 32) : Statement (.hello c restart digest) := of_frame rfl rfl rfl
theorem report (c : CraneIx) (restart : Bool) (r : Report) : Statement (.report c restart r) := of_frame rfl rfl rfl
theorem claim (c : CraneIx) (restart : Bool) (cell cls : Nat) : Statement (.claim c restart cell cls) := of_frame rfl rfl rfl
theorem release (c : CraneIx) (restart : Bool) (cell : Nat) : Statement (.release c restart cell) := of_frame rfl rfl rfl
theorem book (c : CraneIx) (restart : Bool) (b : BookReq) : Statement (.book c restart b) := of_frame rfl rfl rfl
theorem cancel (c : CraneIx) (restart : Bool) (id : Nat) : Statement (.cancel c restart id) := of_frame rfl rfl rfl
theorem liftStart (c : CraneIx) (restart : Bool) (id : Nat) : Statement (.liftStart c restart id) := of_frame rfl rfl rfl
theorem liftEnd (c : CraneIx) (restart : Bool) (id : Nat) : Statement (.liftEnd c restart id) := of_frame rfl rfl rfl
theorem liftAbort (c : CraneIx) (restart : Bool) (id : Nat) : Statement (.liftAbort c restart id) := of_frame rfl rfl rfl
theorem resume (c : CraneIx) (restart : Bool) : Statement (.resume c restart) := of_frame rfl rfl rfl
theorem leave (c : CraneIx) (restart : Bool) : Statement (.leave c restart) := of_frame rfl rfl rfl
theorem query (c : CraneIx) (restart : Bool) (item index segment : Nat) : Statement (.query c restart item index segment) := of_frame rfl rfl rfl
theorem transmitComplete (c : CraneIx) : Statement (.transmitComplete c) := of_event rfl rfl
theorem joinWaitExpiry (c : CraneIx) : Statement (.joinWaitExpiry c) := of_event rfl rfl
theorem linkTimerExpiry (c : CraneIx) : Statement (.linkTimerExpiry c) := of_event rfl rfl
theorem qualityPeriodExpiry (c : CraneIx) : Statement (.qualityPeriodExpiry c) := of_event rfl rfl
theorem takeUpExpiry (k : CellIx) : Statement (.takeUpExpiry k) := of_event rfl rfl
theorem lingerExpiry (k : CellIx) : Statement (.lingerExpiry k) := of_event rfl rfl
theorem silenceTimerExpiry (c : CraneIx) : Statement (.silenceTimerExpiry c) := of_event rfl rfl
theorem vaneClearTimerExpiry (c : CraneIx) : Statement (.vaneClearTimerExpiry c) := of_event rfl rfl
theorem mastPulse : Statement .mastPulse := of_event rfl rfl
theorem ppsPulse : Statement .ppsPulse := of_event rfl rfl
theorem pulseWaitTimerExpiry : Statement .pulseWaitTimerExpiry := of_event rfl rfl
theorem fallbackTimerExpiry : Statement .fallbackTimerExpiry := of_event rfl rfl
theorem supervisorBadFrame (bytes : List Byte) : Statement (.supervisorBadFrame bytes) := of_event rfl rfl
theorem supervisorRead (n : Nat) : Statement (.supervisorRead n) := of_event rfl rfl
theorem planBegin : Statement .planBegin := of_command rfl (by decide) rfl
theorem planPutSite (r : Site) : Statement (.planPutSite r) := of_command rfl (by decide) rfl
theorem planPutCrane (index : Nat) (p : Profile) : Statement (.planPutCrane index p) := of_command rfl (by decide) rfl
theorem planPutCell (index : Nat) (r : CellRec) : Statement (.planPutCell index r) := of_command rfl (by decide) rfl
theorem planDropCell (index : Nat) : Statement (.planDropCell index) := of_command rfl (by decide) rfl
theorem planEnd : Statement .planEnd := of_command rfl (by decide) rfl
theorem planErase : Statement .planErase := of_command rfl (by decide) rfl
theorem possession (index value : Nat) : Statement (.possession index value) := of_command rfl (by decide) rfl
theorem readPlanItem (item index : Nat) : Statement (.readPlanItem item index) := of_command rfl (by decide) rfl
theorem readCrane (index : Nat) : Statement (.readCrane index) := of_command rfl (by decide) rfl
theorem readCell (index : Nat) : Statement (.readCell index) := of_command rfl (by decide) rfl
theorem readBooking (id : Nat) : Statement (.readBooking id) := of_command rfl (by decide) rfl
theorem nextBooking (id : Nat) : Statement (.nextBooking id) := of_command rfl (by decide) rfl
theorem setClock (time : Nat) : Statement (.setClock time) := of_command rfl (by decide) rfl
theorem detach (index : Nat) : Statement (.detach index) := of_command rfl (by decide) rfl
theorem forceVane (index : Nat) : Statement (.forceVane index) := of_command rfl (by decide) rfl
theorem setWindSource (index value : Nat) : Statement (.setWindSource index value) := of_command rfl (by decide) rfl
theorem supervisorBook (index : Nat) (b : BookReq) : Statement (.supervisorBook index b) := of_command rfl (by decide) rfl
theorem cancelBooking (id : Nat) : Statement (.cancelBooking id) := of_command rfl (by decide) rfl
theorem abortBooking (id : Nat) : Statement (.abortBooking id) := of_command rfl (by decide) rfl
theorem holdBookings (index value : Nat) : Statement (.holdBookings index value) := of_command rfl (by decide) rfl
theorem readFaults : Statement .readFaults := of_command rfl (by decide) rfl
theorem clearFaults (kinds : BitVec 16) : Statement (.clearFaults kinds) := of_command rfl (by decide) rfl
theorem setFaultMask (kinds : BitVec 16) (value : Nat) : Statement (.setFaultMask kinds value) := of_command rfl (by decide) rfl
theorem setFaultSeverity (kinds : BitVec 16) (value : Nat) : Statement (.setFaultSeverity kinds value) := of_command rfl (by decide) rfl
theorem warmRestart : Statement .warmRestart := of_command rfl (by decide) rfl
theorem linkByteReceived (c : CraneIx) (b : Byte) : Statement (.linkByteReceived c b) := of_event rfl rfl
theorem resetHigh : Statement .resetHigh := of_event rfl rfl
theorem replyPlaced : Statement .replyPlaced := of_event rfl rfl
theorem unknownCommand (code : Byte) (args : List Byte) : Statement (.unknownCommand code args) := of_event rfl rfl

end Sys2Proof.Laws.FrameOf
end

