-- ==== Sys2Proof/Laws/Settle.lean ====
section
/-! SUPPORT. Re-judgement one step at a time: what `settle` answers in each standing (R67, R71 to R73), and what a
granted cell looks like once it is judged (R63). -/

namespace Sys2Proof.Machine

variable {d : Device} {k : CellIx} {r : CellClaim} {c : CraneIx} {x : ClaimClass} {l : Option Nat} {n t : Nat}

theorem settleBound_succ (r : CellClaim) : ∃ n, settleBound r = n + 1 := ⟨2 * r.queue.length + r.intruders.length + 5, rfl⟩

theorem judge_standing : (judge d k r).standing = (settle (settleBound r) d k r).standing := rfl
theorem judge_queue : (judge d k r).queue = (settle (settleBound r) d k r).queue := rfl
theorem judge_intruders : (judge d k r).intruders = (settle (settleBound r) d k r).intruders := rfl

/-! ### Displacement and linger -/

theorem tier_lost (d : Device) : d.tier .lost = 0 := rfl
theorem tier_weathervane (d : Device) : d.tier .weathervane = 0 := rfl

/-- A claim of tier 0 is never displaced. -/
theorem displaced_of_tier_zero {q : List Waiter} (h : d.tier x = 0) : displaced d k c x q = false := by
  unfold displaced displacedByWaiter displacedByReservation
  rw [h]
  cases q <;> simp

theorem displacedByReservation_false (h : ¬(d.reservedAgainst c k = true ∧ d.tier .booked < d.tier x)) :
    displacedByReservation d k c x = false := by
  unfold displacedByReservation
  simp only [Bool.and_eq_false_iff, decide_eq_false_iff_not]
  by_cases e : d.reservedAgainst c k = true
  · exact .inr fun hlt => h ⟨e, hlt⟩
  · exact .inl (by simpa using e)

theorem lingerRule_exempt (h : lingerExempt d k c x = true) : lingerRule d k c x l = some (.held c x none) := by
  unfold lingerRule
  rw [if_pos h]

theorem lingerRule_near (h : lingerExempt d k c x = false) (ho : d.relation c k ≠ .outside) :
    lingerRule d k c x l = some (.held c x l) := by
  unfold lingerRule
  simp [h, ho]

/-- A holder that is not OUTSIDE keeps its claim. -/
theorem lingerRule_of_near (l : Option Nat) (ho : d.relation c k ≠ .outside) : ∃ l', lingerRule d k c x l = some (.held c x l') := by
  cases h : lingerExempt d k c x
  · exact ⟨_, lingerRule_near h ho⟩
  · exact ⟨_, lingerRule_exempt h⟩

/-! ### One step of `settle`, by the standing it finds -/

theorem settle_free (n : Nat) (h : r.standing = .free) : settle n d k r = r := by
  cases n with
  | zero => rfl
  | succ n => unfold settle; rw [h]

theorem settle_held {st : Standing} (h : r.standing = .held c x l) (hd : displaced d k c x r.queue = false)
    (hl : lingerRule d k c x l = some st) : settle (n + 1) d k r = { r with standing := st } := by
  conv_lhs => unfold settle
  simp [h, hd, hl]

theorem settle_held_lapsed (h : r.standing = .held c x l) (hd : displaced d k c x r.queue = false)
    (hl : lingerRule d k c x l = none) : settle (n + 1) d k r = settle n d k (giveOn d k r) := by
  conv_lhs => unfold settle
  simp [h, hd, hl]

theorem settle_held_displaced (h : r.standing = .held c x l) (hd : displaced d k c x r.queue = true)
    (ho : d.relation c k ≠ .outside) : settle (n + 1) d k r = { r with standing := .draining c x } := by
  conv_lhs => unfold settle
  simp [h, hd, ho]

theorem settle_held_outside (h : r.standing = .held c x l) (hd : displaced d k c x r.queue = true)
    (ho : d.relation c k = .outside) : settle (n + 1) d k r = settle n d k (giveOn d k r) := by
  conv_lhs => unfold settle
  simp [h, hd, ho]

theorem settle_draining {st : Standing} (h : r.standing = .draining c x) (hd : displaced d k c x r.queue = false)
    (hl : lingerRule d k c x none = some st) : settle (n + 1) d k r = { r with standing := st } := by
  conv_lhs => unfold settle
  simp [h, hd, hl]

theorem settle_draining_displaced (h : r.standing = .draining c x) (hd : displaced d k c x r.queue = true) :
    settle (n + 1) d k r = r := by
  conv_lhs => unfold settle
  simp [h, hd]

theorem settle_draining_lapsed (h : r.standing = .draining c x) (hd : displaced d k c x r.queue = false)
    (hl : lingerRule d k c x none = none) : settle (n + 1) d k r = settle n d k (giveOn d k r) := by
  conv_lhs => unfold settle
  simp [h, hd, hl]

theorem settle_granted (h : r.standing = .granted c x t) (hr : displacedByReservation d k c x = false)
    (hw : displacedByWaiter d x r.queue = false) : settle (n + 1) d k r = r := by
  conv_lhs => unfold settle
  simp [h, hr, hw]

theorem settle_granted_reserved (h : r.standing = .granted c x t) (hr : displacedByReservation d k c x = true) :
    settle (n + 1) d k r = settle n d k (giveOn d k r) := by
  conv_lhs => unfold settle
  simp [h, hr]

theorem settle_granted_withdrawn (h : r.standing = .granted c x t) (hr : displacedByReservation d k c x = false)
    (hw : displacedByWaiter d x r.queue = true) :
    settle (n + 1) d k r = settle n d k (giveOn d k { r with queue := enqueue d ⟨c, x⟩ r.queue }) := by
  conv_lhs => unfold settle
  simp [h, hr, hw]

/-! ### A grant, judged -/

/-- A grant below tier 0, with no other waiter and no reservation against it, stands once the cell is judged. -/
theorem judge_grant (hq : dequeue c r.queue = []) (hres : ¬(d.reservedAgainst c k = true ∧ d.tier .booked < d.tier x))
    (ht : d.tier x ≠ 0) :
    (judge d k (grant d k c x r)).standing = d.standingGranted k c x ∧ (judge d k (grant d k c x r)).queue = [] ∧
      (judge d k (grant d k c x r)).intruders = dropCrane c r.intruders ∧
      (judge d k (grant d k c x r)).contested = false := by
  have hdr := displacedByReservation_false hres
  have hs : settle (settleBound (grant d k c x r)) d k (grant d k c x r) = grant d k c x r := by
    obtain ⟨n, hn⟩ := settleBound_succ (grant d k c x r)
    rw [hn]
    by_cases hi : d.relation c k = .inside
    · have hst : (grant d k c x r).standing = .held c x none := by simp [grant, hi]
      rw [settle_held hst (by simp [displaced, hdr, displacedByWaiter, hq]) (st := .held c x none)]
      · rw [← hst]
      · simp [lingerRule, hi]
    · have hst : (grant d k c x r).standing = .granted c x (d.takeUpTicks k) := by simp [grant, hi, ht]
      exact settle_granted hst hdr (by simp [displacedByWaiter, hq])
  refine ⟨?_, ?_, ?_, ?_⟩
  · rw [judge_standing, hs]
    simp [grant, Device.standingGranted, ht]
  · rw [judge_queue, hs]; exact hq
  · rw [judge_intruders, hs]; rfl
  · unfold judge
    simp only [hs]
    simp [contestedNow, ht]

end Sys2Proof.Machine
end

