-- ==== Sys2Proof/Laws/Time.lean ====
section
/-! SUPPORT. What the clock, the supervisor commands, the resets and a tick of internal time keep of the laws of
`Safety`. -/

namespace Sys2Proof.Machine

/-! ### The clock -/

theorem Kept.setClockRec (d : Device) (x : Clock) : Kept d (d.setClockRec x) := Kept.of_eq rfl rfl rfl rfl rfl rfl rfl

theorem Kept.siteSecond (d : Device) : Kept d (siteSecond d) :=
  ((Kept.setClockRec d _).trans (Kept.windowMatching _)).trans ((Kept.reopenSuspended _).trans (Kept.mastSample _))

theorem Kept.ppsPulse (d : Device) : Kept d (ppsPulse d) := by
  unfold Machine.ppsPulse
  dsimp only
  split
  · split
    exacts [Kept.refl d, (Kept.setClockRec d _).trans (Kept.siteSecond _)]
  · split
    · split
      exacts [Kept.setClockRec d _, (Kept.setClockRec d _).trans (Kept.siteSecond _)]
    · exact Kept.setClockRec d _

theorem Kept.pulseWaitExpired (d : Device) : Kept d (pulseWaitExpired d) := by
  refine Kept.ite ?_ (Kept.refl d)
  exact (((Kept.setClockRec d _).trans (Kept.raise _ _ _ _ _)).trans
    ((Kept.siteSecond _).trans (Kept.siteSecond _))).trans (Kept.setClockRec _ _)

theorem Kept.fallbackExpired (d : Device) : Kept d (fallbackExpired d) :=
  Kept.ite ((Kept.siteSecond d).trans (Kept.setClockRec _ _)) (Kept.refl d)

theorem Kept.mastPulse (d : Device) : Kept d (mastPulse d) := Kept.of_eq rfl rfl rfl rfl rfl rfl rfl

theorem Kept.setClock (time : Nat) (d : Device) : Kept d (setClock time d).dev := by
  unfold Machine.setClock
  split
  · exact Kept.refl d
  · exact (Kept.setClockRec d { d.clock with siteTime := some time }).trans (Kept.windowMatching _)

/-! ### Supervisor commands -/

theorem Kept.setSup (d : Device) (p : SupPort) : Kept d (d.setSup p) := Kept.of_eq rfl rfl rfl rfl rfl rfl rfl

theorem Kept.takeCommand (code : Byte) (serve : Device → Served) (d : Device) (h : ∀ e, Kept e (serve e).dev) :
    Kept d (takeCommand code serve d) := by
  unfold Machine.takeCommand
  split
  exacts [(h d).trans (Kept.setSup _ _), Kept.refl d, Kept.setSup _ _]

theorem Kept.command (code : Byte) (serve : Device → Served) (d : Device) (h : ∀ e, Kept e (serve e).dev) :
    Kept d (command code serve d) := by
  refine Kept.takeCommand code _ d fun e => ?_
  unfold unlessLoading
  split
  exacts [Kept.refl e, h e]

theorem Kept.forceVane (index : Nat) (d : Device) : Kept d (forceVane index d).dev := by
  unfold Machine.forceVane
  split
  · exact Kept.refl d
  · split
    · exact Kept.refl d
    · split
      · exact Kept.refl d
      · next hs =>
        refine Kept.modWind _ (fun w => { w with state := .vane .forced, vaneTimer := none }) d (fun h => ?_) fun h => h
        exact ⟨h.1, h.2.1, fun _ => h.2.2 (by rw [hs]; rfl)⟩
      · exact Kept.refl d

theorem Kept.setWindSource (index value : Nat) (d : Device) : Kept d (setWindSource index value d).dev := by
  unfold Machine.setWindSource
  split
  exacts [Kept.changeSource _ _ d, Kept.changeSource _ _ d, Kept.refl d]

theorem Kept.supervisorBook (index : Nat) (b : BookReq) (d : Device) : Kept d (supervisorBook index b d).dev := by
  unfold Machine.supervisorBook
  split
  · exact Kept.refl d
  · split
    · split
      · exact Kept.refl d
      · next hw =>
        split
        · exact Kept.refl d
        · split
          · exact Kept.refl d
          · split
            · exact Kept.refl d
            · next path p hj =>
              have hw' : 1 ≤ b.cycles ∧ b.cycles ≤ 255 := by
                simp only [within, Bool.or_eq_true, Bool.not_eq_true', Bool.not_eq_false, Bool.and_eq_true,
                  decide_eq_true_eq, not_or] at hw
                exact hw.1
              exact Kept.insertRequest _ b _ _ path p d hj hw'.1 hw'.2
    · exact Kept.refl d

theorem Kept.cancelBooking (id : Nat) (d : Device) : Kept d (cancelBooking id d).dev := by
  unfold Machine.cancelBooking
  split
  · exact Kept.refl d
  · split
    exacts [Kept.refl d, Kept.retire _ _ d]

theorem Kept.abortBooking (id : Nat) (d : Device) : Kept d (abortBooking id d).dev := by
  unfold Machine.abortBooking
  split
  exacts [Kept.refl d, Kept.retire _ _ d]

/-- A change of the entries that clears no pending kind, or that clears the pointer's too, keeps the fault record
lawful. -/
theorem Kept.setFaults (d : Device) (u : FaultUnit) (h : d.faults.lawful → u.lawful) : Kept d { d with faults := u } :=
  ⟨h, id, id, id, id, id, id⟩

theorem mapFaults_get (kinds : BitVec 16) (f : FaultEntry → FaultEntry) (l : Vector FaultEntry 13) (k : FaultKind) :
    (mapFaults kinds f l)[k.ix] = if kinds.getLsbD k.ix.val then f l[k.ix] else l[k.ix] := by
  simp [mapFaults, kindSetHas]
  rfl

theorem Kept.clearFaults (kinds : BitVec 16) (d : Device) : Kept d (clearFaults kinds d).dev := by
  unfold Machine.clearFaults
  split
  · exact Kept.refl d
  · refine Kept.setFaults d _ fun h => ?_
    unfold FaultUnit.lawful at h ⊢
    dsimp only
    cases hp : d.faults.pointer with
    | none =>
      rw [hp] at h
      simpa [pointerNamed, hp] using h
    | some k =>
      rw [hp] at h
      by_cases hk : kindSetHas kinds k.ix.val = true
      · have : pointerNamed kinds d.faults = true := by simp [pointerNamed, hp, hk]
        simp [this]
      · have : pointerNamed kinds d.faults = false := by simpa [pointerNamed, hp] using hk
        simp only [this, Bool.false_eq_true, if_false]
        refine ⟨?_, h.2⟩
        rw [mapFaults_get, if_neg (by simpa [kindSetHas] using hk)]
        exact h.1

theorem Kept.mapFaults (kinds : BitVec 16) (f : FaultEntry → FaultEntry) (hf : ∀ e, (f e).pending = e.pending) (d : Device) :
    Kept d { d with faults := { d.faults with entries := mapFaults kinds f d.faults.entries } } := by
  refine Kept.setFaults d _ fun h => ?_
  unfold FaultUnit.lawful at h ⊢
  dsimp only
  cases hp : d.faults.pointer with
  | none => rw [hp] at h; exact h
  | some k =>
    rw [hp] at h
    refine ⟨?_, h.2⟩
    rw [mapFaults_get]
    split
    · rw [hf]; exact h.1
    · exact h.1

theorem Kept.setFaultMask (kinds : BitVec 16) (value : Nat) (d : Device) : Kept d (setFaultMask kinds value d).dev := by
  unfold Machine.setFaultMask
  split
  exacts [Kept.refl d, Kept.mapFaults kinds (fun e => { e with masked := value == 1 }) (fun _ => rfl) d]

theorem Kept.setFaultSeverity (kinds : BitVec 16) (value : Nat) (d : Device) :
    Kept d (setFaultSeverity kinds value d).dev := by
  unfold Machine.setFaultSeverity
  split
  exacts [Kept.refl d, Kept.mapFaults kinds (fun e => { e with alarm := value == 1 }) (fun _ => rfl) d]

/-! ### Resets -/

theorem cold_lawful : Device.cold.faults.lawful ∧
    (∀ c, (Device.cold.windOf c).classesLawful ∧ (Device.cold.windOf c).rangesLawful) ∧ Device.cold.permitsLawful ∧
    (∀ c, (Device.cold.port c).lawful) ∧ (∀ k, (Device.cold.cell k).lawful) ∧ Device.cold.tableLawful := by
  refine ⟨rfl, fun c => ?_, fun c => ?_, fun c => ?_, fun k => ?_, ?_⟩
  · have : Device.cold.windOf c = WindRec.cold := by simp [Device.windOf, Device.cold]
    rw [this]
    exact ⟨by simp [WindRec.classesLawful, WindRec.cold, WindState.isCalmOrWatch],
      by simp [WindRec.rangesLawful, WindRec.cold]⟩
  · have h1 : Device.cold.permitOf c = none := by simp [Device.permitOf, Device.cold]
    have h2 : Device.cold.port c = Port.reset := by simp [Device.port, Device.cold]
    rw [h1, h2]
    exact ⟨by simp, by simp [Port.framesLawful, Port.reset]⟩
  · have h2 : Device.cold.port c = Port.reset := by simp [Device.port, Device.cold]
    rw [h2]
    simp [Port.lawful, Port.reset]
  · have h : Device.cold.cell k = CellClaim.reset := by simp [Device.cell, Device.cold]
    rw [h]
    simp [CellClaim.lawful, CellClaim.reset, Standing.holder]
  · exact ⟨by simp [tableLawful, Device.cold], Nat.le_refl _, by decide⟩

/-- A part at its cold values is lawful, whatever it was before. -/
theorem Kept.ofCold (d t : Device) (hf : t.faults = Device.cold.faults) (hw : t.wind = Device.cold.wind)
    (hp : t.permits = Device.cold.permits) (ho : t.ports = Device.cold.ports) (hc : t.cells = Device.cold.cells)
    (hb : t.bookings = Device.cold.bookings) (hn : t.nextId = Device.cold.nextId) : Kept d t := by
  obtain ⟨h1, h2, h3, h4, h5, h6⟩ := cold_lawful
  have k : Kept Device.cold t := Kept.of_eq hf hw hp ho hc hb hn
  exact ⟨fun _ => k.faults h1, fun _ => k.classes fun c => (h2 c).1, fun _ => k.ranges fun c => (h2 c).2,
    fun _ => k.permits h3, fun _ => k.ports h4, fun _ => k.cells h5, fun _ => k.table h6⟩

theorem Kept.resetLow (d : Device) : Kept d (resetLow d) := Kept.ofCold d _ rfl rfl rfl rfl rfl rfl rfl

theorem Kept.resetHigh (d : Device) : Kept d (resetHigh d) := Kept.ofCold d _ rfl rfl rfl rfl rfl rfl rfl

theorem Kept.warmReset (d : Device) : Kept d (warmReset d) := by
  obtain ⟨-, -, h3, h4, h5, -⟩ := cold_lawful
  have hw : ∀ c, (Machine.warmReset d).windOf c = (d.windOf c).warmReset := by
    intro c; simp [Machine.warmReset, Device.windOf]
  refine ⟨fun _ => rfl, fun h c => ?_, fun h c => ?_, fun _ => h3, fun _ => h4, fun _ => h5, fun h => ?_⟩
  · rw [hw]; exact h c
  · rw [hw]; exact warm_ranges (h c) _ _ _
  · exact ⟨tableLawful_warmBookings _ h.1, h.2⟩

/-! ### A tick of internal time -/

theorem Standing.tick_holder (x : Standing) : x.tick.holder = x.holder := by cases x <;> rfl

theorem Kept.tickTimers (d : Device) : Kept d d.tickTimers := by
  have hc : ∀ k, d.tickTimers.cell k = { d.cell k with standing := (d.cell k).standing.tick } := by
    intro k; simp [Device.tickTimers, Device.cell]
  have hw : ∀ c, d.tickTimers.windOf c = (d.windOf c).tick := by
    intro c; simp [Device.tickTimers, Device.windOf]
  refine ⟨id, fun h c => ?_, fun h c => ?_, id, id, fun h k => ?_, id⟩
  · rw [hw]; exact h c
  · rw [hw]; exact h c
  · rw [hc]
    obtain ⟨h1, h2, h3⟩ := h k
    refine ⟨h1, ?_, h3⟩
    intro c hcc
    rw [Standing.tick_holder] at hcc
    exact h2 c hcc

theorem Kept.failLoad (cause : AutoloadResult) (item : Option PlanItem) (d : Device) : Kept d (failLoad cause item d) := by
  unfold Machine.failLoad
  refine Kept.trans ?_ (Kept.raise _ _ _ _ _)
  exact Kept.of_eq rfl rfl rfl rfl rfl rfl rfl

theorem Kept.loadTimeout (d : Device) : Kept d (loadTimeout d) := by
  unfold Machine.loadTimeout
  split
  exacts [Kept.refl d, Kept.failLoad _ _ d]

theorem Kept.expire (x : Timer) (d : Device) : Kept d (expire x d) := by
  cases x with
  | load => exact Kept.loadTimeout d
  | joinWait c => exact Kept.joinWaitExpired c d
  | link c => exact Kept.linkExpired c d
  | quality c => exact Kept.qualityExpired c d
  | takeUp k => exact Kept.takeUpExpired k d
  | linger k => exact Kept.lingerExpired k d
  | silence c => exact Kept.ite (Kept.silenceExpired c d) (Kept.refl d)
  | vaneClear c => exact Kept.ite (Kept.vaneClearExpired c d) (Kept.refl d)
  | pulseWait => exact Kept.pulseWaitExpired d
  | fallback => exact Kept.fallbackExpired d

theorem Kept.picked {α : Type} (d : Device) (l : List α) : Kept d (d.picked l) := Kept.of_eq rfl rfl rfl rfl rfl rfl rfl

theorem Kept.expireIfDue (d : Device) (x : Timer) : Kept d (expireIfDue d x) := Kept.ite (Kept.expire x d) (Kept.refl d)

theorem Kept.expireDue (d : Device) : Kept d (expireDue d) :=
  (Kept.picked _ _).trans (Kept.foldl _ Kept.expireIfDue _ _)

theorem Kept.servePorts (d : Device) : Kept d (servePorts d) :=
  (Kept.picked _ _).trans (Kept.foldl _ (fun e c => Kept.servePort c e) _ _)

end Sys2Proof.Machine
end

