-- ==== Sys2Proof/Laws/Touch.lean ====
section
/-! SUPPORT. `ForCrane`: an operation on behalf of one crane leaves the records of the others, and every block that is no
crane's, as they were; one lemma per operation that a crane frame reaches. -/

namespace Sys2Proof.Machine

/-- An operation on behalf of crane `c` takes the part from `d` to `t`: the records of other cranes are as they were,
so is the receiver of `c`, and of the rest only claims, bookings and faults change. -/
structure ForCrane (c : CraneIx) (d t : Device) : Prop where
  others : d.sameElsewhere c t
  candidate : (t.port c).candidate = (d.port c).candidate
  rescan : (t.port c).rescan = (d.port c).rescan
  line : (t.port c).line = (d.port c).line
  hold : t.hold c = d.hold c
  rest : t =
    { d with
      roster := t.roster, reach := t.reach, cells := t.cells, permits := t.permits
      wind := t.wind, bookings := t.bookings, nextId := t.nextId, ports := t.ports
      faults := t.faults }

theorem ForCrane.refl (c : CraneIx) (d : Device) : ForCrane c d d :=
  ⟨fun _ _ => ⟨rfl, rfl, rfl, rfl, rfl, rfl⟩, rfl, rfl, rfl, rfl, rfl⟩

theorem ForCrane.trans {c : CraneIx} {d e t : Device} (h : ForCrane c d e) (h' : ForCrane c e t) : ForCrane c d t := by
  refine ⟨fun x hx => ?_, h'.candidate.trans h.candidate, h'.rescan.trans h.rescan, h'.line.trans h.line,
    h'.hold.trans h.hold, ?_⟩
  · obtain ⟨a1, a2, a3, a4, a5, a6⟩ := h.others x hx
    obtain ⟨b1, b2, b3, b4, b5, b6⟩ := h'.others x hx
    exact ⟨b1.trans a1, b2.trans a2, b3.trans a3, b4.trans a4, b5.trans a5, b6.trans a6⟩
  · have h1 := h.rest
    have h2 := h'.rest
    conv_lhs => rw [h2, h1]

theorem ForCrane.ite {c : CraneIx} {d : Device} {p : Prop} [Decidable p] {a b : Device} (ha : ForCrane c d a)
    (hb : ForCrane c d b) : ForCrane c d (if p then a else b) := by
  split <;> assumption

theorem ForCrane.foldl {α : Type} {c : CraneIx} (f : Device → α → Device) (hf : ∀ d x, ForCrane c d (f d x)) (l : List α)
    (d : Device) : ForCrane c d (l.foldl f d) := by
  induction l generalizing d with
  | nil => exact ForCrane.refl c d
  | cons x l ih => exact (hf d x).trans (ih (f d x))

theorem WindClaims.forCrane {c : CraneIx} {d t : Device} (h : WindClaims c d t) : ForCrane c d t := by
  refine ⟨fun x hx => ⟨?_, ?_, ?_, h.windOf_of_ne hx, ?_, ?_⟩, ?_, ?_, ?_, ?_, ?_⟩
  all_goals first | (rw [h]; rfl) | skip
  have hw := h.wind
  conv_lhs => rw [h]
  rw [← hw]
  have : t.roster = d.roster := by rw [h]
  have h2 : t.reach = d.reach := by rw [h]
  have h3 : t.permits = d.permits := by rw [h]
  have h4 : t.nextId = d.nextId := by rw [h]
  have h5 : t.ports = d.ports := by rw [h]
  rw [this, h2, h3, h4, h5]

theorem ClaimsOnly.forCrane {d t : Device} (c : CraneIx) (h : ClaimsOnly d t) : ForCrane c d t := (h.windClaims c).forCrane

theorem CellsOnly.forCrane {d t : Device} (c : CraneIx) (h : CellsOnly d t) : ForCrane c d t := h.claimsOnly.forCrane c

theorem WindOnly.forCrane {c : CraneIx} {d t : Device} (h : WindOnly c d t) : ForCrane c d t := h.windClaims.forCrane

theorem ForCrane.raise (c : CraneIx) (d : Device) (k : FaultKind) (a b e : Option Nat) : ForCrane c d (d.raise k a b e) :=
  (CellsOnly.raise d k a b e).forCrane c

theorem ForCrane.setCrane (c : CraneIx) (d : Device) (r : CraneRec) : ForCrane c d (d.setCrane c r) :=
  ⟨fun x hx => ⟨by simp [hx], rfl, rfl, rfl, rfl, rfl⟩, rfl, rfl, rfl, rfl, rfl⟩

theorem ForCrane.setReach (c : CraneIx) (d : Device) (r : Option ReachRec) : ForCrane c d (d.setReach c r) :=
  ⟨fun x hx => ⟨rfl, by simp [hx], rfl, rfl, rfl, rfl⟩, rfl, rfl, rfl, rfl, rfl⟩

theorem ForCrane.setPermit (c : CraneIx) (d : Device) (r : Option Permit) : ForCrane c d (d.setPermit c r) :=
  ⟨fun x hx => ⟨rfl, rfl, by simp [hx], rfl, rfl, rfl⟩, rfl, rfl, rfl, rfl, rfl⟩

theorem ForCrane.sendFrame (c : CraneIx) (d : Device) (f : TxFrame) : ForCrane c d (d.sendFrame c f) := by
  have key := sendFrame_port d c f
  rw [sendFrame_eq]
  refine ⟨fun x hx => ⟨rfl, rfl, rfl, rfl, by simp [hx], rfl⟩, ?_, ?_, ?_, rfl, rfl⟩
  all_goals
    simp only [Device.setPort_port_self]
    rw [key]
    split
    · rfl
    · split <;> rfl

theorem ForCrane.reply (c : CraneIx) (d : Device) (kind : Nat) (code : ReplyCode) : ForCrane c d (d.reply c kind code) :=
  ForCrane.sendFrame c d _

theorem ForCrane.sendPermit (c : CraneIx) (seq : Nat) (d : Device) : ForCrane c d (sendPermit c seq d) :=
  (ForCrane.setPermit c d _).trans (ForCrane.sendFrame c _ _)

/-! ### Crane Roster -/

theorem ForCrane.goAbsent (c : CraneIx) (d : Device) : ForCrane c d (goAbsent c d) :=
  (((ForCrane.setCrane c d _).trans (ForCrane.setReach c _ none)).trans
    ((ForCrane.setPermit c _ none).trans ((forgetCrane_cellsOnly c _).forCrane c))).trans (windAbsent_windOnly c _).forCrane

theorem ForCrane.loseCrane (c : CraneIx) (d : Device) : ForCrane c d (loseCrane c d) :=
  ((ForCrane.setCrane c d _).trans (ForCrane.raise c _ _ _ _ _)).trans
    (((loseCells_cellsOnly c _).forCrane c).trans (windLost_windOnly c _).forCrane)

theorem ForCrane.countErrored (c : CraneIx) (d : Device) : ForCrane c d (countErrored c d) :=
  ForCrane.ite (ForCrane.refl c d) (ForCrane.setCrane c d _)

theorem ForCrane.withStreak (c : CraneIx) (restart : Bool) (serve : Device → Device) (d : Device)
    (h : ∀ e, ForCrane c e (serve e)) : ForCrane c d (withStreak c restart serve d) := by
  unfold Machine.withStreak
  dsimp only
  split
  · split
    · exact ForCrane.loseCrane c d
    · exact (ForCrane.setCrane c d _).trans (h _)
  · exact h d

theorem ForCrane.hello (c : CraneIx) (digest : BitVec 32) (d : Device) : ForCrane c d (hello c digest d) := by
  have hr : ForCrane c d (refuseJoin c d) := ForCrane.raise _ _ _ _ _ _
  unfold Machine.hello
  dsimp only
  split
  · split
    · exact ForCrane.reply _ _ _ _
    · split
      · exact hr.trans (ForCrane.reply _ _ _ _)
      · split
        · exact hr.trans (ForCrane.reply _ _ _ _)
        · exact (ForCrane.setCrane c d _).trans (ForCrane.reply _ _ _ _)
  · split
    · exact (ForCrane.setCrane c d _).trans (ForCrane.reply _ _ _ _)
    · exact (hr.trans (ForCrane.goAbsent c _)).trans (ForCrane.reply _ _ _ _)
  · split
    · exact ForCrane.reply _ _ _ _
    · exact hr.trans (ForCrane.reply _ _ _ _)

theorem ForCrane.passReport (c : CraneIx) (how : Arrival) (r : Report) (d : Device) :
    ForCrane c d (passReport c how r d) := by
  unfold Machine.passReport
  dsimp only
  refine ForCrane.trans ?_ (ForCrane.sendPermit c _ _)
  refine ForCrane.trans ?_ (windReport_windClaims c how r _).forCrane
  refine ForCrane.trans ?_ ((autoClaims_cellsOnly c _).forCrane c)
  refine ForCrane.trans ?_ ((reportCells_cellsOnly c _ _).forCrane c)
  exact ForCrane.ite ((ForCrane.setReach c d _).trans ((reconcileCells_cellsOnly c _).forCrane c)) (ForCrane.setReach c d _)

theorem ForCrane.takeReport (c : CraneIx) (r : Report) (d : Device) : ForCrane c d (takeReport c r d) := by
  unfold Machine.takeReport
  dsimp only
  split
  · exact ForCrane.reply _ _ _ _
  all_goals exact (ForCrane.setCrane c d _).trans (ForCrane.passReport c _ r _)

theorem ForCrane.leave (c : CraneIx) (d : Device) : ForCrane c d (leave c d) := by
  unfold Machine.leave
  split
  · exact (((withdrawEntries_cellsOnly c d).forCrane c).trans (ForCrane.goAbsent c _)).trans (ForCrane.reply _ _ _ _)
  · exact ForCrane.reply _ _ _ _

theorem ForCrane.detached (c : CraneIx) (d : Device) :
    ForCrane c d (Machine.goAbsent c (retireAllOf c (releaseAllHeld c (withdrawEntries c d)))) :=
  ((((withdrawEntries_cellsOnly c d).trans (releaseAllHeld_cellsOnly c _)).forCrane c).trans
    ((retireAllOf_claimsOnly c _).forCrane c)).trans (ForCrane.goAbsent c _)

/-! ### Frames served -/

theorem ForCrane.request (c x : CraneIx) (k : CellIx) (cls : ClaimClass) (d : Device) :
    ForCrane x d (request c k cls d) := ((Local.request c cls).only d k).forCrane x

theorem ForCrane.claimFrame (c : CraneIx) (cell cls : Nat) (d : Device) : ForCrane c d (claimFrame c cell cls d) := by
  unfold Machine.claimFrame
  split
  · exact ForCrane.reply _ _ _ _
  · split
    · exact (ForCrane.request _ _ _ _ d).trans (ForCrane.reply _ _ _ _)
    · dsimp only
      refine ForCrane.trans ?_ (ForCrane.reply _ _ _ _)
      split
      · exact (ForCrane.request _ _ _ _ d).trans (ForCrane.raise _ _ _ _ _ _)
      · exact ForCrane.request _ _ _ _ d
    · exact ForCrane.reply _ _ _ _

theorem ForCrane.releaseFrame (c : CraneIx) (cell : Nat) (d : Device) : ForCrane c d (releaseFrame c cell d) := by
  unfold Machine.releaseFrame
  dsimp only
  split
  · exact (ForCrane.ite ((giveUp_cellsOnly c _ d).forCrane c) (ForCrane.refl c d)).trans (ForCrane.reply _ _ _ _)
  · exact ForCrane.reply _ _ _ _

theorem ForCrane.replyBooking (c : CraneIx) (kind id : Nat) (d : Device) : ForCrane c d (d.replyBooking c kind id) := by
  unfold Device.replyBooking
  split
  · exact ForCrane.sendFrame _ _ _
  · exact ForCrane.reply _ _ _ _

theorem ForCrane.insertRequest (x c : CraneIx) (b : BookReq) (sail : Sail) (o : Origin) (path : List CellIx) (p : BookPlan)
    (d : Device) : ForCrane x d (insertRequest c b sail o path p d) := by
  unfold Machine.insertRequest
  dsimp only
  refine ForCrane.trans (e := { d with bookings := _, nextId := _ }) ?_ ((windowMatching_claimsOnly _).forCrane x)
  exact ⟨fun _ _ => ⟨rfl, rfl, rfl, rfl, rfl, rfl⟩, rfl, rfl, rfl, rfl, rfl⟩

theorem ForCrane.bookFrame (c : CraneIx) (b : BookReq) (d : Device) : ForCrane c d (bookFrame c b d) := by
  unfold Machine.bookFrame
  split
  · exact ForCrane.reply _ _ _ _
  · split
    · exact ForCrane.reply _ _ _ _
    · split
      · exact ForCrane.reply _ _ _ _
      · split
        · exact ForCrane.reply _ _ _ _
        · split
          · exact ForCrane.reply _ _ _ _
          · exact (ForCrane.insertRequest c c b _ _ _ _ d).trans (ForCrane.replyBooking _ _ _ _)

theorem ForCrane.cancelFrame (c : CraneIx) (id : Nat) (d : Device) : ForCrane c d (cancelFrame c id d) := by
  unfold Machine.cancelFrame
  split
  · exact ForCrane.reply _ _ _ _
  · exact ((retire_claimsOnly _ _ d).forCrane c).trans (ForCrane.reply _ _ _ _)

theorem ForCrane.liftStartFrame (c : CraneIx) (id : Nat) (d : Device) : ForCrane c d (liftStartFrame c id d) := by
  unfold Machine.liftStartFrame
  split
  · exact ForCrane.reply _ _ _ _
  · exact ((startLift_claimsOnly c id d).forCrane c).trans (ForCrane.replyBooking _ _ _ _)

theorem ForCrane.replyLift (c : CraneIx) (kind id : Nat) (reason : RetireReason) (d : Device) :
    ForCrane c d (d.replyLift c kind id reason) := by
  unfold Device.replyLift
  split
  · exact ForCrane.replyBooking _ _ _ _
  · exact ForCrane.sendFrame _ _ _

theorem ForCrane.liftEndFrame (c : CraneIx) (id : Nat) (d : Device) : ForCrane c d (liftEndFrame c id d) := by
  unfold Machine.liftEndFrame
  split
  · exact ForCrane.reply _ _ _ _
  · exact ((endLift_claimsOnly c id d).forCrane c).trans (ForCrane.replyLift _ _ _ _ _)

theorem ForCrane.liftAbortFrame (c : CraneIx) (id : Nat) (d : Device) : ForCrane c d (liftAbortFrame c id d) := by
  unfold Machine.liftAbortFrame
  split
  · exact ForCrane.reply _ _ _ _
  · exact ((abortLift_claimsOnly c id d).forCrane c).trans (ForCrane.replyLift _ _ _ _ _)

theorem ForCrane.resumeFrame (c : CraneIx) (d : Device) : ForCrane c d (resumeFrame c d) :=
  ForCrane.ite (ForCrane.reply _ _ _ _) (ForCrane.ite (ForCrane.reply _ _ _ _)
    ((returnToService_windClaims c d).forCrane.trans (ForCrane.reply _ _ _ _)))

theorem ForCrane.queryFrame (c : CraneIx) (item index segment : Nat) (d : Device) :
    ForCrane c d (queryFrame c item index segment d) := by
  unfold Machine.queryFrame
  split
  · exact ForCrane.reply _ _ _ _
  · split
    · exact ForCrane.sendFrame _ _ _
    · exact ForCrane.reply _ _ _ _

end Sys2Proof.Machine
end

