-- ==== Sys2Proof/Tests/Slice0.lean ====
section
/-! SUPPORT. Tests of the model: ill-formed commands that `WellFormed` refuses, frames written out by hand, small
steps whose results the spec gives, and a witness of the hypotheses of every obligation. -/

namespace Sys2Proof.Tests

open Sys2Proof.Machine

set_option Elab.async false

/-! ### States -/

/-- A profile within Table 1-2: jib 50 m, LINK, auto-claim off. -/
def mast : Profile := ⟨1, 500, 20, 40, 10, 10, 5, 64, 256, 50, 100, 0, 0⟩

/-- A cell with a JIB footprint of crane 0 and a HOOK footprint of crane 1; take-up 20 s, linger 3 s. -/
def sector (kind : Nat) : CellRec := ⟨kind, 0, 20, 3, [⟨0, 0, 100, 200, 0, 0⟩, ⟨1, 1, 100, 200, 60, 400⟩]⟩

/-- A plan of two cranes and two cells, SHARED and PROTECTED. -/
def plan : Plan where
  site := Site.defaults
  cranes := ((Vector.replicate 10 Profile.defaults).set 0 mast).set 1 mast
  cells := ((Vector.replicate 48 none).set 0 (some (sector 0))).set 1 (some (sector 1))

/-- The part with that plan ACTIVE and site time 1000, every crane ABSENT. -/
def yard : Device :=
  { Device.cold with
    planState := .active
    load := none
    plan := plan
    clock := ⟨some 1000, true, some 200, none, some 60, 0⟩ }

/-- A crane takes a membership state, its link timer running. -/
def join (m : Membership) (c : CraneIx) (d : Device) : Device :=
  d.setCrane c ⟨m, .good, 0, 0, false, none, some 100, some 500⟩

/-- A crane's relation to one cell. -/
def place (c : CraneIx) (k : CellIx) (x : Relation) (d : Device) : Device :=
  d.setReach c (some ⟨⟨0, 0, 60, 0, 0⟩, 0, 0, ⟨0, 1, 60, 60⟩, ⟨0, 1, 60, 60⟩, [⟨k, x, none, none, none, none, none⟩]⟩)

/-- A cell's standing and queue. -/
def stand (k : CellIx) (x : Standing) (q : List Waiter) (d : Device) : Device :=
  d.setCell k { CellClaim.reset with standing := x, queue := q }

/-- A crane's wind state. -/
def windIs (c : CraneIx) (x : WindState) (d : Device) : Device := d.setWind c { d.windOf c with state := x }

/-- Booking 7 of crane 0, open over site time 1000, with cell 0 as its path. -/
def lift (state : BookingState) (cycles : Nat) : Booking :=
  ⟨7, 0, state, some (900, 2000), 1100, 900, 2000, .s, [0], cycles, none, none, false, .crane⟩

/-- Cranes 0 and 1 ADMITTED. -/
def busy : Device := join .admitted 1 (join .admitted 0 yard)

/-- Cranes 0 and 1 ADMITTED, cell 0 in a standing with a queue. -/
def cellIn (x : Standing) (q : List Waiter) : Device := stand 0 x q busy

/-- The part after a command. -/
def after (i : Instr) (d : Device) : Device :=
  match exec i ⟨d, []⟩ with
  | .next t => t.dev
  | _ => d

/-- The reply being sent to a crane, by kind and code. -/
def replied (c : CraneIx) (d : Device) : Option (Nat × ReplyCode) :=
  match (d.port c).sending with
  | some (.reply r) => some (r.kind, r.code)
  | _ => none

/-- The supervisor reply being made. -/
def supReply (d : Device) : Option (ReplyCode × List Byte) :=
  match d.sup with
  | .serving r => some (r.code, r.values)
  | _ => none

/-! ### Witnesses: states and operands that meet the hypotheses of each obligation, clause by clause -/

theorem witness_StepRunsFrontCommand :
    (⟨yard, [.mastPulse, .ppsPulse]⟩ : State).pending = .mastPulse :: [.ppsPulse] := rfl

theorem witness_EmptyQueueServesExpiresOrTicks :
    (⟨yard, []⟩ : State).pending = [] ∧ ({ yard with resetLow := true } : Device).resetLow = true ∧
      yard.resetLow = false ∧ ((yard.setPort 9 { Port.reset with rescan := [0x00] }).port 9).waiting ≠ 0 ∧
      (∀ c, (yard.port c).waiting = 0) ∧ (allTimers.filter fun x => yard.timer x == some 0) = [] ∧
      (allTimers.filter fun x => (yard.setCrane 9 { CraneRec.reset with link := some 0 }).timer x == some 0) =
        [.link 9] := by
  decide +kernel

theorem witness_ResetPinSetsColdValues :
    ({ yard with resetLow := true } : Device).resetLow = true ∧ Instr.mastPulse ≠ .coldReset ∧
      Instr.mastPulse ≠ .resetHigh := by
  decide +kernel

theorem witness_FaultPointerNamesPendingKind :
    ∃ t, (busy.raise .linkLost (some 9) none none).faults.lawful ∧
      step ⟨busy.raise .linkLost (some 9) none none, [.readFaults]⟩ = .next t :=
  ⟨_, ⟨by decide +kernel, _, rfl, rfl⟩, rfl⟩

/-- Wind records at the ends of their ranges. -/
def gale : WindRec :=
  { WindRec.cold with
    state := .halt, classes := ⟨false, false, false⟩, holdRun := 2, liveRun := 3, recent := [600, 0, 600], mean := 153600 }

theorem witness_WindRecordsStayLawful :
    ∃ t, (∀ c, ((yard.setWind 9 gale).windOf c).classesLawful) ∧ (∀ c, ((yard.setWind 9 gale).windOf c).rangesLawful) ∧
      step ⟨yard.setWind 9 gale, [.silenceTimerExpiry 9]⟩ = .next t := by
  refine ⟨_, ?_, ?_, rfl⟩
  · unfold WindRec.classesLawful; decide +kernel
  · unfold WindRec.rangesLawful; decide +kernel

/-- The permit of a parked crane whose brake is forced. -/
def forced : Permit :=
  ⟨255, .stop, .stop, .stop, .stop, true, true, .vane .forced, SailSet.empty, .good, none, [], [], [], []⟩

/-- Crane 0 parked in a wind state, holding both its JIB cells for its weathervane. -/
def clearOfJibs (x : WindState) : Device :=
  windIs 0 x ((stand 1 (.held 0 .weathervane none) [] (stand 0 (.held 0 .weathervane none) [] busy)).setReach 0
    (some ⟨⟨0, 0, 50, 0, 100⟩, 0, 0, ⟨0, 1, 50, 50⟩, ⟨0, 1, 50, 50⟩, []⟩))

theorem ready_clearOfJibs (x : WindState) : (clearOfJibs x).readyToVane 0 := by
  refine ⟨⟨_, rfl, (by decide : 50 ≤ mast.parkRadius), (by decide : mast.parkHeight ≤ 100)⟩, ?_⟩
  change ∀ k, (clearOfJibs .calm).hasJib 0 k = true → ((clearOfJibs .calm).cell k).standing.holder = some 0 ∧
    ((clearOfJibs .calm).cell k).standing.cls = some .weathervane
  decide +kernel

/-- The two cases of R94. -/
theorem witness_WeathervaneLawKept_released :
    ((clearOfJibs (.vane .forced)).windOf 0).state = .vane .forced ∧
      ((clearOfJibs (.vane .vaneFree)).windOf 0).state = .vane .vaneFree ∧ (clearOfJibs (.vane .vaneFree)).readyToVane 0 :=
  ⟨rfl, rfl, ready_clearOfJibs _⟩

theorem witness_WeathervaneLawKept :
    ∃ t, (yard.setPermit 9 (some forced)).permitsLawful ∧
      step ⟨yard.setPermit 9 (some forced), [.transmitComplete 9]⟩ = .next t := by
  have hp : ∀ c, (yard.setPermit 9 (some forced)).permitOf c = if c = 9 then some forced else none := by decide +kernel
  have hs : ∀ c, (yard.setPermit 9 (some forced)).port c = Port.reset := by decide +kernel
  refine ⟨_, fun c => ⟨fun p h => ?_, fun x h => ?_, fun x h => ?_⟩, rfl⟩
  · rw [hp] at h
    split at h
    · cases h
      exact fun _ => ⟨rfl, rfl, rfl, rfl, rfl, .inr rfl⟩
    · cases h
  all_goals
    rw [hs] at h
    cases h

/-- A port with its buffers full. -/
def fullPort : Port :=
  ⟨none, List.replicate 65 0x00, List.replicate 66 0x00, some (.permit forced), List.replicate 4 (.permit forced)⟩

theorem witness_LinkBuffersStayBounded :
    ∃ t, (∀ c, ((yard.setPort 9 fullPort).port c).lawful) ∧
      step ⟨yard.setPort 9 fullPort, [.transmitComplete 9]⟩ = .next t := by
  refine ⟨_, ?_, rfl⟩
  unfold Port.lawful
  decide +kernel

theorem witness_ClaimRecordsStayLawful :
    ∃ t, (∀ k, ((stand 47 (.held 0 .free none) [⟨1, .free⟩] yard).cell k).lawful) ∧
      step ⟨stand 47 (.held 0 .free none) [⟨1, .free⟩] yard, [.lingerExpiry 47]⟩ = .next t := by
  have h : ∀ k, (stand 47 (.held 0 .free none) [⟨1, .free⟩] yard).cell k =
      if k = 47 then ⟨.held 0 .free none, [⟨1, .free⟩], [], [], false, false⟩ else CellClaim.reset := by
    decide +kernel
  refine ⟨_, fun k => ?_, rfl⟩
  rw [h]
  split <;> simp [CellClaim.lawful, CellClaim.reset, Standing.holder]

theorem witness_BookingTableStaysLawful :
    ∃ t, ({ yard with bookings := [lift .opened 255], nextId := 65535 } : Device).tableLawful ∧
      step ⟨{ yard with bookings := [lift .opened 255], nextId := 65535 }, [.ppsPulse]⟩ = .next t := by
  refine ⟨_, ?_, rfl⟩
  simp only [Device.tableLawful, Machine.tableLawful, Booking.lawful]
  decide +kernel

theorem witness_CraneFrameTouchesOnlyItsCrane :
    ∃ t, (Instr.claim 9 true 255 255).craneFrame = some (9, true, .claim 255 255) ∧
      exec (.claim 9 true 255 255) ⟨yard, []⟩ = .next t :=
  ⟨_, rfl, rfl⟩

theorem witness_CraneFramesDecodeAsEncoded :
    (CraneFrame.report ⟨255, 65535, -128, 65535, 127, 65535, 255, 65535⟩).wf = true ∧ (CraneFrame.claim 255 255).wf = true ∧
      (CraneFrame.book ⟨1, 4294967295, 4294967295, 255, 255, List.replicate 48 255⟩).wf = true ∧
      4 < (encodeCraneFrame 9 true (.claim 255 255)).length - 1 := by
  decide +kernel

theorem witness_SupervisorFramesDecodeAsEncoded :
    ∃ l, (Instr.possession 255 255).wf = true ∧ encodeSupervisorFrame (.possession 255 255) = some l :=
  ⟨_, rfl, rfl⟩

theorem witness_LinkBytesDeliverTheFrame :
    (CraneFrame.hello 0xFFFFFFFF#32).wf = true ∧ yard.resetLow = false ∧ (yard.port 9).candidate = none ∧
      (yard.port 9).rescan = [] ∧ (yard.port 9).line = [] := by
  decide +kernel

theorem witness_TravelsRoundUp :
    (200 : Nat) ≤ 300 ∧ (127 : Int).natAbs ≤ 127 ∧ (-127 : Int).natAbs ≤ 127 ∧ (200 : Nat) ≤ 200 ∧ (300 : Nat) ≤ 300 ∧
      (-63 : Int).natAbs ≤ 63 ∧ (100 : Nat) ≤ 100 := by
  decide +kernel

theorem witness_RadialBandHoldsTheRadius :
    (⟨0, 0, 1000, -1, 0⟩ : Position).speed < 0 ∧ 0 ≤ (⟨0, 0, 1000, 0, 0⟩ : Position).speed ∧
      0 < (⟨0, 0, 1000, 1, 0⟩ : Position).speed ∧ (⟨0, 0, 1000, 0, 0⟩ : Position).speed ≤ 0 ∧
      (⟨0, 0, 1000, 0, 0⟩ : Position).radius ≤ 1000 ∧ (⟨0, 0, 100, 200, 0, 0⟩ : Footprint).kind = 0 ∧
      (⟨3599, 3600, 0, 0⟩ : Envelope).start = (⟨3599, 3600, 0, 1000⟩ : Envelope).start ∧
      (⟨3599, 3600, 0, 0⟩ : Envelope).span = (⟨3599, 3600, 0, 1000⟩ : Envelope).span := by
  decide +kernel

theorem witness_ArcsContainAndIntersect :
    (3599 : Nat) < 3600 ∧ (1 : Nat) ≤ 1 ∧ (3600 : Nat) ≤ 3600 ∧ (3599 : Nat) < 3600 ∧
      (⟨0, 0, 3599, 3600, 0, 0⟩ : Footprint).kind = 0 := by
  decide +kernel

theorem witness_ReadingBecomesSpeed :
    600 * 64 / 64 ≤ 600 ∧ 600 < 601 * 64 / 64 ∧ (600 : Nat) ≤ 600 ∧ (65534 : Nat) ≠ 65535 := by
  decide +kernel

theorem witness_GustIsRoundedMean : [600, 0, 600] ≠ ([] : List Nat) ∧ ∀ x ∈ [600, 0, 600], 0 ≤ x ∧ x ≤ 600 := by
  decide +kernel

/-- Crane 0 with a wind record. -/
def air (w : WindRec) : Device := busy.setWind 0 w

theorem witness_FlagsMeanAndLadderFollowSpeeds :
    (((153600 : Nat) ≤ 153600 ∧ (600 : Nat) ≤ 600 ∧ (1 : Nat) ≤ 1 ∧ (4095 : Nat) ≤ 4095) ∧ (0 : Nat) ≤ 256 * 0 ∧
      Site.defaults.vaneMean < reportedMean (handleSpeed Site.defaults 600 { WindRec.cold with mean := 153600 }).mean ∧
      reportedMean (handleSpeed Site.defaults 160 { WindRec.cold with mean := 40960 }).mean ≤
        Site.defaults.vaneMean - Site.defaults.hysteresis ∧
      reportedMean (handleSpeed Site.defaults 180 { WindRec.cold with mean := 46080 }).mean ≤ Site.defaults.vaneMean ∧
      Site.defaults.vaneMean - Site.defaults.hysteresis <
        reportedMean (handleSpeed Site.defaults 180 { WindRec.cold with mean := 46080 }).mean) ∧
      (Site.defaults.triggerN ≤ ((handleSpeed Site.defaults 101 { WindRec.cold with history := [101, 101] }).history.filter
          fun g => Site.defaults.gustL < g).length ∧
        (∀ g ∈ (handleSpeed Site.defaults 80 WindRec.cold).history, g ≤ Site.defaults.gustL - Site.defaults.hysteresis) ∧
        (∃ g ∈ (handleSpeed Site.defaults 81 WindRec.cold).history, Site.defaults.gustL - Site.defaults.hysteresis < g) ∧
        ((handleSpeed Site.defaults 101 { WindRec.cold with history := [101] }).history.filter
          fun g => Site.defaults.gustL < g).length < Site.defaults.triggerN ∧
        ({ WindRec.cold with history := List.replicate 29 0 } : WindRec).history.length < Site.defaults.windowT ∧
        ({ WindRec.cold with history := List.replicate 30 0 } : WindRec).history.length = Site.defaults.windowT) ∧
      (((air { WindRec.cold with flagVG := true }).windOf 0).flagVG = true ∧ ((air WindRec.cold).windOf 0).flagVG = false ∧
        ((air WindRec.cold).windOf 0).flagVM = false ∧ ((air { WindRec.cold with flagS := true }).windOf 0).flagS = true ∧
        (air WindRec.cold).source 0 = .link ∧ ((air WindRec.cold).windOf 0).channel ≠ .live ∧
        ((air { WindRec.cold with channel := .live }).windOf 0).channel = .live ∧
        ((air { WindRec.cold with channel := .live, flagM := true }).windOf 0).flagM = true ∧
        ((air { WindRec.cold with state := .vane .forced }).windOf 0).state.isVane = true ∧
        ((air WindRec.cold).windOf 0).state.isVane = false ∧ (air { WindRec.cold with channel := .live }).level 0 = .calm ∧
        (air { WindRec.cold with channel := .live, flagM := true }).level 0 = .watch ∧
        (air WindRec.cold).level 0 = .halt) := by
  decide +kernel

theorem witness_FirstUnmaskedRaiseCaptures :
    ((yard.raise .linkLost none none none).faultEntry .linkLost).pending = true ∧
      (yard.faultEntry .linkLost).pending = false ∧ FaultKind.planLoadFailed ≠ .linkLost ∧ yard.faults.pointer = none ∧
      (yard.faultEntry .linkLost).masked = false ∧ (yard.raise .linkLost none none none).faults.pointer ≠ none ∧
      (yard.faultEntry .takeupLapse).masked = true ∧ (yard.faultEntry .takeupLapse).pending = false := by
  decide +kernel

theorem takes_yard : (⟨yard, []⟩ : State).takesCommands := by
  unfold State.takesCommands; decide +kernel

theorem witness_ClearFaultsClearsNamedKinds :
    (⟨yard, []⟩ : State).takesCommands ∧ (8191#16).toNat < 8192 ∧ 8192 ≤ (8192#16).toNat ∧
      (4096#16).getLsbD FaultKind.planLoadFailed.ix = true ∧ (4096#16).getLsbD FaultKind.linkLost.ix = false ∧
      (yard.raise .planLoadFailed none none none).faults.pointer = some .planLoadFailed ∧
      (yard.raise .linkLost none none none).faults.pointer = some .linkLost ∧ yard.faults.pointer = none ∧
      (yard.faultEntry .linkLost).pending = false ∧ (yard.faultEntry .linkLost).masked = false ∧ (4096#16).toNat < 8192 :=
  ⟨takes_yard, by decide +kernel⟩

theorem witness_MasksAndSeveritiesAreSet :
    (⟨yard, []⟩ : State).takesCommands ∧ 1 ≤ 1 ∧ (8191#16).toNat < 8192 ∧ 8192 ≤ (8192#16).toNat ∧ 1 < 2 :=
  ⟨takes_yard, by decide +kernel⟩

/-- The part making a reply. -/
def serving (code : Byte) : Device := { yard with sup := .serving ⟨some code, .ok, []⟩ }

/-- The part with a reply that waits, four bytes long with its frame. -/
def waiting : Device := { yard with sup := .waiting ⟨some 0x50, .ok, []⟩ }

/-- A fault record whose context has every field, and one whose context has none. -/
def noted (crane cell booking siteTime : Option Nat) : Device :=
  { yard with faults :=
    { FaultUnit.cold with pointer := some .planLoadFailed, context := some ⟨.planLoadFailed, crane, cell, booking, siteTime⟩ } }

theorem witness_FaultRecordIsReadWhole :
    (yard.resetLow = false ∧ yard.sup = .idle ∧ (serving 0x50).resetLow = false ∧
      (serving 0x50).sup = .serving ⟨some 0x50, .ok, []⟩ ∧ (serving 0x51).sup = .serving ⟨some 0x51, .ok, []⟩ ∧
      ¬((some (0x51 : Byte)) = some 0x50 ∧ ReplyCode.ok = .ok)) ∧
      yard.faults.pointer = none ∧ yard.faults.context = none ∧
      (noted none none none none).faults.pointer = some .planLoadFailed ∧
      (noted none none none none).faults.context = some ⟨.planLoadFailed, none, none, none, none⟩ ∧
      (noted (some 9) (some 47) (some 65535) (some 4294967295)).faults.context =
        some ⟨.planLoadFailed, some 9, some 47, some 65535, some 4294967295⟩ := by
  decide +kernel

theorem witness_PortStatesDecideWhatIsServed :
    ∃ args, commandBytes (.possession 255 255) = some (0x08, args) ∧ yard.resetLow = false ∧
      (serving 0x50).sup = .serving ⟨some 0x50, .ok, []⟩ ∧ waiting.sup = .waiting ⟨some 0x50, .ok, []⟩ ∧
      yard.sup = .idle ∧ ({ yard with planState := .loading } : Device).planState = .loading ∧
      Instr.possession 255 255 ≠ .readFaults :=
  ⟨_, rfl, by decide +kernel⟩

theorem witness_ReadTransferTakesTheReply :
    let r : SupReply := ⟨some 0x50, .ok, []⟩
    waiting.resetLow = false ∧ waiting.sup = .waiting r ∧ r.bytes.length ≤ r.bytes.length ∧
      r.bytes.length - 1 < r.bytes.length ∧ yard.sup = .idle ∧ (serving 0x50).sup = .serving r := by
  decide +kernel

/-- The part in an edit session on that plan. -/
def edit : Device := { yard with planState := .editing }

theorem takes_edit : (⟨edit, []⟩ : State).takesCommands := by
  unfold State.takesCommands; decide +kernel

theorem takes_busy : (⟨busy, []⟩ : State).takesCommands := by
  unfold State.takesCommands; decide +kernel

theorem witness_PlanSessionsBeginEndAndErase :
    ((⟨edit, []⟩ : State).takesCommands ∧ (⟨yard, []⟩ : State).takesCommands ∧ (⟨busy, []⟩ : State).takesCommands) ∧
      edit.planState = .editing ∧ (∀ c, yard.membership c = .absent) ∧ yard.bookings = [] ∧ yard.planState ≠ .editing ∧
      (∃ c, busy.membership c ≠ .absent) ∧ ({ yard with bookings := [lift .opened 1] } : Device).bookings ≠ [] ∧
      validate edit.plan = none ∧
      validate { edit.plan with site := { Site.defaults with gustL := 59 } } = some ⟨1, .site⟩ :=
  ⟨⟨takes_edit, takes_yard, takes_busy⟩, by decide +kernel⟩

theorem witness_PlanPutsStoreCheckedRecords :
    ((⟨edit, []⟩ : State).takesCommands ∧ (⟨yard, []⟩ : State).takesCommands) ∧
      yard.planState ≠ .editing ∧ edit.planState = .editing ∧
      siteInRange { Site.defaults with tierFree := 4 } = false ∧ siteInRange { Site.defaults with gustL := 140 } = true ∧
      gustsAscend { Site.defaults with gustL := 140 } = false ∧ siteInRange Site.defaults = true ∧
      gustsAscend Site.defaults = true ∧ 10 ≤ 10 ∧ 1 < ({ mast with present := 2 } : Profile).present ∧
      ({ mast with jib := 99 } : Profile).present = 1 ∧ profileInRange { mast with jib := 99 } = false ∧
      profileInRange { mast with tw := 19 } = true ∧ ({ mast with tw := 19 } : Profile).tw < ({ mast with tw := 19 } : Profile).ts ∧
      Profile.defaults.present = 0 ∧ mast.present = 1 ∧ profileInRange mast = true ∧
      ({ mast with tw := 20 } : Profile).ts ≤ ({ mast with tw := 20 } : Profile).tw :=
  ⟨⟨takes_edit, takes_yard⟩, by decide +kernel⟩

/-- An edit session in which cell 0 is FIXED. -/
def editFixed : Device :=
  { edit with plan := { plan with cells := plan.cells.set 0 (some { sector 1 with fixed := 1 }) } }

theorem witness_CellPutsAndDropsFollowTheTable :
    ((⟨edit, []⟩ : State).takesCommands ∧ (⟨yard, []⟩ : State).takesCommands) ∧
      yard.planState ≠ .editing ∧ edit.planState = .editing ∧ 48 ≤ 48 ∧
      editFixed.cellRec 0 = some { sector 1 with fixed := 1 } ∧ ({ sector 1 with fixed := 1 } : CellRec).fixed = 1 ∧
      edit.cellRec 0 = some (sector 0) ∧ (sector 0).fixed ≠ 1 ∧
      cellCheck edit.plan true (fillOmitted { sector 0 with takeUp := 4 }) = some (5, none) ∧
      cellCheck edit.plan true (fillOmitted { sector 0 with takeUp := 255, linger := 255 }) = none ∧
      edit.cellRec 47 = none ∧ edit.cellRec 0 ≠ none :=
  ⟨⟨takes_edit, takes_yard⟩, by decide +kernel⟩

/-- The part with that plan ACTIVE under its own digest. -/
def yardSealed : Device := { yard with digest := crc32 (canonicalImage plan) }

theorem witness_ActivePlansAreValid :
    (∃ t, yardSealed.planLawful ∧ step ⟨yardSealed, [.planBegin]⟩ = .next t) ∧
      validate plan = none ∧ plan.cranes[(0 : CraneIx)].present = 1 ∧ plan.cells[(0 : CellIx)] = some (sector 0) ∧
      (⟨0, 0, 100, 200, 0, 0⟩ : Footprint) ∈ (sector 0).footprints := by
  have hy : ∀ c, yard.crane c = ⟨.absent, .good, 0, 0, false, none, none, none⟩ := by decide +kernel
  have hd : ∀ (d : Device) (x : BitVec 32) (c : CraneIx), ({ d with digest := x } : Device).crane c = d.crane c :=
    fun _ _ _ => rfl
  have h : ∀ c, yardSealed.crane c = ⟨.absent, .good, 0, 0, false, none, none, none⟩ := fun c => by
    rw [yardSealed, hd, hy]
  refine ⟨⟨_, ⟨fun _ => ⟨?_, rfl⟩, fun h => absurd rfl h, fun h => absurd rfl h, fun c _ => h c⟩, rfl⟩, by decide +kernel⟩
  change validate plan = none
  decide +kernel

theorem witness_PossessionFollowsTheTable :
    (⟨yard, []⟩ : State).takesCommands ∧ 48 ≤ 48 ∧ 1 < 2 ∧ (0 : CellIx).val = 0 ∧ 1 ≤ 1 ∧
      edit.planState ≠ .active ∧ yard.cellRec 47 = none ∧ yard.cellRec 0 = some (sector 0) ∧ (sector 0).kind ≠ 1 ∧
      yard.planState = .active ∧ yard.cellRec 1 = some (sector 1) ∧ (sector 1).kind = 1 :=
  ⟨takes_yard, by decide +kernel⟩

/-- Two bookings in table order. -/
def two : Device := { busy with bookings := [lift .opened 2, { lift .pending 1 with id := 65535, reservedStart := 901 }] }

theorem takes_two : (⟨two, []⟩ : State).takesCommands := by
  unfold State.takesCommands; decide +kernel

theorem witness_ReadingCommandsAnswerTheRecord :
    (((⟨yard, []⟩ : State).takesCommands ∧ (⟨two, []⟩ : State).takesCommands) ∧
      10 ≤ 10 ∧ 48 ≤ 48 ∧ 3 < 4 ∧ two.booking 7 = some (lift .opened 2) ∧ two.booking 1 = none ∧ 1 ≤ 1 ∧
      two.bookings = lift .opened 2 :: [{ lift .pending 1 with id := 65535, reservedStart := 901 }] ∧
      yard.bookings = [] ∧ 1 ≤ (lift .opened 2).id ∧
      two.bookings = [] ++ lift .opened 2 :: { lift .pending 1 with id := 65535, reservedStart := 901 } :: [] ∧
      two.bookings = [lift .opened 2] ++ [{ lift .pending 1 with id := 65535, reservedStart := 901 }] ∧
      ∀ y ∈ [lift .opened 2], y.id ≠ 65535) ∧
      (lift .opened 2).path.length ≤ 8 ∧ (lift .opened 2).window = some (900, 2000) ∧
      ({ lift .chained 1 with window := none } : Booking).window = none ∧
      ({ lift .chained 1 with path := List.replicate 8 47 } : Booking).path.length ≤ 8 ∧
      (yard.cell 47).standing = .free ∧ ((stand 47 (.granted 9 .booked 65535) [] yard).cell 47).standing = .granted 9 .booked 65535 ∧
      ((stand 47 (.held 9 .lost none) [] yard).cell 47).standing = .held 9 .lost none ∧
      ((stand 47 (.held 9 .free (some 0)) [] yard).cell 47).standing = .held 9 .free (some 0) ∧
      ((stand 47 (.draining 9 .emergency) [] yard).cell 47).standing = .draining 9 .emergency :=
  ⟨⟨⟨takes_yard, takes_two⟩, by decide +kernel⟩, by decide +kernel⟩

/-- A load whose next group is given, with that plan staged. -/
def load (g : LoadGroup) : Load := ⟨g, some 1, 0, plan, 300⟩

/-- Four bytes that spell a digest. -/
theorem trailer_of (x : BitVec 32) : ∃ l : List Byte, l.length = 4 ∧ x = BitVec.ofNat 32 (beNat l) := by
  refine ⟨beBytes 4 x.toNat, by simp, BitVec.eq_of_toNat_eq ?_⟩
  have h := x.isLt
  rw [beBytes_four]
  simp [beNat]
  omega

/-- Four bytes that do not. -/
theorem other_trailer (x : BitVec 32) : ∃ l : List Byte, l.length = 4 ∧ x ≠ BitVec.ofNat 32 (beNat l) := by
  obtain ⟨l, hl, h⟩ := trailer_of (x + 1#32)
  refine ⟨l, hl, ?_⟩
  rw [← h]
  bv_omega

theorem witness_AutoloadEndsActiveOrEmpty :
    (({ yard with load := some (load .header) } : Device).resetLow = false ∧
      ({ yard with load := some (load .header) } : Device).load = some (load .header) ∧ (load .header).group = .header ∧
      1 ≤ (1 : Byte).toNat ∧ (3 : Byte).toNat ≤ 3 ∧ (load .site).group = .site ∧ (load .site).selector = some 1 ∧
      (List.replicate 27 (0 : Byte)).length = 27 ∧ (load .cranes).group = .cranes ∧
      (load .header).remaining ≠ 0 ∧ ({ load .header with remaining := 0 } : Load).remaining = 0 ∧
      (List.replicate 190 (0 : Byte)).length = 190 ∧ (load .cells).group = .cells ∧
      readCellGroup [0] = .cells [] 1 ∧ (load .trailer).group = .trailer ∧ validate (load .trailer).staging = none ∧
      yard.load = none ∧ ¬((0xC3 : Byte) = 0xC3 ∧ (0xA8 : Byte) = 0xA9) ∧ 4 ≤ (4 : Byte).toNat ∧
      readCellGroup [49] = .bad ∧
      validate { plan with site := { Site.defaults with gustL := 59 } } = some ⟨1, .site⟩) ∧
      (∃ l : List Byte, l.length = 4 ∧ planDigest plan = BitVec.ofNat 32 (beNat l)) ∧
      ∃ l : List Byte, l.length = 4 ∧ planDigest plan ≠ BitVec.ofNat 32 (beNat l) :=
  ⟨by decide +kernel, trailer_of _, other_trailer _⟩

theorem witness_FramesAreQueuedAndLaidOut :
    ((yard.port 9).sending = none ∧ ((yard.setPort 9 { fullPort with queue := [] }).port 9).sending ≠ none ∧
      ((yard.setPort 9 { fullPort with queue := List.replicate 3 (.permit forced) }).port 9).queue.length < 4 ∧
      4 ≤ ((yard.setPort 9 fullPort).port 9).queue.length ∧ (yard.setPort 9 fullPort).resetLow = false ∧
      ((yard.setPort 9 fullPort).port 9).sending = some (.permit forced) ∧
      ((yard.setPort 9 fullPort).port 9).queue = .permit forced :: List.replicate 3 (.permit forced) ∧
      ((yard.setPort 9 { fullPort with queue := [] }).port 9).queue = []) ∧
      forced.booking = none ∧ ({ forced with booking := some (65535, .chained) } : Permit).booking = some (65535, .chained) ∧
      (⟨0x0B, .ok, .none, none⟩ : Reply).record = none ∧
      (⟨0x0C, .ok, .none, some ⟨6, 65535, 0, 1, List.replicate 52 0⟩⟩ : Reply).record =
        some ⟨6, 65535, 0, 1, List.replicate 52 0⟩ ∧ (List.replicate 52 (0 : Byte)).length ≤ 52 := by
  decide +kernel

theorem witness_ReceiverHuntsAndCountsErrors :
    (yard.resetLow = false ∧ (yard.port 9).rescan = [] ∧ (yard.port 9).line = [] ∧ (yard.port 9).candidate = none) ∧
      (0xA5 : Byte) ≠ 0xA6 ∧
      ((yard.setPort 9 { Port.reset with candidate := some [] }).port 9).candidate = some [] ∧
      candidateDone ([] ++ [0x09]) = false ∧
      ((yard.setPort 9 { Port.reset with candidate := some [0x09, 0x04, 0x00, 0x00] }).port 9).candidate =
        some [0x09, 0x04, 0x00, 0x00] ∧
      candidateDone ([0x09, 0x04, 0x00, 0x00] ++ [0x00]) = true ∧
      candidateGood ([0x09, 0x04, 0x00, 0x00] ++ [0x00]) = false ∧ busy.membership 0 ≠ .absent ∧
      busy.membership 9 = .absent ∧
      ((yard.setPort 9 { Port.reset with line := List.replicate 65 0 }).port 9).line.length < 66 ∧
      66 ≤ ((yard.setPort 9 fullPort).port 9).line.length ∧
      (Port.hunt 200 fullPort).1.line ≠ fullPort.line ∧
      3600 ≤ (⟨0, 3600, 0, 0, 0, 0, 0, 0⟩ : Report).slew ∧ 1 < (⟨2, 0, 0, 0, 1, []⟩ : BookReq).form ∧ (8 : CraneIx) ≠ 9 := by
  decide +kernel

theorem hears_busy : (⟨busy, []⟩ : State).hears 0 true := by
  unfold State.hears; decide +kernel

theorem witness_HelloJoinsOrIsRefused :
    (⟨busy, []⟩ : State).hears 0 true ∧ yard.resetLow = false ∧ yard.membership 0 = .absent ∧ edit.planState ≠ .active ∧
      yard.planState = .active ∧ (yard.profile 9).present ≠ 1 ∧ (yard.profile 0).present = 1 ∧
      1#32 ≠ yard.digest ∧ 0#32 = yard.digest ∧ (join .joining 0 yard).membership 0 = .joining ∧
      (join .lost 0 yard).membership 0 = .lost :=
  ⟨hears_busy, by decide +kernel⟩

/-- Two bookings of crane 0, the later one in a cycle. -/
def cycling : Device := { busy with bookings := [lift .opened 2, { lift .lifting 1 with id := 65535, reservedStart := 901 }] }

theorem witness_ReportIsAnsweredByAPermit :
    ((⟨busy, []⟩ : State).hears 0 true ∧ busy.resetLow = false ∧
      (⟨255, 3599, -128, 65535, 127, 65535, 255, 65535⟩ : Report).slew < 3600 ∧
      ((join .joining 0 yard).crane 0).membership = .joining ∧ ((join .lost 0 yard).crane 0).membership = .lost ∧
      (yard.crane 9).membership = .absent) ∧
      (∃ e ∈ (reachRecord busy 0 ⟨255, 3599, -128, 500, 127, 65535, 255, 65535⟩).entries, e.now ≠ .inside) ∧
      (∃ e ∈ (reachRecord busy 0 ⟨255, 150, 0, 500, 0, 0, 255, 65535⟩).entries, e.now = .inside) ∧
      cycling.bookings = [lift .opened 2] ++ { lift .lifting 1 with id := 65535, reservedStart := 901 } :: [] ∧
      (lift .lifting 1).crane = 0 ∧ (lift .lifting 1).state = .lifting ∧
      (∀ x ∈ [lift .opened 2], ¬(x.crane = 0 ∧ (x.state = .lifting ∨ x.state = .holdLower))) ∧
      two.bookings = [] ++ lift .opened 2 :: [{ lift .pending 1 with id := 65535, reservedStart := 901 }] ∧
      (∀ x ∈ two.bookings, ¬(x.crane = 0 ∧ (x.state = .lifting ∨ x.state = .holdLower))) ∧
      ∀ x ∈ busy.bookings, x.crane ≠ 0 :=
  ⟨⟨hears_busy, by decide +kernel⟩, by decide +kernel⟩

/-- A crane ADMITTED whose last frame carried the restart flag and whose link timer has run out, holding cell 1 as a
grant, with a footprint in cell 0. -/
def streaky : Device :=
  stand 1 (.granted 0 .free 1) [] (yard.setCrane 0 ⟨.admitted, .good, 0, 0, true, none, some 0, some 500⟩)

/-- Crane 0, NEAR cell 0, back with the cell HELD at class LOST, under a wind state, a queue and bookings. -/
def back (x : WindState) (q : List Waiter) (l : List Booking) : Device :=
  { windIs 0 x (place 0 0 .near (cellIn (.held 0 .lost none) q)) with bookings := l }

/-- A booking of crane 1 in force on cell 0. -/
def rival : Booking := { lift .opened 1 with crane := 1 }

theorem witness_LossAndReturnConvertClaims :
    ((∃ f : CraneFrame, Instr.resume 0 true = f.instr 0 true ∧ (∀ r, f = .report r → r.slew < 3600) ∧
      ∀ b, f = .book b → b.form ≤ 1) ∧
      streaky.resetLow = false ∧ (streaky.crane 0).link = some 0 ∧ streaky.membership 0 = .admitted ∧
      (streaky.crane 0).streak = true ∧ (streaky.cell 1).standing.holder = some 0 ∧
      (streaky.cell 0).standing.holder ≠ some 0 ∧ streaky.footprint 0 0 ≠ none) ∧
      (((cellIn (.held 0 .lost none) []).cell 0).standing.holder = some 0 ∧
        (cellIn (.held 0 .lost none) []).relation 0 0 = .outside) ∧
      (((back .calm [] []).cell 0).standing = .held 0 .lost none ∧ (back .calm [] []).relation 0 0 ≠ .outside ∧
        ((back (.vane .clearing) [] []).windOf 0).state.isVane = true ∧ (back (.vane .clearing) [] []).hasJib 0 0 = true ∧
        ((back .calm [] []).windOf 0).state.isVane = false ∧ (back .calm [] [lift .lifting 1]).liftsOver 0 0 ∧
        ¬(back .calm [] []).liftsOver 0 0 ∧ ((back .calm [] []).cell 0).queue = [] ∧ ¬(back .calm [] []).barred 0 0 .free ∧
        (back .calm [] [rival]).barred 0 0 .free ∧ ¬(back .calm [] [rival]).liftsOver 0 0 ∧
        ((back .calm [⟨1, .booked⟩] []).cell 0).queue = ⟨1, .booked⟩ :: [] ∧ busy.tier .booked < busy.tier .free) ∧
      (((cellIn (.held 1 .free none) [⟨0, .lost⟩]).cell 0).queue = [⟨0, .lost⟩] ∧ (1 : CraneIx) ≠ 0 ∧
        ((cellIn (.held 1 .free none) [⟨0, .lost⟩]).cell 0).standing = .held 1 .free none ∧
        ((cellIn (.draining 1 .free) [⟨0, .lost⟩]).cell 0).standing = .draining 1 .free ∧
        (place 1 0 .near (cellIn (.draining 1 .free) [⟨0, .lost⟩])).relation 1 0 ≠ .outside ∧
        ¬(place 1 0 .near (cellIn (.draining 1 .free) [⟨0, .lost⟩])).barred 1 0 .free) ∧
      (busy.cell 0).standing.holder ≠ some 0 ∧ ∀ w ∈ (busy.cell 0).queue, w.crane = 0 → w.cls ≠ .lost := by
  refine ⟨⟨⟨.resume, rfl, by simp, by simp⟩, by decide +kernel⟩, ?_⟩
  unfold Device.liftsOver Device.barred
  and_intros <;> decide +kernel

/-- Crane records at the bounds of the quality rule: degrade count 5, clear count 1. -/
def judged (q : Quality) (n : Nat) : Device := yard.setCrane 0 ⟨.admitted, q, n, 0, false, some 0, none, some 0⟩

theorem witness_RosterTimersExpire :
    yard.resetLow = false ∧ ((judged .good 5).crane 0).joinWait = some 0 ∧ (yard.crane 9).joinWait ≠ some 0 ∧
      (busy.crane 0).link ≠ some 0 ∧ (busy.crane 0).qualityTimer ≠ some 0 ∧
      ((judged .good 5).crane 0).qualityTimer = some 0 ∧
      yard.plan.site.degradeCount ≤ ((judged .good 5).crane 0).errored ∧ ((judged .good 5).crane 0).quality = .good ∧
      ((judged .degraded 5).crane 0).quality = .degraded ∧
      ((judged .degraded 1).crane 0).errored < yard.plan.site.degradeCount ∧
      ((judged .degraded 1).crane 0).errored ≤ yard.plan.site.clearCount ∧
      ((judged .degraded 4).crane 0).errored < yard.plan.site.degradeCount ∧
      yard.plan.site.clearCount < ((judged .degraded 2).crane 0).errored := by
  decide +kernel

theorem witness_LeaveFollowsTheTable :
    (⟨busy, []⟩ : State).hears 0 true ∧ (∀ k, (busy.cell k).standing.holder ≠ some 0) ∧
      (∀ b ∈ busy.bookings, b.crane = 0 → b.state ≠ .lifting ∧ b.state ≠ .holdLower) ∧
      (∃ k, ((stand 47 (.granted 0 .free 1) [] busy).cell k).standing.holder = some 0) ∧
      (∃ b ∈ ({ busy with bookings := [lift .holdLower 1] } : Device).bookings, b.crane = 0 ∧
        (b.state = .lifting ∨ b.state = .holdLower)) ∧
      (∀ k, (busy.cell k).standing.holder ≠ some 0 ∧ 0 ∉ (busy.cell k).intruders) ∧
      yard.membership 0 = .absent ∧ (join .joining 0 yard).membership 0 = .joining ∧
      (join .lost 0 yard).membership 0 = .lost :=
  ⟨hears_busy, by decide +kernel⟩

theorem witness_DetachRemovesTheCrane :
    (⟨busy, []⟩ : State).takesCommands ∧ 10 ≤ 10 ∧ busy.membership 9 = .absent ∧ busy.membership 0 ≠ .absent ∧
      ∀ k, (busy.cell k).lawful ∧ 0 ∉ (busy.cell k).intruders := by
  have h : ∀ k, busy.cell k = CellClaim.reset := by decide +kernel
  refine ⟨takes_busy, by decide, by decide +kernel, by decide +kernel, fun k => ?_⟩
  rw [h]
  simp [CellClaim.lawful, CellClaim.reset, Standing.holder]

theorem hears_cellIn (x : Standing) (q : List Waiter) : (⟨cellIn x q, []⟩ : State).hears 0 true := ⟨rfl, rfl, rfl⟩

theorem witness_RefusedClaimsChangeNothing :
    (⟨busy, []⟩ : State).hears 0 true ∧ yard.resetLow = false ∧ yard.membership 0 ≠ .admitted ∧ 48 ≤ 48 ∧
      (3 : Nat) ≠ 2 ∧ (3 : Nat) ≠ 4 ∧ (47 : CellIx).val = 47 ∧ 4 = ClaimClass.free.code ∧ 2 = ClaimClass.emergency.code ∧
      busy.footprint 0 47 = none ∧ busy.footprint 0 1 ≠ none ∧ busy.protectedCell 1 = true ∧ busy.tier .emergency ≠ 0 ∧
      busy.footprint 0 0 ≠ none ∧ busy.protectedCell 0 = false ∧
      ({ busy with bookings := [{ lift .opened 1 with crane := 1 }] } : Device).reservedAgainst 0 0 = true ∧
      busy.tier .booked < busy.tier .free :=
  ⟨hears_busy, by decide +kernel⟩

/-- Crane 1, NEAR cell 0, with the cell in a standing and a queue. -/
def other (x : Standing) (q : List Waiter) : Device := place 1 0 .near (cellIn x q)

/-- Crane 0 with auto-claims on, and a plan in which EMERGENCY and FREE have one tier. -/
def autoYard (x : Standing) : Device :=
  { cellIn x [] with plan := { plan with
    site := { Site.defaults with tierEmergency := 3 }, cranes := plan.cranes.set 0 { mast with autoClaim := 1 } } }

theorem witness_ClaimIsGrantedOrWaits :
    ((⟨busy, []⟩ : State).hears 0 true ∧ busy.footprint 0 0 ≠ none ∧ busy.protectedCell 0 = false ∧
      ¬(busy.reservedAgainst 0 0 = true ∧ busy.tier .booked < busy.tier .free) ∧ busy.tier .free ≠ 0 ∧
      busy.tier .emergency ≠ 0 ∧ (busy.cell 0).standing = .free ∧ (busy.cell 0).queue = []) ∧
      ((⟨other (.held 1 .booked none) [], []⟩ : State).hears 0 true ∧
        ((other (.held 1 .booked none) []).cell 0).standing = .held 1 .booked none ∧ (1 : CraneIx) ≠ 0 ∧
        ((other (.held 1 .booked none) []).cell 0).queue = [] ∧ (other (.held 1 .booked none) []).relation 1 0 ≠ .outside ∧
        ¬((other (.held 1 .booked none) []).reservedAgainst 1 0 = true ∧ busy.tier .booked < busy.tier .booked) ∧
        busy.tier .emergency < busy.tier .booked ∧ busy.tier .booked ≤ busy.tier .free) ∧
      (((⟨cellIn (.granted 0 .free 1) [], []⟩ : State).hears 0 true ∧
          (⟨autoYard (.granted 0 .free 1), []⟩ : State).hears 0 true) ∧
        ¬busy.barred 0 0 .emergency ∧ busy.tier .emergency < busy.tier .free ∧
        (autoYard .free).tier .emergency = (autoYard .free).tier .free ∧
        ((cellIn (.granted 0 .free 1) []).cell 0).standing = .granted 0 .free 1 ∧
        ((cellIn (.granted 0 .free 1) []).cell 0).queue = [] ∧
        ((place 0 0 .near (cellIn (.held 0 .free none) [])).cell 0).standing = .held 0 .free none ∧
        (place 0 0 .near (cellIn (.held 0 .free none) [])).relation 0 0 ≠ .outside ∧
        ((other (.held 1 .booked none) [⟨0, .free⟩]).cell 0).queue = [⟨0, .free⟩] ∧
        ((other (.held 1 .booked none) [⟨0, .free⟩]).cell 0).standing = .held 1 .booked none ∧
        ¬(other (.held 1 .booked none) [⟨0, .free⟩]).barred 1 0 .booked ∧
        ((cellIn (.granted 1 .free 1) []).cell 0).standing = .granted 1 .free 1 ∧
        ¬(cellIn (.granted 1 .free 1) []).barred 1 0 .free ∧ busy.tier .free ≤ busy.tier .free) ∧
      (((autoYard .free).profile 0).autoClaim = 1 ∧ (∃ r, (autoYard .free).cellRec 0 = some r ∧ r.kind = 0) ∧
        ((autoYard .free).cell 0).standing.holder ≠ some 0 ∧ (∀ w ∈ ((autoYard .free).cell 0).queue, w.crane ≠ 0) ∧
        0 ∉ ((autoYard .free).cell 0).inhibit ∧ ¬(autoYard .free).liftsOver 0 0 ∧
        ({ autoYard .free with bookings := [lift .holdLower 1] } : Device).liftsOver 0 0 ∧
        ¬(autoYard .free).barred 0 0 .free ∧ ((autoYard .free).cell 0).standing = .free ∧
        ((autoYard .free).cell 0).queue = [] ∧ (busy.profile 0).autoClaim ≠ 1) := by
  refine ⟨⟨hears_busy, by decide +kernel⟩, ⟨⟨rfl, rfl, rfl⟩, by decide +kernel⟩, ⟨⟨⟨rfl, rfl, rfl⟩, ⟨rfl, rfl, rfl⟩⟩, ?_⟩, ?_⟩
  · unfold Device.barred; and_intros <;> decide +kernel
  · refine ⟨by decide +kernel, ⟨sector 0, rfl, rfl⟩, ?_⟩
    unfold Device.liftsOver Device.barred
    and_intros <;> decide +kernel

/-- Cell 0 given on: to a waiter, or to an intruder that stands INSIDE. -/
def intruded : Device := (place 1 0 .inside busy).setCell 0 { CellClaim.reset with standing := .held 0 .free (some 0), intruders := [1], intruded := true }

theorem witness_ReleaseGivesUpTheStanding :
    ((⟨busy, []⟩ : State).hears 0 true ∧ (⟨cellIn (.held 0 .free none) [], []⟩ : State).hears 0 true ∧
      (⟨cellIn (.draining 1 .booked) [⟨0, .free⟩], []⟩ : State).hears 0 true) ∧
      yard.membership 0 ≠ .admitted ∧ 48 ≤ 48 ∧ (busy.cell 0).standing.holder ≠ some 0 ∧
      (∀ w ∈ (busy.cell 0).queue, w.crane ≠ 0) ∧
      ((cellIn (.held 0 .lost none) []).cell 0).standing.cls = some .lost ∧
      ((cellIn (.held 0 .free none) []).cell 0).standing.holder = some 0 ∧
      ((cellIn (.held 0 .free none) []).cell 0).standing.cls = some .free ∧
      (place 0 0 .inside (cellIn (.held 0 .free none) [])).relation 0 0 = .inside ∧
      (cellIn (.held 0 .free none) []).relation 0 0 ≠ .inside ∧
      ((cellIn (.held 0 .free none) [⟨1, .booked⟩]).cell 0).queue = [⟨1, .booked⟩] ∧ busy.tier .booked ≠ 0 ∧
      ¬(busy.reservedAgainst 1 0 = true ∧ busy.tier .booked < busy.tier .booked) ∧
      (intruded.cell 0).intruders = 1 :: [] ∧ freePasses intruded 1 0 = true ∧ intruded.relation 1 0 = .inside ∧
      ((cellIn (.draining 1 .booked) [⟨0, .free⟩]).cell 0).queue = [⟨0, .free⟩] ∧ (1 : CraneIx) ≠ 0 ∧
      ((cellIn (.draining 1 .booked) [⟨0, .free⟩]).cell 0).standing = .draining 1 .booked ∧
      ((cellIn (.held 1 .booked none) [⟨0, .booked⟩]).cell 0).standing = .held 1 .booked none ∧
      (place 1 0 .near (cellIn (.draining 1 .booked) [⟨0, .free⟩])).relation 1 0 ≠ .outside ∧
      ¬(busy.reservedAgainst 1 0 = true ∧ busy.tier .booked < busy.tier .booked) :=
  ⟨⟨hears_busy, hears_cellIn _ _, hears_cellIn _ _⟩, by decide +kernel⟩

/-- A relation entry of cell 0. -/
def entry (x : Relation) : RelEntry := ⟨0, x, none, none, none, none, none⟩

theorem witness_ReportsAndTimersMoveTheCell :
    (busy.resetLow = false ∧ ((cellIn (.granted 0 .free 0) []).cell 0).standing = .granted 0 .free 0 ∧
      ((cellIn (.held 0 .free (some 0)) []).cell 0).standing = .held 0 .free (some 0) ∧
      (busy.cell 47).standing = .free ∧ (intruded.cell 0).standing = .held 0 .free (some 0) ∧
      (intruded.cell 0).intruders = 1 :: [] ∧ freePasses intruded 1 0 = true ∧ intruded.relation 1 0 = .inside) ∧
      ((entry .inside).now = .inside ∧ (entry .near).now ≠ .inside ∧ (entry .outside).now = .outside ∧
        ((cellIn (.granted 0 .booked 1) []).cell 0).standing = .granted 0 .booked 1 ∧
        ((cellIn (.held 0 .free (some 5)) []).cell 0).standing = .held 0 .free (some 5)) ∧
      ((cellIn (.held 0 .free (some 5)) []).relation 0 0 = .outside ∧ ¬(cellIn (.held 0 .free (some 5)) []).barred 0 0 .free ∧
        (∀ w ∈ ((cellIn (.held 0 .free (some 5)) []).cell 0).queue.head?, busy.tier .free ≤ busy.tier w.cls) ∧
        ({ cellIn (.held 0 .booked none) [] with bookings := [lift .lifting 1] } : Device).liftsOver 0 0 ∧
        ((cellIn (.held 0 .free none) []).cell 0).standing = .held 0 .free none ∧
        (cellIn (.held 0 .free none) []).lingerTicks 0 ≠ 0 ∧ (stand 47 (.held 0 .free none) [] busy).lingerTicks 47 = 0 ∧
        ((stand 47 (.held 0 .free none) [] busy).cell 47).standing = .held 0 .free none) ∧
      ((cellIn (.draining 0 .free) [⟨1, .booked⟩]).cell 0).standing = .draining 0 .free ∧
      ((intruded.cell 0).standing.holder ≠ some 1 ∧ 1 ∈ (intruded.cell 0).intruders ∧ 0 ∉ (busy.cell 0).intruders ∧
        (busy.cell 0).standing = .free ∧ freePasses busy 0 0 = true ∧ (busy.cell 0).queue = [] ∧
        (place 0 0 .inside busy).relation 0 0 = .inside ∧ (busy.cell 0).standing.holder ≠ some 0 ∧
        ((cellIn (.held 1 .free none) []).cell 0).standing ≠ .free) := by
  unfold Device.barred Device.liftsOver
  and_intros <;> decide +kernel

/-- A window request for cell 0, ten seconds ahead, of the shortest length. -/
def request60 : BookReq := ⟨0, 1010, 1070, 2, 255, [0]⟩

/-- A request behind booking 7, of the greatest length. -/
def behind7 : BookReq := ⟨1, 7, 14400, 0, 1, [0]⟩

/-- Booking 7 still to begin. -/
def ahead : Device := { busy with bookings := [{ lift .pending 1 with window := some (1001, 2000), reservedStart := 1001 }], nextId := 65535 }

theorem witness_BookInsertsARecord :
    ((⟨busy, []⟩ : State).hears 0 true ∧ (⟨ahead, []⟩ : State).hears 0 true ∧ (⟨busy, []⟩ : State).takesCommands ∧
      (⟨ahead, []⟩ : State).takesCommands) ∧
      nothingDue 1000 busy.bookings ∧ nothingDue 1000 ahead.bookings ∧
      sail? request60.sail = some .s ∧ sail? behind7.sail = some .l ∧ 1 ≤ behind7.cycles ∧ request60.cycles ≤ 255 ∧
      busy.clock.siteTime = some 1000 ∧ request60.path = [(0 : CellIx)].map (fun k => k.val) ∧
      behind7.path = [(0 : CellIx)].map (fun k => k.val) ∧ [(0 : CellIx)].length ≤ 8 ∧ [(0 : CellIx)].Nodup ∧
      (∀ k ∈ [(0 : CellIx)], busy.footprint 0 k ≠ none) ∧ ahead.bookings.length < 64 ∧ request60.form = 0 ∧
      request60.first < request60.second ∧ 60 ≤ request60.second - request60.first ∧
      request60.second - request60.first ≤ 14400 ∧ 1000 < request60.first ∧
      (∀ x ∈ busy.bookings, overlap request60.first request60.second x.reservedStart x.reservedEnd = true →
        x.crane ≠ 0 ∧ ∀ k ∈ [(0 : CellIx)], k ∉ x.path) ∧
      ({ request60 with first := 1000, second := 1060 } : BookReq).first ≤ 1000 ∧ 1000 < 1060 ∧ 60 ≤ 1060 - 1000 ∧
      (behind7.form = 1 ∧ (∃ p, ahead.booking behind7.first = some p ∧ p.crane = 0 ∧ p.succ = none ∧
        60 ≤ behind7.second ∧ behind7.second ≤ 14400 ∧ 1000 < p.reservedEnd + behind7.second ∧
        ∀ x ∈ ahead.bookings, conflictsWith 0 p.reservedStart (p.reservedEnd + behind7.second) [0]
          (chainBack (ahead.bookings.length + 1) ahead.bookings p.id) x = false)) ∧
      busy.planState = .active ∧ (busy.profile 0).present = 1 := by
  refine ⟨⟨hears_busy, ⟨rfl, rfl, rfl⟩, takes_busy, ?_⟩, ?_, ?_, ?_⟩
  · unfold State.takesCommands; decide +kernel
  · intro b h; cases h
  · intro b h
    cases List.mem_singleton.1 h
    exact ⟨by decide, fun e h => by cases h; decide, fun _ x h => by cases h; decide⟩
  · repeat' apply And.intro
    all_goals decide +kernel

theorem witness_RefusedBookChangesNothing :
    ((⟨busy, []⟩ : State).delivers 0 true ∧ (⟨yard, []⟩ : State).delivers 0 true ∧ (⟨edit, []⟩ : State).takesCommands ∧
      (⟨yard, []⟩ : State).takesCommands) ∧
      request60.form ≤ 1 ∧ edit.planState ≠ .active ∧ yard.planState = .active ∧ 10 ≤ 10 ∧ 2 < 3 ∧ 255 < 256 ∧
      request60.sail ≤ 2 ∧ 1 ≤ request60.cycles ∧ request60.cycles ≤ 255 ∧
      ({ yard with clock := Clock.cold } : Device).clock.siteTime = none ∧ yard.clock.siteTime ≠ none ∧
      yard.membership 0 ≠ .admitted ∧ busy.membership 0 = .admitted ∧ (yard.profile 9).present ≠ 1 ∧
      (yard.profile 0).present = 1 ∧ judgeBook busy 0 { request60 with second := 1069 } = .error .badWindow ∧
      1010 ≤ 1010 ∧ 1069 - 1010 < 60 ∧ 14400 < 15411 - 1010 ∧ 1000 ≤ 1000 ∧ 59 < 60 ∧ 14400 < 14401 ∧
      badWindow busy request60 = false ∧ ({ request60 with path := [] } : BookReq).path = [] ∧
      8 < (List.replicate 9 0).length ∧ ¬[0, 0].Nodup ∧ 48 ∈ [48] ∧ (47 : CellIx).val ∈ [47] ∧
      busy.footprint 0 47 = none ∧ request60.path = [(0 : CellIx)].map (fun k => k.val) ∧
      pathValid busy 0 [0] = true ∧ behind7.form = 1 ∧ badWindow busy behind7 = false ∧ busy.booking behind7.first = none ∧
      (∃ x ∈ two.bookings, overlap request60.first request60.second x.reservedStart x.reservedEnd = true ∧ x.crane = 0) ∧
      64 ≤ (List.replicate 64 { lift .opened 1 with crane := 1, path := [1], reservedEnd := 1010 }).length ∧
      ∀ x ∈ List.replicate 64 { lift .opened 1 with crane := 1, path := [1], reservedEnd := 1010 },
        overlap request60.first request60.second x.reservedStart x.reservedEnd = true → x.crane ≠ 0 ∧
          ∀ k ∈ [(0 : CellIx)], k ∉ x.path := by
  refine ⟨⟨?_, ?_, takes_edit, takes_yard⟩, ?_⟩
  · unfold State.delivers; decide +kernel
  · unfold State.delivers; decide +kernel
  · repeat' apply And.intro
    all_goals first | decide +kernel | rfl

theorem hears_two : (⟨two, []⟩ : State).hears 0 true := by
  unfold State.hears; decide +kernel

theorem witness_CancelledBookingsLeaveTheTable :
    ((⟨two, []⟩ : State).hears 0 true ∧ (⟨two, []⟩ : State).takesCommands) ∧ yard.membership 0 ≠ .admitted ∧
      two.booking 1 = none ∧ two.booking 7 = some (lift .opened 2) ∧
      ({ busy with bookings := [{ lift .opened 1 with crane := 1 }] } : Device).booking 7 =
        some { lift .opened 1 with crane := 1 } ∧
      (lift .opened 2).crane = 0 ∧ ({ lift .opened 1 with origin := .supervisor } : Booking).origin = .supervisor ∧
      (lift .holdLower 1).state.running = true ∧ (lift .opened 2).origin = .crane ∧
      (lift .opened 2).state.running = false ∧ (lift .pending 1).succ = none ∧ (lift .pending 1).state = .pending ∧
      (lift .chained 1).state = .chained ∧ ({ lift .opened 1 with succ := some 65535 } : Booking).succ = some 65535 :=
  ⟨⟨hears_two, takes_two⟩, by decide +kernel⟩

/-- Booking 7 alone, in a state and with a window. -/
def due (state : BookingState) (window : Option (Nat × Nat)) (stop : Nat) : Device :=
  { busy with bookings := [{ lift state 1 with window := window, reservedEnd := stop }] }

theorem witness_ClockIsSetAndWindowsMatched :
    (((⟨two, []⟩ : State).takesCommands ∧ (⟨busy, []⟩ : State).takesCommands) ∧
      (∃ b ∈ two.bookings, b.state ≠ .pending) ∧ (∀ b ∈ ahead.bookings, b.state = .pending) ∧
      nothingDue 1000 ahead.bookings ∧ 10 ≤ 10 ∧ 1 < 2 ∧ 1 ≤ 1) ∧
      ((due .pending (some (900, 1000)) 1000).booking 7 =
          some { lift .pending 1 with window := some (900, 1000), reservedEnd := 1000 } ∧ 1000 ≤ 1000 ∧
        (due .lifting (some (900, 1000)) 1000).booking 7 =
          some { lift .lifting 1 with window := some (900, 1000), reservedEnd := 1000 } ∧
        (due .pending (some (1000, 1001)) 1001).booking 7 =
          some { lift .pending 1 with window := some (1000, 1001), reservedEnd := 1001 } ∧ 1000 < 1001 ∧
        (due .chained none 1000).booking 7 = some { lift .chained 1 with window := none, reservedEnd := 1000 } ∧
        (due .chained none 1001).booking 7 = some { lift .chained 1 with window := none, reservedEnd := 1001 } ∧
        busy.clock.siteTime = some 1000) ∧
      ((busy.cell 0).standing = .free ∧
        ((back .calm [] [rival]).cell 0).standing = .held 0 .lost none ∧
        ({ place 0 0 .near (cellIn (.held 0 .free none) []) with bookings := [rival] } : Device).barred 0 0 .free ∧
        (place 0 0 .near (cellIn (.held 0 .free none) [])).relation 0 0 ≠ .outside ∧
        ¬(place 0 0 .near (cellIn (.held 0 .free none) [])).barred 0 0 .free ∧
        (∀ w ∈ (([⟨1, .free⟩] : List Waiter).filter fun w => w.crane = 0 ∨ busy.tier w.cls ≤ busy.tier .booked).head?,
          busy.tier .free ≤ busy.tier w.cls) ∧
        ({ cellIn (.granted 0 .free 1) [] with bookings := [rival] } : Device).barred 0 0 .free ∧
        ((cellIn (.granted 0 .free 1) []).cell 0).intruders = [] ∧
        (([⟨1, .free⟩] : List Waiter).filter fun w => w.crane = 1 ∨ busy.tier w.cls ≤ busy.tier .booked) = [⟨1, .free⟩] ∧
        ¬({ cellIn (.granted 0 .free 1) [⟨1, .free⟩] with bookings := [rival] } : Device).barred 1 0 .free) := by
  refine ⟨⟨⟨takes_two, takes_busy⟩, by decide +kernel, by decide +kernel, ?_, by decide⟩, by decide +kernel, ?_⟩
  · intro b h
    cases List.mem_singleton.1 h
    exact ⟨by decide, fun e h => by cases h; decide, fun _ x h => by cases h; decide⟩
  · unfold Device.barred
    and_intros <;> decide +kernel

/-- Booking 7 as the only one, in a state; crane 0 in CALM. -/
def lifts (state : BookingState) (cycles : Nat) : Device := { busy with bookings := [lift state cycles] }

theorem hears_lifts (state : BookingState) (cycles : Nat) : (⟨lifts state cycles, []⟩ : State).hears 0 true := ⟨rfl, rfl, rfl⟩

theorem witness_RefusedLiftsChangeNothing :
    ((⟨lifts .opened 1, []⟩ : State).hears 0 true ∧ (⟨lifts .pending 1, []⟩ : State).hears 0 true) ∧
      yard.membership 0 ≠ .admitted ∧ busy.booking 7 = none ∧ (lifts .opened 1).booking 7 = some (lift .opened 1) ∧
      ({ lift .opened 1 with crane := 1 } : Booking).crane ≠ 0 ∧ (lift .opened 1).crane = 0 ∧
      (lift .pending 1).state ≠ .opened ∧ (lift .opened 1).state = .opened ∧
      (∃ x ∈ [lift .opened 1, { lift .lifting 1 with id := 8 }], x.crane = 0 ∧ x.state.running = true) ∧
      (∀ x ∈ (lifts .opened 1).bookings, x.crane = 0 → x.state.running = false) ∧
      ((lifts .opened 1).setHold 0 true).hold 0 = true ∧ (lifts .opened 1).hold 0 = false ∧
      ((windIs 0 .halt busy).windOf 0).state.isCalmOrWatch = false ∧
      (({ WindRec.cold with classes := ⟨false, false, false⟩ } : WindRec).classes.has (lift .opened 1).sail) = false ∧
      (busy.windOf 0).state.isCalmOrWatch = true ∧ (busy.windOf 0).classes.has (lift .opened 1).sail = true ∧
      (∃ k ∈ ({ lift .opened 1 with path := [1] } : Booking).path, busy.protectedCell k = true ∧ busy.possessionOf k = .closed) ∧
      (lift .opened 1).state.running = false :=
  ⟨⟨hears_lifts _ _, hears_lifts _ _⟩, by decide +kernel⟩

theorem witness_LiftStartClaimsThePath :
    (⟨lifts .opened 1, []⟩ : State).hears 0 true ∧ (lifts .opened 1).booking 7 = some (lift .opened 1) ∧
      (lift .opened 1).crane = 0 ∧ (lift .opened 1).state = .opened ∧
      (∀ x ∈ (lifts .opened 1).bookings, x.crane = 0 → x.state.running = false) ∧ (lifts .opened 1).hold 0 = false ∧
      ((lifts .opened 1).windOf 0).state.isCalmOrWatch = true ∧
      ((lifts .opened 1).windOf 0).classes.has (lift .opened 1).sail = true ∧
      (∀ k ∈ (lift .opened 1).path, (lifts .opened 1).protectedCell k = true → (lifts .opened 1).possessionOf k = .opened) ∧
      0 ∈ (lift .opened 1).path ∧ (lifts .opened 1).footprint 0 0 ≠ none ∧ (lifts .opened 1).tier .booked ≠ 0 ∧
      ((lifts .opened 1).cell 0).standing = .free ∧ ((lifts .opened 1).cell 0).queue = [] ∧
      (47 : CellIx) ∉ (lift .opened 1).path :=
  ⟨hears_lifts _ _, by decide +kernel⟩

/-- Booking 7 in a cycle, with a chained successor. -/
def chained : Device :=
  { stand 0 (.held 0 .booked none) [] (place 0 0 .inside busy) with
    bookings := [{ lift .lifting 1 with succ := some 8 },
      ⟨8, 0, .chained, none, 600, 900, 2600, .s, [0], 1, some 7, none, false, .crane⟩] }

theorem witness_LiftStopsEndTheCycle :
    ((⟨lifts .holdLower 2, []⟩ : State).hears 0 true ∧ (⟨chained, []⟩ : State).hears 0 true) ∧
      (lifts .holdLower 2).booking 7 = some (lift .holdLower 2) ∧ (lift .holdLower 2).crane = 0 ∧
      (lift .holdLower 2).state.running = true ∧ 2 ≤ (lift .holdLower 2).cycles ∧ (lift .holdLower 2).overrun = false ∧
      ({ lift .lifting 2 with overrun := true } : Booking).overrun = true ∧
      chained.booking 7 = some { lift .lifting 1 with succ := some 8 } ∧
      (lift .lifting 1).cycles = 1 ∧ (lift .lifting 1).pred = none ∧ (8 : Nat) ≠ 7 ∧ (chained.booking 8).isSome = true ∧
      chained.tier .free ≠ 0 ∧ 0 ∈ (lift .lifting 1).path ∧ (chained.cell 0).standing = .held 0 .booked none ∧
      (chained.cell 0).queue = [] ∧ chained.relation 0 0 = .inside ∧ ∀ x ∈ chained.bookings, x.crane ≠ 0 → 0 ∉ x.path :=
  ⟨⟨hears_lifts _ _, ⟨rfl, rfl, rfl⟩⟩, by decide +kernel⟩

/-- Crane 0 in VANE at computed level HALT, holding cell 0 for its weathervane. -/
def vaned : Device := windIs 0 (.vane .clearing) (cellIn (.held 0 .weathervane none) [])

theorem not_ready_vaned : ¬vaned.readyToVane 0 := by
  rintro ⟨⟨r, h, -⟩, -⟩
  cases h

theorem witness_VaneIsEnteredClearedAndLeft :
    ((⟨vaned, []⟩ : State).hears 0 true ∧ yard.membership 0 ≠ .admitted ∧ (busy.windOf 0).state.isVane = false ∧
      (vaned.setWind 0 { vaned.windOf 0 with flagVM := true }).level 0 = .vane ∧
      (vaned.windOf 0).state.isVane = true ∧ vaned.level 0 ≠ .vane ∧
      (vaned.cell 0).standing = .held 0 .weathervane none ∧ vaned.relation 0 0 = .outside ∧ (vaned.cell 0).queue = [] ∧
      (vaned.cell 0).intruders = []) ∧
      ((air { WindRec.cold with flagVG := true }).level 0 = .vane ∧
        ((air { WindRec.cold with flagVG := true }).windOf 0).state.isVane = false ∧
        ((clearOfJibs (.vane .clearing)).windOf 0).state = .vane .clearing ∧
        ((clearOfJibs (.vane .vaneFree)).windOf 0).state = .vane .vaneFree ∧
        ((clearOfJibs (.vane .forced)).windOf 0).state = .vane .forced ∧ (vaned.windOf 0).state = .vane .clearing ∧
        ((windIs 0 (.vane .vaneFree) vaned).windOf 0).state = .vane .vaneFree) ∧
      (clearOfJibs (.vane .clearing)).readyToVane 0 ∧ (clearOfJibs (.vane .vaneFree)).readyToVane 0 ∧
      ¬vaned.readyToVane 0 ∧ ¬(windIs 0 (.vane .vaneFree) vaned).readyToVane 0 :=
  ⟨⟨⟨rfl, rfl, rfl⟩, by decide +kernel⟩, by decide +kernel, ready_clearOfJibs _, ready_clearOfJibs _, not_ready_vaned,
    not_ready_vaned⟩

/-- Crane 0 with its silence and vane clear timers run out. -/
def silent : Device := air { WindRec.cold with silence := some 0, vaneTimer := some 0 }

theorem witness_ChannelFollowsSamplesAndTimers :
    (silent.resetLow = false ∧ (yard.windOf 9).silence ≠ some 0 ∧ (yard.windOf 9).vaneTimer ≠ some 0 ∧
      (silent.windOf 0).silence = some 0 ∧ silent.source 0 = .link ∧ (silent.windOf 0).flagVG = false ∧
      (silent.windOf 0).flagVM = false ∧ (silent.windOf 0).state.isVane = false ∧ (silent.windOf 0).channel ≠ .stale ∧
      (silent.windOf 0).vaneTimer = some 0 ∧ silent.lackingVaneCell 0 = some 0 ∧
      ((clearOfJibs .calm).lackingVaneCell 0) = none) ∧
      ((255 : Nat) ≤ 255 ∧ ((air WindRec.cold).windOf 0).recent = [] ∧
        ((air { WindRec.cold with recent := [5], holdRun := 1 }).windOf 0).recent = [] ++ [5] ∧
        ((air { WindRec.cold with recent := [5], holdRun := 1 }).windOf 0).holdRun = 1 ∧
        ((air { WindRec.cold with holdRun := 2 }).windOf 0).holdRun = 2 ∧ ((air WindRec.cold).windOf 0).holdRun = 0 ∧
        4 ≤ 4 ∧ (0 : Nat) ≠ 65535 ∧ (some 1 : Option Nat) ≠ some 0 ∧ (none : Option Nat) ≠ some 0 ∧
        (air { WindRec.cold with source := .mast }).source 0 = .mast ∧
        sampleGap ((air { WindRec.cold with lastSeq := some 255 }).windOf 0).lastSeq 255 = some 0 ∧
        sampleGap ((air { WindRec.cold with lastSeq := some 255 }).windOf 0).lastSeq 0 ≠ some 0) := by
  decide +kernel

theorem witness_WindCommandsFollowTheirTables :
    (⟨busy, []⟩ : State).takesCommands ∧ 10 ≤ 10 ∧ 1 < 2 ∧ yard.membership 0 = .absent ∧
      (busy.windOf 0).state.isVane = false ∧ busy.membership 0 = .admitted ∧ (join .lost 0 yard).membership 0 = .lost ∧
      ((windIs 0 (.vane .forced) busy).windOf 0).state = .vane .forced ∧ (vaned.windOf 0).state = .vane .clearing ∧
      ((windIs 0 (.vane .vaneFree) busy).windOf 0).state = .vane .vaneFree ∧ busy.source 0 = .link ∧
      busy.source 0 ≠ .mast ∧ (busy.setWind 0 { WindRec.cold with source := .mast }).source 0 ≠ .link :=
  ⟨takes_busy, by decide +kernel⟩

/-- The clock with the reference lost. -/
def fallen (last run fb : Option Nat) (n : Nat) : Clock := ⟨some 4294967295, false, run, fb, last, n⟩

theorem witness_PulsesAndFallbackDriveTheClock :
    yard.resetLow = false ∧ ({ yard.clock with lastPulse := some 49 } : Clock).lastPulse = some 49 ∧ 49 < 50 ∧
      ({ yard.clock with lastPulse := some 50 } : Clock).lastPulse = some 50 ∧ 50 ≤ 50 ∧ Clock.cold.lastPulse = none ∧
      Clock.cold.following = true ∧ (fallen (some 94) none none 2).following = false ∧ 94 < 95 ∧ 105 < 106 ∧
      (fallen (some 95) none none 1).pulseRun < 2 ∧ (fallen (some 105) none (some 50) 2).pulseRun = 2 ∧ 95 ≤ 95 ∧
      105 ≤ 105 ∧ (fallen (some 105) none (some 50) 2).fallback = some 50 ∧ 50 ≤ 100 ∧
      (fallen (some 105) none (some 49) 2).fallback = some 49 ∧ (fallen (some 105) none none 2).fallback = none ∧
      ({ yard.clock with pulseWait := some 0 } : Clock).pulseWait = some 0 ∧ yard.clock.pulseWait ≠ some 0 ∧
      yard.clock.fallback ≠ some 0 ∧ (fallen none none (some 0) 0).fallback = some 0 ∧
      (lift .suspended 1).state = .suspended ∧ busy.sailAllowed 0 (lift .suspended 1).sail ∧
      ¬(windIs 0 .halt busy).sailAllowed 0 (lift .suspended 1).sail ∧ (lift .opened 1).state ≠ .suspended ∧
      (air { WindRec.cold with source := .mast }).source 0 = .mast ∧ busy.membership 0 = .admitted ∧
      busy.source 0 ≠ .mast ∧ yard.membership 0 = .absent := by
  unfold Device.sailAllowed
  and_intros <;> decide +kernel

theorem witness_QueryAnswersASegment :
    (⟨two, []⟩ : State).delivers 0 true ∧ (⟨yard, []⟩ : State).delivers 9 true ∧ 1 ≤ 7 ∧ 7 ≤ 65535 ∧
      two.booking 7 = some (lift .opened 2) ∧ two.booking 1 = none ∧ 3 ≤ 3 ∧
      ({ yard with planState := .loading } : Device).planState = .loading ∧ two.planState ≠ .loading ∧ 65535 < 65536 ∧
      6 < 7 ∧ (bookingBytes (lift .opened 2)).length ≤ 1 * 52 ∧ 0 * 52 < (siteBytes Site.defaults).length := by
  refine ⟨?_, ?_, by decide +kernel⟩
  · unfold State.delivers; decide +kernel
  · unfold State.delivers; decide +kernel

theorem witness_WarmRestartKeepsWhatR182Keeps :
    (⟨two, []⟩ : State).takesCommands ∧ (two.bookings.map fun b => b.id).Nodup ∧ (∀ b ∈ two.bookings, b.overrun = false) ∧
      { lift .lifting 1 with overrun := true } ∈ [{ lift .lifting 1 with overrun := true }] ∧
      ({ lift .lifting 1 with overrun := true } : Booking).state.running = true :=
  ⟨takes_two, by decide +kernel⟩

/-! ### Ill-formed commands are refused -/

/-- A site record, a profile, a footprint and a cell record with one field too wide for its bytes (Table 1-6). -/
theorem test_wide_records_refused :
    (Instr.planPutSite { Site.defaults with tierEmergency := 256 }).wf = false ∧
      (Instr.planPutSite { Site.defaults with vaneClearLimit := 65536 }).wf = false ∧
      (Instr.planPutCrane 0 { mast with source := 256 }).wf = false ∧
      (Instr.planPutCrane 256 mast).wf = false ∧
      (Instr.planPutCell 0 { sector 0 with footprints := [⟨0, 0, 65536, 1, 0, 0⟩] }).wf = false ∧
      (Instr.planPutCell 0 { sector 0 with takeUp := 256 }).wf = false := by
  decide +kernel

/-- Crane frames with a field too wide, a sign out of range, a form above 1 and a payload above 60 bytes
(Table 10-3, R163, R165). -/
theorem test_wide_frames_refused :
    (Instr.report 0 false ⟨0, 65536, 0, 0, 0, 0, 0, 0⟩).wf = false ∧
      (Instr.report 0 false ⟨0, 0, 128, 0, 0, 0, 0, 0⟩).wf = false ∧
      (Instr.report 0 false ⟨0, 0, 0, 0, -129, 0, 0, 0⟩).wf = false ∧
      (Instr.claim 0 false 256 4).wf = false ∧ (Instr.release 0 false 256).wf = false ∧
      (Instr.book 0 false ⟨2, 0, 0, 0, 1, []⟩).wf = false ∧
      (Instr.book 0 false ⟨0, 4294967296, 0, 0, 1, []⟩).wf = false ∧
      (Instr.book 0 false ⟨0, 0, 0, 0, 1, List.replicate 49 0⟩).wf = false ∧
      (Instr.cancel 0 false 65536).wf = false ∧ (Instr.liftStart 0 false 65536).wf = false ∧
      (Instr.query 0 false 4 0 256).wf = false := by
  decide +kernel

/-- Supervisor commands with an operand too wide (Table 11-4). -/
theorem test_wide_commands_refused :
    (Instr.setClock 4294967296).wf = false ∧ (Instr.readBooking 65536).wf = false ∧ (Instr.detach 256).wf = false ∧
      (Instr.setFaultMask 1#16 256).wf = false ∧
      (Instr.supervisorBook 0 ⟨0, 0, 0, 0, 1, List.replicate 256 0⟩).wf = false := by
  decide +kernel

/-- Events that carry bytes which are not what the event says: a good candidate as a failed one, an accepted frame
as a rejected one, a good frame as a bad one, a named command as an unknown one. -/
theorem test_false_events_refused :
    (Instr.frameCheckFailed 3 [0x03, 0x03, 0x02, 0x11, 0x02, 0x1A, 0x62]).wf = false ∧
      (Instr.frameRejected 3 0x03 0x03 [0x11, 0x02]).wf = false ∧
      (Instr.supervisorBadFrame [0x00, 0x01, 0x50, 0xA5, 0x58]).wf = false ∧ (Instr.unknownCommand 0x50 []).wf = false := by
  decide +kernel

/-! ### Frames written out from Tables 10-1 to 10-3, 11-3 and 11-4, with their checksums worked out apart -/

/-- HELLO of crane 7 with the restart flag. -/
theorem test_decode_hello :
    decodeCandidate 7 [0x87, 0x01, 0x04, 0xDE, 0xAD, 0xBE, 0xEF, 0x4B, 0x82] = .hello 7 true 0xDEADBEEF#32 := by
  decide +kernel

/-- REPORT of crane 0: slew angle 3599 at rate -128, radius 500 at speed 127, no wind reading. -/
theorem test_decode_report :
    decodeCandidate 0
        [0x00, 0x02, 0x0C, 0xC8, 0x0E, 0x0F, 0x80, 0x01, 0xF4, 0x7F, 0x01, 0x2C, 0x07, 0xFF, 0xFF, 0x03, 0x66] =
      .report 0 false ⟨200, 3599, -128, 500, 127, 300, 7, 65535⟩ := by
  decide +kernel

/-- BOOK of crane 1: window 1000 to 2000, class S, three cycles, path 0 and 47. -/
theorem test_decode_book :
    decodeCandidate 1
        [0x01, 0x05, 0x0E, 0x00, 0x00, 0x00, 0x03, 0xE8, 0x00, 0x00, 0x07, 0xD0, 0x02, 0x03, 0x02, 0x00, 0x2F, 0x4A, 0x06] =
      .book 1 false ⟨0, 1000, 2000, 2, 3, [0, 47]⟩ := by
  decide +kernel

/-- QUERY of crane 9: booking 256, segment 1. -/
theorem test_decode_query :
    decodeCandidate 9 [0x09, 0x0C, 0x04, 0x06, 0x01, 0x00, 0x01, 0x58, 0x6F] = .query 9 false 6 256 1 := by
  decide +kernel

/-- A CLAIM whose payload is a byte short, and a frame of no kind of Table 10-2, are rejected; a wrong checksum fails
(R164, R165). -/
theorem test_decode_rejects :
    decodeCandidate 3 [0x03, 0x03, 0x01, 0x11, 0x77, 0x6D] = .frameRejected 3 0x03 0x03 [0x11] ∧
      decodeCandidate 3 [0x03, 0x0D, 0x00, 0xE3, 0x90] = .frameRejected 3 0x03 0x0D [] ∧
      decodeCandidate 4 [0x03, 0x0D, 0x00, 0xE3, 0x90] = .frameRejected 4 0x03 0x0D [] ∧
      decodeCandidate 3 [0x03, 0x0D, 0x00, 0xE3, 0x91] = .frameCheckFailed 3 [0x03, 0x0D, 0x00, 0xE3, 0x91] := by
  decide +kernel

/-- SET_CLOCK to 1000, CLEAR_FAULTS of kinds 0 and 12, and a frame that names no command. -/
theorem test_decode_supervisor :
    decodeTransfer [0x01, 0x00, 0x05, 0x20, 0x00, 0x00, 0x03, 0xE8, 0x93, 0x0E] = some (.setClock 1000) ∧
      decodeTransfer [0x01, 0x00, 0x03, 0x51, 0x10, 0x01, 0xF0, 0x7C] = some (.clearFaults 0x1001#16) ∧
      decodeTransfer [0x01, 0x00, 0x01, 0x7F, 0x70, 0xD5] = some (.unknownCommand 0x7F []) := by
  decide +kernel

/-- A row of the table has no bits: no word spells a command (entry 35). -/
theorem test_no_word_spells_a_command : decodeTableWord 8 0x50 = none := by decide

/-! ### One step each -/

/-- R63, R59: a FREE claim on a FREE cell is GRANTED for the take-up time, 20 s, to a crane OUTSIDE it, and HELD by one
INSIDE. -/
theorem test_claim_granted :
    ((after (.claim 0 false 0 4) busy).cell 0).standing = .granted 0 .free 2000 ∧
      replied 0 (after (.claim 0 false 0 4) busy) = some (0x03, .ok) ∧
      ((after (.claim 0 false 0 4) (place 0 0 .inside busy)).cell 0).standing = .held 0 .free none := by
  decide +kernel

/-- R60, R174: a FREE claim on a PROTECTED cell is refused; an EMERGENCY claim raises EMERGENCY_CLAIM. -/
theorem test_claim_protected :
    replied 0 (after (.claim 0 false 1 4) busy) = some (0x03, .isProtected) ∧
      ((after (.claim 0 false 0 2) busy).faultEntry .emergencyClaim).pending = true := by
  decide +kernel

/-- R69, R70: the released cell goes to its waiter; INSIDE it is refused IN_CELL. -/
theorem test_release :
    ((after (.release 0 false 0) (cellIn (.held 0 .free none) [⟨1, .free⟩])).cell 0).standing = .granted 1 .free 2000 ∧
      replied 0 (after (.release 0 false 0) (place 0 0 .inside (cellIn (.held 0 .free none) []))) =
        some (0x04, .inCell) := by
  decide +kernel

/-- R65: the lapse raises TAKEUP_LAPSE, which is MASKED by default and so captures nothing. -/
theorem test_take_up_lapse :
    ((after (.takeUpExpiry 0) (cellIn (.granted 0 .free 0) [])).cell 0).standing = .free ∧
      ((after (.takeUpExpiry 0) (cellIn (.granted 0 .free 0) [])).faultEntry .takeupLapse).pending = true ∧
      (after (.takeUpExpiry 0) (cellIn (.granted 0 .free 0) [])).faults.pointer = none := by
  decide +kernel

/-- R67: a linger timer that expires frees the cell. -/
theorem test_linger_expiry :
    ((after (.lingerExpiry 0) (cellIn (.held 0 .free (some 0)) [])).cell 0).standing = .free := by
  decide +kernel

/-- R24, R25: HELLO with the plan's digest joins for 10 s; another digest raises JOIN_REFUSED. -/
theorem test_hello :
    (after (.hello 0 false 0#32) yard).crane 0 = ⟨.joining, .good, 0, 0, false, some 1000, none, some 1000⟩ ∧
      replied 0 (after (.hello 0 false 1#32) yard) = some (0x01, .planMismatch) ∧
      ((after (.hello 0 false 1#32) yard).faultEntry .joinRefused).pending = true := by
  decide +kernel

/-- R27, R23: the first REPORT admits a JOINING crane; one above 3599 is counted errored and has no other effect. -/
theorem test_report :
    (after (.report 0 false ⟨5, 0, 0, 100, 0, 0, 0, 0⟩) (join .joining 0 yard)).membership 0 = .admitted ∧
      (after (.report 0 false ⟨5, 3600, 0, 100, 0, 0, 0, 0⟩) busy) = busy.setCrane 0 { busy.crane 0 with errored := 1 } := by
  decide +kernel

/-- R29, R31: the second flagged frame in a row makes the crane LOST, its claims at class LOST. -/
theorem test_streak_loses_the_crane :
    (after (.resume 0 true) streaky).membership 0 = .lost ∧
      ((after (.resume 0 true) streaky).cell 1).standing = .held 0 .lost none ∧
      ((after (.linkTimerExpiry 0) streaky).faultEntry .linkLost).pending = true ∧ after (.linkTimerExpiry 0) busy = busy := by
  decide +kernel

/-- R26, R38: the join wait makes the crane ABSENT; five errored frames degrade the link. -/
theorem test_roster_timers :
    (after (.joinWaitExpiry 0) (judged .good 0)).membership 0 = .absent ∧
      (after (.qualityPeriodExpiry 0) (judged .good 5)).crane 0 = ⟨.admitted, .degraded, 0, 5, false, some 0, none, some 1000⟩ ∧
      (after (.qualityPeriodExpiry 0) (judged .degraded 2)).crane 0 =
        ⟨.admitted, .degraded, 0, 2, false, some 0, none, some 1000⟩ := by
  decide +kernel

/-- R34, R35: LEAVE is BUSY for a holder; DETACH makes the crane ABSENT and frees its cell. -/
theorem test_leave_and_detach :
    replied 0 (after (.leave 0 false) (cellIn (.held 0 .free none) [])) = some (0x0B, .busy) ∧
      (after (.leave 0 false) busy).membership 0 = .absent ∧
      ((after (.detach 0) (cellIn (.held 0 .free none) [])).cell 0).standing = .free := by
  decide +kernel

/-- R140, R144: the booking enters the table under id 1, PENDING, or OPEN where its window has begun. -/
theorem test_book :
    (after (.book 0 false request60) busy).bookings =
      [⟨1, 0, .pending, some (1010, 1070), 60, 1010, 1070, .s, [0], 255, none, none, false, .crane⟩] ∧
      (after (.book 0 false { request60 with first := 1000 }) busy).bookings =
        [⟨1, 0, .opened, some (1000, 1070), 70, 1000, 1070, .s, [0], 255, none, none, false, .crane⟩] ∧
      supReply (after (.supervisorBook 0 { request60 with first := 1011 }) yard) = some (.badWindow, []) := by
  decide +kernel

/-- R147: CANCEL removes a PENDING booking, is refused while it runs, and ABORT_BOOKING is not. -/
theorem test_cancel :
    (after (.cancel 0 false 7) two).booking 7 = none ∧
      replied 0 (after (.cancel 0 false 7) (lifts .lifting 1)) = some (0x06, .wrongState) ∧
      (after (.abortBooking 7) (lifts .lifting 1)).bookings = [] ∧
      supReply (after (.cancelBooking 7) (lifts .lifting 1)) = some (.wrongState, []) := by
  decide +kernel

/-- R153: LIFT_START claims the path; under a hold it is refused. -/
theorem test_lift_start :
    ((after (.liftStart 0 false 7) (lifts .opened 1)).cell 0).standing = .granted 0 .booked 2000 ∧
      replied 0 (after (.liftStart 0 false 7) ((lifts .opened 1).setHold 0 true)) = some (0x07, .held) := by
  decide +kernel

/-- R156 to R158: a cycle that is not the last opens the booking again; the last completes it and opens its successor;
an abort suspends it. -/
theorem test_lift_stops :
    (after (.liftEnd 0 false 7) (lifts .lifting 2)).bookings = [lift .opened 1] ∧
      (after (.liftEnd 0 false 7) chained).bookings =
        [⟨8, 0, .opened, some (1000, 1600), 600, 1000, 1600, .s, [0], 1, none, none, false, .crane⟩] ∧
      ((after (.liftEnd 0 false 7) chained).cell 0).standing = .held 0 .free none ∧
      (after (.liftAbort 0 false 7) (lifts .lifting 2)).bookings = [lift .suspended 2] := by
  decide +kernel

/-- R128: RESUME outside VANE is refused; in VANE the crane stands at its computed level. -/
theorem test_resume :
    replied 0 (after (.resume 0 false) busy) = some (0x0A, .wind) ∧
      ((after (.resume 0 false) vaned).windOf 0).state = .halt ∧ ((after (.resume 0 false) vaned).cell 0).standing = .free := by
  decide +kernel

/-- R104, R126: silence makes the channel STALE; the vane clear timer raises VANE_BLOCKED with the cell lacking. -/
theorem test_wind_timers :
    ((after (.silenceTimerExpiry 0) silent).windOf 0).channel = .stale ∧
      ((after (.silenceTimerExpiry 0) silent).faultEntry .windStale).pending = true ∧
      (after (.vaneClearTimerExpiry 0) silent).faults.context = some ⟨.vaneBlocked, some 0, some 0, none, some 1000⟩ := by
  decide +kernel

/-- R100, R127: FORCE_VANE outside VANE is refused; MAST makes the channel LIVE. -/
theorem test_wind_commands :
    supReply (after (.forceVane 0) busy) = some (.wrongState, []) ∧
      ((after (.forceVane 0) vaned).windOf 0).state = .vane .forced ∧
      ((after (.setWindSource 0 1) busy).windOf 0).channel = .live := by
  decide +kernel

/-- The part whose pulse wait timer has run out. -/
def waitOver : Device := { yard with clock := { yard.clock with pulseWait := some 0 } }

/-- R113, R134 to R137: the mast count stops at 65535; a pulse 60 ticks on is a site second, one 49 ticks on a glitch; the
pulse wait raises two site seconds, the fallback timer one; where a pulse is taken first, the pulse wait that had run
out does not expire. -/
theorem test_pulses :
    (after .mastPulse { yard with mast := ⟨65535, 0, 0⟩ }).mast.pulses = 65535 ∧
      (after .ppsPulse yard).clock = ⟨some 1001, true, some 200, none, some 0, 0⟩ ∧
      (after .ppsPulse { yard with clock := { yard.clock with lastPulse := some 49 } }).clock.siteTime = some 1000 ∧
      (after .pulseWaitTimerExpiry waitOver).clock = ⟨some 1002, false, none, some 100, some 60, 0⟩ ∧
      (after .pulseWaitTimerExpiry (after .ppsPulse waitOver)) = after .ppsPulse waitOver ∧
      (after .fallbackTimerExpiry { yard with clock := fallen none none (some 0) 0 }).clock.siteTime = some 4294967295 := by
  decide +kernel

/-- R6, R13 to R16: plan editing. -/
theorem test_plan_editing :
    (after .planBegin yard).planState = .editing ∧ supReply (after .planBegin busy) = some (.busy, []) ∧
      supReply (after (.planPutSite { Site.defaults with gustL := 140 }) edit) = some (.invalid, [2]) ∧
      supReply (after (.planPutCrane 0 { mast with tw := 19 }) edit) = some (.invalid, [4]) ∧
      supReply (after (.planPutCell 0 (sector 0)) editFixed) = some (.fixedCell, []) ∧
      (after (.planDropCell 0) edit).cellRec 0 = none ∧ (after .planErase yard).planState = .empty ∧
      supReply (after .planEnd yard) = some (.wrongState, []) ∧
      (after (.possession 1 1) yard).possessionOf 1 = .opened := by
  decide +kernel

/-- R21, R40, R84, R150: records are read whole; an index out of range is INVALID. -/
theorem test_readings :
    supReply (after (.readPlanItem 1 0) yard) =
        some (.ok, [1, 1, 0xF4, 20, 0, 40, 10, 10, 5, 0, 64, 1, 0, 0, 50, 0, 100, 0, 0]) ∧
      supReply (after (.readCrane 10) yard) = some (.invalid, []) ∧
      supReply (after (.readCell 48) yard) = some (.invalid, []) ∧
      (supReply (after (.readBooking 1) yard)).map Prod.fst = some .unknownBooking ∧
      (supReply (after (.nextBooking 0) yard)).map Prod.fst = some .ok := by
  decide +kernel

/-- R138, R148: the clock is set while no booking stands in a state but PENDING; a hold is set. -/
theorem test_clock_and_hold :
    (after (.setClock 5) yard).clock.siteTime = some 5 ∧ (supReply (after (.setClock 5) two)).map Prod.fst = some .busy ∧
      (after (.holdBookings 9 1) yard).hold 9 = true := by
  decide +kernel

/-- R179 to R182: fault commands and the warm restart. -/
theorem test_faults_and_restart :
    ((after (.clearFaults 1#16) (busy.raise .linkLost none none none)).faults) = FaultUnit.cold ∧
      ((after (.setFaultMask 1#16 1) yard).faultEntry .linkLost).masked = true ∧
      ((after (.setFaultSeverity 1#16 0) yard).faultEntry .linkLost).alarm = false ∧
      ((supReply (after .readFaults yard)).map fun r => r.2.length) = some 49 ∧
      ((supReply (after .readFaults yard)).map fun r => r.2.take 3) = some [0, 1, 1] ∧
      (faultBytes (after (.setFaultMask 1#16 1) yard)).take 3 = [0, 0, 1] ∧
      (after .warmRestart two).membership 0 = .absent ∧ (after .warmRestart two).bookings = two.bookings := by
  decide +kernel

/-- R172 to R175: a command in REPLY_WAITING is answered BUSY; a reply is taken by a read long enough; a bad frame and an
unknown command are INVALID. -/
theorem test_supervisor_port :
    (after (.readCrane 0) waiting).sup = .waiting ⟨some 0x11, .busy, []⟩ ∧ (after (.supervisorRead 100) waiting).sup = .idle ∧
      (after (.supervisorBadFrame [0x00]) yard).sup = .waiting ⟨none, .invalid, []⟩ ∧
      (after (.unknownCommand 0x7F []) yard).sup = .serving ⟨some 0x7F, .invalid, []⟩ ∧
      (after .replyPlaced (serving 0x51)).sup = .waiting ⟨some 0x51, .ok, []⟩ := by
  decide +kernel

/-- R164, R166: a start byte opens a candidate; a failed one slips and is counted; the transmitter takes the oldest frame
that waits. -/
theorem test_link_port :
    ((after (.linkByteReceived 0 0xA6) busy).port 0).candidate = some [] ∧
      ((after (.frameCheckFailed 0 [0xA6, 0x01]) busy).port 0).rescan = [0xA6, 0x01] ∧
      ((after (.frameCheckFailed 0 [0xA6, 0x01]) busy).crane 0).errored = 1 ∧
      ((after (.frameRejected 0 0x00 0x0D []) busy).crane 0).errored = 1 ∧
      ((after (.transmitComplete 9) (yard.setPort 9 fullPort)).port 9).queue.length = 3 := by
  decide +kernel

/-- R167, R169: a crane record is read in one segment; a segment beyond it is INVALID. -/
theorem test_query :
    replied 0 (after (.query 0 false 6 7 0) two) = some (0x0C, .ok) ∧
      replied 0 (after (.query 0 false 6 7 2) two) = some (0x0C, .invalid) := by
  decide +kernel

/-- R18, R19, R171: a wrong signature and 300 ticks end a load; RESET low holds the part. -/
theorem test_reset_and_autoload :
    (after (.autoloadRead (some [0xC3, 0xA8, 1])) Device.cold).autoloadResult = some .signature ∧
      ((after (.autoloadRead (some [0xC3, 0xA9, 3])) Device.cold).load.map fun l => l.group) = some .site ∧
      (after (.autoloadRead (some [0xC3, 0xA8])) Device.cold).autoloadResult = some .signature ∧
      Device.cold.planRead = some ⟨0x54, [0, 0], some 3⟩ ∧ after .autoloadTimeout Device.cold = Device.cold ∧
      (after .autoloadTimeout { Device.cold with load := some ⟨.header, none, 0, plan, 0⟩ }).planState = .empty ∧ (after .coldReset busy).resetLow = true ∧
      (after .mastPulse (after .coldReset busy)) = after .coldReset busy ∧ after .resetHigh busy = Device.cold := by
  decide +kernel

end Sys2Proof.Tests
end

