-- ==== Sys2Proof/Proofs/ReachEnvelopes.lean ====
section
/-! SUPPORT. The figures of the Reach Unit (chapter 3): travels rounded up, the radial band, and arcs, with the
obligations of R44, R47 and R48 settled from them. -/

namespace Sys2Proof.Machine

/-! ### The reach record -/

/-- The stop envelope is drawn with the slew stop time Ts (R44). -/
theorem reachRecord_stop (d : Device) (c : CraneIx) (r : Report) :
    (reachRecord d c r).stop = drawEnvelope (reachRecord d c r).pos (d.profile c).jib
      (travel (reachRecord d c r).pos.rate (d.profile c).ts) (travel (reachRecord d c r).pos.speed (d.profile c).tt)
      (reachRecord d c r).ma (reachRecord d c r).mr := rfl

/-- The warning envelope is drawn with the lookahead Tw and the trolley travel of the stop envelope (R44). -/
theorem reachRecord_warn (d : Device) (c : CraneIx) (r : Report) :
    (reachRecord d c r).warn = drawEnvelope (reachRecord d c r).pos (d.profile c).jib
      (travel (reachRecord d c r).pos.rate (d.profile c).tw) (travel (reachRecord d c r).pos.speed (d.profile c).tt)
      (reachRecord d c r).ma (reachRecord d c r).mr := rfl

/-- Intake clamps the radius to the jib length (R43). -/
theorem reachRecord_radius_le_jib (d : Device) (c : CraneIx) (r : Report) :
    (reachRecord d c r).pos.radius ≤ (d.profile c).jib := Nat.min_le_right _ _

/-! ### Travels (R44) -/

/-- `travel` is the least whole number of tenths that covers the product. -/
theorem travel_bounds (v : Int) (t : Nat) :
    v.natAbs * t ≤ 10 * travel v t ∧ 10 * travel v t < v.natAbs * t + 10 := by
  unfold travel
  constructor <;> omega

@[simp] theorem travel_zero (t : Nat) : travel 0 t = 0 := by simp [travel]

/-- A faster rate, whatever its sign, over a longer time gives no smaller travel. -/
theorem travel_mono {v w : Int} {t u : Nat} (hv : v.natAbs ≤ w.natAbs) (ht : t ≤ u) : travel v t ≤ travel w u :=
  Nat.div_le_div_right (Nat.add_le_add_right (Nat.mul_le_mul hv ht) 9)

/-- Settles O16: the greatest travels are those at the saturated rate or speed over the longest time, since travel grows
with both. -/
theorem travelsRoundUp : Obligations.TravelsRoundUp := by
  have hstop : travel 127 200 = 2540 := rfl
  have hwarn : travel (-127) 300 = 3810 := rfl
  have htrolley : travel (-63) 100 = 630 := rfl
  refine ⟨travel_bounds, travel_zero, fun _ _ _ => travel_mono le_rfl, fun v t hv => ⟨fun ht => ?_, fun ht => ?_⟩,
    fun v t hv ht => ?_, hstop, hwarn, htrolley, fun d c r => ⟨reachRecord_stop d c r, reachRecord_warn d c r⟩⟩
  · exact hstop ▸ travel_mono hv ht
  · exact hwarn ▸ travel_mono hv ht
  · exact htrolley ▸ travel_mono hv ht

/-! ### The radial band (R47) -/

/-- `clampRadius` is the clamp to 0..jib length of the integers. -/
theorem clampRadius_cast (jib : Nat) (x : Int) : (clampRadius jib x : Int) = min (max x 0) jib := by
  simp [clampRadius]

theorem clampRadius_mono (jib : Nat) {x y : Int} (h : x ≤ y) : clampRadius jib x ≤ clampRadius jib y :=
  min_le_min_right jib (Int.toNat_le_toNat h)

theorem clampRadius_of_le {jib r : Nat} (h : r ≤ jib) : clampRadius jib r = r := by simpa [clampRadius] using h

/-- The slew travel plays no part in the radial band. -/
theorem drawEnvelope_band (p : Position) (jib d d' e ma mr : Nat) :
    (drawEnvelope p jib d e ma mr).rmin = (drawEnvelope p jib d' e ma mr).rmin ∧
      (drawEnvelope p jib d e ma mr).rmax = (drawEnvelope p jib d' e ma mr).rmax := ⟨rfl, rfl⟩

/-- Both envelopes of a record have one radial band: they differ in the slew travel alone. -/
theorem reachRecord_band (d : Device) (c : CraneIx) (r : Report) :
    (reachRecord d c r).stop.rmin = (reachRecord d c r).warn.rmin ∧
      (reachRecord d c r).stop.rmax = (reachRecord d c r).warn.rmax := by
  rw [reachRecord_stop, reachRecord_warn]
  exact drawEnvelope_band ..

section band
variable {p : Position} {jib d e ma mr : Nat}

theorem drawEnvelope_rmin_of_neg (h : p.speed < 0) :
    (drawEnvelope p jib d e ma mr).rmin = clampRadius jib ((p.radius : Int) - e - mr) := by
  simp [drawEnvelope, h]

theorem drawEnvelope_rmin_of_nonneg (h : 0 ≤ p.speed) :
    (drawEnvelope p jib d e ma mr).rmin = clampRadius jib ((p.radius : Int) - mr) := by
  simp [drawEnvelope, not_lt.mpr h]

theorem drawEnvelope_rmax_of_pos (h : 0 < p.speed) :
    (drawEnvelope p jib d e ma mr).rmax = clampRadius jib ((p.radius : Int) + e + mr) := by
  simp [drawEnvelope, h]

theorem drawEnvelope_rmax_of_nonpos (h : p.speed ≤ 0) :
    (drawEnvelope p jib d e ma mr).rmax = clampRadius jib ((p.radius : Int) + mr) := by
  simp [drawEnvelope, not_lt.mpr h]

/-- A radius on the jib is its own clamp, and clamping keeps the order of the bounds around it. -/
theorem drawEnvelope_rmin_le_radius (h : p.radius ≤ jib) : (drawEnvelope p jib d e ma mr).rmin ≤ p.radius := by
  rw [← clampRadius_of_le h]
  rcases lt_or_ge p.speed 0 with hs | hs
  · rw [drawEnvelope_rmin_of_neg hs]
    exact clampRadius_mono jib (by omega)
  · rw [drawEnvelope_rmin_of_nonneg hs]
    exact clampRadius_mono jib (by omega)

theorem radius_le_drawEnvelope_rmax (h : p.radius ≤ jib) : p.radius ≤ (drawEnvelope p jib d e ma mr).rmax := by
  rw [← clampRadius_of_le h]
  rcases lt_or_ge 0 p.speed with hs | hs
  · rw [drawEnvelope_rmax_of_pos hs]
    exact clampRadius_mono jib (by omega)
  · rw [drawEnvelope_rmax_of_nonpos hs]
    exact clampRadius_mono jib (by omega)

end band

/-! ### Arcs (R48) and the tests of a footprint (R49) -/

theorem sub3600_cast (a b : Int) : (sub3600 a b : Int) = (a - b) % 3600 :=
  Int.toNat_of_nonneg (Int.emod_nonneg _ (by decide))

theorem sub3600_lt (a b : Int) : sub3600 a b < 3600 := by
  have := sub3600_cast a b
  omega

/-- An angle `k` beyond the start of an arc is at distance `k` from it. -/
theorem sub3600_add_mod (s : Nat) {k : Nat} (hk : k < 3600) : sub3600 (((s + k) % 3600 : Nat) : Int) s = k := by
  have := sub3600_cast (((s + k) % 3600 : Nat) : Int) s
  omega

theorem arcContains_iff (s l p : Nat) : arcContains s l p = true ↔ ((p : Int) - s) % 3600 < l := by
  rw [← sub3600_cast, Int.ofNat_lt]
  exact decide_eq_true_iff

/-- Of the angles counted from its start, an arc contains the first `l`. -/
theorem arcContains_add_mod (s l : Nat) {k : Nat} (hk : k < 3600) :
    arcContains s l ((s + k) % 3600) = decide (k < l) := by
  rw [arcContains, sub3600_add_mod s hk]

theorem arcEnd_eq (s : Nat) {l : Nat} (hl : 1 ≤ l) : arcEnd s l = (s + (l - 1)) % 3600 := by
  rw [arcEnd, Nat.add_sub_assoc hl]

/-- The last angle is in the arc. -/
theorem arcContains_arcEnd (s : Nat) {l : Nat} (hl : 1 ≤ l) (hl' : l ≤ 3600) :
    arcContains s l (arcEnd s l) = true := by
  rw [arcEnd_eq s hl, arcContains_add_mod s l (by omega)]
  exact decide_eq_true (by omega)

/-- The angle after the last is not in an arc short of the whole circle. -/
theorem not_arcContains_after_arcEnd (s : Nat) {l : Nat} (hl : l < 3600) :
    arcContains s l ((s + l) % 3600) = false := by
  rw [arcContains_add_mod s l hl]
  exact decide_eq_false (lt_irrefl l)

theorem arcsIntersect_iff (s l s' l' : Nat) :
    arcsIntersect s l s' l' = true ↔ arcContains s l s' = true ∨ arcContains s' l' s = true := Bool.or_eq_true_iff

/-- The whole circle holds every angle. -/
theorem arcContains_full (s p : Nat) : arcContains s 3600 p = true := decide_eq_true (sub3600_lt p s)

/-- A span of 1 holds the start alone. -/
theorem arcContains_one {s p : Nat} (hs : s < 3600) (hp : p < 3600) : arcContains s 1 p = true ↔ p = s := by
  rw [arcContains_iff]
  omega

theorem arcsIntersect_one {s s' : Nat} (hs : s < 3600) (hs' : s' < 3600) :
    arcsIntersect s 1 s' 1 = true ↔ s = s' := by
  rw [arcsIntersect_iff, arcContains_one hs hs', arcContains_one hs' hs, eq_comm, or_self]

/-- A JIB footprint is tested against an envelope by the arcs alone. -/
theorem intersects_of_jib (v : Envelope) {f : Footprint} (h : f.kind = 0) :
    intersects v f = arcsIntersect v.start v.span f.start f.span := by simp [intersects, h]

/-- A JIB footprint is tested against a position by the angle alone. -/
theorem insideFootprint_of_jib (p : Position) {f : Footprint} (h : f.kind = 0) :
    insideFootprint p f = arcContains f.start f.span p.slew := by simp [insideFootprint, h]

/-! ### The obligations of R47 and R48 -/

/-- Settles O17: clamping is monotone and leaves the accepted radius, already within the jib, as it is. -/
theorem radialBandHoldsTheRadius : Obligations.RadialBandHoldsTheRadius := by
  refine ⟨fun p jib d e ma mr => ⟨fun h => ?_, fun h => ?_, fun h => ?_, fun h => ?_, fun h =>
      ⟨drawEnvelope_rmin_le_radius h, radius_le_drawEnvelope_rmax h⟩⟩,
    fun d c r => ?_, fun v w f hf hstart hspan => ?_⟩
  · rw [drawEnvelope_rmin_of_neg h, clampRadius_cast]
  · rw [drawEnvelope_rmin_of_nonneg h, clampRadius_cast]
  · rw [drawEnvelope_rmax_of_pos h, clampRadius_cast]
  · rw [drawEnvelope_rmax_of_nonpos h, clampRadius_cast]
  · obtain ⟨hmin, hmax⟩ := reachRecord_band d c r
    exact ⟨hmin, hmax, reachRecord_radius_le_jib d c r⟩
  · rw [intersects_of_jib v hf, intersects_of_jib w hf, hstart, hspan]

/-- Settles O18: an angle is in an arc by its distance beyond the start, which for the last angle is the span less 1. -/
theorem arcsContainAndIntersect : Obligations.ArcsContainAndIntersect :=
  ⟨arcContains_iff,
    fun s _ _ hl hl' => ⟨rfl, arcContains_arcEnd s hl hl', not_arcContains_after_arcEnd s⟩,
    arcsIntersect_iff, arcContains_full, fun _ _ => arcContains_one, fun _ _ => arcsIntersect_one,
    fun p _ => insideFootprint_of_jib p, fun v _ => intersects_of_jib v⟩

end Sys2Proof.Machine
end

