-- ==== Sys2Proof/Proofs/WindMeasurement.lean ====
section
/-! SUPPORT. Readings and gusts of the Wind Unit (chapter 6): the saturated speed, what a real reading does to the
channel, and the rounded mean of the recent speeds, with the obligations of R106 and R108 settled from them. -/

namespace Sys2Proof.Machine

/-! ### The recent speeds (R107) -/

/-- With room for at least one member, the member appended is the last one kept. -/
theorem pushBounded_getLast? {n : Nat} (hn : 0 < n) (x : Nat) (l : List Nat) :
    (pushBounded n x l).getLast? = some x := by
  have hkept : ¬ (l ++ [x]).length ≤ (l ++ [x]).length - n := by
    rw [List.length_append, List.length_singleton]; omega
  rw [pushBounded, lastN, List.getLast?_drop, if_neg hkept, List.getLast?_concat]

theorem handleSpeed_recent (r : Site) (s : Nat) (w : WindRec) :
    (handleSpeed r s w).recent = pushBounded 3 s w.recent := rfl

theorem handleSpeed_recent_getLast? (r : Site) (s : Nat) (w : WindRec) :
    (handleSpeed r s w).recent.getLast? = some s := by
  rw [handleSpeed_recent, pushBounded_getLast? (by decide)]

theorem handleSpeed_recent_length (r : Site) (s : Nat) (w : WindRec) :
    (handleSpeed r s w).recent.length = min (w.recent.length + 1) 3 := by
  rw [handleSpeed_recent, pushBounded_length]

theorem handleSpeed_lastGust (r : Site) (s : Nat) (w : WindRec) :
    (handleSpeed r s w).lastGust = some (gustOf (handleSpeed r s w).recent) := rfl

/-! ### Real readings (R106) -/

theorem speedOf_of_le {count scale : Nat} (h : count * scale / 64 ≤ 600) : speedOf count scale = count * scale / 64 :=
  Nat.min_eq_left h

theorem speedOf_of_lt {count scale : Nat} (h : 600 < count * scale / 64) : speedOf count scale = 600 :=
  Nat.min_eq_right h.le

/-- A real reading is produced as a speed and ends the hold run (R103, R106). -/
theorem takeReading_of_real (c : CraneIx) {count : Nat} (d : Device) (h : count ≠ 65535) :
    takeReading c count d =
      modWind c (fun w => { w with holdRun := 0 }) (produceSpeed c (speedOf count (d.profile c).anemometer) d) :=
  if_neg (mt beq_iff_eq.mp h)

theorem takeReading_windOf_of_real (c : CraneIx) {count : Nat} (d : Device) (h : count ≠ 65535) :
    (takeReading c count d).windOf c =
      { handleSpeed d.plan.site (speedOf count (d.profile c).anemometer) (d.windOf c) with holdRun := 0 } := by
  rw [takeReading_of_real c d h, modWind_windOf_self, produceSpeed, modWind_windOf_self]

theorem takeReading_faults_of_real (c : CraneIx) {count : Nat} (d : Device) (h : count ≠ 65535) :
    (takeReading c count d).faults = d.faults := by
  rw [takeReading_of_real c d h]; rfl

/-- Settles O19: a product is compared with the saturation alone, and a real reading of any size does no more to the
wind record than `handleSpeed` and a hold run of 0, which leave the channel state. -/
theorem readingBecomesSpeed : Obligations.ReadingBecomesSpeed := by
  refine ⟨fun _ _ => speedOf_of_le, fun _ _ => speedOf_of_lt, fun scale => ?_, fun count h => ?_,
    fun c count d h => ?_⟩
  · rw [speedOf_of_le (by simp), Nat.zero_mul, Nat.zero_div]
  · have hexact : count * 64 / 64 = count := Nat.mul_div_cancel count (by decide)
    rw [speedOf_of_le (hexact.le.trans h), hexact]
  · rw [takeReading_windOf_of_real c d h]
    exact ⟨handleSpeed_recent_getLast? d.plan.site _ (d.windOf c), rfl, takeReading_faults_of_real c d h⟩

/-! ### The gust (R108) -/

theorem gustOf_one (a : Nat) : gustOf [a] = a := by simp [gustOf]

theorem gustOf_two (a b : Nat) : gustOf [a, b] = (a + b + 1) / 2 := by simp [gustOf]

theorem gustOf_three (a b c : Nat) : gustOf [a, b, c] = (a + b + c + 1) / 3 := by simp [gustOf, Nat.add_assoc]

/-- A lower bound of the speeds, times their number, is at most their sum, to which rounding only adds. -/
theorem le_gustOf {l : List Nat} {lo : Nat} (hl : l ≠ []) (h : ∀ x ∈ l, lo ≤ x) : lo ≤ gustOf l := by
  have hsum : lo * l.length ≤ l.sum := by
    simpa [Nat.mul_comm] using l.card_nsmul_le_sum lo h
  exact (Nat.le_div_iff_mul_le (List.length_pos_iff.mpr hl)).mpr (Nat.le_add_right_of_le hsum)

/-- An upper bound of the speeds, times their number, is at least their sum, and half of their number does not reach
the next multiple. -/
theorem gustOf_le {l : List Nat} {hi : Nat} (hl : l ≠ []) (h : ∀ x ∈ l, x ≤ hi) : gustOf l ≤ hi := by
  have hpos : 0 < l.length := List.length_pos_iff.mpr hl
  have hsum : l.sum ≤ hi * l.length := by
    simpa [Nat.mul_comm] using l.sum_le_card_nsmul hi h
  have hround : l.sum + l.length / 2 < (hi + 1) * l.length := by
    rw [Nat.succ_mul]; omega
  exact Nat.le_of_lt_succ ((Nat.div_lt_iff_lt_mul hpos).mpr hround)

/-- After a WARMING entry the gust is drawn from the one speed that follows it (R105). -/
theorem handleSpeed_warm_lastGust (r : Site) (s : Nat) (w : WindRec) : (handleSpeed r s w.warm).lastGust = some s := by
  have hrecent : (handleSpeed r s w.warm).recent = [s] := rfl
  rw [handleSpeed_lastGust, hrecent, gustOf_one]

/-- Settles O20: the sum of the speeds lies between the multiples of their bounds, and rounding stays between them. -/
theorem gustIsRoundedMean : Obligations.GustIsRoundedMean :=
  ⟨fun _ _ => rfl, gustOf_three, gustOf_two, gustOf_one,
    fun _ _ _ hl h => ⟨le_gustOf hl fun x hx => (h x hx).1, gustOf_le hl fun x hx => (h x hx).2⟩,
    fun r s w => ⟨handleSpeed_lastGust r s w, handleSpeed_recent_length r s w⟩,
    handleSpeed_warm_lastGust⟩

end Sys2Proof.Machine
end

