-- ==== Sys2Proof/Proofs/FaultEntries.lean ====
section
/-! SUPPORT. The fault entries of chapter 11: what the outputs ALERT and ALARM read from them, and what CLEAR_FAULTS
leaves of them, with the obligations of R178 and R180 settled from both. -/

namespace Sys2Proof.Machine

/-! ### The outputs ALERT and ALARM (R178) -/

/-- Every position of Table 11-2 is that of a kind. -/
theorem FaultKind.exists_ix (i : Fin 13) : ∃ k : FaultKind, k.ix = i :=
  match i with
  | 0 => ⟨.linkLost, rfl⟩
  | 1 => ⟨.linkDegraded, rfl⟩
  | 2 => ⟨.joinRefused, rfl⟩
  | 3 => ⟨.intrusion, rfl⟩
  | 4 => ⟨.takeupLapse, rfl⟩
  | 5 => ⟨.contest, rfl⟩
  | 6 => ⟨.emergencyClaim, rfl⟩
  | 7 => ⟨.windStale, rfl⟩
  | 8 => ⟨.vaneEntered, rfl⟩
  | 9 => ⟨.vaneBlocked, rfl⟩
  | 10 => ⟨.bookingExpired, rfl⟩
  | 11 => ⟨.clockRefLost, rfl⟩
  | 12 => ⟨.planLoadFailed, rfl⟩

/-- The list of the entries holds the entry of each kind and no other. -/
theorem mem_faultEntries_iff (d : Device) (x : FaultEntry) : x ∈ d.faultEntries ↔ ∃ k, d.faultEntry k = x := by
  rw [Device.faultEntries, Vector.mem_toList_iff, Vector.mem_iff_getElem]
  constructor
  · rintro ⟨i, hi, rfl⟩
    obtain ⟨k, hk⟩ := FaultKind.exists_ix ⟨i, hi⟩
    exact ⟨k, by simp [Device.faultEntry, hk]⟩
  · rintro ⟨k, rfl⟩
    exact ⟨k.ix, k.ix.isLt, rfl⟩

theorem any_faultEntries_iff (d : Device) (p : FaultEntry → Bool) :
    d.faultEntries.any p = true ↔ ∃ k, p (d.faultEntry k) = true := by
  simp [List.any_eq_true, mem_faultEntries_iff]

theorem alert_iff (d : Device) :
    d.alert = true ↔ d.resetLow = false ∧ ∃ k, (d.faultEntry k).pending = true ∧ (d.faultEntry k).masked = false := by
  rw [Device.alert, Bool.and_eq_true, any_faultEntries_iff]
  simp

theorem alarm_iff (d : Device) :
    d.alarm = true ↔ d.resetLow = false ∧
      ∃ k, (d.faultEntry k).pending = true ∧ (d.faultEntry k).masked = false ∧ (d.faultEntry k).alarm = true := by
  rw [Device.alarm, Bool.and_eq_true, any_faultEntries_iff]
  simp [and_assoc]

/-- The kind that holds ALARM high holds ALERT high. -/
theorem alert_of_alarm {d : Device} (h : d.alarm = true) : d.alert = true := by
  obtain ⟨hreset, k, hpending, hmasked, -⟩ := (alarm_iff d).mp h
  exact (alert_iff d).mpr ⟨hreset, k, hpending, hmasked⟩

/-- Settles O23: the list the outputs look through holds the entry of each kind and no other. -/
theorem alertAndAlarmFollowEntries : Obligations.AlertAndAlarmFollowEntries :=
  fun d => ⟨alert_iff d, alarm_iff d, alert_of_alarm⟩

/-- While RESET is high the entries alone decide the outputs. -/
theorem levels_of_resetHigh (d : Device) (h : d.resetLow = false) :
    (d.alert = true ↔ ∃ k, (d.faultEntry k).pending = true ∧ (d.faultEntry k).masked = false) ∧
      (d.alarm = true ↔
        ∃ k, (d.faultEntry k).pending = true ∧ (d.faultEntry k).masked = false ∧ (d.faultEntry k).alarm = true) := by
  rw [alert_iff, alarm_iff]
  simp [h]

/-! ### A command served, and a raise that captures -/

/-- A port ready for commands makes the reply that serving the command comes to (R172). -/
theorem act_command_of_takesCommands {s : State} (h : s.takesCommands) (code : Byte) (serve : Device → Served) :
    s.act (command code serve) =
      .next (s.answered code (serve s.dev).code (serve s.dev).values (serve s.dev).dev) := by
  obtain ⟨hreset, hidle, hplan⟩ := h
  simp [State.act, State.answered, command, takeCommand, unlessLoading, Served.toReply, Device.setSup, hreset, hidle,
    hplan]

/-- The first UNMASKED raise captures its context (R177). -/
theorem raise_context_of_first {d : Device} {k : FaultKind} (a b e : Option Nat) (hpointer : d.faults.pointer = none)
    (hpending : (d.faultEntry k).pending = false) (hmasked : (d.faultEntry k).masked = false) :
    (d.raise k a b e).faults.context = some ⟨k, a, b, e, d.clock.siteTime⟩ := by
  simp [Device.raise, hpointer, hpending, hmasked]

/-! ### CLEAR_FAULTS (R180) -/

/-- A set with a bit above the last kind of Table 11-2 is refused. -/
theorem clearFaults_of_invalid {kinds : BitVec 16} (h : 8192 ≤ kinds.toNat) (d : Device) :
    clearFaults kinds d = d.refuse .invalid := by
  simp [clearFaults, kindSetValid, h]

theorem pointerNamed_of_none {u : FaultUnit} (h : u.pointer = none) (kinds : BitVec 16) :
    pointerNamed kinds u = false := by
  simp [pointerNamed, h]

theorem pointerNamed_of_some {u : FaultUnit} {k : FaultKind} (h : u.pointer = some k) (kinds : BitVec 16) :
    pointerNamed kinds u = kinds.getLsbD k.ix := by
  simp [pointerNamed, kindSetHas, h]

section valid
variable {kinds : BitVec 16} (h : kinds.toNat < 8192) (d : Device)
include h

/-- A set of kinds is answered OK, and the fault record alone changes. -/
theorem clearFaults_eq_done :
    clearFaults kinds d = Device.done { d with faults := (clearFaults kinds d).dev.faults } := by
  simp [clearFaults, kindSetValid, h, Device.done]

theorem clearFaults_entry (k : FaultKind) :
    (clearFaults kinds d).dev.faultEntry k =
      if kinds.getLsbD k.ix then { d.faultEntry k with pending := false } else d.faultEntry k := by
  have hentries : (clearFaults kinds d).dev.faults.entries =
      mapFaults kinds (fun e => { e with pending := false }) d.faults.entries := by
    simp [clearFaults, kindSetValid, h, Device.done]
  rw [Device.faultEntry, hentries, mapFaults_get]
  rfl

/-- A pointer named is emptied together with its context. -/
theorem clearFaults_of_pointerNamed (hn : pointerNamed kinds d.faults = true) :
    (clearFaults kinds d).dev.faults.pointer = none ∧ (clearFaults kinds d).dev.faults.context = none := by
  simp [clearFaults, kindSetValid, h, Device.done, hn]

/-- A pointer not named stays together with its context. -/
theorem clearFaults_of_not_pointerNamed {p : Option FaultKind} (hp : d.faults.pointer = p)
    (hn : pointerNamed kinds d.faults = false) :
    (clearFaults kinds d).dev.faults.pointer = p ∧
      (clearFaults kinds d).dev.faults.context = d.faults.context := by
  simp [clearFaults, kindSetValid, h, Device.done, hn, hp]

end valid

theorem exec_clearFaults_of_valid {kinds : BitVec 16} {s : State} (hs : s.takesCommands) (h : kinds.toNat < 8192) :
    exec (.clearFaults kinds) s = .next (s.answered 0x51 .ok [] (clearFaults kinds s.dev).dev) := by
  have hserve : exec (.clearFaults kinds) s = _ := act_command_of_takesCommands hs 0x51 (clearFaults kinds)
  rw [hserve, clearFaults_eq_done h]
  rfl

theorem exec_clearFaults_of_invalid {kinds : BitVec 16} {s : State} (hs : s.takesCommands) (h : 8192 ≤ kinds.toNat) :
    exec (.clearFaults kinds) s = .next (s.answered 0x51 .invalid [] s.dev) := by
  have hserve : exec (.clearFaults kinds) s = _ := act_command_of_takesCommands hs 0x51 (clearFaults kinds)
  rw [hserve, clearFaults_of_invalid h]
  rfl

/-- Settles O24: the state answered differs from the part cleared in the port alone, so each clause is read off what
clearing does to the entries, the pointer and the context. -/
theorem clearFaultsClearsNamedKinds : Obligations.ClearFaultsClearsNamedKinds := by
  refine ⟨fun kinds s hs h => ⟨_, exec_clearFaults_of_valid hs h, ?frame, levels_of_resetHigh _,
      fun k hk => ?named, fun k hk => ?unnamed, fun k hp hk => ?emptied, fun k hp hk => ?kept,
      fun hp => clearFaults_of_not_pointerNamed h s.dev hp (pointerNamed_of_none hp kinds),
      fun k a b e => raise_context_of_first a b e⟩,
    fun kinds s => exec_clearFaults_of_invalid,
    fun kinds k d a b e h hk =>
      ⟨?cleared, raise_pending _ k a b e, levels_of_resetHigh _, levels_of_resetHigh _⟩⟩
  case frame =>
    conv_lhs => rw [clearFaults_eq_done h]
    rfl
  case named => exact (clearFaults_entry h s.dev k).trans (if_pos hk)
  case unnamed => exact (clearFaults_entry h s.dev k).trans (if_neg (by simp [hk]))
  case emptied => exact clearFaults_of_pointerNamed h s.dev ((pointerNamed_of_some hp kinds).trans hk)
  case kept => exact clearFaults_of_not_pointerNamed h s.dev hp ((pointerNamed_of_some hp kinds).trans hk)
  case cleared => rw [clearFaults_entry h, if_pos hk]

end Sys2Proof.Machine
end

