-- ==== Sys2Proof/Proofs/StepLaws.lean ====
section
/-! SUPPORT. Every command and every step of the part keeps the laws of `Safety` that `Kept` gathers; the obligations on
those laws are its fields. -/

namespace Sys2Proof.Machine

/-! ### The Plan Store's commands -/

/-- What the Plan Store writes is none of the blocks that the laws of `Kept` speak of. -/
theorem Kept.ofPlan {d t : Device}
    (h : t = { d with
      planState := t.planState, plan := t.plan, possession := t.possession, digest := t.digest
      validation := t.validation, autoloadResult := t.autoloadResult, load := t.load }) : Kept d t := by
  rw [h]
  exact Kept.of_eq rfl rfl rfl rfl rfl rfl rfl

theorem Kept.planBegin (d : Device) : Kept d (planBegin d).dev := by
  unfold Machine.planBegin
  repeat' split
  exacts [Kept.refl d, Kept.ofPlan rfl, Kept.refl d]

theorem Kept.planPutSite (r : Site) (d : Device) : Kept d (planPutSite r d).dev := by
  unfold Machine.planPutSite
  repeat' split
  exacts [Kept.refl d, Kept.refl d, Kept.ofPlan rfl]

theorem Kept.planPutCrane (index : Nat) (p : Profile) (d : Device) : Kept d (planPutCrane index p d).dev := by
  unfold Machine.planPutCrane
  repeat' split
  exacts [Kept.refl d, Kept.refl d, Kept.refl d, Kept.ofPlan rfl]

theorem Kept.planPutCell (index : Nat) (r : CellRec) (d : Device) : Kept d (planPutCell index r d).dev := by
  unfold Machine.planPutCell
  repeat' split
  exacts [Kept.refl d, Kept.refl d, Kept.refl d, Kept.refl d, Kept.ofPlan rfl]

theorem Kept.planDropCell (index : Nat) (d : Device) : Kept d (planDropCell index d).dev := by
  unfold Machine.planDropCell
  repeat' split
  exacts [Kept.refl d, Kept.refl d, Kept.refl d, Kept.refl d, Kept.ofPlan rfl]

theorem Kept.planEnd (d : Device) : Kept d (planEnd d).dev := by
  unfold Machine.planEnd
  repeat' split
  exacts [Kept.refl d, Kept.ofPlan rfl, Kept.ofPlan rfl]

theorem Kept.planErase (d : Device) : Kept d (planErase d).dev := by
  unfold Machine.planErase
  split
  exacts [Kept.ofPlan rfl, Kept.refl d]

theorem Kept.setPossession (index value : Nat) (d : Device) : Kept d (setPossession index value d).dev := by
  unfold Machine.setPossession
  split
  · exact Kept.refl d
  · split
    · exact Kept.refl d
    · split
      exacts [Kept.refl d, Kept.ofPlan rfl]

/-! ### The load -/

theorem Kept.loading (d : Device) (l : Load) : Kept d (d.loading l) := Kept.ofPlan rfl

theorem Kept.finishLoad (staging : Plan) (trailer : BitVec 32) (d : Device) :
    Kept d (finishLoad staging trailer d) := by
  unfold Machine.finishLoad
  repeat' split
  exacts [Kept.failLoad _ _ _, Kept.trans (Kept.ofPlan rfl) (Kept.failLoad _ _ _), Kept.ofPlan rfl]

theorem Kept.loadHeader (l : Load) (bytes : List Byte) (d : Device) : Kept d (loadHeader l bytes d) := by
  unfold Machine.loadHeader
  repeat' split
  exacts [Kept.refl d, Kept.failLoad _ _ _, Kept.refl d, Kept.failLoad _ _ _, Kept.loading _ _]

theorem Kept.loadCells (l : Load) (bytes : List Byte) (d : Device) : Kept d (loadCells l bytes d) := by
  unfold Machine.loadCells
  split
  exacts [Kept.refl d, Kept.failLoad _ _ _, Kept.loading _ _]

theorem Kept.loadRead (data : Option (List Byte)) (d : Device) : Kept d (loadRead data d) := by
  unfold Machine.loadRead
  repeat' split
  exacts [Kept.refl d, Kept.failLoad _ _ _, Kept.loadHeader _ _ _, Kept.ite (Kept.refl d) (Kept.loading _ _),
    Kept.ite (Kept.refl d) (Kept.loading _ _), Kept.loadCells _ _ _, Kept.ite (Kept.refl d) (Kept.finishLoad _ _ _)]

/-! ### The Supervisor Port -/

theorem Kept.badFrame (bytes : List Byte) (d : Device) : Kept d (badFrame bytes d) := by
  unfold Machine.badFrame
  split
  exacts [Kept.setSup _ _, Kept.refl d, Kept.setSup _ _]

theorem Kept.placeReply (d : Device) : Kept d (placeReply d) := by
  unfold Machine.placeReply
  split
  exacts [Kept.setSup _ _, Kept.refl d]

theorem Kept.readTransfer (n : Nat) (d : Device) : Kept d (readTransfer n d) := by
  unfold Machine.readTransfer
  split
  · exact Kept.ite (Kept.of_eq rfl rfl rfl rfl rfl rfl rfl) (Kept.of_eq rfl rfl rfl rfl rfl rfl rfl)
  · exact Kept.of_eq rfl rfl rfl rfl rfl rfl rfl

/-- A reading command answers with the part as it is. -/
theorem Kept.ofUnchanged {d : Device} {r : Served} (h : r.dev = d) : Kept d r.dev := by
  rw [h]
  exact Kept.refl d

theorem readPlanItem_dev (item index : Nat) (d : Device) : (readPlanItem item index d).dev = d := by
  unfold readPlanItem
  split <;> rfl

theorem readCrane_dev (index : Nat) (d : Device) : (readCrane index d).dev = d := by
  unfold readCrane
  split <;> rfl

theorem readCell_dev (index : Nat) (d : Device) : (readCell index d).dev = d := by
  unfold readCell
  split <;> rfl

theorem readBooking_dev (id : Nat) (d : Device) : (readBooking id d).dev = d := by
  unfold readBooking
  split <;> rfl

theorem nextBooking_dev (id : Nat) (d : Device) : (nextBooking id d).dev = d := by
  unfold nextBooking
  split <;> rfl

theorem Kept.holdBookings (index value : Nat) (d : Device) : Kept d (holdBookings index value d).dev := by
  unfold Machine.holdBookings
  repeat' split
  exacts [Kept.refl d, Kept.of_eq rfl rfl rfl rfl rfl rfl rfl, Kept.refl d]

/-! ### Every command and every step -/

theorem State.act_next (s : State) (f : Device → Device) :
    s.act f = .next { s with dev := if s.dev.resetLow then s.dev else f s.dev } := rfl

/-- A law that holds from a part to itself, and from the part to what a command makes of it, holds across the command,
RESET low or not. -/
theorem act_rel {R : Device → Device → Prop} {s t : State} {f : Device → Device} (h : s.act f = .next t)
    (hrefl : R s.dev s.dev) (hf : R s.dev (f s.dev)) : R s.dev t.dev := by
  rw [State.act_next] at h
  cases h
  dsimp only
  split
  exacts [hrefl, hf]

theorem act_kept {s t : State} {f : Device → Device} (h : s.act f = .next t) (hf : ∀ d, Kept d (f d)) :
    Kept s.dev t.dev := act_rel h (Kept.refl _) (hf _)

theorem act_command_kept {s t : State} {code : Byte} {serve : Device → Served}
    (h : s.act (command code serve) = .next t)
    (hf : ∀ d, Kept d (serve d).dev) : Kept s.dev t.dev := act_kept h fun d => Kept.command code serve d hf

theorem act_frame_kept {s t : State} {c : CraneIx} {restart : Bool} {f : CraneFrame}
    (h : s.act (deliver c restart f) = .next t) : Kept s.dev t.dev := act_kept h fun d => Kept.deliver c restart f d

theorem act_expiry_kept {s t : State} {x : Timer} (h : s.act (fun d => expireIfDue d x) = .next t) : Kept s.dev t.dev :=
  act_kept h fun d => Kept.expireIfDue d x

/-- Every command keeps the laws. -/
theorem exec_kept {i : Instr} {s t : State} (h : exec i s = .next t) : Kept s.dev t.dev := by
  cases i with
  | coldReset => cases h; exact Kept.resetLow s.dev
  | resetHigh => cases h; exact Kept.resetHigh s.dev
  | autoloadRead data => exact act_kept h fun d => Kept.loadRead data d
  | autoloadTimeout => exact act_expiry_kept h
  | frameCheckFailed c bytes => exact act_kept h fun d => Kept.failCandidate c bytes d
  | frameRejected c address kind payload => exact act_kept h fun d => Kept.countErrored c d
  | hello c restart digest => exact act_frame_kept (f := .hello digest) h
  | report c restart r => exact act_frame_kept (f := .report r) h
  | claim c restart cell cls => exact act_frame_kept (f := .claim cell cls) h
  | release c restart cell => exact act_frame_kept (f := .release cell) h
  | book c restart b => exact act_frame_kept (f := .book b) h
  | cancel c restart id => exact act_frame_kept (f := .cancel id) h
  | liftStart c restart id => exact act_frame_kept (f := .liftStart id) h
  | liftEnd c restart id => exact act_frame_kept (f := .liftEnd id) h
  | liftAbort c restart id => exact act_frame_kept (f := .liftAbort id) h
  | resume c restart => exact act_frame_kept (f := .resume) h
  | leave c restart => exact act_frame_kept (f := .leave) h
  | query c restart item index segment => exact act_frame_kept (f := .query item index segment) h
  | transmitComplete c => exact act_kept h fun d => Kept.transmitDone c d
  | joinWaitExpiry c => exact act_expiry_kept h
  | linkTimerExpiry c => exact act_expiry_kept h
  | qualityPeriodExpiry c => exact act_expiry_kept h
  | takeUpExpiry k => exact act_expiry_kept h
  | lingerExpiry k => exact act_expiry_kept h
  | silenceTimerExpiry c => exact act_expiry_kept h
  | vaneClearTimerExpiry c => exact act_expiry_kept h
  | pulseWaitTimerExpiry => exact act_expiry_kept h
  | fallbackTimerExpiry => exact act_expiry_kept h
  | mastPulse => exact act_kept h Kept.mastPulse
  | ppsPulse => exact act_kept h Kept.ppsPulse
  | supervisorBadFrame bytes => exact act_kept h fun d => Kept.badFrame bytes d
  | supervisorRead n => exact act_kept h fun d => Kept.readTransfer n d
  | planBegin => exact act_command_kept h Kept.planBegin
  | planPutSite r => exact act_command_kept h (Kept.planPutSite r)
  | planPutCrane index p => exact act_command_kept h (Kept.planPutCrane index p)
  | planPutCell index r => exact act_command_kept h (Kept.planPutCell index r)
  | planDropCell index => exact act_command_kept h (Kept.planDropCell index)
  | planEnd => exact act_command_kept h Kept.planEnd
  | planErase => exact act_command_kept h Kept.planErase
  | possession index value => exact act_command_kept h (Kept.setPossession index value)
  | readPlanItem item index => exact act_command_kept h fun d => Kept.ofUnchanged (readPlanItem_dev item index d)
  | readCrane index => exact act_command_kept h fun d => Kept.ofUnchanged (readCrane_dev index d)
  | readCell index => exact act_command_kept h fun d => Kept.ofUnchanged (readCell_dev index d)
  | readBooking id => exact act_command_kept h fun d => Kept.ofUnchanged (readBooking_dev id d)
  | nextBooking id => exact act_command_kept h fun d => Kept.ofUnchanged (nextBooking_dev id d)
  | setClock time => exact act_command_kept h (Kept.setClock time)
  | detach index => exact act_command_kept h (Kept.detach index)
  | forceVane index => exact act_command_kept h (Kept.forceVane index)
  | setWindSource index value => exact act_command_kept h (Kept.setWindSource index value)
  | supervisorBook index b => exact act_command_kept h (Kept.supervisorBook index b)
  | cancelBooking id => exact act_command_kept h (Kept.cancelBooking id)
  | abortBooking id => exact act_command_kept h (Kept.abortBooking id)
  | holdBookings index value => exact act_command_kept h (Kept.holdBookings index value)
  | readFaults => exact act_kept h fun d => Kept.takeCommand _ _ d Kept.refl
  | clearFaults kinds => exact act_command_kept h (Kept.clearFaults kinds)
  | setFaultMask kinds value => exact act_command_kept h (Kept.setFaultMask kinds value)
  | setFaultSeverity kinds value => exact act_command_kept h (Kept.setFaultSeverity kinds value)
  | warmRestart => exact act_command_kept h Kept.warmReset
  | linkByteReceived c b => exact act_kept h fun d => Kept.byteReceived c b d
  | replyPlaced => exact act_kept h Kept.placeReply
  | unknownCommand code args => exact act_kept h fun d => Kept.takeCommand _ _ d Kept.refl

theorem Kept.idle (d : Device) : Kept d (idle d) :=
  Kept.ite (Kept.refl d) (Kept.ite (Kept.servePorts d) (Kept.ite (Kept.expireDue d) (Kept.tickTimers d)))

theorem step_nil {s : State} (h : s.pending = []) : step s = .next { s with dev := idle s.dev } := by
  simp [step, h]

theorem step_cons {s : State} {i : Instr} {rest : List Instr} (h : s.pending = i :: rest) :
    step s = exec i { s with pending := rest } := by
  simp [step, h]

/-- A relation between parts that every command and an idle step obey holds across every step. -/
theorem step_rel {R : Device → Device → Prop} (hidle : ∀ d, R d (idle d))
    (hexec : ∀ (i : Instr) (s t : State), exec i s = .next t → R s.dev t.dev) {s t : State} (h : step s = .next t) :
    R s.dev t.dev := by
  cases hp : s.pending with
  | nil =>
    rw [step_nil hp] at h
    cases h
    exact hidle s.dev
  | cons i rest =>
    rw [step_cons hp] at h
    exact (hexec i { s with pending := rest } t h :)

/-- Every step keeps the laws. -/
theorem step_kept {s t : State} (h : step s = .next t) : Kept s.dev t.dev :=
  step_rel Kept.idle (fun _ _ _ => exec_kept) h

/-- Settles O5: the pointer's law is one that every step keeps. -/
theorem faultPointerNamesPendingKind : Obligations.FaultPointerNamesPendingKind :=
  fun _ _ hs h => (step_kept h).faults hs

/-- Settles O6: so are the two laws of a wind record. -/
theorem windRecordsStayLawful : Obligations.WindRecordsStayLawful :=
  ⟨fun _ _ hs h => (step_kept h).classes hs, fun _ _ hs h => (step_kept h).ranges hs⟩

/-- Settles O8: so are the bounds of the buffers. -/
theorem linkBuffersStayBounded : Obligations.LinkBuffersStayBounded := fun _ _ hs h => (step_kept h).ports hs

/-- Settles O9: so is the law of a claim record. -/
theorem claimRecordsStayLawful : Obligations.ClaimRecordsStayLawful := fun _ _ hs h => (step_kept h).cells hs

/-- Settles O10: so is the law of the booking table. -/
theorem bookingTableStaysLawful : Obligations.BookingTableStaysLawful := fun _ _ hs h => (step_kept h).table hs

/-! ### The weathervane law (R94) -/

theorem holdsWeathervane_iff (d : Device) (c : CraneIx) :
    d.holdsWeathervane c = true ↔ ∀ k, d.hasJib c k = true →
      (d.cell k).standing.holder = some c ∧ (d.cell k).standing.cls = some .weathervane := by
  simp only [Device.holdsWeathervane, Device.jibCells, List.all_filter, List.all_eq_true, mem_allCells, true_imp_iff,
    Bool.or_eq_true, Bool.not_eq_true', Bool.and_eq_true, beq_iff_eq, ← Bool.not_eq_true, ← imp_iff_not_or]

theorem parked_iff (d : Device) (c : CraneIx) :
    d.parked c = true ↔
      ∃ r, d.reachOf c = some r ∧ r.pos.radius ≤ (d.profile c).parkRadius ∧ (d.profile c).parkHeight ≤ r.pos.hook := by
  unfold Device.parked
  cases d.reachOf c <;> simp

/-- Parked with every weathervane claim held is what the brake and the clearing checks ask for (R94, R124). -/
theorem readyToVane_iff (d : Device) (c : CraneIx) :
    d.readyToVane c ↔ d.parked c = true ∧ d.holdsWeathervane c = true := by
  rw [Device.readyToVane, parked_iff, holdsWeathervane_iff]

theorem brakeReleased_iff (d : Device) (c : CraneIx) :
    d.brakeReleased c = true ↔
      (d.windOf c).state = .vane .forced ∨ ((d.windOf c).state = .vane .vaneFree ∧ d.readyToVane c) := by
  rw [readyToVane_iff]
  unfold Device.brakeReleased
  split <;> simp_all

/-- Settles O7: every step keeps the law, every permit composed obeys it, and its brake field is the brake's test. -/
theorem weathervaneLawKept : Obligations.WeathervaneLawKept :=
  ⟨fun _ _ hs h => (step_kept h).permits hs, fun d c seq => ⟨compose_lawful d c seq, brakeReleased_iff d c⟩⟩

/-! ### The machine, the reset state -/

theorem exec_next (i : Instr) (s : State) : ∃ t, exec i s = .next t ∧ t.pending = s.pending := by
  cases i <;> exact ⟨_, rfl, rfl⟩

/-- Settles O1: a step on an empty queue leaves it empty, one on a command leaves the queue's rest. -/
theorem stepRunsFrontCommand : Obligations.StepRunsFrontCommand := by
  refine ⟨fun s i rest h => step_cons h, fun s => ?_⟩
  cases hp : s.pending with
  | nil => exact ⟨_, step_nil hp, by simp [hp]⟩
  | cons i rest =>
    obtain ⟨t, ht, hq⟩ := exec_next i { s with pending := rest }
    exact ⟨t, (step_cons hp).trans ht, by rw [hq, hp]; rfl⟩

theorem crane_cold (c : CraneIx) : Device.cold.crane c = CraneRec.reset := by
  simp [Device.crane, Device.cold]

theorem cold_planLawful : Device.cold.planLawful :=
  ⟨fun h => by simp [Device.cold] at h,
    fun _ => ⟨fun c => by rw [Device.membership, crane_cold]; rfl, rfl⟩, fun _ => rfl, fun c _ => crane_cold c⟩

/-- Settles O4: the cold values obey each law. -/
theorem resetStateIsLawful : Obligations.ResetStateIsLawful := by
  obtain ⟨hfaults, hwind, hpermits, hports, hcells, htable⟩ := cold_lawful
  exact ⟨hfaults, hwind, hpermits, hports, hcells, htable, cold_planLawful⟩

end Sys2Proof.Machine
end

