-- ==== Sys2Proof/Proofs/FrameCodec.lean ====
section
/-! SUPPORT. Crane frames and supervisor commands as bytes: what is encoded decodes to the command it was made from
(sections 10.1, 10.2, 10.4, 11.1 and 11.2), and a crane frame's row serves the frame its bytes deliver. -/

namespace Sys2Proof.Machine

/-! ### A frame's row -/

/-- Serving a crane frame's row is the delivery of the frame (R23). -/
theorem exec_frame (c : CraneIx) (restart : Bool) (f : CraneFrame) (s : State) :
    exec (f.instr c restart) s = s.act (deliver c restart f) := by
  cases f <;> rfl

theorem instr_of_craneFrame {i : Instr} {c : CraneIx} {restart : Bool} {f : CraneFrame}
    (h : i.craneFrame = some (c, restart, f)) : i = f.instr c restart := by
  cases i <;> cases h <;> rfl

theorem ForCrane.deliver (c : CraneIx) (restart : Bool) (f : CraneFrame) (d : Device) :
    ForCrane c d (deliver c restart f d) := by
  cases f with
  | hello digest => exact ForCrane.withStreak c restart _ d (ForCrane.hello c digest)
  | report r =>
    exact ForCrane.ite (ForCrane.withStreak c restart _ d (ForCrane.takeReport c r)) (ForCrane.countErrored c d)
  | claim cell cls => exact ForCrane.withStreak c restart _ d (ForCrane.claimFrame c cell cls)
  | release cell => exact ForCrane.withStreak c restart _ d (ForCrane.releaseFrame c cell)
  | book b =>
    exact ForCrane.ite (ForCrane.withStreak c restart _ d (ForCrane.bookFrame c b)) (ForCrane.countErrored c d)
  | cancel id => exact ForCrane.withStreak c restart _ d (ForCrane.cancelFrame c id)
  | liftStart id => exact ForCrane.withStreak c restart _ d (ForCrane.liftStartFrame c id)
  | liftEnd id => exact ForCrane.withStreak c restart _ d (ForCrane.liftEndFrame c id)
  | liftAbort id => exact ForCrane.withStreak c restart _ d (ForCrane.liftAbortFrame c id)
  | resume => exact ForCrane.withStreak c restart _ d (ForCrane.resumeFrame c)
  | leave => exact ForCrane.withStreak c restart _ d (ForCrane.leave c)
  | query item index segment => exact ForCrane.withStreak c restart _ d (ForCrane.queryFrame c item index segment)

/-- Settles O11: serving a crane frame is an operation on behalf of that crane. -/
theorem craneFrameTouchesOnlyItsCrane : Obligations.CraneFrameTouchesOnlyItsCrane := by
  intro i c restart f s t hi h
  rw [instr_of_craneFrame hi, exec_frame] at h
  have hfor : ForCrane c s.dev t.dev := act_rel h (ForCrane.refl c s.dev) (ForCrane.deliver c restart f s.dev)
  exact ⟨hfor.others, ⟨hfor.candidate, hfor.rescan, hfor.line⟩, hfor.rest⟩

/-! ### Numbers in one, two and four bytes -/

theorem byte_toNat_of_lt {n : Nat} (h : n < 256) : (byte n).toNat = n := by rw [byte_toNat]; omega

theorem field_byte {n : Nat} (h : n < 256) (l : List Byte) : field 0 1 (byte n :: l) = n := by
  rw [field_one, byte_toNat_of_lt h]

theorem field_beBytes_two {n : Nat} (h : n < 65536) (l : List Byte) : field 0 2 (beBytes 2 n ++ l) = n := by
  simp only [beBytes_two, List.cons_append, List.nil_append, field_two, byte_toNat]
  omega

theorem field_beBytes_four {n : Nat} (h : n < 4294967296) (l : List Byte) : field 0 4 (beBytes 4 n ++ l) = n := by
  simp only [beBytes_four, List.cons_append, List.nil_append, field_four, byte_toNat]
  omega

/-! ### Crane frames -/

/-- No frame's payload is longer than a frame can carry (R163). -/
theorem payload_length_le (f : CraneFrame) (h : f.wf = true) : f.payload.length ≤ 60 := by
  cases f with
  | book b =>
    simp only [CraneFrame.wf, Bool.and_eq_true, decide_eq_true_eq] at h
    simp only [CraneFrame.payload, bookBytes_length]
    omega
  | report r => simp [CraneFrame.payload, reportBytes_length]
  | _ => simp [CraneFrame.payload]

/-- A well-formed frame's payload reads back under its kind code (R165, R167). -/
theorem decodePayload_payload (f : CraneFrame) (h : f.wf = true) :
    decodePayload (byte f.kindCode) f.payload = .ok f := by
  cases f with
  | hello digest =>
    have hfield := field_beBytes_four digest.isLt []
    rw [List.append_nil] at hfield
    simp [CraneFrame.kindCode, CraneFrame.payload, decodePayload, byte_toNat, hfield]
  | report r =>
    simp [CraneFrame.kindCode, CraneFrame.payload, decodePayload, byte_toNat, reportBytes_length,
      readReport_reportBytes r h]
  | claim cell cls =>
    simp only [CraneFrame.wf, oneByte, Bool.and_eq_true, decide_eq_true_eq] at h
    simp [CraneFrame.kindCode, CraneFrame.payload, decodePayload, byte_toNat, field_succ, field_byte h.1,
      field_byte h.2]
  | release cell =>
    simp only [CraneFrame.wf, oneByte, decide_eq_true_eq] at h
    simp [CraneFrame.kindCode, CraneFrame.payload, decodePayload, byte_toNat, field_byte h]
  | book b =>
    simp only [CraneFrame.wf, Bool.and_eq_true, decide_eq_true_eq] at h
    obtain ⟨⟨hb, hform⟩, hpath⟩ := h
    simp [CraneFrame.kindCode, CraneFrame.payload, decodePayload, byte_toNat, bookBytes_length,
      bookBytes_count b (by omega), bookBytes_form b (by omega), hform, readBook_bookBytes b hb]
  | cancel id | liftStart id | liftEnd id | liftAbort id =>
    simp only [CraneFrame.wf, twoBytes, decide_eq_true_eq] at h
    have hfield := field_beBytes_two h []
    rw [List.append_nil] at hfield
    simp [CraneFrame.kindCode, CraneFrame.payload, decodePayload, byte_toNat, hfield]
  | resume | leave => simp [CraneFrame.kindCode, CraneFrame.payload, decodePayload, byte_toNat]
  | query item index segment =>
    simp only [CraneFrame.wf, oneByte, twoBytes, Bool.and_eq_true, decide_eq_true_eq] at h
    obtain ⟨⟨hitem, hindex⟩, hsegment⟩ := h
    have h1 : field 1 2 (byte item :: (beBytes 2 index ++ [byte segment])) = index :=
      (field_succ 0 2 _ _).trans (field_beBytes_two hindex _)
    have h3 : field 3 1 (byte item :: (beBytes 2 index ++ [byte segment])) = segment := by
      rw [beBytes_two]
      exact (field_succ 2 1 _ _).trans ((field_succ 1 1 _ _).trans ((field_succ 0 1 _ _).trans (field_byte hsegment _)))
    simp [CraneFrame.kindCode, CraneFrame.payload, decodePayload, byte_toNat, field_byte hitem, h1, h3]

/-- The port's own frame passes the checks of R165, its restart flag read from bit 7 of the address. -/
theorem judgeFrame_payload (c : CraneIx) (restart : Bool) (f : CraneFrame) (h : f.wf = true) :
    judgeFrame c (byte (c.val + if restart then 128 else 0)) (byte f.kindCode) f.payload = .accepted restart f := by
  have hc := c.isLt
  cases restart with
  | false =>
    have ha : (byte c.val).toNat = c.val := byte_toNat_of_lt (by omega)
    have hlow : ¬128 ≤ c.val := by omega
    simp [judgeFrame, ha, decodePayload_payload f h, hlow]
  | true =>
    have ha : (byte (c.val + 128)).toNat = c.val + 128 := byte_toNat_of_lt (by omega)
    simp [judgeFrame, ha, decodePayload_payload f h]

theorem judgeCandidate_encodeCraneFrame (c : CraneIx) (restart : Bool) (f : CraneFrame) (h : f.wf = true) :
    judgeCandidate c (encodeCraneFrame c restart f) = .accepted restart f := by
  rw [encodeCraneFrame, judgeCandidate_encode c _ _ _ (payload_length_le f h), judgeFrame_payload c restart f h]

theorem encodeCraneFrame_good (c : CraneIx) (restart : Bool) (f : CraneFrame) (h : f.wf = true) :
    candidateDone (encodeCraneFrame c restart f) = true ∧ candidateGood (encodeCraneFrame c restart f) = true :=
  encodeFrameBody_good _ _ _ (payload_length_le f h)

/-- Settles O12: an encoded frame is a good candidate, finished at its last byte, whose payload reads back. -/
theorem craneFramesDecodeAsEncoded : Obligations.CraneFramesDecodeAsEncoded := by
  intro c restart f h
  obtain ⟨hdone, hgood⟩ := encodeCraneFrame_good c restart f h
  refine ⟨hdone, ?_, encodeFrameBody_take _ _ _ (payload_length_le f h)⟩
  rw [decodeCandidate, if_pos hgood, judgeCandidate_encodeCraneFrame c restart f h]

/-! ### Supervisor commands -/

/-- A command's arguments read back under its code (R174, R175). -/
theorem decodeCommand_commandBytes {i : Instr} {code : Nat} {args : List Byte} (h : i.wf = true)
    (hb : commandBytes i = some (code, args)) : decodeCommand (byte code) args = some i := by
  cases i <;> cases hb
  case planPutSite r => simp [decodeCommand, siteBytes_length, readSite_siteBytes r h]
  case planPutCrane index p =>
    simp only [Instr.wf, oneByte, Bool.and_eq_true, decide_eq_true_eq] at h
    have hread : readProfile (profileBytes p) = p := by simpa using readProfile_profileBytes p [] h.2
    simp [decodeCommand, profileBytes_length, field_byte h.1, hread]
  case planPutCell index r =>
    simp only [Instr.wf, oneByte, Bool.and_eq_true, decide_eq_true_eq] at h
    obtain ⟨hindex, hr⟩ := h
    have hcount : field 5 1 (cellBytes index r) = r.footprints.length := by
      simp only [CellRec.wf, oneByte, Bool.and_eq_true, decide_eq_true_eq] at hr
      simp only [cellBytes, List.cons_append, field_succ]
      exact field_byte hr.1.2 _
    have hix : field 0 1 (cellBytes index r) = index := field_byte hindex _
    simp [decodeCommand, cellBytes_length, hcount, hix, readCellRec_cellBytes index r hr]
  case supervisorBook index b =>
    simp only [Instr.wf, oneByte, Bool.and_eq_true, decide_eq_true_eq] at h
    obtain ⟨⟨hindex, hb⟩, hpath⟩ := h
    have hcount : field 12 1 (byte index :: bookBytes b) = b.path.length :=
      (field_succ 11 1 _ _).trans (bookBytes_count b hpath)
    simp [decodeCommand, bookBytes_length, hcount, field_byte hindex, readBook_bookBytes b hb]
    omega
  case readBooking id | nextBooking id | cancelBooking id | abortBooking id =>
    simp only [Instr.wf, twoBytes, decide_eq_true_eq] at h
    have hfield := field_beBytes_two h []
    rw [List.append_nil] at hfield
    simp [decodeCommand, hfield]
  case setClock time =>
    simp only [Instr.wf, fourBytes, decide_eq_true_eq] at h
    have hfield := field_beBytes_four h []
    rw [List.append_nil] at hfield
    simp [decodeCommand, hfield]
  case clearFaults kinds =>
    have hfield := field_beBytes_two kinds.isLt []
    rw [List.append_nil] at hfield
    simp [decodeCommand, hfield]
  case setFaultMask kinds value | setFaultSeverity kinds value =>
    simp only [Instr.wf, oneByte, decide_eq_true_eq] at h
    have hvalue : field 2 1 (beBytes 2 kinds.toNat ++ [byte value]) = value := by
      rw [beBytes_two]
      exact (field_succ 1 1 _ _).trans ((field_succ 0 1 _ _).trans (field_byte h _))
    simp [decodeCommand, field_beBytes_two kinds.isLt, hvalue]
  case possession index value | readPlanItem index value | setWindSource index value | holdBookings index value =>
    simp only [Instr.wf, oneByte, Bool.and_eq_true, decide_eq_true_eq] at h
    simp [decodeCommand, field_succ, field_byte h.1, field_byte h.2]
  case planDropCell index | readCrane index | readCell index | detach index | forceVane index =>
    simp only [Instr.wf, oneByte, decide_eq_true_eq] at h
    simp [decodeCommand, field_byte h]
  all_goals rfl


/-- A command's argument bytes are fewer than the length of a frame counts (Table 11-3). -/
theorem commandBytes_length_lt {i : Instr} {code : Nat} {args : List Byte} (h : i.wf = true)
    (hb : commandBytes i = some (code, args)) : args.length < 65535 := by
  cases i <;> cases hb
  case planPutCell index r =>
    simp only [Instr.wf, CellRec.wf, oneByte, Bool.and_eq_true, decide_eq_true_eq] at h
    simp only [cellBytes_length]
    omega
  case supervisorBook index b =>
    simp only [Instr.wf, oneByte, Bool.and_eq_true, decide_eq_true_eq] at h
    simp only [List.length_cons, bookBytes_length]
    omega
  all_goals simp [siteBytes_length, profileBytes_length]

theorem byte_mod (n : Nat) : byte (n % 256) = byte n :=
  BitVec.eq_of_toNat_eq (by simp [byte_toNat])

/-- Settles O13: the frame's length, code and check bytes are its own, and its arguments read back. -/
theorem supervisorFramesDecodeAsEncoded : Obligations.SupervisorFramesDecodeAsEncoded := by
  intro i l hwf hencode
  obtain ⟨⟨code, args⟩, hbytes, rfl⟩ := Option.map_eq_some_iff.mp hencode
  obtain ⟨hgood, hlength, hcode, hargs⟩ := encodeSupervisorBody_good code args (commandBytes_length_lt hwf hbytes)
  refine ⟨hgood, ?_⟩
  simp only [decodeTransfer, if_true, decodeSupervisorFrame, if_pos hgood, hlength, hcode,
    Nat.add_sub_cancel, hargs, byte_mod, decodeCommand_commandBytes hwf hbytes, Option.getD_some]

/-! ### The frames written out -/

/-- The bytes written out are those the encoder gives for the frame, so they decode to its command. -/
theorem decodeCandidate_of_bytes (c : CraneIx) (restart : Bool) {f : CraneFrame} {l : List Byte} (h : f.wf = true)
    (hl : encodeCraneFrame c restart f = l) : decodeCandidate c l = f.instr c restart :=
  hl ▸ (craneFramesDecodeAsEncoded c restart f h).2.1

theorem decodeTransfer_of_bytes {i : Instr} {l : List Byte} (h : i.wf = true)
    (hl : encodeSupervisorFrame i = some l) : decodeTransfer (0x01 :: l) = some i :=
  (supervisorFramesDecodeAsEncoded i l h hl).2

/-- Settles O14: each written-out frame is what the encoder gives for its command. -/
theorem writtenOutFramesDecode : Obligations.WrittenOutFramesDecode :=
  ⟨⟨decodeCandidate_of_bytes 3 false (f := .claim 17 2) rfl (by decide +kernel),
    decodeCandidate_of_bytes 5 true (f := .resume) rfl (by decide +kernel),
    decodeTransfer_of_bytes rfl (by decide +kernel),
    decodeTransfer_of_bytes rfl (by decide +kernel)⟩, by decide +kernel, by decide +kernel⟩

end Sys2Proof.Machine
end

