-- ==== Sys2Proof/Proofs/LinkReceiver.lean ====
section
/-! SUPPORT. The receiver of a link port (section 10.2): what one byte does on a port with nothing waiting, the two
stores read as one sequence, and the bytes of a whole frame taken one by one. -/

namespace Sys2Proof.Machine

theorem act_of_high {s : State} (f : Device → Device) (h : s.dev.resetLow = false) :
    s.act f = .next { s with dev := f s.dev } := by
  rw [State.act_next, h]
  rfl

/-- What a row makes of the part while RESET is high. -/
theorem act_to {s : State} {f : Device → Device} {d : Device} (h : s.dev.resetLow = false) (hf : f s.dev = d) :
    s.act f = .next { s with dev := d } := (act_of_high f h).trans (by rw [hf])

@[simp] theorem Device.setPort_setPort (d : Device) (c : CraneIx) (p q : Port) :
    (d.setPort c p).setPort c q = d.setPort c q := by
  simp [Device.setPort]

/-! ### One byte on a port with nothing waiting -/

/-- With nothing waiting the port takes the arriving byte at once (entry 8). -/
theorem byteReceived_alone {d : Device} {c : CraneIx} (b : Byte) (hrescan : (d.port c).rescan = [])
    (hline : (d.port c).line = []) :
    byteReceived c b d =
      match (d.port c).take b with
      | (p, none) => d.setPort c p
      | (p, some bytes) => finishCandidate c bytes (d.setPort c p) := by
  have harrive : (d.port c).arrive b = { d.port c with line := [b] } := by
    simp [Port.arrive, hline, Config.lineCapacity]
  have hnext : ({ d.port c with line := [b] } : Port).next = some (b, d.port c) := by
    rcases hp : d.port c with ⟨candidate, rescan, line, sending, queue⟩
    rw [hp] at hrescan hline
    cases hrescan
    cases hline
    rfl
  have hhunt : ({ d.port c with line := [b] } : Port).hunt 1 = (d.port c).take b := by
    simp only [Port.hunt, hnext]
    rcases (d.port c).take b with ⟨p, _ | bytes⟩ <;> rfl
  have hwaiting : ({ d.port c with line := [b] } : Port).waiting = 1 := by simp [Port.waiting, hrescan]
  unfold byteReceived servePort
  rw [harrive, Device.setPort_port_self, hwaiting, hhunt]
  rcases (d.port c).take b with ⟨p, _ | bytes⟩ <;> simp

theorem byteReceived_hunting {d : Device} {c : CraneIx} (b : Byte) (hcandidate : (d.port c).candidate = none)
    (hrescan : (d.port c).rescan = []) (hline : (d.port c).line = []) :
    byteReceived c b d = d.setPort c { d.port c with candidate := if b = 0xA6 then some [] else none } := by
  rw [byteReceived_alone b hrescan hline]
  simp [Port.take, hcandidate]

theorem byteReceived_collecting {d : Device} {c : CraneIx} {l : List Byte} (b : Byte)
    (hcandidate : (d.port c).candidate = some l) (hrescan : (d.port c).rescan = []) (hline : (d.port c).line = [])
    (hdone : candidateDone (l ++ [b]) = false) :
    byteReceived c b d = d.setPort c { d.port c with candidate := some (l ++ [b]) } := by
  rw [byteReceived_alone b hrescan hline]
  simp [Port.take, hcandidate, hdone]

theorem byteReceived_finishing {d : Device} {c : CraneIx} {l : List Byte} (b : Byte)
    (hcandidate : (d.port c).candidate = some l) (hrescan : (d.port c).rescan = []) (hline : (d.port c).line = [])
    (hdone : candidateDone (l ++ [b]) = true) :
    byteReceived c b d = finishCandidate c (l ++ [b]) (d.setPort c { d.port c with candidate := none }) := by
  rw [byteReceived_alone b hrescan hline]
  simp [Port.take, hcandidate, hdone]

/-! ### A frame's bytes in a row -/

theorem run_succ_of_next (M : Host.Core) (n : Nat) {s t : M.State} (h : M.step s = .next t) :
    M.run (n + 1) s = M.run n t := by
  rw [Host.Core.run, h]

/-- One step takes the byte at the front of the queue. -/
theorem run_byte (n : Nat) (c : CraneIx) (b : Byte) {d : Device} (rest : List Instr) (h : d.resetLow = false) :
    Host.Core.run Sys2Proof.core (n + 1) ⟨d, .linkByteReceived c b :: rest⟩ =
      Host.Core.run Sys2Proof.core n ⟨byteReceived c b d, rest⟩ :=
  run_succ_of_next Sys2Proof.core n (act_of_high (s := ⟨d, rest⟩) (byteReceived c b) h)

/-- The part with an open candidate on the port of a crane. -/
def Device.collecting (d : Device) (c : CraneIx) (l : List Byte) : Device :=
  d.setPort c { d.port c with candidate := some l }

/-- The rest of a frame's bytes, on a candidate that the bytes before them opened, come to the frame's delivery. -/
theorem run_rest {d : Device} {c : CraneIx} {restart : Bool} {f : CraneFrame} (rest : List Instr) (hf : f.wf = true)
    (hreset : d.resetLow = false) (hcandidate : (d.port c).candidate = none)
    (hrescan : (d.port c).rescan = []) (hline : (d.port c).line = []) :
    ∀ b later before, encodeCraneFrame c restart f = before ++ b :: later →
      Host.Core.run Sys2Proof.core (b :: later).length
        ⟨d.collecting c before, (b :: later).map (fun b => .linkByteReceived c b) ++ rest⟩ =
        .next ⟨deliver c restart f d, rest⟩ := by
  intro b later
  induction later generalizing b with
  | nil =>
    intro before hbytes
    have hgood := encodeCraneFrame_good c restart f hf
    rw [hbytes] at hgood
    have hself : d.setPort c { d.port c with candidate := none } = d := by
      rw [← hcandidate]
      exact Device.setPort_eq_self d c
    have hfinish : byteReceived c b (d.collecting c before) = deliver c restart f d := by
      rw [byteReceived_finishing (l := before) b (by simp [Device.collecting]) (by simpa [Device.collecting])
        (by simpa [Device.collecting]) hgood.1, finishCandidate, if_pos hgood.2, ← hbytes,
        judgeCandidate_encodeCraneFrame c restart f hf]
      simp [Device.collecting, hself]
    have hstep := run_byte 0 c b rest (d := d.collecting c before) hreset
    rw [hfinish] at hstep
    exact hstep
  | cons b' later ih =>
    intro before hbytes
    have hdone : candidateDone (before ++ [b]) = false := by
      have htake := (craneFramesDecodeAsEncoded c restart f hf).2.2 (before.length + 1) (by simp [hbytes])
      rwa [hbytes, List.take_length_add_append] at htake
    have hopen : byteReceived c b (d.collecting c before) = d.collecting c (before ++ [b]) := by
      rw [byteReceived_collecting (l := before) b (by simp [Device.collecting]) (by simpa [Device.collecting])
        (by simpa [Device.collecting]) hdone]
      simp [Device.collecting]
    have hstep := run_byte (b' :: later).length c b ((b' :: later).map (fun b => .linkByteReceived c b) ++ rest)
      (d := d.collecting c before) hreset
    rw [hopen] at hstep
    exact hstep.trans (ih b' (before ++ [b]) (by simp [hbytes]))

/-- Settles O15: the start byte opens the candidate, and the bytes after it come to the delivery. -/
theorem linkBytesDeliverTheFrame : Obligations.LinkBytesDeliverTheFrame := by
  intro c restart f s rest hf hreset hcandidate hrescan hline
  refine ⟨_, (exec_frame c restart f _).trans (act_of_high _ hreset), ?_⟩
  have hstart : byteReceived c 0xA6 s.dev = s.dev.collecting c [] := byteReceived_hunting 0xA6 hcandidate hrescan hline
  refine (run_byte _ c 0xA6 _ hreset).trans ?_
  rw [hstart]
  cases hbytes : encodeCraneFrame c restart f with
  | nil =>
    have hdone := (encodeCraneFrame_good c restart f hf).1
    rw [hbytes] at hdone
    cases hdone
  | cons b later => exact run_rest rest hf hreset hcandidate hrescan hline b later [] hbytes

/-! ### The two stores as one sequence -/

/-- The port with its waiting bytes in the line store alone. -/
def Port.joined (p : Port) : Port := { p with rescan := [], line := p.rescan ++ p.line }

theorem Port.next_joined (p : Port) : p.joined.next = p.next.map fun x => (x.1, x.2.joined) := by
  obtain ⟨candidate, rescan, line, sending, queue⟩ := p
  cases rescan with
  | nil => cases line <;> rfl
  | cons b l => rfl

theorem Port.take_joined (p : Port) (b : Byte) : p.joined.take b = ((p.take b).1.joined, (p.take b).2) := by
  obtain ⟨candidate, rescan, line, sending, queue⟩ := p
  cases candidate with
  | none => rfl
  | some l =>
    simp only [Port.take, Port.joined]
    split <;> rfl

/-- The receiver finds the same whether the bytes wait in two stores or in one. -/
theorem Port.hunt_joined (n : Nat) (p : Port) : p.joined.hunt n = ((p.hunt n).1.joined, (p.hunt n).2) := by
  induction n generalizing p with
  | zero => rfl
  | succ n ih =>
    simp only [Port.hunt, Port.next_joined]
    rcases p.next with _ | ⟨b, q⟩
    · rfl
    · simp only [Option.map_some, Port.take_joined]
      rcases q.take b with ⟨r, _ | l⟩
      · exact ih r
      · rfl

theorem Port.take_stores (p : Port) (b : Byte) : (p.take b).1.rescan = p.rescan ∧ (p.take b).1.line = p.line := by
  unfold Port.take
  repeat' split
  all_goals exact ⟨rfl, rfl⟩

/-- The line store is not touched before the rescan buffer is empty. -/
theorem Port.hunt_stores (n : Nat) (p : Port) :
    (p.rescan = [] → (p.hunt n).1.rescan = []) ∧ ((p.hunt n).1.line = p.line ∨ (p.hunt n).1.rescan = []) := by
  induction n generalizing p with
  | zero => exact ⟨id, .inl rfl⟩
  | succ n ih =>
    rw [Port.hunt]
    rcases hnext : p.next with _ | ⟨b, q⟩
    · exact ⟨id, .inl rfl⟩
    · have hq : (p.rescan = [] → q.rescan = []) ∧ (q.line = p.line ∨ q.rescan = []) := by
        unfold Port.next at hnext
        split at hnext
        · next hcons => cases hnext; exact ⟨by simp [hcons], .inl rfl⟩
        · next hnil hcons => cases hnext; exact ⟨fun _ => hnil, .inr hnil⟩
        · cases hnext
      obtain ⟨hrescan, hline⟩ := q.take_stores b
      rcases htake : q.take b with ⟨r, _ | l⟩
      · rw [htake] at hrescan hline
        obtain ⟨ihrescan, ihline⟩ := ih r
        simp only [htake] at hrescan hline ⊢
        rw [hrescan] at ihrescan
        rw [hline] at ihline
        refine ⟨fun h => ihrescan (hq.1 h), ?_⟩
        rcases hq.2 with h | h
        · rwa [h] at ihline
        · exact .inr (ihrescan h)
      · simp only [htake] at hrescan hline ⊢
        rw [hrescan, hline]
        exact hq

/-! ### Errored frames -/

theorem countErrored_absent {c : CraneIx} {d : Device} (h : d.membership c = .absent) : countErrored c d = d := by
  simp only [Device.membership] at h
  simp [countErrored, h]

theorem countErrored_member {c : CraneIx} {d : Device} (h : d.membership c ≠ .absent) :
    countErrored c d = d.setCrane c { d.crane c with errored := min ((d.crane c).errored + 1) 255 } := by
  simp only [Device.membership] at h
  simp [countErrored, h]

theorem failCandidate_eq (c : CraneIx) (bytes : List Byte) (d : Device) :
    failCandidate c bytes d = (countErrored c d).setPort c ((d.port c).slip bytes) := by
  by_cases h : d.membership c = .absent
  · rw [countErrored_absent h]
    exact countErrored_absent h
  · rw [countErrored_member h]
    exact countErrored_member h

/-- A malformed REPORT, and a malformed BOOK, count as a rejected frame does. -/
theorem reportFrame_malformed {c : CraneIx} {restart : Bool} {r : Report} {d : Device} (h : 3600 ≤ r.slew) :
    reportFrame c restart r d = countErrored c d := by
  have hvalid : reportValid r = false := by simp [reportValid]; omega
  rw [reportFrame, hvalid]
  rfl

theorem bookDelivered_malformed {c : CraneIx} {restart : Bool} {b : BookReq} {d : Device} (h : 1 < b.form) :
    bookDelivered c restart b d = countErrored c d := if_neg (by omega)

/-- Settles O37: one byte by the port's receiver, the errored count by `countErrored`, the stores by `joined`. -/
theorem receiverHuntsAndCountsErrors : Obligations.ReceiverHuntsAndCountsErrors := by
  refine ⟨fun s c b hreset hrescan hline => ⟨fun hcandidate hb => ?_, fun hcandidate hb => ?_,
    fun l hcandidate hdone => ?_, fun l hcandidate hdone hgood => ?_⟩, fun s c hreset => ⟨⟨?_, ?_⟩, ?_⟩,
    fun s c b hreset => ⟨fun h => ?_, fun h => ?_⟩, fun p n => ?_⟩
  · refine act_to hreset ?_
    rw [byteReceived_hunting b hcandidate hrescan hline, if_neg hb, ← hcandidate]
    exact Device.setPort_eq_self s.dev c
  · refine act_to hreset ?_
    rw [byteReceived_hunting b hcandidate hrescan hline, if_pos hb]
    rfl
  · exact act_to hreset (byteReceived_collecting b hcandidate hrescan hline hdone)
  · refine (act_to hreset ?_).trans
      (act_of_high (s := { s with dev := s.dev.setPort c { s.dev.port c with candidate := none } })
        (failCandidate c (l ++ [b])) hreset).symm
    rw [byteReceived_finishing b hcandidate hrescan hline hdone, finishCandidate, hgood]
    rfl
  · intro hmember a k p restart r b hslew hform
    have hcount := countErrored_member hmember
    exact ⟨act_to hreset hcount, act_to hreset ((reportFrame_malformed hslew).trans hcount),
      act_to hreset ((bookDelivered_malformed hform).trans hcount)⟩
  · intro habsent a k p restart r b hslew hform
    have hcount := countErrored_absent habsent
    exact ⟨act_to hreset hcount, act_to hreset ((reportFrame_malformed hslew).trans hcount),
      act_to hreset ((bookDelivered_malformed hform).trans hcount)⟩
  · intro bytes
    have hfail := failCandidate_eq c bytes s.dev
    refine ⟨_, act_to hreset hfail, Device.setPort_port_self .., fun hmember => ?_, fun habsent => ?_, fun x hx => ?_⟩
    · rw [countErrored_member hmember]
      rfl
    · rw [countErrored_absent habsent]
      rfl
    · exact (Device.setPort_port_of_ne _ c _ x hx).trans (by unfold countErrored; dsimp only; split <;> rfl)
  · exact act_to hreset (congrArg (fun p => servePort c (s.dev.setPort c p)) (if_pos h))
  · refine act_to hreset ?_
    rw [byteReceived, Port.arrive, if_neg (by simpa [Config.lineCapacity] using h), Device.setPort_eq_self]
  · have hjoin := Port.hunt_joined n p
    exact ⟨(congrArg Prod.snd hjoin).symm, (congrArg (·.1.candidate) hjoin).symm, (congrArg (·.1.line) hjoin).symm,
      fun h => ((Port.hunt_stores n p).2).resolve_left h⟩

end Sys2Proof.Machine
end

