-- ==== Sys2Proof/Proofs/PlanLaw.lean ====
section
/-! SUPPORT. The law of the plan (sections 1.5 to 1.9) across every step: what leaves the plan and the roster alone,
what a crane's frame does to its own roster record, the commands of the Plan Store, the loads and the resets; and what a
plan that passes validation satisfies. -/

namespace Sys2Proof.Machine

/-! ### What leaves the plan and the roster alone -/

/-- The plan, its state and digest and the roster are as they were, a load has not begun, and an empty booking table
has stayed empty. -/
structure PlanFrame (d t : Device) : Prop where
  planState : t.planState = d.planState
  plan : t.plan = d.plan
  digest : t.digest = d.digest
  load : d.load = none → t.load = none
  roster : t.roster = d.roster
  bookings : d.bookings = [] → t.bookings = []

theorem PlanFrame.refl (d : Device) : PlanFrame d d := ⟨rfl, rfl, rfl, id, rfl, id⟩

theorem PlanFrame.trans {d e t : Device} (h : PlanFrame d e) (h' : PlanFrame e t) : PlanFrame d t :=
  ⟨h'.planState.trans h.planState, h'.plan.trans h.plan, h'.digest.trans h.digest, h'.load ∘ h.load,
    h'.roster.trans h.roster, h'.bookings ∘ h.bookings⟩

theorem PlanFrame.ite {d : Device} {p : Prop} [Decidable p] {a b : Device} (ha : PlanFrame d a) (hb : PlanFrame d b) :
    PlanFrame d (if p then a else b) := by
  split <;> assumption

theorem PlanFrame.foldl {α : Type} (f : Device → α → Device) (hf : ∀ d x, PlanFrame d (f d x)) (l : List α)
    (d : Device) : PlanFrame d (l.foldl f d) := by
  induction l generalizing d with
  | nil => exact PlanFrame.refl d
  | cons x l ih => exact (hf d x).trans (ih (f d x))

theorem WindClaims.planFrame {c : CraneIx} {d t : Device} (h : WindClaims c d t)
    (hb : d.bookings = [] → t.bookings = []) : PlanFrame d t :=
  ⟨by rw [h], by rw [h], by rw [h], fun hd => by rw [h]; exact hd, by rw [h], hb⟩

theorem WindOnly.planFrame {c : CraneIx} {d t : Device} (h : WindOnly c d t) : PlanFrame d t :=
  h.windClaims.planFrame fun hd => by rw [h]; exact hd

theorem CellsOnly.planFrame {d t : Device} (h : CellsOnly d t) : PlanFrame d t :=
  (h.claimsOnly.windClaims 0).planFrame fun hd => by rw [h]; exact hd

theorem PlanFrame.raise (d : Device) (k : FaultKind) (a b e : Option Nat) : PlanFrame d (d.raise k a b e) :=
  (CellsOnly.raise d k a b e).planFrame

theorem PlanFrame.setPort (d : Device) (c : CraneIx) (p : Port) : PlanFrame d (d.setPort c p) :=
  ⟨rfl, rfl, rfl, id, rfl, id⟩

theorem PlanFrame.sendFrame (c : CraneIx) (d : Device) (f : TxFrame) : PlanFrame d (d.sendFrame c f) := by
  rw [sendFrame_eq]
  exact PlanFrame.setPort d c _

/-! ### The roster records of ABSENT cranes -/

/-- The roster record of an ABSENT crane stands at its reset values (R22). -/
def Device.resetIfAbsent (d : Device) (c : CraneIx) : Prop := d.membership c = .absent → d.crane c = CraneRec.reset

theorem planLawful_iff (d : Device) :
    d.planLawful ↔ (d.planState = .active → validate d.plan = none ∧ d.digest = planDigest d.plan) ∧
      (d.planState ≠ .active → (∀ c, d.membership c = .absent) ∧ d.bookings = []) ∧
      (d.load ≠ none → d.planState = .loading) ∧ ∀ c, d.resetIfAbsent c := Iff.rfl

theorem membership_of_roster {d t : Device} (h : t.roster = d.roster) (c : CraneIx) :
    t.membership c = d.membership c := by
  rw [Device.membership, Device.crane, h]
  rfl

theorem resetIfAbsent_of_roster {d t : Device} {c : CraneIx} (h : t.roster = d.roster) (hd : d.resetIfAbsent c) :
    t.resetIfAbsent c := by
  rw [Device.resetIfAbsent, membership_of_roster h, Device.crane, h]
  exact hd

theorem resetIfAbsent_of_crane {d : Device} {c : CraneIx} {r : CraneRec} (h : d.crane c = r)
    (hr : r.membership ≠ .absent) : d.resetIfAbsent c := by
  intro habsent
  rw [Device.membership, h] at habsent
  exact absurd habsent hr

/-- What leaves the plan and the roster alone keeps the law. -/
theorem PlanFrame.lawful {d t : Device} (h : PlanFrame d t) (hd : d.planLawful) : t.planLawful := by
  obtain ⟨hactive, hquiet, hload, hreset⟩ := (planLawful_iff d).mp hd
  refine (planLawful_iff t).mpr
    ⟨fun ht => ?_, fun ht => ?_, fun ht => ?_, fun c => resetIfAbsent_of_roster h.roster (hreset c)⟩
  · rw [h.plan, h.digest]
    exact hactive (h.planState ▸ ht)
  · obtain ⟨habsent, hbookings⟩ := hquiet (h.planState ▸ ht)
    exact ⟨fun c => (membership_of_roster h.roster c).trans (habsent c), h.bookings hbookings⟩
  · rw [h.planState]
    exact hload (mt h.load ht)

/-! ### The Wind Unit and the clock on an empty booking table -/

theorem enterVane_bookings (c : CraneIx) (d : Device) : (enterVane c d).bookings = d.bookings := by
  unfold enterVane
  dsimp only
  split
  all_goals
    simp [startVaneTimer, modWind, (requestVane_cellsOnly c _).bookings]

theorem evaluate_planFrame (c : CraneIx) (d : Device) : PlanFrame d (evaluate c d) := by
  refine (evaluate_windClaims c d).planFrame fun hd => ?_
  unfold evaluate windHanding
  dsimp only
  refine List.map_eq_nil_iff.mpr ?_
  split
  · exact hd
  · split
    · rw [enterVane_bookings, hd]
    · exact hd

theorem silenceExpired_planFrame (c : CraneIx) (d : Device) : PlanFrame d (silenceExpired c d) :=
  ((WindOnly.modWind c _ d).trans (goStale_windOnly c _)).planFrame.trans (evaluate_planFrame c _)

theorem mastCrane_planFrame (d : Device) (c : CraneIx) : PlanFrame d (mastCrane d c) :=
  ((produceSpeed_windOnly c _ d).trans (WindOnly.modWind c _ _)).planFrame.trans (evaluate_planFrame c _)

theorem changeSource_planFrame (c : CraneIx) (s : SourceSetting) (d : Device) : PlanFrame d (changeSource c s d) := by
  unfold changeSource
  dsimp only
  refine PlanFrame.trans (WindOnly.modWind c (fun w => { w with source := s }) d).planFrame ?_
  refine PlanFrame.ite (PlanFrame.refl _) ?_
  split
  all_goals exact (WindOnly.modWind c _ _).planFrame.trans (evaluate_planFrame c _)

theorem mastSample_planFrame (d : Device) : PlanFrame d (mastSample d) := by
  unfold mastSample
  dsimp only
  refine PlanFrame.trans ?_ (PlanFrame.foldl _ mastCrane_planFrame _ _)
  exact ⟨rfl, rfl, rfl, id, rfl, id⟩

theorem windowMatching_planFrame (d : Device) : PlanFrame d (windowMatching d) := by
  refine ((windowMatching_claimsOnly d).windClaims 0).planFrame fun hd => ?_
  unfold windowMatching
  split
  · exact hd
  · rw [hd]
    exact hd

theorem setClockRec_planFrame (d : Device) (x : Clock) : PlanFrame d (d.setClockRec x) := ⟨rfl, rfl, rfl, id, rfl, id⟩

theorem reopenSuspended_planFrame (d : Device) : PlanFrame d (reopenSuspended d) :=
  ⟨rfl, rfl, rfl, id, rfl, fun h => List.map_eq_nil_iff.mpr h⟩

theorem siteSecond_planFrame (d : Device) : PlanFrame d (siteSecond d) :=
  (((setClockRec_planFrame d _).trans (windowMatching_planFrame _)).trans (reopenSuspended_planFrame _)).trans
    (mastSample_planFrame _)

theorem ppsPulse_planFrame (d : Device) : PlanFrame d (ppsPulse d) := by
  unfold ppsPulse
  dsimp only
  have hclock := setClockRec_planFrame d
  exact PlanFrame.ite (PlanFrame.ite (PlanFrame.refl d) ((hclock _).trans (siteSecond_planFrame _)))
    (PlanFrame.ite (PlanFrame.ite (hclock _) ((hclock _).trans (siteSecond_planFrame _))) (hclock _))

theorem fallbackExpired_planFrame (d : Device) : PlanFrame d (fallbackExpired d) :=
  PlanFrame.ite ((siteSecond_planFrame d).trans (setClockRec_planFrame _ _)) (PlanFrame.refl d)

theorem pulseWaitExpired_planFrame (d : Device) : PlanFrame d (pulseWaitExpired d) := by
  refine PlanFrame.ite ?_ (PlanFrame.refl d)
  refine PlanFrame.trans ?_ (setClockRec_planFrame _ _)
  refine PlanFrame.trans (PlanFrame.trans ?_ (siteSecond_planFrame _)) (siteSecond_planFrame _)
  exact (setClockRec_planFrame d _).trans (PlanFrame.raise _ _ _ _ _)

/-! ### A change to one crane -/

/-- A change to one crane keeps the law where the crane's record does, and where, the plan not being ACTIVE, the crane
stays ABSENT and the booking table empty. -/
theorem ForCrane.planLawful {c : CraneIx} {d t : Device} (h : ForCrane c d t) (hd : d.planLawful)
    (hown : t.resetIfAbsent c) (hquiet : d.planState ≠ .active → t.membership c = .absent ∧ t.bookings = []) :
    t.planLawful := by
  obtain ⟨hactive, hdormant, hload, hreset⟩ := hd
  have hstate : t.planState = d.planState := by rw [h.rest]
  have hplan : t.plan = d.plan := by rw [h.rest]
  have hdigest : t.digest = d.digest := by rw [h.rest]
  have hloads : t.load = d.load := by rw [h.rest]
  have hother : ∀ x, x ≠ c → t.crane x = d.crane x := fun x hx => (h.others x hx).1
  refine ⟨fun ht => ?_, fun ht => ⟨fun x => ?_, (hquiet (hstate ▸ ht)).2⟩, fun ht => ?_, fun x => ?_⟩
  · rw [hplan, hdigest]
    exact hactive (hstate ▸ ht)
  · by_cases hx : x = c
    · rw [hx]
      exact (hquiet (hstate ▸ ht)).1
    · rw [Device.membership, hother x hx]
      exact (hdormant (hstate ▸ ht)).1 x
  · rw [hstate]
    exact hload (hloads ▸ ht)
  · by_cases hx : x = c
    · rw [hx]
      exact hown
    · rw [Device.membership, hother x hx]
      exact hreset x

theorem goAbsent_crane (c : CraneIx) (d : Device) : (goAbsent c d).crane c = CraneRec.reset := (goAbsent_records c d).1

theorem goAbsent_bookings (c : CraneIx) (d : Device) : (goAbsent c d).bookings = d.bookings := by
  rw [goAbsent_eq]

theorem goAbsent_planLawful (c : CraneIx) {d : Device} (h : d.planLawful) : (goAbsent c d).planLawful := by
  have hmember : (goAbsent c d).membership c = .absent := congrArg CraneRec.membership (goAbsent_crane c d)
  exact (ForCrane.goAbsent c d).planLawful h (fun _ => goAbsent_crane c d) fun hstate =>
    ⟨hmember, (goAbsent_bookings c d).trans (h.2.1 hstate).2⟩

theorem loseCrane_crane (c : CraneIx) (d : Device) :
    (loseCrane c d).crane c = { d.crane c with membership := .lost, link := none, streak := false } := by
  unfold loseCrane
  rw [Device.crane, (windLost_windOnly c _).planFrame.roster, (loseCells_cellsOnly c _).planFrame.roster, raise_roster]
  exact Device.setCrane_crane_self d c _

/-- A change to a crane that is a member, and stays one, keeps the law. -/
theorem ForCrane.planLawful_of_member {c : CraneIx} {d t : Device} (h : ForCrane c d t) (hd : d.planLawful)
    (hmember : d.membership c ≠ .absent) (hown : t.resetIfAbsent c) : t.planLawful :=
  h.planLawful hd hown fun hstate => absurd ((hd.2.1 hstate).1 c) hmember

/-! ### Crane frames -/

theorem sendFrame_roster (c : CraneIx) (d : Device) (f : TxFrame) : (d.sendFrame c f).roster = d.roster :=
  (PlanFrame.sendFrame c d f).roster

theorem reply_roster (c : CraneIx) (d : Device) (kind : Nat) (code : ReplyCode) :
    (d.reply c kind code).roster = d.roster := sendFrame_roster c d _

theorem replyBooking_roster (c : CraneIx) (d : Device) (kind id : Nat) :
    (d.replyBooking c kind id).roster = d.roster := by
  unfold Device.replyBooking
  split <;> exact sendFrame_roster c d _

theorem replyLift_roster (c : CraneIx) (d : Device) (kind id : Nat) (reason : RetireReason) :
    (d.replyLift c kind id reason).roster = d.roster := by
  unfold Device.replyLift
  split
  · exact replyBooking_roster c d kind id
  · exact sendFrame_roster c d _

theorem ClaimsOnly.roster_eq {d t : Device} (h : ClaimsOnly d t) : t.roster = d.roster := by rw [h]

theorem WindClaims.roster_eq {c : CraneIx} {d t : Device} (h : WindClaims c d t) : t.roster = d.roster := by rw [h]

theorem claimFrame_roster (c : CraneIx) (cell cls : Nat) (d : Device) :
    (claimFrame c cell cls d).roster = d.roster := by
  have hrequest : ∀ k x, (request c k x d).roster = d.roster := fun k x =>
    ((Local.request c x).only d k).planFrame.roster
  unfold claimFrame
  dsimp only
  repeat' split
  all_goals simp only [reply_roster, raise_roster, hrequest]

theorem releaseFrame_roster (c : CraneIx) (cell : Nat) (d : Device) : (releaseFrame c cell d).roster = d.roster := by
  unfold releaseFrame
  dsimp only
  repeat' split
  all_goals simp only [reply_roster, (giveUp_cellsOnly c _ d).planFrame.roster]

theorem insertRequest_roster (c : CraneIx) (b : BookReq) (sail : Sail) (o : Origin) (path : List CellIx) (p : BookPlan)
    (d : Device) : (insertRequest c b sail o path p d).roster = d.roster := (windowMatching_claimsOnly _).roster_eq

theorem bookFrame_roster (c : CraneIx) (b : BookReq) (d : Device) : (bookFrame c b d).roster = d.roster := by
  unfold bookFrame
  repeat' split
  all_goals simp only [reply_roster, replyBooking_roster, insertRequest_roster]

theorem cancelFrame_roster (c : CraneIx) (id : Nat) (d : Device) : (cancelFrame c id d).roster = d.roster := by
  unfold cancelFrame
  split
  all_goals simp only [reply_roster, (retire_claimsOnly _ _ d).roster_eq]

theorem liftStartFrame_roster (c : CraneIx) (id : Nat) (d : Device) : (liftStartFrame c id d).roster = d.roster := by
  unfold liftStartFrame
  split
  all_goals simp only [reply_roster, replyBooking_roster, (startLift_claimsOnly c id d).roster_eq]

theorem liftEndFrame_roster (c : CraneIx) (id : Nat) (d : Device) : (liftEndFrame c id d).roster = d.roster := by
  unfold liftEndFrame
  split
  all_goals simp only [reply_roster, replyLift_roster, (endLift_claimsOnly c id d).roster_eq]

theorem liftAbortFrame_roster (c : CraneIx) (id : Nat) (d : Device) : (liftAbortFrame c id d).roster = d.roster := by
  unfold liftAbortFrame
  split
  all_goals simp only [reply_roster, replyLift_roster, (abortLift_claimsOnly c id d).roster_eq]

theorem resumeFrame_roster (c : CraneIx) (d : Device) : (resumeFrame c d).roster = d.roster := by
  unfold resumeFrame
  repeat' split
  all_goals simp only [reply_roster, (returnToService_windClaims c d).roster_eq]

theorem queryFrame_roster (c : CraneIx) (item index segment : Nat) (d : Device) :
    (queryFrame c item index segment d).roster = d.roster := by
  unfold queryFrame
  repeat' split
  all_goals simp only [reply_roster, sendFrame_roster]

theorem passReport_roster (c : CraneIx) (how : Arrival) (r : Report) (d : Device) :
    (passReport c how r d).roster = d.roster := by
  unfold passReport
  dsimp only
  refine (sendFrame_roster c _ _).trans ?_
  rw [Device.setPermit_roster, (windReport_windClaims c how r _).roster_eq, (autoClaims_cellsOnly c _).planFrame.roster,
    (reportCells_cellsOnly c _ _).planFrame.roster]
  split
  · rw [(reconcileCells_cellsOnly c _).planFrame.roster]
    rfl
  · rfl

theorem hello_resetIfAbsent (c : CraneIx) (digest : BitVec 32) (d : Device) (h : d.resetIfAbsent c) :
    (hello c digest d).resetIfAbsent c := by
  have hjoin : ∀ r : CraneRec, r.membership ≠ .absent → ((d.setCrane c r).reply c 0x01 .ok).resetIfAbsent c :=
    fun r hr => resetIfAbsent_of_roster (reply_roster ..)
      (resetIfAbsent_of_crane (Device.setCrane_crane_self d c r) hr)
  have hrefuse : ∀ code, ((refuseJoin c d).reply c 0x01 code).resetIfAbsent c := fun code =>
    resetIfAbsent_of_roster ((reply_roster ..).trans (raise_roster ..)) h
  have hreply : ∀ code, (d.reply c 0x01 code).resetIfAbsent c := fun code => resetIfAbsent_of_roster (reply_roster ..) h
  unfold hello
  dsimp only
  split
  · split
    · exact hreply _
    · split
      · exact hrefuse _
      · split
        · exact hrefuse _
        · exact hjoin _ (by simp [joinRecord])
  · next hjoining =>
    split
    · exact hjoin _ (by simp [hjoining])
    · exact resetIfAbsent_of_roster (reply_roster ..) fun _ => goAbsent_crane c _
  · split
    · exact hreply _
    · exact hrefuse _

theorem takeReport_resetIfAbsent (c : CraneIx) (r : Report) (d : Device) (h : d.resetIfAbsent c) :
    (takeReport c r d).resetIfAbsent c := by
  have hpass : ∀ how x, x.membership = .admitted → (passReport c how r (d.setCrane c x)).resetIfAbsent c :=
    fun how x hx => resetIfAbsent_of_roster (passReport_roster ..)
      (resetIfAbsent_of_crane (Device.setCrane_crane_self d c x) (by simp [hx]))
  unfold takeReport
  dsimp only
  split
  · exact resetIfAbsent_of_roster (reply_roster ..) h
  · exact hpass _ _ rfl
  · next hadmitted => exact hpass _ _ hadmitted
  · exact hpass _ _ rfl

theorem leave_resetIfAbsent (c : CraneIx) (d : Device) (h : d.resetIfAbsent c) : (leave c d).resetIfAbsent c := by
  unfold leave
  split
  · exact resetIfAbsent_of_roster (reply_roster ..) fun _ => goAbsent_crane c _
  · exact resetIfAbsent_of_roster (reply_roster ..) h

theorem countErrored_resetIfAbsent (c : CraneIx) (d : Device) (h : d.resetIfAbsent c) :
    (countErrored c d).resetIfAbsent c := by
  by_cases habsent : d.membership c = .absent
  · rwa [countErrored_absent habsent]
  · rw [countErrored_member habsent]
    exact resetIfAbsent_of_crane (Device.setCrane_crane_self d c _) habsent

theorem loseCrane_resetIfAbsent (c : CraneIx) (d : Device) : (loseCrane c d).resetIfAbsent c :=
  resetIfAbsent_of_crane (loseCrane_crane c d) (by simp)

theorem withStreak_resetIfAbsent (c : CraneIx) (restart : Bool) (serve : Device → Device) (d : Device)
    (hserve : ∀ e, e.resetIfAbsent c → (serve e).resetIfAbsent c) (h : d.resetIfAbsent c) :
    (withStreak c restart serve d).resetIfAbsent c := by
  unfold withStreak
  dsimp only
  split
  · next hadmitted =>
    split
    · exact loseCrane_resetIfAbsent c d
    · exact hserve _ (resetIfAbsent_of_crane (Device.setCrane_crane_self d c _) (by simp [beq_iff_eq.mp hadmitted]))
  · exact hserve d h

/-- A frame leaves its own crane's record at its reset values where it leaves the crane ABSENT. -/
theorem deliver_resetIfAbsent (c : CraneIx) (restart : Bool) (f : CraneFrame) (d : Device) (h : d.resetIfAbsent c) :
    (deliver c restart f d).resetIfAbsent c := by
  have hroster : ∀ serve : Device → Device, (∀ e, (serve e).roster = e.roster) →
      (withStreak c restart serve d).resetIfAbsent c := fun serve hserve =>
    withStreak_resetIfAbsent c restart serve d (fun e he => resetIfAbsent_of_roster (hserve e) he) h
  cases f with
  | hello digest => exact withStreak_resetIfAbsent c restart _ d (hello_resetIfAbsent c digest) h
  | report r =>
    show (reportFrame c restart r d).resetIfAbsent c
    unfold reportFrame
    split
    · exact withStreak_resetIfAbsent c restart _ d (takeReport_resetIfAbsent c r) h
    · exact countErrored_resetIfAbsent c d h
  | claim cell cls => exact hroster _ (claimFrame_roster c cell cls)
  | release cell => exact hroster _ (releaseFrame_roster c cell)
  | book b =>
    show (bookDelivered c restart b d).resetIfAbsent c
    unfold bookDelivered
    split
    · exact hroster _ (bookFrame_roster c b)
    · exact countErrored_resetIfAbsent c d h
  | cancel id => exact hroster _ (cancelFrame_roster c id)
  | liftStart id => exact hroster _ (liftStartFrame_roster c id)
  | liftEnd id => exact hroster _ (liftEndFrame_roster c id)
  | liftAbort id => exact hroster _ (liftAbortFrame_roster c id)
  | resume => exact hroster _ (resumeFrame_roster c)
  | leave => exact withStreak_resetIfAbsent c restart _ d (leave_resetIfAbsent c) h
  | query item index segment => exact hroster _ (queryFrame_roster c item index segment)

theorem withStreak_not_admitted {c : CraneIx} {restart : Bool} {serve : Device → Device} {d : Device}
    (h : d.membership c ≠ .admitted) : withStreak c restart serve d = serve d := by
  simp only [Device.membership] at h
  simp [withStreak, h]

theorem PlanFrame.reply (c : CraneIx) (d : Device) (kind : Nat) (code : ReplyCode) :
    PlanFrame d (d.reply c kind code) := PlanFrame.sendFrame c d _

/-- Without an ACTIVE plan a frame from an ABSENT crane is answered, and nothing else comes of it. -/
theorem deliver_planFrame (c : CraneIx) (restart : Bool) (f : CraneFrame) {d : Device}
    (habsent : d.membership c = .absent) (hstate : d.planState ≠ .active) : PlanFrame d (deliver c restart f d) := by
  have hserve : ∀ serve : Device → Device, PlanFrame d (serve d) → PlanFrame d (withStreak c restart serve d) := by
    intro serve h
    rwa [withStreak_not_admitted (by simp [habsent])]
  have hcrane : (d.crane c).membership = .absent := habsent
  have hreply := PlanFrame.reply c d
  cases f with
  | hello digest => exact hserve _ (by simpa [hello, hcrane, hstate] using hreply _ _)
  | report r =>
    show PlanFrame d (reportFrame c restart r d)
    unfold reportFrame
    split
    · exact hserve _ (by simpa [takeReport, hcrane] using hreply _ _)
    · rw [countErrored_absent habsent]
      exact PlanFrame.refl d
  | claim cell cls => exact hserve _ (by simpa [claimFrame, habsent] using hreply _ _)
  | release cell =>
    refine hserve _ ?_
    have hcode : releaseCode d c cell = .notAdmitted := by simp [releaseCode, habsent]
    unfold releaseFrame
    simp only [hcode]
    split <;> exact hreply _ _
  | book b =>
    show PlanFrame d (bookDelivered c restart b d)
    unfold bookDelivered
    split
    · refine hserve _ ?_
      unfold bookFrame
      repeat' split
      any_goals exact hreply _ _
      all_goals simp_all
    · rw [countErrored_absent habsent]
      exact PlanFrame.refl d
  | cancel id => exact hserve _ (by simpa [cancelFrame, cancelRefusal, habsent] using hreply _ _)
  | liftStart id => exact hserve _ (by simpa [liftStartFrame, liftStartRefusal, habsent] using hreply _ _)
  | liftEnd id => exact hserve _ (by simpa [liftEndFrame, liftStopRefusal, habsent] using hreply _ _)
  | liftAbort id => exact hserve _ (by simpa [liftAbortFrame, liftStopRefusal, habsent] using hreply _ _)
  | resume => exact hserve _ (by simpa [resumeFrame, habsent] using hreply _ _)
  | leave => exact hserve _ (by simpa [leave, leaveCode, habsent] using hreply _ _)
  | query item index segment =>
    refine hserve _ ?_
    unfold queryFrame
    repeat' split
    all_goals exact PlanFrame.sendFrame c d _

theorem deliver_planLawful (c : CraneIx) (restart : Bool) (f : CraneFrame) {d : Device} (h : d.planLawful) :
    (deliver c restart f d).planLawful := by
  by_cases hstate : d.planState = .active
  · exact (ForCrane.deliver c restart f d).planLawful h (deliver_resetIfAbsent c restart f d (h.2.2.2 c))
      fun hne => absurd hstate hne
  · exact (deliver_planFrame c restart f ((h.2.1 hstate).1 c) hstate).lawful h

/-! ### Bytes and timers -/

theorem countErrored_planLawful (c : CraneIx) {d : Device} (h : d.planLawful) : (countErrored c d).planLawful := by
  by_cases habsent : d.membership c = .absent
  · rwa [countErrored_absent habsent]
  · exact (ForCrane.countErrored c d).planLawful_of_member h habsent (countErrored_resetIfAbsent c d (h.2.2.2 c))

theorem failCandidate_planLawful (c : CraneIx) (bytes : List Byte) {d : Device} (h : d.planLawful) :
    (failCandidate c bytes d).planLawful := countErrored_planLawful c ((PlanFrame.setPort d c _).lawful h)

theorem servePort_planLawful (c : CraneIx) {d : Device} (h : d.planLawful) : (servePort c d).planLawful := by
  have hport : ∀ p, (d.setPort c p).planLawful := fun p => (PlanFrame.setPort d c p).lawful h
  unfold servePort
  split
  · exact hport _
  · unfold finishCandidate
    split
    · split
      · exact deliver_planLawful c _ _ (hport _)
      · exact countErrored_planLawful c (hport _)
    · exact failCandidate_planLawful c _ (hport _)

theorem byteReceived_planLawful (c : CraneIx) (b : Byte) {d : Device} (h : d.planLawful) :
    (byteReceived c b d).planLawful := servePort_planLawful c ((PlanFrame.setPort d c _).lawful h)

/-- A roster record with a timer running is not one of an ABSENT crane. -/
theorem member_of_crane_ne {c : CraneIx} {d : Device} (h : d.planLawful) (hc : d.crane c ≠ CraneRec.reset) :
    d.membership c ≠ .absent := fun habsent => hc (h.2.2.2 c habsent)

theorem joinWaitExpired_planLawful (c : CraneIx) {d : Device} (h : d.planLawful) :
    (joinWaitExpired c d).planLawful := by
  unfold joinWaitExpired
  split
  exacts [goAbsent_planLawful c h, h]

theorem linkExpired_planLawful (c : CraneIx) {d : Device} (h : d.planLawful) : (linkExpired c d).planLawful := by
  unfold linkExpired
  split
  · next hlink =>
    have hmember := member_of_crane_ne h (c := c) fun hreset => by simp [hreset, CraneRec.reset] at hlink
    exact (ForCrane.loseCrane c d).planLawful_of_member h hmember (loseCrane_resetIfAbsent c d)
  · exact h

theorem qualityExpired_planLawful (c : CraneIx) {d : Device} (h : d.planLawful) : (qualityExpired c d).planLawful := by
  unfold qualityExpired
  dsimp only
  split
  · exact h
  · next htimer =>
    have hmember := member_of_crane_ne h (c := c) fun hreset => by simp [hreset, CraneRec.reset] at htimer
    have hset : ∀ r : CraneRec, r.membership = d.membership c → (d.setCrane c r).planLawful := fun r hr =>
      (ForCrane.setCrane c d r).planLawful_of_member h hmember
        (resetIfAbsent_of_crane (Device.setCrane_crane_self d c r) (hr ▸ hmember))
    split
    · exact (PlanFrame.raise _ _ _ _ _).lawful (hset _ rfl)
    · exact hset _ rfl

theorem failLoad_planLawful (cause : AutoloadResult) (item : Option PlanItem) {d : Device} (h : d.planLawful)
    (hload : d.load ≠ none) : (failLoad cause item d).planLawful := by
  obtain ⟨_, hquiet, hloading, hreset⟩ := h
  unfold failLoad
  refine (PlanFrame.raise _ _ _ _ _).lawful ⟨fun hactive => ?_, fun _ => hquiet ?_, fun hsome => ?_, hreset⟩
  · cases hactive
  · rw [hloading hload]
    decide
  · exact absurd rfl hsome

theorem loadTimeout_planLawful {d : Device} (h : d.planLawful) : (loadTimeout d).planLawful := by
  unfold loadTimeout
  split
  · exact h
  · next hload => exact failLoad_planLawful _ _ h (by simp [hload])

/-- No expiry breaks the law. -/
theorem expire_planLawful (x : Timer) {d : Device} (h : d.planLawful) : (expire x d).planLawful := by
  cases x with
  | load => exact loadTimeout_planLawful h
  | joinWait c => exact joinWaitExpired_planLawful c h
  | link c => exact linkExpired_planLawful c h
  | quality c => exact qualityExpired_planLawful c h
  | takeUp k => exact (takeUpExpired_cellsOnly k d).planFrame.lawful h
  | linger k => exact (lingerExpired_cellsOnly k d).planFrame.lawful h
  | silence c => exact (PlanFrame.ite (silenceExpired_planFrame c d) (PlanFrame.refl d)).lawful h
  | vaneClear c => exact (PlanFrame.ite (vaneClearExpired_windOnly c d).planFrame (PlanFrame.refl d)).lawful h
  | pulseWait => exact (pulseWaitExpired_planFrame d).lawful h
  | fallback => exact (fallbackExpired_planFrame d).lawful h

theorem expireIfDue_planLawful (x : Timer) {d : Device} (h : d.planLawful) : (expireIfDue d x).planLawful := by
  unfold expireIfDue
  split
  exacts [expire_planLawful x h, h]

theorem tickTimers_planLawful {d : Device} (h : d.planLawful) : d.tickTimers.planLawful := by
  obtain ⟨hactive, hquiet, hload, hreset⟩ := h
  have hcrane : ∀ c, d.tickTimers.crane c = (d.crane c).tick := fun c => by
    simp [Device.crane, Device.tickTimers]
  have hmember : ∀ c, d.tickTimers.membership c = d.membership c := fun c => by
    rw [Device.membership, hcrane]
    rfl
  refine ⟨hactive, fun hstate => ?_, fun hsome => hload fun hnone => hsome ?_, fun c hc => ?_⟩
  · exact ⟨fun c => (hmember c).trans ((hquiet hstate).1 c), (hquiet hstate).2⟩
  · simp [Device.tickTimers, hnone]
  · rw [hcrane, hreset c ((hmember c).symm.trans hc)]
    rfl

theorem planLawful_foldl {α : Type} (f : Device → α → Device) (hf : ∀ d x, d.planLawful → (f d x).planLawful)
    (l : List α) {d : Device} (h : d.planLawful) : (l.foldl f d).planLawful := by
  induction l generalizing d with
  | nil => exact h
  | cons x l ih => exact ih (hf d x h)

theorem picked_planLawful {α : Type} (l : List α) {d : Device} (h : d.planLawful) : (d.picked l).planLawful :=
  PlanFrame.lawful (d := d) ⟨rfl, rfl, rfl, id, rfl, id⟩ h

theorem idle_planLawful {d : Device} (h : d.planLawful) : (idle d).planLawful := by
  unfold idle
  repeat' split
  · exact h
  · exact planLawful_foldl _ (fun _ c => servePort_planLawful c) _ (picked_planLawful _ h)
  · exact planLawful_foldl _ (fun _ x => expireIfDue_planLawful x) _ (picked_planLawful _ h)
  · exact tickTimers_planLawful h

/-! ### The loads and the Plan Store's commands -/

theorem finishLoad_planLawful (staging : Plan) (trailer : BitVec 32) {d : Device} (h : d.planLawful)
    (hload : d.load ≠ none) : (finishLoad staging trailer d).planLawful := by
  unfold finishLoad
  split
  · exact failLoad_planLawful _ _ h hload
  · next hdigest =>
    split
    · exact failLoad_planLawful _ _ (PlanFrame.lawful (d := d) ⟨rfl, rfl, rfl, id, rfl, id⟩ h) hload
    · next hvalid =>
      have htrailer : planDigest staging = trailer := by simpa using hdigest
      exact ⟨fun _ => ⟨hvalid, htrailer.symm⟩, fun hne => absurd rfl hne,
        fun hsome => absurd rfl hsome, h.2.2.2⟩

theorem loading_planLawful (l : Load) {d : Device} (h : d.planLawful) (hload : d.load ≠ none) :
    (d.loading l).planLawful := ⟨h.1, h.2.1, fun _ => h.2.2.1 hload, h.2.2.2⟩

theorem loadRead_planLawful (data : Option (List Byte)) {d : Device} (h : d.planLawful) :
    (loadRead data d).planLawful := by
  unfold loadRead
  split
  · exact h
  · next hload =>
    have hne : d.load ≠ none := by simp [hload]
    have hfail := fun cause => failLoad_planLawful cause none h hne
    have hnext := fun l => loading_planLawful l h hne
    split
    · exact hfail _
    · split
      · unfold loadHeader
        repeat' split
        exacts [h, hfail _, h, hfail _, hnext _]
      · unfold loadSite
        split
        exacts [h, hnext _]
      · unfold loadCranes
        split
        exacts [h, hnext _]
      · unfold loadCells
        split
        exacts [h, hfail _, hnext _]
      · unfold loadTrailer
        split
        exacts [h, finishLoad_planLawful _ _ h hne]

theorem quiet_iff (d : Device) : d.quiet = true ↔ (∀ c, d.membership c = .absent) ∧ d.bookings = [] := by
  simp [Device.quiet, mem_allCranes]

/-- A part on which no crane is a member and no booking lives, with no load and no ACTIVE plan. -/
theorem planLawful_of_dormant {d : Device} (hstate : d.planState ≠ .active) (habsent : ∀ c, d.membership c = .absent)
    (hbookings : d.bookings = []) (hload : d.load = none) (hreset : ∀ c, d.resetIfAbsent c) : d.planLawful :=
  ⟨fun h => absurd h hstate, fun _ => ⟨habsent, hbookings⟩, fun h => absurd hload h, hreset⟩

theorem load_eq_none {d : Device} (h : d.planLawful) (hstate : d.planState ≠ .loading) : d.load = none := by
  by_contra hload
  exact hstate (h.2.2.1 hload)

theorem planBegin_planLawful {d : Device} (h : d.planLawful) (hstate : d.planState ≠ .loading) :
    (planBegin d).dev.planLawful := by
  unfold planBegin
  repeat' split
  · exact h
  · next hquiet =>
    obtain ⟨habsent, hbookings⟩ := (quiet_iff d).mp hquiet
    have hload := load_eq_none h hstate
    exact planLawful_of_dormant (d := { d with planState := .editing }) (by simp) habsent hbookings hload h.2.2.2
  · exact h

theorem planErase_planLawful {d : Device} (h : d.planLawful) (hstate : d.planState ≠ .loading) :
    (planErase d).dev.planLawful := by
  unfold planErase
  split
  · next hquiet =>
    obtain ⟨habsent, hbookings⟩ := (quiet_iff d).mp hquiet
    have hload := load_eq_none h hstate
    exact planLawful_of_dormant (d := Device.mk ..) (by simp) habsent hbookings hload h.2.2.2
  · exact h

/-- In an edit session the plan may be changed. -/
theorem planLawful_of_editing {d t : Device} (h : d.planLawful) (hstate : d.planState = .editing)
    (ht : t = { d with plan := t.plan, possession := t.possession, validation := t.validation }) : t.planLawful := by
  have hne : d.planState ≠ .active := by simp [hstate]
  obtain ⟨habsent, hbookings⟩ := h.2.1 hne
  have hload := load_eq_none h (by simp [hstate])
  rw [ht]
  exact planLawful_of_dormant (d := { d with plan := _, possession := _, validation := _ }) hne habsent hbookings hload
    h.2.2.2

theorem planPutSite_planLawful (r : Site) {d : Device} (h : d.planLawful) : (planPutSite r d).dev.planLawful := by
  unfold planPutSite
  split
  · exact h
  · next hstate =>
    split
    exacts [h, planLawful_of_editing h (by simpa using hstate) rfl]

theorem planPutCrane_planLawful (index : Nat) (p : Profile) {d : Device} (h : d.planLawful) :
    (planPutCrane index p d).dev.planLawful := by
  unfold planPutCrane
  split
  · exact h
  · next hstate =>
    repeat' split
    exacts [h, h, planLawful_of_editing h (by simpa using hstate) rfl]

theorem planPutCell_planLawful (index : Nat) (r : CellRec) {d : Device} (h : d.planLawful) :
    (planPutCell index r d).dev.planLawful := by
  unfold planPutCell
  split
  · exact h
  · next hstate =>
    repeat' split
    exacts [h, h, h, planLawful_of_editing h (by simpa using hstate) rfl]

theorem planDropCell_planLawful (index : Nat) {d : Device} (h : d.planLawful) :
    (planDropCell index d).dev.planLawful := by
  unfold planDropCell
  split
  · exact h
  · next hstate =>
    repeat' split
    exacts [h, h, h, planLawful_of_editing h (by simpa using hstate) rfl]

theorem planEnd_planLawful {d : Device} (h : d.planLawful) : (planEnd d).dev.planLawful := by
  unfold planEnd
  split
  · exact h
  · next hstate =>
    have hediting : d.planState = .editing := by simpa using hstate
    split
    · exact planLawful_of_editing h hediting rfl
    · next hvalid =>
      have hload := load_eq_none h (by simp [hediting])
      exact ⟨fun _ => ⟨hvalid, rfl⟩, fun hne => absurd rfl hne, fun hsome => absurd hload hsome, h.2.2.2⟩

theorem setPossession_planFrame (index value : Nat) (d : Device) : PlanFrame d (setPossession index value d).dev := by
  unfold setPossession
  repeat' split
  all_goals exact ⟨rfl, rfl, rfl, id, rfl, id⟩

/-! ### The other commands -/

theorem detach_planLawful (index : Nat) {d : Device} (h : d.planLawful) : (detach index d).dev.planLawful := by
  unfold detach
  split
  · exact h
  · next c _ =>
    split
    · exact h
    · next hmember =>
      exact (ForCrane.detached c d).planLawful_of_member h (by simpa using hmember) fun _ => goAbsent_crane c _

theorem forceVane_planFrame (index : Nat) (d : Device) : PlanFrame d (forceVane index d).dev := by
  unfold forceVane
  split
  · exact PlanFrame.refl d
  · next c _ =>
    have hvane := (WindOnly.modWind c (fun w => { w with state := .vane .forced, vaneTimer := none }) d).planFrame
    repeat' split
    exacts [PlanFrame.refl d, PlanFrame.refl d, hvane, PlanFrame.refl d]

theorem setWindSource_planFrame (index value : Nat) (d : Device) : PlanFrame d (setWindSource index value d).dev := by
  unfold setWindSource
  split
  exacts [changeSource_planFrame _ _ d, changeSource_planFrame _ _ d, PlanFrame.refl d]

/-- With an ACTIVE plan the table may change with the claims. -/
theorem planLawful_of_active {d t : Device} (h : ForCrane 0 d t) (hd : d.planLawful) (hroster : t.roster = d.roster)
    (hstate : d.planState = .active) : t.planLawful :=
  h.planLawful hd (resetIfAbsent_of_roster hroster (hd.2.2.2 0)) fun hne => absurd hstate hne

theorem supervisorBook_planLawful (index : Nat) (b : BookReq) {d : Device} (h : d.planLawful) :
    (supervisorBook index b d).dev.planLawful := by
  unfold supervisorBook
  split
  · exact h
  · next hstate =>
    repeat' split
    any_goals exact h
    exact planLawful_of_active (ForCrane.insertRequest 0 _ _ _ _ _ _ d) h (insertRequest_roster ..)
      (by simpa using hstate)

/-- A booking that leaves the table was in it, so the plan is ACTIVE. -/
theorem retire_planLawful (id : Nat) (reason : RetireReason) {d : Device} {b : Booking} (h : d.planLawful)
    (hb : d.booking id = some b) : (retire id reason d).planLawful := by
  have hstate : d.planState = .active := by
    by_contra hne
    have hempty := (h.2.1 hne).2
    simp [Device.booking, hempty] at hb
  have hretire := retire_claimsOnly id reason d
  exact planLawful_of_active (hretire.forCrane 0) h hretire.roster_eq hstate

theorem cancelBooking_planLawful (id : Nat) {d : Device} (h : d.planLawful) : (cancelBooking id d).dev.planLawful := by
  unfold cancelBooking
  split
  · exact h
  · next hb =>
    split
    exacts [h, retire_planLawful _ _ h hb]

theorem abortBooking_planLawful (id : Nat) {d : Device} (h : d.planLawful) : (abortBooking id d).dev.planLawful := by
  unfold abortBooking
  split
  · exact h
  · next hb => exact retire_planLawful _ _ h hb

theorem setClock_planFrame (time : Nat) (d : Device) : PlanFrame d (setClock time d).dev := by
  unfold setClock
  split
  · exact PlanFrame.refl d
  · have hclock := setClockRec_planFrame d { d.clock with siteTime := some time }
    exact hclock.trans (windowMatching_planFrame _)

theorem holdBookings_planFrame (index value : Nat) (d : Device) : PlanFrame d (holdBookings index value d).dev := by
  unfold holdBookings
  repeat' split
  all_goals exact ⟨rfl, rfl, rfl, id, rfl, id⟩

theorem clearFaults_planFrame (kinds : BitVec 16) (d : Device) : PlanFrame d (clearFaults kinds d).dev := by
  unfold clearFaults
  split
  all_goals exact ⟨rfl, rfl, rfl, id, rfl, id⟩

theorem setFaultMask_planFrame (kinds : BitVec 16) (value : Nat) (d : Device) :
    PlanFrame d (setFaultMask kinds value d).dev := by
  unfold setFaultMask
  split
  all_goals exact ⟨rfl, rfl, rfl, id, rfl, id⟩

theorem setFaultSeverity_planFrame (kinds : BitVec 16) (value : Nat) (d : Device) :
    PlanFrame d (setFaultSeverity kinds value d).dev := by
  unfold setFaultSeverity
  split
  all_goals exact ⟨rfl, rfl, rfl, id, rfl, id⟩

theorem warmBookings_nil : warmBookings [] = [] := rfl

theorem warmRestart_planLawful {d : Device} (h : d.planLawful) : (warmRestart d).dev.planLawful := by
  have hcrane : ∀ c, (warmReset d).crane c = CraneRec.reset := fun c => by simp [Device.crane, warmReset]
  refine ⟨h.1, fun hstate => ⟨fun c => ?_, ?_⟩, h.2.2.1, fun c _ => hcrane c⟩
  · exact congrArg CraneRec.membership (hcrane c)
  · show warmBookings d.bookings = []
    rw [(h.2.1 hstate).2, warmBookings_nil]

theorem resetLow_planLawful (d : Device) : (resetLow d).planLawful :=
  planLawful_of_dormant (d := resetLow d) (by simp [resetLow, Device.cold])
    (fun c => congrArg CraneRec.membership (crane_cold c)) rfl rfl fun c _ => crane_cold c

/-! ### Every step -/

theorem setSup_planFrame (d : Device) (p : SupPort) : PlanFrame d (d.setSup p) := ⟨rfl, rfl, rfl, id, rfl, id⟩

theorem takeCommand_planLawful (code : Byte) (serve : Device → Served) {d : Device} (h : d.planLawful)
    (hserve : (serve d).dev.planLawful) : (takeCommand code serve d).planLawful := by
  unfold takeCommand
  split
  exacts [(setSup_planFrame _ _).lawful hserve, h, (setSup_planFrame _ _).lawful h]

theorem command_planLawful (code : Byte) (serve : Device → Served) {d : Device} (h : d.planLawful)
    (hserve : d.planState ≠ .loading → (serve d).dev.planLawful) : (command code serve d).planLawful := by
  refine takeCommand_planLawful code _ h ?_
  unfold unlessLoading
  split
  · exact h
  · next hstate => exact hserve (by simpa using hstate)

theorem act_planLawful {s t : State} {f : Device → Device} (h : s.act f = .next t) (hs : s.dev.planLawful)
    (hf : (f s.dev).planLawful) : t.dev.planLawful :=
  act_rel (R := fun _ e => e.planLawful) h hs hf

/-- Every command keeps the law of the plan. -/
theorem exec_planLawful {i : Instr} {s t : State} (h : exec i s = .next t) (hs : s.dev.planLawful) :
    t.dev.planLawful := by
  have hframe : ∀ {f : Device → Device}, s.act f = .next t → PlanFrame s.dev (f s.dev) → t.dev.planLawful :=
    fun h hf => act_planLawful h hs (hf.lawful hs)
  have hdeliver : ∀ c restart (f : CraneFrame), s.act (deliver c restart f) = .next t → t.dev.planLawful :=
    fun c restart f h => act_planLawful h hs (deliver_planLawful c restart f hs)
  have hexpire : ∀ x, s.act (fun d => expireIfDue d x) = .next t → t.dev.planLawful := fun x h =>
    act_planLawful h hs (expireIfDue_planLawful x hs)
  have hserved : ∀ code (serve : Device → Served), s.act (command code serve) = .next t →
      (s.dev.planState ≠ .loading → (serve s.dev).dev.planLawful) → t.dev.planLawful := fun code serve h hserve =>
    act_planLawful h hs (command_planLawful code serve hs hserve)
  have hread : ∀ code (serve : Device → Served), s.act (command code serve) = .next t →
      PlanFrame s.dev (serve s.dev).dev → t.dev.planLawful := fun code serve h hf =>
    hserved code serve h fun _ => hf.lawful hs
  have hsame : ∀ {r : Served}, r.dev = s.dev → PlanFrame s.dev r.dev := fun h => h ▸ PlanFrame.refl s.dev
  cases i with
  | coldReset => cases h; exact resetLow_planLawful s.dev
  | resetHigh => cases h; exact cold_planLawful
  | autoloadRead data => exact act_planLawful h hs (loadRead_planLawful data hs)
  | autoloadTimeout => exact hexpire .load h
  | frameCheckFailed c bytes => exact act_planLawful h hs (failCandidate_planLawful c bytes hs)
  | frameRejected c address kind payload => exact act_planLawful h hs (countErrored_planLawful c hs)
  | hello c restart digest => exact hdeliver c restart (.hello digest) h
  | report c restart r => exact hdeliver c restart (.report r) h
  | claim c restart cell cls => exact hdeliver c restart (.claim cell cls) h
  | release c restart cell => exact hdeliver c restart (.release cell) h
  | book c restart b => exact hdeliver c restart (.book b) h
  | cancel c restart id => exact hdeliver c restart (.cancel id) h
  | liftStart c restart id => exact hdeliver c restart (.liftStart id) h
  | liftEnd c restart id => exact hdeliver c restart (.liftEnd id) h
  | liftAbort c restart id => exact hdeliver c restart (.liftAbort id) h
  | resume c restart => exact hdeliver c restart .resume h
  | leave c restart => exact hdeliver c restart .leave h
  | query c restart item index segment => exact hdeliver c restart (.query item index segment) h
  | transmitComplete c => exact hframe h (PlanFrame.setPort s.dev c _)
  | joinWaitExpiry c => exact hexpire (.joinWait c) h
  | linkTimerExpiry c => exact hexpire (.link c) h
  | qualityPeriodExpiry c => exact hexpire (.quality c) h
  | takeUpExpiry k => exact hexpire (.takeUp k) h
  | lingerExpiry k => exact hexpire (.linger k) h
  | silenceTimerExpiry c => exact hexpire (.silence c) h
  | vaneClearTimerExpiry c => exact hexpire (.vaneClear c) h
  | pulseWaitTimerExpiry => exact hexpire .pulseWait h
  | fallbackTimerExpiry => exact hexpire .fallback h
  | mastPulse => exact hframe h ⟨rfl, rfl, rfl, id, rfl, id⟩
  | ppsPulse => exact hframe h (ppsPulse_planFrame s.dev)
  | supervisorBadFrame bytes =>
    refine hframe h ?_
    unfold badFrame
    split <;> exact ⟨rfl, rfl, rfl, id, rfl, id⟩
  | supervisorRead n =>
    refine hframe h ?_
    unfold readTransfer
    split
    · exact PlanFrame.ite ⟨rfl, rfl, rfl, id, rfl, id⟩ ⟨rfl, rfl, rfl, id, rfl, id⟩
    · exact ⟨rfl, rfl, rfl, id, rfl, id⟩
  | planBegin => exact hserved _ _ h (planBegin_planLawful hs)
  | planPutSite r => exact hserved _ _ h fun _ => planPutSite_planLawful r hs
  | planPutCrane index p => exact hserved _ _ h fun _ => planPutCrane_planLawful index p hs
  | planPutCell index r => exact hserved _ _ h fun _ => planPutCell_planLawful index r hs
  | planDropCell index => exact hserved _ _ h fun _ => planDropCell_planLawful index hs
  | planEnd => exact hserved _ _ h fun _ => planEnd_planLawful hs
  | planErase => exact hserved _ _ h (planErase_planLawful hs)
  | possession index value => exact hread _ _ h (setPossession_planFrame index value s.dev)
  | readPlanItem item index => exact hread _ _ h (hsame (readPlanItem_dev item index s.dev))
  | readCrane index => exact hread _ _ h (hsame (readCrane_dev index s.dev))
  | readCell index => exact hread _ _ h (hsame (readCell_dev index s.dev))
  | readBooking id => exact hread _ _ h (hsame (readBooking_dev id s.dev))
  | nextBooking id => exact hread _ _ h (hsame (nextBooking_dev id s.dev))
  | setClock time => exact hread _ _ h (setClock_planFrame time s.dev)
  | detach index => exact hserved _ _ h fun _ => detach_planLawful index hs
  | forceVane index => exact hread _ _ h (forceVane_planFrame index s.dev)
  | setWindSource index value => exact hread _ _ h (setWindSource_planFrame index value s.dev)
  | supervisorBook index b => exact hserved _ _ h fun _ => supervisorBook_planLawful index b hs
  | cancelBooking id => exact hserved _ _ h fun _ => cancelBooking_planLawful id hs
  | abortBooking id => exact hserved _ _ h fun _ => abortBooking_planLawful id hs
  | holdBookings index value => exact hread _ _ h (holdBookings_planFrame index value s.dev)
  | readFaults => exact act_planLawful h hs (takeCommand_planLawful _ _ hs hs)
  | clearFaults kinds => exact hread _ _ h (clearFaults_planFrame kinds s.dev)
  | setFaultMask kinds value => exact hread _ _ h (setFaultMask_planFrame kinds value s.dev)
  | setFaultSeverity kinds value => exact hread _ _ h (setFaultSeverity_planFrame kinds value s.dev)
  | warmRestart => exact hserved _ _ h fun _ => warmRestart_planLawful hs
  | linkByteReceived c b => exact act_planLawful h hs (byteReceived_planLawful c b hs)
  | replyPlaced =>
    refine hframe h ?_
    unfold placeReply
    split <;> exact ⟨rfl, rfl, rfl, id, rfl, id⟩
  | unknownCommand code args => exact act_planLawful h hs (takeCommand_planLawful _ _ hs hs)

theorem step_planLawful {s t : State} (h : step s = .next t) (hs : s.dev.planLawful) : t.dev.planLawful :=
  step_rel (R := fun d e => d.planLawful → e.planLawful) (fun _ => idle_planLawful) (fun _ _ _ => exec_planLawful) h hs

/-! ### What a valid plan satisfies (R9) -/

theorem within_iff (lo hi n : Nat) : within lo hi n = true ↔ lo ≤ n ∧ n ≤ hi := by
  simp [within]

theorem siteCheck_eq_none {r : Site} (h : siteCheck r = none) : siteInRange r = true ∧ gustsAscend r = true := by
  unfold siteCheck at h
  split at h
  · cases h
  · next hrange =>
    split at h
    · cases h
    · next hgusts => exact ⟨by simpa using hrange, by simpa using hgusts⟩

theorem profileCheck_eq_none {p : Profile} (h : profileCheck p = none) (hpresent : p.present = 1) :
    profileInRange p = true ∧ p.ts ≤ p.tw := by
  have hp : isPresent p = true := by simp [isPresent, hpresent]
  unfold profileCheck at h
  rw [hp] at h
  split at h
  · cases h
  · next hrange =>
    split at h
    · cases h
    · next htimes =>
      simp only [Bool.true_and, Bool.or_eq_true, Bool.not_eq_true', not_or, Bool.not_eq_false] at hrange
      exact ⟨hrange.2, by simpa using htimes⟩

/-- A footprint that passes the checks against its crane's profile. -/
def footprintFits (p : Plan) (f : Footprint) : Prop :=
  ∃ c : CraneIx, c.val = f.crane ∧ p.cranes[c].present = 1 ∧
    (f.kind = 0 ∨ (f.kind = 1 ∧ p.cranes[c].parkRadius < f.low ∧ f.low ≤ f.high ∧ f.high ≤ p.cranes[c].jib))

theorem craneIx_val {n : Nat} {c : CraneIx} (h : craneIx? n = some c) : c.val = n := by
  unfold craneIx? at h
  split at h
  · cases h
    rfl
  · cases h

theorem footprintFits_of_checks {p : Plan} {f : Footprint} (hfields : footprintFieldsOk f = true)
    (hrelation : footprintRelation p f = none) : footprintFits p f := by
  unfold footprintRelation Plan.profileOf at hrelation
  cases hc : craneIx? f.crane with
  | none => simp [hc] at hrelation
  | some c =>
    simp only [hc, Option.map_some] at hrelation
    split at hrelation
    · cases hrelation
    · next hpresent =>
      split at hrelation
      · cases hrelation
      · next hjib =>
        split at hrelation
        · cases hrelation
        · next hpark =>
          simp only [footprintFieldsOk, Bool.and_eq_true, within_iff] at hfields
          obtain ⟨⟨⟨⟨_, hkind⟩, _⟩, _⟩, hband⟩ := hfields
          refine ⟨c, craneIx_val hc, by simpa [isPresent] using hpresent, ?_⟩
          by_cases h0 : f.kind = 0
          · exact .inl h0
          · have h1 : f.kind = 1 := by omega
            simp only [h1, beq_self_eq_true, Bool.true_and, decide_eq_true_eq] at hjib hpark
            exact .inr ⟨h1, by omega, by simpa [h1] using hband, by omega⟩

/-- The checks of a cell's footprints, taken after earlier ones, that find no violation. -/
theorem footprintsCheck_eq_none {p : Plan} {earlier l : List Footprint}
    (h : footprintsCheck p false earlier l = none) :
    (∀ f ∈ l, footprintFits p f ∧ footprintEarlier earlier f = none) ∧
      (l.map fun f => f.crane).Nodup ∧ (l.filter fun f => f.kind == 0).length ≤ 1 := by
  induction l generalizing earlier with
  | nil => simp
  | cons f l ih =>
    unfold footprintsCheck footprintCheck at h
    by_cases hfields : footprintFieldsOk f = true
    swap
    · simp [hfields] at h
    cases hrelation : footprintRelation p f with
    | some n => simp [hfields, hrelation] at h
    | none =>
      cases hearlier : footprintEarlier earlier f with
      | some n => simp [hfields, hrelation, hearlier] at h
      | none =>
        simp only [hfields, hrelation, hearlier] at h
        obtain ⟨hall, hnodup, hjib⟩ := ih h
        have hlater : ∀ g ∈ l, g.crane ≠ f.crane ∧ ¬(g.kind = 0 ∧ f.kind = 0) ∧ footprintEarlier earlier g = none := by
          intro g hg
          have hnone := (hall g hg).2
          unfold footprintEarlier at hnone ⊢
          simp only [List.any_append, List.any_cons, List.any_nil, Bool.or_false] at hnone
          split at hnone
          · cases hnone
          · next hcrane =>
            split at hnone
            · cases hnone
            · next hkind =>
              simp only [Bool.or_eq_true, not_or, beq_iff_eq, Bool.and_eq_true, not_and] at hcrane hkind ⊢
              refine ⟨fun e => hcrane.2 e.symm, fun e => (hkind e).2, ?_⟩
              rw [if_neg hcrane.1, if_neg fun e => (hkind e.1).1 e.2]
        refine ⟨?_, ?_, ?_⟩
        · rintro g (_ | ⟨_, hg⟩)
          · exact ⟨footprintFits_of_checks hfields hrelation, hearlier⟩
          · exact ⟨(hall g hg).1, (hlater g hg).2.2⟩
        · refine List.nodup_cons.mpr ⟨fun hmem => ?_, hnodup⟩
          obtain ⟨g, hg, hcrane⟩ := List.mem_map.mp hmem
          exact (hlater g hg).1 hcrane
        · by_cases hkind : f.kind = 0
          · have hnone : l.filter (fun f => f.kind == 0) = [] :=
              List.filter_eq_nil_iff.mpr fun g hg => by
                simpa using fun e => (hlater g hg).2.1 ⟨e, hkind⟩
            simp [hkind, hnone]
          · simpa [hkind] using hjib

theorem cellCheck_eq_none {p : Plan} {r : CellRec} (h : cellCheck p false r = none) :
    1 ≤ r.footprints.length ∧ r.footprints.length ≤ 4 ∧ (r.fixed = 1 → r.kind = 1) ∧
      (r.footprints.map fun f => f.crane).Nodup ∧ (r.footprints.filter fun f => f.kind == 0).length ≤ 1 ∧
      ∀ f ∈ r.footprints, footprintFits p f := by
  unfold cellCheck at h
  split at h
  · cases h
  · next hfields =>
    split at h
    · cases h
    · next hcount =>
      obtain ⟨hall, hnodup, hjib⟩ := footprintsCheck_eq_none (Option.map_eq_none_iff.mp h)
      have hlength := (within_iff 1 4 _).mp (by simpa using hcount)
      refine ⟨hlength.1, hlength.2, fun hfixed => ?_, hnodup, hjib, fun f hf => (hall f hf).1⟩
      simp only [cellFieldsOk, hfixed, Bool.not_eq_true', Bool.not_eq_false, Bool.and_eq_true, within_iff,
        beq_self_eq_true, Bool.true_and, beq_eq_false_iff_ne] at hfields
      omega

/-- A plan in which validation finds no violation. -/
theorem validate_eq_none {p : Plan} (h : validate p = none) :
    siteCheck p.site = none ∧ (∀ c : CraneIx, profileCheck p.cranes[c] = none) ∧
      ∀ (k : CellIx) (r : CellRec), p.cells[k] = some r → cellCheck p false r = none := by
  unfold validate at h
  split at h
  · cases h
  · next hsite =>
    split at h
    · cases h
    · next hcranes =>
      refine ⟨hsite, fun c => ?_, fun k r hr => ?_⟩
      · simpa [craneViolation] using List.findSome?_eq_none_iff.mp hcranes c (mem_allCranes c)
      · simpa [cellViolation, hr] using List.findSome?_eq_none_iff.mp h k (mem_allCells k)

/-- Settles O32: every step keeps the law of the plan, and validation passes only what its checks let pass. -/
theorem activePlansAreValid : Obligations.ActivePlansAreValid := by
  refine ⟨fun s t hs h => step_planLawful h hs, fun p h => ?_⟩
  obtain ⟨hsite, hcranes, hcells⟩ := validate_eq_none h
  obtain ⟨hrange, hgusts⟩ := siteCheck_eq_none hsite
  simp only [gustsAscend, Bool.and_eq_true, decide_eq_true_eq] at hgusts
  exact ⟨hrange, hgusts.1.1, hgusts.1.2, hgusts.2, fun c hpresent => profileCheck_eq_none (hcranes c) hpresent,
    fun k r hr => cellCheck_eq_none (hcells k r hr)⟩

end Sys2Proof.Machine
end

