-- ==== Sys2Proof/Proofs/SupervisorPort.lean ====
section
/-! SUPPORT. The Supervisor Port and the Fault Unit (chapter 11): the port's states, reading a reply, raises, masks and
severities, and the bytes of the fault record. -/

namespace Sys2Proof.Machine

/-! ### A command served -/

/-- What serving a command comes to is what its reply and the part afterwards are. -/
theorem act_served {s : State} {code : Byte} {serve : Device → Served} {d : Device} {reply : ReplyCode}
    {values : List Byte} (h : s.takesCommands) (hserve : serve s.dev = ⟨d, reply, values⟩) :
    s.act (command code serve) = .next (s.answered code reply values d) := by
  rw [act_command_of_takesCommands h, hserve]

theorem act_takeCommand_idle {s : State} (code : Byte) (serve : Device → Served) (hreset : s.dev.resetLow = false)
    (h : s.dev.sup = .idle) :
    s.act (takeCommand code serve) =
      .next (s.answered code (serve s.dev).code (serve s.dev).values (serve s.dev).dev) :=
  act_to hreset (by simp only [takeCommand, h]; rfl)

theorem act_takeCommand_serving {s : State} {r : SupReply} (code : Byte) (serve : Device → Served)
    (hreset : s.dev.resetLow = false) (h : s.dev.sup = .serving r) : s.act (takeCommand code serve) = .next s :=
  act_to hreset (by simp only [takeCommand, h])

theorem act_takeCommand_waiting {s : State} {r : SupReply} (code : Byte) (serve : Device → Served)
    (hreset : s.dev.resetLow = false) (h : s.dev.sup = .waiting r) :
    s.act (takeCommand code serve) =
      .next { s with dev := { s.dev with sup := .waiting ⟨some code, .busy, []⟩ } } :=
  act_to hreset (by simp only [takeCommand, h]; rfl)

/-! ### Raises (R177) -/

theorem raise_of_pending {d : Device} {k : FaultKind} (a b e : Option Nat) (h : (d.faultEntry k).pending = true) :
    d.raise k a b e = d := by
  simp [Device.raise, h]

/-- A raise that captures no context leaves the pointer and its context. -/
theorem raise_context_kept {d : Device} {k : FaultKind} (a b e : Option Nat)
    (h : d.faults.pointer ≠ none ∨ (d.faultEntry k).masked = true) :
    (d.raise k a b e).faults.pointer = d.faults.pointer ∧ (d.raise k a b e).faults.context = d.faults.context := by
  have hno : (d.faults.pointer.isNone && !(d.faultEntry k).masked) = false := by
    rcases h with h | h <;> simp [h]
  unfold Device.raise
  simp only [hno]
  split <;> exact ⟨rfl, rfl⟩

theorem raise_pointer_of_first {d : Device} {k : FaultKind} (a b e : Option Nat) (hpointer : d.faults.pointer = none)
    (hpending : (d.faultEntry k).pending = false) (hmasked : (d.faultEntry k).masked = false) :
    (d.raise k a b e).faults.pointer = some k := by
  simp [Device.raise, hpointer, hpending, hmasked]

/-- Settles O22: the entry raised by `raise_entry`, the capture by the case of its condition. -/
theorem firstUnmaskedRaiseCaptures : Obligations.FirstUnmaskedRaiseCaptures := by
  intro d k a b e
  refine ⟨raise_of_pending a b e, fun hpending => ⟨?_, fun j hj => ?_, fun hpointer hmasked => ?_,
    raise_context_kept a b e, raise_eq d k a b e⟩⟩
  · rw [raise_entry, if_pos rfl]
  · rw [raise_entry, if_neg hj]
  · exact ⟨raise_pointer_of_first a b e hpointer hpending hmasked,
      raise_context_of_first a b e hpointer hpending hmasked⟩

/-! ### Masks and severities (R181) -/

/-- The part with the entries of the kinds a set names changed by `f`. -/
def Device.withEntries (d : Device) (kinds : BitVec 16) (f : FaultEntry → FaultEntry) : Device :=
  { d with faults := { d.faults with entries := mapFaults kinds f d.faults.entries } }

theorem withEntries_faultEntry (d : Device) (kinds : BitVec 16) (f : FaultEntry → FaultEntry) (k : FaultKind) :
    (d.withEntries kinds f).faultEntry k = if kinds.getLsbD k.ix then f (d.faultEntry k) else d.faultEntry k :=
  mapFaults_get kinds f d.faults.entries k

theorem beq_one_eq_decide (n : Nat) : (n == 1) = decide (n = 1) := rfl

theorem setFaultMask_valid {kinds : BitVec 16} {value : Nat} (d : Device) (hk : kinds.toNat < 8192) (hv : value ≤ 1) :
    setFaultMask kinds value d = ⟨d.withEntries kinds fun e => { e with masked := decide (value = 1) }, .ok, []⟩ := by
  simp only [setFaultMask, kindSetValid, hk, Nat.not_lt.mpr hv, beq_one_eq_decide]
  rfl

theorem setFaultSeverity_valid {kinds : BitVec 16} {value : Nat} (d : Device) (hk : kinds.toNat < 8192)
    (hv : value ≤ 1) :
    setFaultSeverity kinds value d =
      ⟨d.withEntries kinds fun e => { e with alarm := decide (value = 1) }, .ok, []⟩ := by
  simp only [setFaultSeverity, kindSetValid, hk, Nat.not_lt.mpr hv, beq_one_eq_decide]
  rfl

theorem setFault_invalid {kinds : BitVec 16} {value : Nat} (d : Device) (h : 8192 ≤ kinds.toNat ∨ 1 < value) :
    setFaultMask kinds value d = d.refuse .invalid ∧ setFaultSeverity kinds value d = d.refuse .invalid := by
  have hbad : (!kindSetValid kinds || decide (1 < value)) = true := by
    simp only [kindSetValid, Bool.or_eq_true, Bool.not_eq_true', decide_eq_false_iff_not, decide_eq_true_eq]
    omega
  exact ⟨if_pos hbad, if_pos hbad⟩

/-- Settles O25: both commands change the entries named, and nothing else. -/
theorem masksAndSeveritiesAreSet : Obligations.MasksAndSeveritiesAreSet := by
  refine fun kinds s hs => ⟨fun value hv hk => ⟨⟨_, act_served hs (setFaultMask_valid s.dev hk hv), rfl, ?_⟩,
    ⟨_, act_served hs (setFaultSeverity_valid s.dev hk hv), rfl, ?_⟩⟩, fun value h => ?_⟩
  · exact withEntries_faultEntry s.dev kinds _
  · exact withEntries_faultEntry s.dev kinds _
  · obtain ⟨hmask, hseverity⟩ := setFault_invalid s.dev h
    exact ⟨act_served hs hmask, act_served hs hseverity⟩

/-! ### The port's states (R172, R175) -/

/-- A command of Table 11-4 is taken by the port under its code; READ_FAULTS alone is served while the plan is
LOADING. -/
theorem exec_of_commandBytes {i : Instr} {code : Nat} {args : List Byte} (h : commandBytes i = some (code, args)) :
    ∃ serve, (∀ s, exec i s = s.act (takeCommand (byte code) serve)) ∧
      (i ≠ .readFaults → ∀ d, d.planState = .loading → serve d = d.refuse .busy) := by
  have hserved : ∀ f : Device → Served, ∀ d : Device, d.planState = .loading → unlessLoading f d = d.refuse .busy :=
    fun f d hd => by simp [unlessLoading, hd]
  cases i <;> cases h
  case readFaults => exact ⟨readFaults, fun _ => rfl, fun hne => absurd rfl hne⟩
  all_goals exact ⟨unlessLoading _, fun _ => rfl, fun _ => hserved _⟩

/-- Settles O27: each state of the port takes a frame in one way. -/
theorem portStatesDecideWhatIsServed : Obligations.PortStatesDecideWhatIsServed := by
  refine ⟨fun i code args s hbytes hreset => ?_, fun s hreset => ⟨fun bytes h => ?_, fun bytes r h => ?_,
    fun bytes r h => ?_, fun code args h => act_takeCommand_idle _ _ hreset h,
    fun code args r h => act_takeCommand_serving _ _ hreset h,
    fun code args r h => act_takeCommand_waiting _ _ hreset h⟩⟩
  · obtain ⟨serve, hexec, hbusy⟩ := exec_of_commandBytes hbytes
    simp only [hexec]
    refine ⟨fun r h => act_takeCommand_serving _ _ hreset h, fun r h => act_takeCommand_waiting _ _ hreset h,
      fun h hloading hne => ?_⟩
    rw [act_takeCommand_idle _ _ hreset h, hbusy hne s.dev hloading]
    rfl
  · exact act_to hreset (by simp only [badFrame, h]; rfl)
  · exact act_to hreset (by simp only [badFrame, h])
  · exact act_to hreset (by simp only [badFrame, h]; rfl)

/-! ### Reading a reply (R173, entry 14) -/

theorem map_shiftedByte_of_le {l : List Byte} {n : Nat} (h : n ≤ l.length) :
    (List.range n).map (shiftedByte l) = l.take n := by
  refine List.ext_getElem (by simp [h]) fun i h1 h2 => ?_
  have hi : i < l.length := by simp at h2; omega
  simp [shiftedByte, List.getD_eq_getElem?_getD, List.getElem?_eq_getElem hi]

theorem map_shiftedByte_take {l : List Byte} {n : Nat} (h : l.length ≤ n) :
    ((List.range n).map (shiftedByte l)).take l.length = l := by
  rw [← List.map_take, List.take_range, Nat.min_eq_left h, map_shiftedByte_of_le (le_refl _), List.take_length]

/-- Settles O28: the bytes shifted out are the reply's as far as it goes, and a reply shifted out whole is consumed. -/
theorem readTransferTakesTheReply : Obligations.ReadTransferTakesTheReply := by
  refine fun s n hreset => ⟨fun r h => ⟨by simp [Device.ready, hreset, h], fun hle => ?_, fun hlt => ?_⟩, fun h => ?_⟩
  · refine ⟨_, act_to hreset (by simp only [readTransfer, h, if_pos hle]; rfl), rfl, ?_, ?_, ?_⟩
    · simp [Device.ready, Device.setSup]
    · simp [Device.setSup]
    · simpa [Device.setSup] using map_shiftedByte_take hle
  · refine act_to hreset ?_
    simp only [readTransfer, h, if_neg (Nat.not_le.mpr hlt), map_shiftedByte_of_le (le_of_lt hlt)]
  · rcases h with h | ⟨r, h⟩
    all_goals exact ⟨by simp [Device.ready, h], act_to hreset (by simp only [readTransfer, h])⟩

/-! ### The fault record (R179, entry 15) -/

/-- In records of equal width, one after the other, record `i` is found at `i` times the width. -/
theorem flatMap_record {α : Type} {f : α → List Byte} {w : Nat} (hf : ∀ x, (f x).length = w) (rest : List Byte) :
    ∀ (l : List α) (i : Nat) (hi : i < l.length), ((l.flatMap f ++ rest).drop (w * i)).take w = f l[i]
  | x :: l, 0, _ => by simp [← hf x]
  | x :: l, i + 1, hi => by
    have hnext := flatMap_record hf rest l i (by simpa using hi)
    rw [List.flatMap_cons, List.append_assoc, Nat.mul_succ, Nat.add_comm, ← hf x, List.drop_length_add_append, hf x]
    simpa using hnext

theorem flatMap_length_of_width {α : Type} {f : α → List Byte} {w : Nat} (hf : ∀ x, (f x).length = w) (l : List α) :
    (l.flatMap f).length = w * l.length := by
  induction l with
  | nil => rfl
  | cons x l ih => rw [List.flatMap_cons, List.length_append, hf, ih, List.length_cons, Nat.mul_succ, Nat.add_comm]

theorem beBytes_one (n : Nat) : beBytes 1 n = [byte n] := rfl

/-- A field of one byte that may be absent, as a byte. -/
def optByte (x : Option Nat) : Byte := (x.map byte).getD 255

theorem optBytes_one (x : Option Nat) : optBytes 1 x = [optByte x] := by
  cases x <;> rfl

theorem optBytes_length (w : Nat) (x : Option Nat) : (optBytes w x).length = w := by
  cases x <;> simp [optBytes, absent]

/-- The three bytes of a fault kind's entry. -/
def entryBytes (e : FaultEntry) : List Byte :=
  [flagByte e.pending, byte (maskCode e.masked), byte (severityCode e.alarm)]

theorem entryBytes_eq (e : FaultEntry) :
    entryBytes e = [if e.pending then 1 else 0, if e.masked then 0 else 1, if e.alarm then 1 else 0] := by
  obtain ⟨pending, masked, alarm⟩ := e
  cases pending <;> cases masked <;> cases alarm <;> rfl

/-- The fields of the fault record after the entries: pointer, then the context's kind, crane, cell and booking. -/
def faultTail (u : FaultUnit) : List Byte :=
  [optByte (u.pointer.map fun k => k.ix.val), optByte (u.context.map fun x => x.kind.ix.val),
    optByte (u.context.bind fun x => x.crane), optByte (u.context.bind fun x => x.cell)] ++
    beBytes 2 ((u.context.bind fun x => x.booking).getD 0) ++ optBytes 4 (u.context.bind fun x => x.siteTime)

theorem faultBytes_eq (d : Device) : faultBytes d = d.faultEntries.flatMap entryBytes ++ faultTail d.faults := by
  simp only [faultBytes, contextBytes, faultTail, optBytes_one, List.append_assoc]
  rfl

theorem faultEntries_length (d : Device) : d.faultEntries.length = 13 := d.faults.entries.length_toList

theorem faultEntries_bytes_length (d : Device) : (d.faultEntries.flatMap entryBytes).length = 39 := by
  rw [flatMap_length_of_width (w := 3) fun _ => rfl, faultEntries_length]

theorem faultBytes_entry (d : Device) (k : FaultKind) :
    ((faultBytes d).drop (3 * k.ix.val)).take 3 = entryBytes (d.faultEntry k) := by
  rw [faultBytes_eq, flatMap_record (w := 3) (fun _ => rfl) _ _ _ (by rw [faultEntries_length]; exact k.ix.isLt)]
  simp [Device.faultEntries, Device.faultEntry]

theorem faultBytes_getElem? (d : Device) (i : Nat) : (faultBytes d)[39 + i]? = (faultTail d.faults)[i]? := by
  rw [faultBytes_eq, List.getElem?_append_right (by rw [faultEntries_bytes_length]; omega), faultEntries_bytes_length,
    Nat.add_sub_cancel_left]

theorem faultBytes_drop (d : Device) (i : Nat) : (faultBytes d).drop (39 + i) = (faultTail d.faults).drop i := by
  rw [faultBytes_eq, ← faultEntries_bytes_length d, List.drop_length_add_append]

/-- Settles O26: the record is its entries' bytes and the tail, whose fields stand at their offsets. -/
theorem faultRecordIsReadWhole : Obligations.FaultRecordIsReadWhole := by
  refine ⟨fun s hreset h => act_takeCommand_idle readFaultsCode readFaults hreset h, fun s r hreset h => ⟨fun hr => ?_,
    fun hr => ?_⟩, fun d => ⟨?_, fun k => ?_, fun h => ?_, fun k h => ?_, fun h => ?_, fun x h => ?_⟩⟩
  · refine act_to hreset ?_
    have hlevels : levelBytes s.dev ++ r.values =
        (if s.dev.alert then 1 else 0) :: (if s.dev.alarm then 1 else 0) :: r.values := by
      unfold levelBytes
      cases s.dev.alert <;> cases s.dev.alarm <;> rfl
    simp only [placeReply, h, readFaultsCode, hr, ← hlevels]
    rfl
  · refine act_to hreset ?_
    have hplain : (r.echo == some readFaultsCode && r.code == .ok) = false := by
      simpa [readFaultsCode] using hr
    simp only [placeReply, h, hplain]
    rfl
  · rw [faultBytes_eq, List.length_append, faultEntries_bytes_length]
    simp [faultTail, optBytes_length]
  · rw [faultBytes_entry, entryBytes_eq]
  · exact (faultBytes_getElem? d 0).trans (by simp [faultTail, h, optByte])
  · exact (faultBytes_getElem? d 0).trans (by simp [faultTail, h, optByte])
  · exact (faultBytes_drop d 1).trans (by simp [faultTail, h, optByte]; rfl)
  · have hbyte : ∀ i, (faultBytes d)[39 + i]? = (faultTail d.faults)[i]? := faultBytes_getElem? d
    have hdrop : ∀ i, (faultBytes d).drop (39 + i) = (faultTail d.faults).drop i := faultBytes_drop d
    refine ⟨(hbyte 1).trans (by simp [faultTail, h, optByte]), fun n hn => (hbyte 2).trans ?_,
      fun hn => (hbyte 2).trans ?_, fun n hn => (hbyte 3).trans ?_, fun hn => (hbyte 3).trans ?_,
      (congrArg (List.take 2) (hdrop 4)).trans ?_, fun n hn => (hdrop 6).trans ?_, fun hn => (hdrop 6).trans ?_⟩
    · simp [faultTail, h, hn, optByte]
    · simp [faultTail, h, hn, optByte]
    · simp [faultTail, h, hn, optByte]
    · simp [faultTail, h, hn, optByte]
    · simp [faultTail, h, beBytes_two]
    · simp [faultTail, h, hn, optBytes, beBytes_two]
    · simp [faultTail, h, hn, optBytes, absent, beBytes_two]

end Sys2Proof.Machine
end

