-- ==== Sys2Proof/Proofs/PlanCommands.lean ====
section
/-! SUPPORT. The commands of the Plan Store (sections 1.4 to 1.8), served: sessions, records put and dropped,
possessions. -/

namespace Sys2Proof.Machine

/-! ### Indices -/

theorem cellIx?_val (k : CellIx) : cellIx? k.val = some k := by
  simp [cellIx?]

theorem cellIx?_of_le {n : Nat} (h : 48 ≤ n) : cellIx? n = none := dif_neg (Nat.not_lt.mpr h)

theorem craneIx?_val (c : CraneIx) : craneIx? c.val = some c := by
  simp [craneIx?]

theorem craneIx?_of_le {n : Nat} (h : 10 ≤ n) : craneIx? n = none := dif_neg (Nat.not_lt.mpr h)

/-! ### Sessions (R13, R16, R17) -/

theorem planBegin_editing {d : Device} (h : d.planState = .editing) : planBegin d = d.refuse .wrongState := by
  simp [planBegin, h]

theorem planBegin_quiet {d : Device} (h : d.planState ≠ .editing) (hquiet : d.quiet = true) :
    planBegin d = Device.done { d with planState := .editing } := by
  simp [planBegin, h, hquiet]

theorem planBegin_busy {d : Device} (h : d.planState ≠ .editing) (hquiet : d.quiet = false) :
    planBegin d = d.refuse .busy := by
  simp [planBegin, h, hquiet]

theorem not_quiet {d : Device} (h : (∃ c, d.membership c ≠ .absent) ∨ d.bookings ≠ []) : d.quiet = false := by
  rw [← Bool.not_eq_true, quiet_iff]
  rintro ⟨habsent, hbookings⟩
  rcases h with ⟨c, hc⟩ | h
  exacts [hc (habsent c), h hbookings]

/-- Settles O29: each command by the state of the plan and, for BEGIN and ERASE, the quiet of the part. -/
theorem planSessionsBeginEndAndErase : Obligations.PlanSessionsBeginEndAndErase := by
  refine ⟨fun s hs => ⟨fun h => act_served hs (planBegin_editing h), fun habsent hbookings => ⟨fun h => ?_, ?_⟩,
    fun hbusy => ⟨fun h => act_served hs (planBegin_busy h (not_quiet hbusy)), ?_⟩⟩, fun s hs => ⟨fun h => ?_,
    fun h => ⟨fun hvalid => ?_, fun v hv => ?_⟩⟩⟩
  · exact act_served hs (planBegin_quiet h ((quiet_iff s.dev).mpr ⟨habsent, hbookings⟩))
  · exact act_served hs (if_pos ((quiet_iff s.dev).mpr ⟨habsent, hbookings⟩))
  · exact act_served hs (if_neg (by rw [not_quiet hbusy]; decide))
  · exact act_served hs (if_pos (by simpa using h))
  · exact act_served hs (by simp only [planEnd, h, hvalid]; rfl)
  · exact act_served hs (by simp [planEnd, h, hv])

/-! ### Records put (R14) -/

theorem planPutSite_editing {d : Device} (r : Site) (h : d.planState = .editing) :
    planPutSite r d = match siteCheck r with
      | some n => d.invalidCheck n
      | none => Device.done { d with plan := { d.plan with site := r } } := by
  simp only [planPutSite, h]
  rfl

theorem planPutCrane_editing {d : Device} (c : CraneIx) (p : Profile) (h : d.planState = .editing) :
    planPutCrane c.val p d = match profileCheck p with
      | some n => d.invalidCheck n
      | none => Device.done { d with plan := { d.plan with cranes := d.plan.cranes.set c p } } := by
  simp only [planPutCrane, h, craneIx?_val]
  rfl

theorem profileCheck_out_of_range {p : Profile} (h : 1 < p.present ∨ (p.present = 1 ∧ profileInRange p = false)) :
    profileCheck p = some 3 := by
  refine if_pos ?_
  rcases h with h | ⟨hpresent, hrange⟩
  · have hbad : within 0 1 p.present = false := by simp [within]; omega
    simp [hbad]
  · simp [isPresent, hpresent, hrange]

theorem profileCheck_short_lookahead {p : Profile} (hpresent : p.present = 1) (hrange : profileInRange p = true)
    (h : p.tw < p.ts) : profileCheck p = some 4 := by
  simp [profileCheck, isPresent, within, hpresent, hrange, h]

theorem profileCheck_passes {p : Profile}
    (h : p.present = 0 ∨ (p.present = 1 ∧ profileInRange p = true ∧ p.ts ≤ p.tw)) :
    profileCheck p = none := by
  rcases h with h | ⟨hpresent, hrange, htimes⟩
  · simp [profileCheck, isPresent, within, h]
  · simp [profileCheck, isPresent, within, hpresent, hrange, Nat.not_lt.mpr htimes]

/-- Settles O30: a record is stored where its checks find nothing, and else answered with the first that fails. -/
theorem planPutsStoreCheckedRecords : Obligations.PlanPutsStoreCheckedRecords := by
  refine fun s hs => ⟨fun h r i p => ⟨?_, ?_⟩, fun h => ⟨fun r hrange => ?_, fun r hrange hgusts => ?_,
    fun r hrange hgusts => ?_, fun i p hi => ?_, fun c p => ⟨fun hbad => ?_, fun hpresent hrange htimes => ?_,
    fun hgood => ?_⟩⟩⟩
  · exact act_served hs (if_pos (by simpa using h))
  · exact act_served hs (if_pos (by simpa using h))
  · exact act_served hs (by rw [planPutSite_editing r h]; simp [siteCheck, hrange]; rfl)
  · exact act_served hs (by rw [planPutSite_editing r h]; simp [siteCheck, hrange, hgusts]; rfl)
  · exact act_served hs (by rw [planPutSite_editing r h]; simp [siteCheck, hrange, hgusts]; rfl)
  · exact act_served hs (by simp [planPutCrane, h, craneIx?_of_le hi]; rfl)
  · exact act_served hs (by rw [planPutCrane_editing c p h, profileCheck_out_of_range hbad]; rfl)
  · exact act_served hs (by rw [planPutCrane_editing c p h, profileCheck_short_lookahead hpresent hrange htimes]; rfl)
  · exact act_served hs (by rw [planPutCrane_editing c p h, profileCheck_passes hgood]; rfl)

/-! ### Cells put and dropped (R15) -/

theorem fixedDefined_of_some {d : Device} {k : CellIx} {r : CellRec} (h : d.cellRec k = some r) (hfixed : r.fixed = 1) :
    d.fixedDefined k = true := by
  simp [Device.fixedDefined, h, hfixed]

theorem fixedDefined_false {d : Device} {k : CellIx} (h : ∀ r, d.cellRec k = some r → r.fixed ≠ 1) :
    d.fixedDefined k = false := by
  cases hr : d.cellRec k with
  | none => simp [Device.fixedDefined, hr]
  | some r => simpa [Device.fixedDefined, hr] using h r hr

theorem planPutCell_editing {d : Device} (k : CellIx) (r : CellRec) (h : d.planState = .editing) :
    planPutCell k.val r d =
      if d.fixedDefined k then d.refuse .fixedCell
      else match cellCheck d.plan true (fillOmitted r) with
        | some x => d.invalidCheck x.1
        | none => (d.putCell k (some (fillOmitted r))).done := by
  simp only [planPutCell, h, cellIx?_val]
  rfl

theorem planDropCell_editing {d : Device} (k : CellIx) (h : d.planState = .editing) :
    planDropCell k.val d =
      if d.fixedDefined k then d.refuse .fixedCell
      else if (d.cellRec k).isNone then d.done else (d.putCell k none).done := by
  simp only [planDropCell, h, cellIx?_val]
  rfl

theorem fillOmitted_eq (r : CellRec) :
    fillOmitted r = { r with
      takeUp := if r.takeUp = 255 then 20 else r.takeUp
      linger := if r.linger = 255 then 3 else r.linger } := by
  simp [fillOmitted]

/-- Settles O31: outside EDITING, out of range, FIXED, and else by the cell's checks or its definition. -/
theorem cellPutsAndDropsFollowTheTable : Obligations.CellPutsAndDropsFollowTheTable := by
  refine fun s hs => ⟨fun h i r =>
    ⟨act_served hs (if_pos (by simpa using h)), act_served hs (if_pos (by simpa using h))⟩,
    fun h => ⟨fun i r hi => ⟨?_, ?_⟩, fun k => ⟨fun old r hold hfixed => ⟨?_, ?_⟩, fun hfree => ?_⟩⟩⟩
  · exact act_served hs (by simp [planPutCell, h, cellIx?_of_le hi]; rfl)
  · exact act_served hs (by simp [planDropCell, h, cellIx?_of_le hi]; rfl)
  · exact act_served hs (by rw [planPutCell_editing k r h, fixedDefined_of_some hold hfixed]; rfl)
  · exact act_served hs (by rw [planDropCell_editing k h, fixedDefined_of_some hold hfixed]; rfl)
  · have hnot := fixedDefined_false hfree
    refine ⟨fun r n f hcheck => ?_, fun r hcheck => ?_, fun hnone => ?_, fun hsome => ?_⟩
    · exact act_served hs (by rw [planPutCell_editing k r h, hnot, hcheck]; rfl)
    · rw [← fillOmitted_eq]
      exact act_served hs (by rw [planPutCell_editing k r h, hnot, hcheck]; rfl)
    · exact act_served hs (by rw [planDropCell_editing k h, hnot, hnone]; rfl)
    · obtain ⟨r, hr⟩ := Option.ne_none_iff_exists'.mp hsome
      exact act_served hs (by rw [planDropCell_editing k h, hnot, hr]; rfl)

/-! ### Possessions (R6) -/

theorem protectedCell_iff (d : Device) (k : CellIx) :
    d.protectedCell k = true ↔ ∃ r, d.cellRec k = some r ∧ r.kind = 1 := by
  unfold Device.protectedCell
  cases d.cellRec k <;> simp

/-- Settles O33: the index and the value, the plan and the cell's kind, and else the possession set. -/
theorem possessionFollowsTheTable : Obligations.PossessionFollowsTheTable := by
  refine fun s index value hs => ⟨fun h => ?_, ?_⟩
  · refine act_served hs ?_
    unfold setPossession
    split
    · rfl
    · rw [cellIx?_of_le (by omega)]
      rfl
  · rintro k rfl hv
    have hvalue : ¬1 < value := Nat.not_lt.mpr hv
    refine ⟨fun h => act_served hs ?_, fun r hactive hr hkind => act_served hs ?_⟩
    · have hrefuse : (s.dev.planState != .active || !s.dev.protectedCell k) = true := by
        rcases h with h | h | ⟨r, hr, hkind⟩
        · simp [h]
        · simp [← Bool.not_eq_true, protectedCell_iff, h]
        · simp [← Bool.not_eq_true, protectedCell_iff, hr, hkind]
      simp only [setPossession, cellIx?_val, if_neg hvalue, hrefuse]
      rfl
    · have htake : (s.dev.planState != .active || !s.dev.protectedCell k) = false := by
        simp [hactive, (protectedCell_iff s.dev k).mpr ⟨r, hr, hkind⟩]
      simp only [setPossession, cellIx?_val, if_neg hvalue, htake]
      simp [Device.done]

end Sys2Proof.Machine
end

