-- ==== Sys2Proof/Proofs/ResetAndTime.lean ====
section
/-! SUPPORT. The RESET pin (section 10.6), and what the part does while no command waits (entries 1, 2): a free order is
one of the orders, and a tick takes one from every timer. -/

namespace Sys2Proof.Machine

/-! ### The RESET pin (R171) -/

theorem cold_coldValues : Device.cold.coldValues := by
  refine ⟨⟨rfl, rfl, fun c => ?_, fun k => ?_, fun k => ?_, rfl, rfl, rfl⟩,
    ⟨crane_cold, fun c => ?_, fun c => ?_, fun k => ?_⟩,
    ⟨fun c => ?_, rfl⟩, ⟨rfl, rfl, rfl, fun c => ?_⟩, ⟨fun c => ?_, rfl⟩, fun k => ?_, rfl, rfl⟩
  · simp [Device.profile, Device.cold, Plan.defaults]; rfl
  · simp [Device.cellRec, Device.cold, Plan.defaults]
  · simp [Device.possessionOf, Device.cold]
  · simp [Device.reachOf, Device.cold]
  · simp [Device.permitOf, Device.cold]
  · simp [Device.cell, Device.cold]; rfl
  · simp [Device.windOf, Device.cold]; rfl
  · simp [Device.hold, Device.cold]
  · simp [Device.port, Device.cold]; rfl
  · cases k <;> rfl

/-- While RESET is low no command but those of the pin changes anything (entry 5). -/
theorem exec_of_resetLow {i : Instr} {s : State} (h : s.dev.resetLow = true) (hcold : i ≠ .coldReset)
    (hhigh : i ≠ .resetHigh) : exec i s = .next s := by
  have hact : ∀ f, s.act f = .next s := fun f => by rw [State.act_next, if_pos h]
  cases i
  case coldReset => exact absurd rfl hcold
  case resetHigh => exact absurd rfl hhigh
  all_goals exact hact _

/-- Settles O3: the values of `Device.cold` with the pin, the load and the counter apart. -/
theorem resetPinSetsColdValues : Obligations.ResetPinSetsColdValues := by
  refine ⟨fun s => ⟨⟨_, rfl, rfl, cold_coldValues, rfl, rfl, rfl⟩,
    _, rfl, rfl, cold_coldValues, rfl, rfl, rfl, ?_, ?_, ?_,
    fun c => ?_⟩, fun i s h => exec_of_resetLow h⟩
  · simp [Device.ready, resetLow]
  · simp [Device.alert, resetLow]
  · simp [Device.alarm, resetLow]
  · simp [Device.port, resetLow, Device.cold, Port.reset]

/-! ### Free orders (entry 3) -/

theorem insertAtPick_perm {α : Type} (x : α) (n : Nat) (l : List α) : (insertAtPick x n l).Perm (x :: l) :=
  List.perm_insertIdx x l (Nat.le_of_lt_succ (Nat.mod_lt _ (Nat.succ_pos _)))

theorem shuffleFrom_perm {α : Type} (pick : Nat → Nat) : ∀ (n : Nat) (l : List α), (shuffleFrom pick n l).Perm l
  | _, [] => List.Perm.refl _
  | _, [_] => List.Perm.refl _
  | n, x :: y :: l => (insertAtPick_perm x _ _).trans ((shuffleFrom_perm pick (n + 1) (y :: l)).cons x)

theorem shuffle_perm {α : Type} (d : Device) (l : List α) : (d.shuffle l).Perm l := shuffleFrom_perm _ _ l

/-! ### Ticks and expiries -/

/-- A tick takes one from every timer of the part. -/
theorem tickTimers_timer (d : Device) (x : Timer) : d.tickTimers.timer x = (d.timer x).map (· - 1) := by
  cases x with
  | load =>
    simp only [Device.timer, Device.tickTimers]
    cases d.load <;> rfl
  | joinWait c => simp [Device.timer, Device.tickTimers, Device.crane, CraneRec.tick, tickTimer]
  | link c => simp [Device.timer, Device.tickTimers, Device.crane, CraneRec.tick, tickTimer]
  | quality c => simp [Device.timer, Device.tickTimers, Device.crane, CraneRec.tick, tickTimer]
  | takeUp k =>
    simp only [Device.timer, Device.tickTimers, Device.cell, Fin.getElem_fin, Vector.getElem_map]
    cases d.cells[k.val].standing <;> rfl
  | linger k =>
    simp only [Device.timer, Device.tickTimers, Device.cell, Fin.getElem_fin, Vector.getElem_map]
    cases d.cells[k.val].standing <;> rfl
  | silence c => simp [Device.timer, Device.tickTimers, Device.windOf, WindRec.tick, tickTimer]
  | vaneClear c => simp [Device.timer, Device.tickTimers, Device.windOf, WindRec.tick, tickTimer]
  | pulseWait => rfl
  | fallback => rfl

theorem busyPorts_isEmpty {d : Device} (h : ∀ c, (d.port c).waiting = 0) : d.busyPorts = [] := by
  simp [Device.busyPorts, h]

theorem busyPorts_ne_nil {d : Device} (h : ∃ c, (d.port c).waiting ≠ 0) : d.busyPorts ≠ [] := by
  obtain ⟨c, hc⟩ := h
  exact List.ne_nil_of_mem (List.mem_filter.mpr ⟨mem_allCranes c, by simpa using hc⟩)

theorem idle_of_busy {d : Device} (hreset : d.resetLow = false) (h : ∃ c, (d.port c).waiting ≠ 0) :
    idle d = servePorts d := by
  simp [idle, hreset, busyPorts_ne_nil h]

theorem idle_of_due {d : Device} (hreset : d.resetLow = false) (h : ∀ c, (d.port c).waiting = 0)
    (hdue : d.dueTimers ≠ []) : idle d = expireDue d := by
  simp [idle, hreset, busyPorts_isEmpty h, hdue]

theorem idle_of_quiet {d : Device} (hreset : d.resetLow = false) (h : ∀ c, (d.port c).waiting = 0)
    (hdue : d.dueTimers = []) : idle d = d.tickTimers := by
  simp [idle, hreset, busyPorts_isEmpty h, hdue]

theorem expireIfDue_eq (d : Device) (x : Timer) :
    expireIfDue d x = if d.timer x = some 0 then expire x d else d := by
  simp [expireIfDue, Device.due]

theorem expireIfDue_of_due {d : Device} {x : Timer} (h : d.timer x = some 0) : expireIfDue d x = expire x d := by
  rw [expireIfDue_eq, if_pos h]

theorem expireIfDue_of_not_due {d : Device} {x : Timer} (h : d.timer x ≠ some 0) : expireIfDue d x = d := by
  rw [expireIfDue_eq, if_neg h]

/-- A timer that alone has run out has its whole effect. -/
theorem expireDue_single {d : Device} {x : Timer} (h : d.dueTimers = [x]) :
    expireDue d = expire x { d with picks := d.picks + 1 } := by
  have hdue : d.timer x = some 0 := by
    have hmem : x ∈ d.dueTimers := by simp [h]
    simpa [Device.due] using (List.mem_filter.mp hmem).2
  have hpicked : ({ d with picks := d.picks + 1 } : Device).timer x = some 0 := by
    rw [← hdue]
    cases x <;> rfl
  unfold expireDue
  rw [h]
  exact expireIfDue_of_due hpicked

/-- Settles O2: the four cases of an idle step. -/
theorem emptyQueueServesExpiresOrTicks : Obligations.EmptyQueueServesExpiresOrTicks := by
  intro s hp
  refine ⟨_, step_nil hp, hp, fun hreset => ?_, fun hreset hbusy => idle_of_busy hreset hbusy,
    fun hreset hquiet => ⟨fun hdue => ?_, fun hdue => ?_, fun x hdue => ?_⟩⟩
  · simp [idle, hreset]
  · have hidle := idle_of_quiet hreset hquiet hdue
    dsimp only
    rw [hidle]
    exact ⟨rfl, tickTimers_timer s.dev, rfl⟩
  · refine ⟨_, shuffle_perm s.dev s.dev.dueTimers, (idle_of_due hreset hquiet hdue).trans ?_⟩
    unfold expireDue
    congr 1
    funext d x
    exact expireIfDue_eq d x
  · refine (idle_of_due hreset hquiet ?_).trans (expireDue_single hdue)
    rw [show s.dev.dueTimers = [x] from hdue]
    simp

end Sys2Proof.Machine
end

