-- ==== Sys2Proof/Proofs/CraneFrames.lean ====
section
/-! SUPPORT. Crane frames heard and refused: the restart streak, HELLO, LEAVE and DETACH, the roster's timers, and the
refusals of CLAIM and of the lift frames. -/

namespace Sys2Proof.Machine

/-! ### The restart streak (R29) -/

/-- A frame heard from an ADMITTED crane is handled by its kind. -/
theorem act_hears {s : State} {c : CraneIx} {restart : Bool} (h : s.hears c restart) (serve : Device → Device) :
    s.act (withStreak c restart serve) = .next { s with dev := serve (s.heard c restart) } := by
  obtain ⟨hreset, hmember, hstreak⟩ := h
  refine act_to hreset ?_
  simp only [Device.membership] at hmember
  simp [withStreak, hmember, hstreak, State.heard]

/-- The streak passes by a crane that is not ADMITTED. -/
theorem act_not_admitted {s : State} {c : CraneIx} (restart : Bool) (hreset : s.dev.resetLow = false)
    (h : s.dev.membership c ≠ .admitted) (serve : Device → Device) :
    s.act (withStreak c restart serve) = .next { s with dev := serve s.dev } :=
  act_to hreset (withStreak_not_admitted h)

/-- A frame delivered in any membership state is handled by its kind. -/
theorem act_delivers {s : State} {c : CraneIx} {restart : Bool} (h : s.delivers c restart) (serve : Device → Device) :
    s.act (withStreak c restart serve) = .next { s with dev := serve (s.delivered c restart) } := by
  unfold State.delivered
  split
  · next hmember => exact act_hears ⟨h.1, hmember, h.2 hmember⟩ serve
  · next hmember => exact act_not_admitted restart h.1 hmember serve

theorem heard_membership {s : State} {c : CraneIx} (restart : Bool) :
    (s.heard c restart).membership c = s.dev.membership c := by
  simp [Device.membership, State.heard]

theorem heard_admitted {s : State} {c : CraneIx} {restart : Bool} (h : s.hears c restart) :
    (s.heard c restart).membership c = .admitted := (heard_membership restart).trans h.2.1

/-- The streak is all that hearing a frame changes. -/
theorem heard_wentAbsent {s : State} {c : CraneIx} {restart : Bool} {t : Device}
    (h : (s.heard c restart).wentAbsent c t) : s.dev.wentAbsent c t := h

theorem heard_sameElsewhere {s : State} {c : CraneIx} {restart : Bool} {t : Device}
    (h : (s.heard c restart).sameElsewhere c t) : s.dev.sameElsewhere c t := fun x hx => by
  have hcrane : (s.heard c restart).crane x = s.dev.crane x := by simp [State.heard, hx]
  exact hcrane ▸ h x hx

/-! ### Frames sent -/

theorem sendFrame_wentAbsent {c : CraneIx} {d t : Device} (f : TxFrame) (h : d.wentAbsent c t) :
    d.wentAbsent c (t.sendFrame c f) := by
  rw [sendFrame_eq]
  exact h

theorem raise_wentAbsent {c : CraneIx} {d t : Device} {k : FaultKind} {a b e : Option Nat}
    (h : (d.raise k a b e).wentAbsent c t) : d.wentAbsent c t := by
  unfold Device.wentAbsent at h ⊢
  rwa [raise_windOf] at h

/-- What is sent to a crane is put behind what its port holds. -/
theorem sendFrame_port_congr {d t : Device} {c : CraneIx} (f : TxFrame) (h : t.port c = d.port c) :
    (t.sendFrame c f).port c = (d.sendFrame c f).port c := by
  rw [sendFrame_port, sendFrame_port, h]

/-! ### HELLO (R24, R25) -/

theorem hello_absent {c : CraneIx} {digest : BitVec 32} {d : Device} (h : d.membership c = .absent) :
    hello c digest d =
      if d.planState != .active then d.reply c 0x01 .noPlan
      else if !isPresent (d.profile c) then (refuseJoin c d).reply c 0x01 .unknownCrane
      else if digest != d.digest then (refuseJoin c d).reply c 0x01 .planMismatch
      else (d.setCrane c (joinRecord d (d.crane c))).reply c 0x01 .ok := by
  have hcrane : (d.crane c).membership = .absent := h
  simp only [hello, hcrane]

theorem hello_joining {c : CraneIx} {digest : BitVec 32} {d : Device} (h : d.membership c = .joining) :
    hello c digest d =
      if digest == d.digest then
        (d.setCrane c { d.crane c with joinWait := some Config.joinWaitTicks }).reply c 0x01 .ok
      else (goAbsent c (refuseJoin c d)).reply c 0x01 .planMismatch := by
  have hcrane : (d.crane c).membership = .joining := h
  simp only [hello, hcrane]

theorem hello_member {c : CraneIx} {digest : BitVec 32} {d : Device}
    (h : d.membership c = .admitted ∨ d.membership c = .lost) :
    hello c digest d =
      if digest == d.digest then d.reply c 0x01 .ok else (refuseJoin c d).reply c 0x01 .planMismatch := by
  rcases h with h | h
  all_goals
    have hcrane : (d.crane c).membership = _ := h
    simp only [hello, hcrane]

theorem goAbsent_faults (c : CraneIx) (d : Device) : (goAbsent c d).faults = d.faults := by
  rw [goAbsent_eq]

theorem goAbsent_port (c x : CraneIx) (d : Device) : (goAbsent c d).port x = d.port x := by
  have hports : (goAbsent c d).ports = d.ports := by rw [goAbsent_eq]
  rw [Device.port, hports, Device.port]

theorem sendFrame_faults (c : CraneIx) (d : Device) (f : TxFrame) : (d.sendFrame c f).faults = d.faults := by
  rw [sendFrame_eq, Device.setPort_faults]

/-- Settles O38: HELLO by the crane's membership, the plan and the digest. -/
theorem helloJoinsOrIsRefused : Obligations.HelloJoinsOrIsRefused := by
  intro s c restart digest hreset
  refine ⟨fun habsent => ?_, fun hjoining => ?_, fun hlost => ?_, fun hhears => ?_⟩
  · have hact := act_not_admitted (c := c) restart hreset (by simp [habsent]) (hello c digest)
    rw [hello_absent habsent] at hact
    refine ⟨fun hplan => hact.trans ?_, fun hplan hpresent => hact.trans ?_,
      fun hplan hpresent hdigest => hact.trans ?_, fun hplan hpresent hdigest => hact.trans ?_⟩
    · simp [hplan]
    · simp [hplan, isPresent, hpresent]; rfl
    · simp [hplan, isPresent, hpresent, hdigest]; rfl
    · simp [hplan, isPresent, hpresent, hdigest]; rfl
  · have hact := act_not_admitted (c := c) restart hreset (by simp [hjoining]) (hello c digest)
    rw [hello_joining hjoining] at hact
    refine ⟨fun hdigest => hact.trans ?_, fun hdigest => ⟨_, hact, ?_⟩⟩
    · simp [hdigest]; rfl
    · rw [if_neg (by simpa using hdigest)]
      refine ⟨sendFrame_wentAbsent _ (raise_wentAbsent (goAbsent_records c _)), ?_, ?_⟩
      · exact (sendFrame_faults c _ _).trans (goAbsent_faults c _)
      · exact sendFrame_port_congr _ ((goAbsent_port c c _).trans (raise_port ..))
  · have hact := act_not_admitted (c := c) restart hreset (by simp [hlost]) (hello c digest)
    rw [hello_member (.inr hlost)] at hact
    refine ⟨fun hdigest => hact.trans ?_, fun hdigest => hact.trans ?_⟩
    · simp [hdigest]
    · simp [hdigest]; rfl
  · have hact := act_hears hhears (hello c digest)
    rw [hello_member (.inl (heard_admitted hhears))] at hact
    have hsame : (s.heard c restart).digest = s.dev.digest := rfl
    refine ⟨fun hdigest => hact.trans ?_, fun hdigest => hact.trans ?_⟩
    · simp [hdigest, hsame]
    · simp [hdigest, hsame]; rfl

/-! ### The roster's timers (R26, R38) -/

theorem act_expiry_due {s : State} {x : Timer} (hreset : s.dev.resetLow = false) (h : s.dev.timer x = some 0) :
    s.act (fun d => expireIfDue d x) = .next { s with dev := expire x s.dev } :=
  act_to hreset (expireIfDue_of_due h)

theorem act_expiry_not_due {s : State} {x : Timer} (hreset : s.dev.resetLow = false) (h : s.dev.timer x ≠ some 0) :
    s.act (fun d => expireIfDue d x) = .next s := act_to hreset (expireIfDue_of_not_due h)

theorem judgeQuality_degraded {r : Site} {n : Nat} (q : Quality) (h : r.degradeCount ≤ n) :
    judgeQuality r n q = .degraded := if_pos h

theorem judgeQuality_good {r : Site} {n : Nat} (q : Quality) (h : n < r.degradeCount) (h' : n ≤ r.clearCount) :
    judgeQuality r n q = .good := by
  rw [judgeQuality, if_neg (Nat.not_le.mpr h), if_pos h']

theorem judgeQuality_kept {r : Site} {n : Nat} (q : Quality) (h : n < r.degradeCount) (h' : r.clearCount < n) :
    judgeQuality r n q = q := by
  rw [judgeQuality, if_neg (Nat.not_le.mpr h), if_neg (Nat.not_le.mpr h')]

/-- The roster record of a crane whose quality period ends with a quality (R38). -/
def periodEnded (d : Device) (c : CraneIx) (q : Quality) : CraneRec :=
  { d.crane c with
    quality := q
    lastPeriod := (d.crane c).errored
    errored := 0
    qualityTimer := some (100 * d.plan.site.qualityPeriod) }

theorem qualityExpired_eq {c : CraneIx} {d : Device} {q : Quality} (h : (d.crane c).qualityTimer.isSome)
    (hq : judgeQuality d.plan.site (d.crane c).errored (d.crane c).quality = q) :
    qualityExpired c d =
      if q = .degraded ∧ (d.crane c).quality = .good then
        (d.setCrane c (periodEnded d c q)).raise .linkDegraded (some c.val) none none
      else d.setCrane c (periodEnded d c q) := by
  have hsome : (d.crane c).qualityTimer.isNone = false := by simpa using h
  simp only [qualityExpired, hsome, hq, Bool.and_eq_true, beq_iff_eq]
  rfl

theorem dropCrane_eq_filter (c : CraneIx) (l : List CraneIx) : dropCrane c l = l.filter (· ≠ c) :=
  List.filter_congr fun x _ => by by_cases h : x = c <;> simp [h]

/-- Settles O41: the two expiries of the roster, each where its timer stands at 0. -/
theorem rosterTimersExpire : Obligations.RosterTimersExpire := by
  refine ⟨fun s c hreset => ⟨fun h => ?_, fun h => act_expiry_not_due (x := .joinWait c) hreset h,
    fun h => act_expiry_not_due (x := .link c) hreset h⟩, fun s c hreset =>
    ⟨fun h => act_expiry_not_due (x := .quality c) hreset h, fun h => ?_⟩⟩
  · have hexpire : expire (.joinWait c) s.dev = goAbsent c s.dev := by simp [expire, joinWaitExpired, h]
    have hact := act_expiry_due (x := .joinWait c) hreset h
    rw [hexpire] at hact
    refine ⟨_, hact, goAbsent_records c s.dev, (ForCrane.goAbsent c s.dev).others, fun k => ?_, ?_⟩
    · dsimp only
      rw [goAbsent_cell]
      exact ⟨rfl, rfl, rfl, dropCrane_eq_filter c _, dropCrane_eq_filter c _⟩
    · exact congrArg (fun d => { s with dev := d }) (goAbsent_eq c s.dev)
  · have hact := act_expiry_due (x := .quality c) hreset h
    have hsome : (s.dev.crane c).qualityTimer.isSome := by simp [h]
    have hexpire : ∀ q, judgeQuality s.dev.plan.site (s.dev.crane c).errored (s.dev.crane c).quality = q → _ :=
      fun q hq => qualityExpired_eq hsome hq
    refine ⟨fun hdegrade hgood => hact.trans ?_, fun hdegrade hgood => hact.trans ?_, fun hlow hclear => hact.trans ?_,
      fun hlow hclear => hact.trans ?_⟩
    all_goals simp only [expire]
    · rw [hexpire _ (judgeQuality_degraded _ hdegrade), if_pos ⟨rfl, hgood⟩]
      rfl
    · rw [hexpire _ (judgeQuality_degraded _ hdegrade), if_neg (by simp [hgood])]
      rfl
    · rw [hexpire _ (judgeQuality_good _ hlow hclear), if_neg (by simp)]
      rfl
    · rw [hexpire _ (judgeQuality_kept _ hlow hclear), if_neg (by rintro ⟨h1, h2⟩; rw [h1] at h2; cases h2)]
      rfl

/-! ### LEAVE (R34) -/

theorem wentAbsent_of_windOf {c : CraneIx} {d e t : Device} (hw : e.windOf c = d.windOf c) (h : e.wentAbsent c t) :
    d.wentAbsent c t := by
  unfold Device.wentAbsent at h ⊢
  rwa [hw] at h

theorem isHolder_iff (d : Device) (c : CraneIx) : d.isHolder c = true ↔ ∃ k, (d.cell k).standing.holder = some c := by
  simp [Device.isHolder]

theorem liftRunning_iff (d : Device) (c : CraneIx) :
    d.liftRunning c = true ↔ ∃ b ∈ d.bookings, b.crane = c ∧ b.state.running = true := by
  simp [Device.liftRunning]

theorem running_iff (x : BookingState) : x.running = true ↔ x = .lifting ∨ x = .holdLower := by
  cases x <;> simp [BookingState.running]

/-- Withdrawn from a cell that it neither holds nor intrudes in, a crane has no place there. -/
theorem withdrawEntry_lacks {c : CraneIx} {d : Device} {k : CellIx} (hholder : (d.cell k).standing.holder ≠ some c)
    (hintruders : c ∉ (d.cell k).intruders) : ((withdrawEntry c d k).cell k).lacks c := by
  unfold withdrawEntry
  split
  · rw [updCell_cell]
    exact judge_lacks _ _ _ _ ⟨hholder, fun w hw => ((mem_dequeue c w _).mp hw).2, hintruders⟩
  · next hentry =>
    exact ⟨hholder, (entryOf_eq_none c _).mp (by simpa using hentry), hintruders⟩

theorem withdrawEntries_cell (c : CraneIx) (d : Device) (k : CellIx) :
    (withdrawEntries c d).cell k = (withdrawEntry c d k).cell k := by
  rw [withdrawEntries, (Local.withdrawEntry c).foldl_cell _ allCells_nodup, if_pos (mem_allCells k)]

/-- A crane that goes ABSENT is, in every cell, where it was: with no claim if it had none. -/
theorem goAbsent_no_claim {c : CraneIx} {d : Device} {k : CellIx} (h : (d.cell k).lacks c) :
    ((goAbsent c d).cell k).standing.holder ≠ some c ∧ ∀ w ∈ ((goAbsent c d).cell k).queue, w.crane ≠ c := by
  rw [goAbsent_cell]
  exact ⟨h.1, h.2.1⟩

theorem sendFrame_cell (c : CraneIx) (d : Device) (f : TxFrame) (k : CellIx) : (d.sendFrame c f).cell k = d.cell k := by
  rw [sendFrame_eq]
  rfl

theorem sendFrame_bookings (c : CraneIx) (d : Device) (f : TxFrame) : (d.sendFrame c f).bookings = d.bookings := by
  rw [sendFrame_eq, Device.setPort_bookings]

theorem leave_of_code {c : CraneIx} {d : Device} {code : ReplyCode} (h : leaveCode d c = code) (hcode : code ≠ .ok) :
    leave c d = d.reply c 0x0B code := by
  unfold leave
  rw [h]
  cases code
  case ok => exact absurd rfl hcode
  all_goals rfl

theorem leave_taken {c : CraneIx} {d : Device} (h : leaveCode d c = .ok) :
    leave c d = (goAbsent c (withdrawEntries c d)).reply c 0x0B .ok := by
  unfold leave
  rw [h]

/-- A LEAVE that is taken, on the part as the frame finds it. -/
theorem leave_left {c : CraneIx} {d : Device} (h : leaveCode d c = .ok) :
    d.wentAbsent c (leave c d) ∧ d.sameElsewhere c (leave c d) ∧
      (leave c d).port c = (d.reply c 0x0B .ok).port c ∧ (leave c d).bookings = d.bookings ∧
      ((∀ k, (d.cell k).standing.holder ≠ some c ∧ c ∉ (d.cell k).intruders) →
        ∀ k, ((leave c d).cell k).standing.holder ≠ some c ∧ ∀ w ∈ ((leave c d).cell k).queue, w.crane ≠ c) := by
  have hcells := withdrawEntries_cellsOnly c d
  refine ⟨?_, (ForCrane.leave c d).others, ?_, ?_, fun hfree k => ?_⟩
  all_goals rw [leave_taken h]
  · exact sendFrame_wentAbsent _ (wentAbsent_of_windOf (hcells.windOf c) (goAbsent_records c _))
  · exact sendFrame_port_congr _ ((goAbsent_port c c _).trans (hcells.port c))
  · exact (sendFrame_bookings c _ _).trans ((goAbsent_bookings c _).trans hcells.bookings)
  · rw [Device.reply, sendFrame_cell]
    refine goAbsent_no_claim ?_
    rw [withdrawEntries_cell]
    exact withdrawEntry_lacks (hfree k).1 (hfree k).2

/-- Settles O42: the answers of `leaveCode`, and what a LEAVE taken comes to. -/
theorem leaveFollowsTheTable : Obligations.LeaveFollowsTheTable := by
  intro s c restart hreset
  have hother := fun h => act_not_admitted (c := c) restart hreset h (leave c)
  refine ⟨fun habsent => ?_, fun hjoining => ?_, fun hlost => ?_, fun hhears => ?_⟩
  · have hcode : leaveCode s.dev c = .notAdmitted := by simp [leaveCode, habsent]
    exact (hother (by simp [habsent])).trans (by rw [leave_of_code hcode (by decide)])
  · obtain ⟨hwent, hothers, hport, hbookings, hclaims⟩ :=
      leave_left (c := c) (d := s.dev) (by simp [leaveCode, hjoining])
    exact ⟨_, hother (by simp [hjoining]), hwent, hothers, hport, hbookings, hclaims⟩
  · have hcode : leaveCode s.dev c = .wrongState := by simp [leaveCode, hlost]
    exact (hother (by simp [hlost])).trans (by rw [leave_of_code hcode (by decide)])
  · have hact := act_hears hhears (leave c)
    have hcode : leaveCode (s.heard c restart) c = if s.dev.isHolder c || s.dev.liftRunning c then .busy else .ok := by
      unfold leaveCode
      rw [heard_admitted hhears]
      rfl
    refine ⟨fun hbusy => hact.trans ?_, fun hholder hlift => ?_⟩
    · have hyes : (s.dev.isHolder c || s.dev.liftRunning c) = true := by
        rw [Bool.or_eq_true, isHolder_iff, liftRunning_iff]
        simpa only [running_iff] using hbusy
      rw [leave_of_code (hcode.trans (if_pos hyes)) (by decide)]
    · have hno : ¬(s.dev.isHolder c || s.dev.liftRunning c) = true := by
        rw [Bool.or_eq_true, isHolder_iff, liftRunning_iff, not_or]
        refine ⟨fun ⟨k, hk⟩ => hholder k hk, fun ⟨b, hb, hc, hrunning⟩ => ?_⟩
        rcases (running_iff _).mp hrunning with h | h
        exacts [(hlift b hb hc).1 h, (hlift b hb hc).2 h]
      obtain ⟨hwent, hothers, hport, hbookings, hclaims⟩ := leave_left (hcode.trans (if_neg hno))
      exact ⟨_, hact, heard_wentAbsent hwent, heard_sameElsewhere hothers,
        hport.trans (sendFrame_port_congr _ rfl), hbookings, hclaims⟩

/-! ### DETACH (R35, R83, R146) -/

/-- A booking that goes with its crane brings nothing for its successor. -/
theorem retire_detached (id : Nat) (d : Device) :
    retire id .detached d = match d.booking id with
      | some b => retireOne b .detached d
      | none => d := by
  unfold retire retireChain
  cases d.booking id with
  | none => rfl
  | some b =>
    dsimp only
    split <;> rfl

/-- The bookings left of a table are bookings of it, possibly unlinked. -/
def TableLeft (l l' : List Booking) : Prop := ∀ b ∈ l', ∃ x ∈ l, x.id = b.id ∧ x.crane = b.crane

theorem TableLeft.refl (l : List Booking) : TableLeft l l := fun b hb => ⟨b, hb, rfl, rfl⟩

theorem TableLeft.trans {l l' l'' : List Booking} (h : TableLeft l l') (h' : TableLeft l' l'') : TableLeft l l'' := by
  intro b hb
  obtain ⟨x, hx, hid, hcrane⟩ := h' b hb
  obtain ⟨y, hy, hid', hcrane'⟩ := h x hx
  exact ⟨y, hy, hid'.trans hid, hcrane'.trans hcrane⟩

theorem mem_unlinkPred {b x : Booking} {l : List Booking} (h : x ∈ unlinkPred b l) :
    ∃ y ∈ l, y.id = x.id ∧ y.crane = x.crane := by
  unfold unlinkPred at h
  split at h
  · obtain ⟨y, hy, rfl⟩ := List.mem_map.mp h
    refine ⟨y, hy, ?_⟩
    split <;> exact ⟨rfl, rfl⟩
  · exact ⟨x, h, rfl, rfl⟩

theorem retireOne_left (b : Booking) (reason : RetireReason) (d : Device) :
    TableLeft d.bookings (retireOne b reason d).bookings := by
  intro x hx
  rw [retireOne_bookings, mem_removeBooking] at hx
  exact mem_unlinkPred hx.1

theorem retire_detached_left (id : Nat) (d : Device) : TableLeft d.bookings (retire id .detached d).bookings := by
  rw [retire_detached]
  split
  · exact retireOne_left _ _ d
  · exact TableLeft.refl _

theorem retire_detached_gone (id : Nat) (d : Device) : ∀ b ∈ (retire id .detached d).bookings, b.id ≠ id := by
  rw [retire_detached]
  split
  · next b hb =>
    intro x hx
    rw [retireOne_bookings, mem_removeBooking, booking_id hb] at hx
    exact hx.2
  · next hnone => exact booking_eq_none.mp hnone

theorem foldl_retire_detached (ids : List Nat) (d : Device) :
    TableLeft d.bookings (ids.foldl (fun d id => retire id .detached d) d).bookings ∧
      ∀ b ∈ (ids.foldl (fun d id => retire id .detached d) d).bookings, b.id ∉ ids := by
  induction ids generalizing d with
  | nil => exact ⟨TableLeft.refl _, fun _ _ => List.not_mem_nil⟩
  | cons id ids ih =>
    obtain ⟨hleft, hgone⟩ := ih (retire id .detached d)
    refine ⟨(retire_detached_left id d).trans hleft, fun b hb => ?_⟩
    obtain ⟨x, hx, hid, _⟩ := hleft b hb
    rw [List.mem_cons, not_or]
    exact ⟨hid ▸ retire_detached_gone id d x hx, hgone b hb⟩

/-- DETACH leaves no booking of the crane and brings none in. -/
theorem retireAllOf_bookings (c : CraneIx) (d : Device) :
    TableLeft d.bookings (retireAllOf c d).bookings ∧ ∀ b ∈ (retireAllOf c d).bookings, b.crane ≠ c := by
  obtain ⟨hleft, hgone⟩ := foldl_retire_detached (d.bookingIds c) d
  refine ⟨hleft, fun b hb hcrane => ?_⟩
  obtain ⟨x, hx, hid, hx'⟩ := hleft b hb
  refine hgone b hb (List.mem_map.mpr ⟨x, List.mem_filter.mpr ⟨hx, ?_⟩, hid⟩)
  rw [hx', hcrane, beq_self_eq_true]

theorem rejudgePath_lacks {c : CraneIx} {d : Device} (path : List CellIx) (h : ∀ k, (d.cell k).lacks c) (k : CellIx) :
    ((rejudgePath path d).cell k).lacks c := by
  rw [rejudgePath, Local.rejudgeCell.foldl_cell _ (ascending_nodup path)]
  split
  · rw [rejudgeCell, updCell_cell]
    exact judge_lacks _ _ _ _ (h k)
  · exact h k

theorem revertCell_lacks {b c : CraneIx} {d : Device} {k : CellIx} (h : (d.cell k).lacks c) :
    ((revertCell b d k).cell k).lacks c := by
  obtain ⟨hholder, hqueue, hintruders⟩ := h
  have hjudge : ∀ r : CellClaim, r.standing.holder = (d.cell k).standing.holder → r.intruders = (d.cell k).intruders →
      (∀ w ∈ r.queue, w.crane ≠ c) → (judge d k r).lacks c := fun r h1 h2 h3 =>
    judge_lacks d k c r ⟨h1 ▸ hholder, h3, h2 ▸ hintruders⟩
  unfold revertCell
  dsimp only
  split
  · split
    · rw [updCell_cell]
      exact hjudge _ (setHolderClass_holder ..) rfl hqueue
    · exact ⟨hholder, hqueue, hintruders⟩
  · split
    · next w hw =>
      have hb : b ≠ c := by
        obtain ⟨hmem, hcrane⟩ := entryOf_some b _ w hw
        exact hcrane ▸ hqueue w hmem
      split
      · split
        · rw [updCell_cell]
          refine hjudge _ rfl rfl fun x hx => ?_
          obtain ⟨y, hy, rfl⟩ := List.mem_map.mp hx
          split
          · exact hqueue y hy
          · exact hqueue y hy
        · rw [updCell_cell]
          refine hjudge _ rfl rfl fun x hx => ?_
          rcases (mem_enqueue ..).mp hx with rfl | hx
          · exact hb
          · exact hqueue x ((mem_dequeue ..).mp hx).1
      · exact ⟨hholder, hqueue, hintruders⟩
    · exact ⟨hholder, hqueue, hintruders⟩

theorem revertPath_lacks {b c : CraneIx} {d : Device} (path : List CellIx) (h : ∀ k, (d.cell k).lacks c) (k : CellIx) :
    ((revertPath b path d).cell k).lacks c := by
  rw [revertPath, (Local.revertCell b).foldl_cell _ (ascending_nodup path)]
  split
  · exact revertCell_lacks (h k)
  · exact h k

/-- A retirement gives no crane a place in a cell. -/
theorem retireOne_lacks {c : CraneIx} {d : Device} (b : Booking) (reason : RetireReason)
    (h : ∀ k, (d.cell k).lacks c) (k : CellIx) : ((retireOne b reason d).cell k).lacks c := by
  have hraise : ∀ (e : Device) (x y z : Option Nat), (e.raise .bookingExpired x y z).cell k = e.cell k :=
    fun e x y z => raise_cell ..
  have hrevert : ∀ k, ((if b.state.running then revertPath b.crane b.path d else d).cell k).lacks c := by
    split
    exacts [revertPath_lacks b.path h, h]
  unfold retireOne
  dsimp only
  generalize (if b.state.running then revertPath b.crane b.path d else d) = e at hrevert
  have hremove : ∀ l k, (({ e with bookings := l } : Device).cell k).lacks c := fun l k => hrevert k
  have hjudge : ∀ l, ((if b.state.inForce then rejudgePath b.path { e with bookings := l }
      else ({ e with bookings := l } : Device)).cell k).lacks c := by
    intro l
    split
    exacts [rejudgePath_lacks b.path (hremove l) k, hremove l k]
  split
  · rw [hraise]
    exact hjudge _
  · exact hjudge _

theorem retireAllOf_lacks {c x : CraneIx} {d : Device} (h : ∀ k, (d.cell k).lacks c) (k : CellIx) :
    ((retireAllOf x d).cell k).lacks c := by
  unfold retireAllOf
  generalize d.bookingIds x = ids
  induction ids generalizing d with
  | nil => exact h k
  | cons id ids ih =>
    refine ih fun k => ?_
    dsimp only
    rw [retire_detached]
    split
    exacts [retireOne_lacks _ _ h k, h k]

/-- Its entries withdrawn and its cells released, a crane that intrudes nowhere has no place in any cell. -/
theorem releaseAllHeld_lacks {c : CraneIx} {d : Device} (h : ∀ k, (d.cell k).lawful ∧ c ∉ (d.cell k).intruders)
    (k : CellIx) : ((releaseAllHeld c (withdrawEntries c d)).cell k).lacks c := by
  obtain ⟨hlawful, hintruders⟩ := h k
  obtain ⟨⟨_, hholds, _⟩, _⟩ := (CellClaim.lawful_iff _).mp hlawful
  rw [releaseAllHeld, (Local.releaseHeld c).foldl_cell _ allCells_nodup, if_pos (mem_allCells k)]
  unfold releaseHeld
  by_cases hholder : (d.cell k).standing.holder = some c
  · have hqueue : ∀ w ∈ (d.cell k).queue, w.crane ≠ c := fun w hw hc =>
      (hholds c hholder).1 (List.mem_map.mpr ⟨w, hw, hc⟩)
    have hcell : (withdrawEntries c d).cell k = d.cell k := by
      rw [withdrawEntries_cell, withdrawEntry, (entryOf_eq_none c _).mpr hqueue]
      rfl
    rw [hcell, hholder, if_pos (beq_self_eq_true _), releaseCell, updCell_cell, hcell]
    exact judge_lacks _ _ _ _ (giveOn_lacks _ _ _ _ ⟨hqueue, hintruders⟩)
  · have hlacks : ((withdrawEntries c d).cell k).lacks c := by
      rw [withdrawEntries_cell]
      exact withdrawEntry_lacks hholder hintruders
    rw [if_neg (by simpa using hlacks.1)]
    exact hlacks

theorem detach_of_member {c : CraneIx} {d : Device} (h : d.membership c ≠ .absent) :
    detach c.val d = (goAbsent c (retireAllOf c (releaseAllHeld c (withdrawEntries c d)))).done := by
  simp [detach, craneIx?_val, h]

/-- Settles O43: the crane's claims go first, then its bookings, then its records. -/
theorem detachRemovesTheCrane : Obligations.DetachRemovesTheCrane := by
  refine fun s hs => ⟨fun index hindex => act_served hs ?_, fun c => ⟨fun habsent => act_served hs ?_, fun hmember =>
    ⟨_, act_served hs (detach_of_member hmember), ?_, (ForCrane.detached c s.dev).others, ?_, ?_,
      fun hlawful k => ?_, ?_⟩⟩⟩
  · rw [detach, craneIx?_of_le hindex]
    rfl
  · simp [detach, craneIx?_val, habsent]
    rfl
  all_goals
    have hcells := (withdrawEntries_cellsOnly c s.dev).trans (releaseAllHeld_cellsOnly c _)
    have hclaims := hcells.claimsOnly.trans (retireAllOf_claimsOnly c _)
    obtain ⟨hleft, hgone⟩ := retireAllOf_bookings c (releaseAllHeld c (withdrawEntries c s.dev))
  · exact wentAbsent_of_windOf (hclaims.windOf c) (goAbsent_records c _)
  · rw [goAbsent_bookings]
    exact hgone
  · rw [goAbsent_bookings]
    intro b hb
    obtain ⟨x, hx, hid, _⟩ := hleft b hb
    exact ⟨x, hcells.bookings ▸ hx, hid⟩
  · exact goAbsent_no_claim (retireAllOf_lacks (releaseAllHeld_lacks hlawful) k)
  · have hrest := (ForCrane.detached c s.dev).rest
    have hnext : (goAbsent c (retireAllOf c (releaseAllHeld c (withdrawEntries c s.dev)))).nextId = s.dev.nextId := by
      rw [goAbsent_eq, hclaims.nextId]
    have hports : (goAbsent c (retireAllOf c (releaseAllHeld c (withdrawEntries c s.dev)))).ports = s.dev.ports := by
      rw [goAbsent_eq, hclaims.ports]
    rw [hnext, hports] at hrest
    exact hrest

/-! ### CLAIM refused (R60) -/

theorem request_refused {c : CraneIx} {k : CellIx} {x : ClaimClass} {d : Device}
    (h : (requestCode d c k x).taken = false) : request c k x d = d := by
  unfold request
  cases hcode : requestCode d c k x <;> simp_all [ReplyCode.taken]

theorem claimFrame_eq {c : CraneIx} {k : CellIx} {x : ClaimClass} {d : Device} (hmember : d.membership c = .admitted)
    (hx : x = .free ∨ x = .emergency) :
    claimFrame c k.val x.code d =
      (if x = .emergency ∧ (requestCode d c k x).taken = true then
        (request c k x d).raise .emergencyClaim (some c.val) (some k.val) none else request c k x d).reply c 0x03
          (requestCode d c k x) := by
  have hadmitted : (d.membership c != .admitted) = false := by simp [hmember]
  rcases hx with rfl | rfl
  all_goals
    unfold claimFrame
    rw [hadmitted, cellIx?_val]
    simp [claimClass?, ClaimClass.code]

theorem claimFrame_refused {c : CraneIx} {k : CellIx} {x : ClaimClass} {d : Device} {code : ReplyCode}
    (hmember : d.membership c = .admitted) (hx : x = .free ∨ x = .emergency) (hcode : requestCode d c k x = code)
    (h : code.taken = false) : claimFrame c k.val x.code d = d.reply c 0x03 code := by
  have hrequest : request c k x d = d := request_refused (by rw [hcode, h])
  rw [claimFrame_eq hmember hx, hcode, hrequest, if_neg (by simp [h])]

theorem claimFrame_not_admitted {c : CraneIx} {cell cls : Nat} {d : Device} (h : d.membership c ≠ .admitted) :
    claimFrame c cell cls d = d.reply c 0x03 .notAdmitted := if_pos (by simpa using h)

theorem claimFrame_invalid {c : CraneIx} {cell cls : Nat} {d : Device} (hmember : d.membership c = .admitted)
    (h : 48 ≤ cell ∨ (cls ≠ 2 ∧ cls ≠ 4)) : claimFrame c cell cls d = d.reply c 0x03 .invalid := by
  unfold claimFrame
  rw [hmember]
  rcases h with h | ⟨h2, h4⟩
  · rw [cellIx?_of_le h]
    rfl
  · have hcls : ∀ x, claimClass? cls = some x → x ≠ .free ∧ x ≠ .emergency := by
      intro x hx
      constructor
      all_goals
        rintro rfl
        unfold claimClass? at hx
        split at hx <;> simp_all
    simp only [bne_self_eq_false, Bool.false_eq_true, if_false]
    split
    · next hx => exact absurd rfl (hcls _ hx).1
    · next hx => exact absurd rfl (hcls _ hx).2
    · rfl

theorem requestCode_noFootprint {d : Device} {c : CraneIx} {k : CellIx} (x : ClaimClass) (h : d.footprint c k = none) :
    requestCode d c k x = .noFootprint := if_pos (by simp [h])

theorem requestCode_protected {d : Device} {c : CraneIx} {k : CellIx} {x : ClaimClass} (h : d.footprint c k ≠ none)
    (hprotected : d.protectedCell k = true) (htier : d.tier x ≠ 0) (hbooked : x ≠ .booked) :
    requestCode d c k x = .isProtected := by
  unfold requestCode
  rw [if_neg (by simpa using h), if_pos (by simp [hprotected, htier, hbooked])]

theorem requestCode_reserved {d : Device} {c : CraneIx} {k : CellIx} {x : ClaimClass} (h : d.footprint c k ≠ none)
    (hprotected : d.protectedCell k = false) (hreserved : d.reservedAgainst c k = true)
    (htier : d.tier .booked < d.tier x) : requestCode d c k x = .reserved := by
  unfold requestCode
  rw [if_neg (by simpa using h), if_neg (by simp [hprotected]), if_pos (by simp [hreserved, htier])]

/-- Settles O44: the refusals come before any standing is looked at, and a request refused does nothing. -/
theorem refusedClaimsChangeNothing : Obligations.RefusedClaimsChangeNothing := by
  refine fun s c restart cell cls => ⟨fun hreset hmember => ?_, fun hhears => ?_⟩
  · exact (act_not_admitted restart hreset hmember (claimFrame c cell cls)).trans
      (by rw [claimFrame_not_admitted hmember])
  · have hact := act_hears hhears (claimFrame c cell cls)
    have hadmitted := heard_admitted hhears
    refine ⟨fun h => hact.trans (by rw [claimFrame_invalid hadmitted h]), ?_⟩
    rintro k x rfl rfl hx
    have hrefused : ∀ code, requestCode (s.heard c restart) c k x = code → code.taken = false →
        exec (.claim c restart k.val x.code) s = .next { s with dev := (s.heard c restart).reply c 0x03 code } :=
      fun code hcode htaken => hact.trans (by rw [claimFrame_refused hadmitted hx hcode htaken])
    exact ⟨fun h => hrefused _ (requestCode_noFootprint x h) rfl,
      fun h hprotected htier => hrefused _
        (requestCode_protected h hprotected htier (by rcases hx with rfl | rfl <;> decide)) rfl,
      fun h hprotected hreserved htier => hrefused _ (requestCode_reserved h hprotected hreserved htier) rfl⟩

/-! ### Lift frames refused (R153, R156, R158) -/

theorem liftStartRefusal_not_admitted {d : Device} {c : CraneIx} {id : Nat} (h : d.membership c ≠ .admitted) :
    liftStartRefusal d c id = some .notAdmitted ∧ liftStopRefusal d c id = some .notAdmitted :=
  ⟨if_pos (by simpa using h), if_pos (by simpa using h)⟩

theorem liftRefusal_unknown {d : Device} {c : CraneIx} {id : Nat} (hmember : d.membership c = .admitted)
    (h : d.booking id = none) :
    liftStartRefusal d c id = some .unknownBooking ∧ liftStopRefusal d c id = some .unknownBooking := by
  simp [liftStartRefusal, liftStopRefusal, hmember, h]

theorem liftRefusal_other {d : Device} {c : CraneIx} {id : Nat} {b : Booking} (hmember : d.membership c = .admitted)
    (h : d.booking id = some b) (hb : b.crane ≠ c) :
    liftStartRefusal d c id = some .unknownBooking ∧ liftStopRefusal d c id = some .unknownBooking := by
  simp [liftStartRefusal, liftStopRefusal, hmember, h, hb]

theorem liftStopRefusal_idle {d : Device} {c : CraneIx} {id : Nat} {b : Booking} (hmember : d.membership c = .admitted)
    (h : d.booking id = some b) (hb : b.crane = c) (hidle : b.state.running = false) :
    liftStopRefusal d c id = some .wrongState := by
  simp [liftStopRefusal, hmember, h, hb, hidle]

/-- A LIFT_START of the crane's own booking is judged by its state, the crane's lift, hold and wind, and the path. -/
theorem liftStartRefusal_own {d : Device} {c : CraneIx} {id : Nat} {b : Booking} (hmember : d.membership c = .admitted)
    (h : d.booking id = some b) (hb : b.crane = c) :
    liftStartRefusal d c id =
      if b.state ≠ .opened then some .wrongState
      else if d.liftRunning c then some .wrongState
      else if d.hold c then some .held
      else if !d.windAllows c b.sail then some .wind
      else if pathClosed d b.path then some .isProtected
      else none := by
  simp only [liftStartRefusal, hmember, h, hb, bne_self_eq_false, Bool.false_eq_true, if_false, bne_iff_ne]

theorem liftStartFrame_refused {d : Device} {c : CraneIx} {id : Nat} {code : ReplyCode}
    (h : liftStartRefusal d c id = some code) : liftStartFrame c id d = d.reply c 0x07 code := by
  simp only [liftStartFrame, h]

theorem liftStopFrames_refused {d : Device} {c : CraneIx} {id : Nat} {code : ReplyCode}
    (h : liftStopRefusal d c id = some code) :
    liftEndFrame c id d = d.reply c 0x08 code ∧ liftAbortFrame c id d = d.reply c 0x09 code := by
  simp only [liftEndFrame, liftAbortFrame, h, and_self]

theorem pathClosed_iff (d : Device) (path : List CellIx) :
    pathClosed d path = true ↔ ∃ k ∈ path, d.protectedCell k = true ∧ d.possessionOf k = .closed := by
  simp [pathClosed]

/-- Settles O52: the refusals in their order, each with its reply. -/
theorem refusedLiftsChangeNothing : Obligations.RefusedLiftsChangeNothing := by
  refine ⟨fun s c restart id => ⟨fun hreset hmember => ?_, fun hhears => ?_⟩,
    fun s c restart id => ⟨fun hreset hmember => ?_, fun hhears => ?_⟩⟩
  · have hrefusal := (liftStartRefusal_not_admitted (id := id) hmember).1
    exact (act_not_admitted restart hreset hmember _).trans (by rw [liftStartFrame_refused hrefusal])
  · have hadmitted := heard_admitted hhears
    have hrefused : ∀ code, liftStartRefusal (s.heard c restart) c id = some code →
        exec (.liftStart c restart id) s = .next { s with dev := (s.heard c restart).reply c 0x07 code } :=
      fun code h => (act_hears hhears _).trans (by rw [liftStartFrame_refused h])
    refine ⟨fun h => hrefused _ (liftRefusal_unknown hadmitted h).1, fun b hb =>
      ⟨fun hother => hrefused _ (liftRefusal_other hadmitted hb hother).1, fun hown hstate => ?_, fun hown hopen => ?_⟩⟩
    all_goals have hjudge := liftStartRefusal_own hadmitted hb hown
    · exact hrefused _ (hjudge.trans (if_pos hstate))
    · rw [if_neg (by simpa using hopen)] at hjudge
      refine ⟨fun hrunning => hrefused _ (hjudge.trans (if_pos ((liftRunning_iff _ c).mpr hrunning))), fun hidle => ?_⟩
      rw [show (s.heard c restart).liftRunning c = false from liftRunning_false.mpr hidle, if_neg (by decide)] at hjudge
      refine ⟨fun hheld => hrefused _ (hjudge.trans (if_pos hheld)), fun hfree => ?_⟩
      rw [show (s.heard c restart).hold c = false from hfree, if_neg (by decide)] at hjudge
      have hallows : (s.heard c restart).windAllows c b.sail =
          ((s.dev.windOf c).state.isCalmOrWatch && (s.dev.windOf c).classes.has b.sail) := rfl
      refine ⟨fun hwind => hrefused _ (hjudge.trans (if_pos ?_)), fun hcalm hclass hclosed => hrefused _ ?_⟩
      · rw [hallows]
        rcases hwind with h | h <;> simp [h]
      · rw [hjudge, hallows, hcalm, hclass, if_neg (by decide),
          if_pos ((pathClosed_iff (s.heard c restart) _).mpr hclosed)]
  · obtain ⟨hend, habort⟩ := liftStopFrames_refused (liftStartRefusal_not_admitted (id := id) hmember).2
    exact ⟨(act_not_admitted restart hreset hmember _).trans (by rw [hend]),
      (act_not_admitted restart hreset hmember _).trans (by rw [habort])⟩
  · have hadmitted := heard_admitted hhears
    have hrefused : ∀ code, liftStopRefusal (s.heard c restart) c id = some code →
        exec (.liftEnd c restart id) s = .next { s with dev := (s.heard c restart).reply c 0x08 code } ∧
          exec (.liftAbort c restart id) s = .next { s with dev := (s.heard c restart).reply c 0x09 code } := by
      intro code h
      obtain ⟨hend, habort⟩ := liftStopFrames_refused h
      exact ⟨(act_hears hhears _).trans (by rw [hend]), (act_hears hhears _).trans (by rw [habort])⟩
    exact ⟨fun h => hrefused _ (liftRefusal_unknown hadmitted h).2, fun b hb =>
      ⟨fun hother => hrefused _ (liftRefusal_other hadmitted hb hother).2,
        fun hown hidle => hrefused _ (liftStopRefusal_idle hadmitted hb hown hidle)⟩⟩

end Sys2Proof.Machine
end

