-- ==== Sys2Proof/Proofs/TransmittedFrames.lean ====
section
/-! SUPPORT. What the part sends (sections 10.1, 10.3 and 10.4): the transmit queue, the layouts of PERMIT and REPLY
and the frame around them. -/

namespace Sys2Proof.Machine

/-! ### The transmit queue (R166) -/

theorem sendFrame_idle {d : Device} {c : CraneIx} (f : TxFrame) (h : (d.port c).sending = none) :
    d.sendFrame c f = d.setPort c { d.port c with sending := some f } := by
  simp only [Device.sendFrame, h]

theorem sendFrame_busy {d : Device} {c : CraneIx} (f : TxFrame) (h : (d.port c).sending ≠ none) :
    d.sendFrame c f =
      if (d.port c).queue.length < 4 then d.setPort c { d.port c with queue := (d.port c).queue ++ [f] } else d := by
  obtain ⟨g, hg⟩ := Option.ne_none_iff_exists'.mp h
  simp only [Device.sendFrame, hg]
  rfl

/-! ### Cell lists as bits (R168) -/

/-- The bits of a byte that sums the powers of two of the bits set. -/
theorem byte_bits : ∀ (b0 b1 b2 b3 b4 b5 b6 b7 : Bool) (i : Fin 8),
    (byte ((if b0 then 1 else 0) + ((if b1 then 2 else 0) + ((if b2 then 4 else 0) + ((if b3 then 8 else 0) +
      ((if b4 then 16 else 0) + ((if b5 then 32 else 0) + ((if b6 then 64 else 0) +
        ((if b7 then 128 else 0) + 0))))))))).getLsbD i = #v[b0, b1, b2, b3, b4, b5, b6, b7][i] := by
  decide +kernel

/-- Bit `i` of map byte `j` says whether cell `8 j + i` is in the list. -/
theorem mapByte_bit (l : List CellIx) (j i : Nat) (hi : i < 8) :
    (mapByte l j).getLsbD i = l.any fun k => k.val == 8 * j + i := by
  have hsum := byte_bits (l.any fun k => k.val == 8 * j + 0) (l.any fun k => k.val == 8 * j + 1)
    (l.any fun k => k.val == 8 * j + 2) (l.any fun k => k.val == 8 * j + 3) (l.any fun k => k.val == 8 * j + 4)
    (l.any fun k => k.val == 8 * j + 5) (l.any fun k => k.val == 8 * j + 6) (l.any fun k => k.val == 8 * j + 7) ⟨i, hi⟩
  refine Eq.trans hsum ?_
  interval_cases i <;> rfl

theorem mapByte_mem (l : List CellIx) (k : CellIx) :
    (mapByte l (k.val / 8)).getLsbD (k.val % 8) = true ↔ k ∈ l := by
  rw [mapByte_bit l _ _ (Nat.mod_lt _ (by decide)), Nat.div_add_mod, List.any_eq_true]
  constructor
  · rintro ⟨x, hx, he⟩
    rwa [← Fin.ext (beq_iff_eq.mp he)]
  · exact fun h => ⟨k, h, beq_self_eq_true _⟩

theorem mapBytes_length (l : List CellIx) : (mapBytes l).length = 6 := rfl

theorem mapBytes_getElem? (l : List CellIx) {j : Nat} (h : j < 6) : (mapBytes l)[j]? = some (mapByte l j) := by
  simp [mapBytes, h]

/-- A list of six map bytes, found behind bytes before it, names its cells. -/
theorem mapBytes_listed {l before after : List Byte} {m : List CellIx} {at' : Nat}
    (h : l = before ++ (mapBytes m ++ after)) (hlen : before.length = at') (k : CellIx) :
    ∃ b : Byte, l[at' + k.val / 8]? = some b ∧ (b.getLsbD (k.val % 8) = true ↔ k ∈ m) := by
  have hj : k.val / 8 < 6 := by omega
  refine ⟨mapByte m (k.val / 8), ?_, mapByte_mem m k⟩
  rw [h, ← hlen, List.getElem?_append_right (by omega), Nat.add_sub_cancel_left,
    List.getElem?_append_left (by rw [mapBytes_length]; exact hj), mapBytes_getElem? m hj]

/-! ### PERMIT and REPLY (Tables 10-4 and 10-5) -/

/-- The first eleven bytes of a PERMIT. -/
def permitHead (p : Permit) : List Byte :=
  [byte p.seq, byte p.slewPlus.code, byte p.slewMinus.code, byte p.trolleyOut.code, byte p.trolleyIn.code,
    byte (bitOf p.hoistStop 0), byte (bitOf p.release 0), byte p.wind.code, byte (permitSubCode p.wind),
    byte (sailBits p.classes), byte p.quality.code]

/-- The three bytes of a PERMIT's current booking. -/
def permitBooking (x : Option (Nat × BookingState)) : List Byte :=
  match x with
  | some (id, st) => beBytes 2 id ++ [byte (st.code + 1)]
  | none => [0, 0, 0]

theorem permitBooking_length (x : Option (Nat × BookingState)) : (permitBooking x).length = 3 := by
  cases x <;> rfl

theorem permitBytes_eq (p : Permit) :
    permitBytes p = permitHead p ++ (permitBooking p.booking ++
      (mapBytes p.heldList ++ (mapBytes p.grantedList ++ (mapBytes p.vacateList ++ mapBytes p.waitingList)))) := by
  simp only [permitBytes, permitHead, permitBooking, List.append_assoc] <;> rfl

theorem permitBytes_length (p : Permit) : (permitBytes p).length = 38 := by
  simp [permitBytes_eq, permitHead, permitBooking_length, mapBytes_length]

theorem replyBytes_length (r : Reply) (h : ∀ x, r.record = some x → x.bytes.length ≤ 52) :
    (replyBytes r).length ≤ 60 := by
  unfold replyBytes
  cases hr : r.record with
  | none => simp
  | some x =>
    have hx := h x hr
    simp
    omega

theorem payload_tx_length (f : TxFrame)
    (h : ∀ r x, f = .reply r → r.record = some x → x.bytes.length ≤ 52) : f.payload.length ≤ 60 := by
  cases f with
  | permit p =>
    have hlen := permitBytes_length p
    exact hlen ▸ (by decide : 38 ≤ 60)
  | reply r => exact replyBytes_length r fun x => h r x rfl

/-- Settles O36: the queue by the port's state, the payloads field by field, the frame by its encoder. -/
theorem framesAreQueuedAndLaidOut : Obligations.FramesAreQueuedAndLaidOut := by
  refine ⟨fun d c f => ⟨fun h => sendFrame_idle f h, fun h hlt => ?_, fun h hge => ?_⟩, fun s c hreset =>
    ⟨fun f g l hf hq => ?_, fun f hf hq => ?_, fun h => ?_, fun p => ?_, fun r => ?_, fun c f h => ?_⟩⟩
  · rw [sendFrame_busy f h, if_pos hlt]
    rfl
  · rw [sendFrame_busy f h, if_neg (Nat.not_lt.mpr hge)]
  · exact act_to hreset (by simp only [transmitDone, Port.sent, hf, hq]; rfl)
  · exact act_to hreset (by simp only [transmitDone, Port.sent, hf, hq]; rfl)
  · refine act_to hreset ?_
    have hsent : (s.dev.port c).sent = s.dev.port c := by simp only [Port.sent, h]
    rw [transmitDone, hsent, Device.setPort_eq_self]
  · have hhead : (permitHead p).length = 11 := rfl
    have hbook := permitBooking_length p.booking
    have hdrop : (permitBytes p).drop 11 = permitBooking p.booking ++
        (mapBytes p.heldList ++ (mapBytes p.grantedList ++ (mapBytes p.vacateList ++ mapBytes p.waitingList))) := by
      rw [permitBytes_eq]
      rfl
    have hmap : ∀ m before after at', permitBytes p = before ++ (mapBytes m ++ after) → before.length = at' →
        ∀ k : CellIx, ∃ b : Byte, (permitBytes p)[at' + k.val / 8]? = some b ∧
          (b.getLsbD (k.val % 8) = true ↔ k ∈ m) := fun m before after at' => mapBytes_listed
    refine ⟨permitBytes_length p, ?_, ?_, ?_, ?_, fun hnone => ?_, fun id st hsome => ?_, ?_, ?_, ?_, ?_⟩
    · rw [permitBytes_eq]
      simp only [permitHead, List.cons_append, List.take_succ_cons, List.take_zero]
      cases p.slewPlus <;> cases p.slewMinus <;> cases p.trolleyOut <;> cases p.trolleyIn <;> cases p.hoistStop <;>
        cases p.release <;> rfl
    · rw [permitBytes_eq]
      show [byte p.wind.code, byte (permitSubCode p.wind)] = _
      cases p.wind with
      | calm | watch | halt => rfl
      | vane sub => cases sub <;> rfl
    · rw [permitBytes_eq]
      show some (byte (sailBits p.classes)) = _
      simp only [sailBits, Option.some.injEq]
      cases p.classes.l <;> cases p.classes.m <;> cases p.classes.s <;> rfl
    · rw [permitBytes_eq]
      show some (byte p.quality.code) = _
      cases p.quality <;> rfl
    · rw [hdrop, hnone]
      rfl
    · rw [hdrop, hsome]
      cases st <;> rfl
    · exact hmap _ (permitHead p ++ permitBooking p.booking)
        (mapBytes p.grantedList ++ (mapBytes p.vacateList ++ mapBytes p.waitingList)) 14
        (by rw [permitBytes_eq]; simp) (by simp [hhead, hbook])
    · exact hmap _ (permitHead p ++ permitBooking p.booking ++ mapBytes p.heldList)
        (mapBytes p.vacateList ++ mapBytes p.waitingList) 20
        (by rw [permitBytes_eq]; simp) (by simp [hhead, hbook, mapBytes_length])
    · exact hmap _ (permitHead p ++ permitBooking p.booking ++ mapBytes p.heldList ++ mapBytes p.grantedList)
        (mapBytes p.waitingList) 26 (by rw [permitBytes_eq]; simp) (by simp [hhead, hbook, mapBytes_length])
    · exact hmap _ (permitHead p ++ permitBooking p.booking ++ mapBytes p.heldList ++ mapBytes p.grantedList ++
        mapBytes p.vacateList) [] 32 (by rw [permitBytes_eq]; simp) (by simp [hhead, hbook, mapBytes_length])
  · refine ⟨?_, fun hnone => ?_, fun x hx => ?_⟩
    · show [byte r.kind, byte r.code.code, byte r.reason.code] = _
      cases r.code <;> cases r.reason <;> rfl
    · simp only [replyBytes, hnone]
      exact ⟨rfl, rfl⟩
    · simp only [replyBytes, hx, List.append_assoc]
      rfl
  · have hgood := encodeFrameBody_good c.val f.kindCode f.payload (payload_tx_length f h)
    refine ⟨encodeFrameBody c.val f.kindCode f.payload, rfl, hgood.1, hgood.2, ?_, ?_⟩
    · cases f <;> rfl
    · rw [encodeFrameBody_eq]
      exact List.take_left

end Sys2Proof.Machine
end

