-- ==== Sys2Proof/Proofs/WindLadder.lean ====
section
/-! SUPPORT. The Wind Unit's figures and flags after a produced speed, the ladder's evaluation as one equation for each
case, and the supervisor's FORCE_VANE and SET_WIND_SOURCE (sections 6.2, 6.5, 6.6, 7.2 and 7.5). -/

namespace Sys2Proof.Machine

/-! ### The mean accumulator (R110) -/

theorem meanStep_up {m s k : Nat} (hs : s ≤ 600) (hk : k ≤ 4095) (h : m ≤ 256 * s) :
    meanStep m s k = m + (256 * s - m) * k / 4096 := by
  have hstep : (256 * s - m) * k / 4096 ≤ 256 * s - m := by
    rw [Nat.div_le_iff_le_mul_add_pred (by decide)]
    nlinarith
  have hcast : ((256 * (s : Int) - m) * k).tdiv 4096 = (((256 * s - m) * k / 4096 : Nat) : Int) := by
    rw [show (256 * (s : Int) - m) = ((256 * s - m : Nat) : Int) by omega, ← Int.natCast_mul,
      show (4096 : Int) = ((4096 : Nat) : Int) from rfl, ← Int.ofNat_tdiv]
  unfold meanStep
  rw [hcast]
  omega

theorem meanStep_down {m s k : Nat} (hm : m ≤ 153600) (hk : k ≤ 4095) (h : 256 * s ≤ m) :
    meanStep m s k = m - (m - 256 * s) * k / 4096 := by
  have hstep : (m - 256 * s) * k / 4096 ≤ m - 256 * s := by
    rw [Nat.div_le_iff_le_mul_add_pred (by decide)]
    nlinarith
  have hcast : ((256 * (s : Int) - m) * k).tdiv 4096 = -(((m - 256 * s) * k / 4096 : Nat) : Int) := by
    rw [show (256 * (s : Int) - m) = -((m - 256 * s : Nat) : Int) by omega, Int.neg_mul, Int.neg_tdiv,
      ← Int.natCast_mul,
      show (4096 : Int) = ((4096 : Nat) : Int) from rfl, ← Int.ofNat_tdiv]
  unfold meanStep
  rw [hcast]
  omega

theorem meanStep_le (m s k : Nat) : meanStep m s k ≤ 153600 := Nat.min_le_right _ _

/-! ### Flags with hysteresis (R111, R112) -/

theorem judgeMeanFlag_above {m limit : Nat} (h : Nat) (old : Bool) (hm : limit < m) :
    judgeMeanFlag m limit h old = true :=
  if_pos hm

theorem judgeMeanFlag_clear {m limit h : Nat} (old : Bool) (hm : m ≤ limit) (hc : m ≤ limit - h) :
    judgeMeanFlag m limit h old = false := by
  rw [judgeMeanFlag, if_neg (Nat.not_lt.mpr hm), if_pos hc]

theorem judgeMeanFlag_kept {m limit h : Nat} (old : Bool) (hm : m ≤ limit) (hc : limit - h < m) :
    judgeMeanFlag m limit h old = old := by
  rw [judgeMeanFlag, if_neg (Nat.not_lt.mpr hm), if_neg (Nat.not_le.mpr hc)]

theorem judgeGustFlag_judges (history : List Nat) (limit n h : Nat) (old : Bool) :
    (n ≤ (history.filter fun g => limit < g).length → judgeGustFlag history limit n h old = true) ∧
      ((history.filter fun g => limit < g).length < n →
        ((∀ g ∈ history, g ≤ limit - h) → judgeGustFlag history limit n h old = false) ∧
          ((∃ g ∈ history, limit - h < g) → judgeGustFlag history limit n h old = old)) := by
  refine ⟨fun hset => if_pos hset, fun hfew => ⟨fun hall => ?_, fun hsome => ?_⟩⟩
  · rw [judgeGustFlag, if_neg (Nat.not_le.mpr hfew),
      if_pos (List.all_eq_true.mpr fun g hg => decide_eq_true (hall g hg))]
  · obtain ⟨g, hg, hlt⟩ := hsome
    rw [judgeGustFlag, if_neg (Nat.not_le.mpr hfew), if_neg]
    exact fun hall => Nat.not_le.mpr hlt (of_decide_eq_true (List.all_eq_true.mp hall g hg))

/-! ### The history (R109) -/

theorem pushBounded_of_lt {n x : Nat} {l : List Nat} (h : l.length < n) : pushBounded n x l = l ++ [x] := by
  have hlen : (l ++ [x]).length - n = 0 := by simp; omega
  rw [pushBounded, lastN, hlen, List.drop_zero]

theorem pushBounded_of_full {n x : Nat} {l : List Nat} (h : l.length = n) (hn : 1 ≤ n) :
    pushBounded n x l = l.tail ++ [x] := by
  have hlen : (l ++ [x]).length - n = 1 := by simp; omega
  rw [pushBounded, lastN, hlen]
  cases l with
  | nil => exact absurd h (by simp; omega)
  | cons y l => rfl

/-! ### The computed level (R118) -/

theorem level_vane {d : Device} {c : CraneIx} (h : (d.windOf c).flagVG = true ∨ (d.windOf c).flagVM = true) :
    d.level c = .vane := by
  rw [Device.level, computedLevel, if_pos (by rcases h with h | h <;> simp [h])]

/-- Below VANE the level goes by the flags S, L and M and by the channel. -/
theorem level_below {d : Device} {c : CraneIx} (hvg : (d.windOf c).flagVG = false) (hvm : (d.windOf c).flagVM = false) :
    d.level c =
      if (d.windOf c).flagS = true ∨ (d.source c = .link ∧ (d.windOf c).channel ≠ .live) then .halt
      else if (d.windOf c).flagL = true ∨ (d.windOf c).flagM = true then .watch else .calm := by
  rw [Device.level, computedLevel, if_neg (by simp [hvg, hvm])]
  simp

/-! ### An evaluation of the ladder (R119 to R121, R155) -/

/-- The handing of a wind record whose classes are empty outside CALM and WATCH. -/
theorem windHanding_setWind (c : CraneIx) (w : WindRec) (d : Device)
    (h : w.state.isCalmOrWatch = false → w.classes = SailSet.empty) :
    windHanding c (d.setWind c w) = { d with
      wind := d.wind.set c w
      bookings := d.bookings.map fun b =>
        if b.crane = c ∧ b.state = .lifting ∧ w.classes.has b.sail = false then { b with state := .holdLower }
        else b } := by
  have hallows : ∀ sail, (d.setWind c w).windAllows c sail = w.classes.has sail := by
    intro sail
    rw [Device.windAllows, Device.setWind_windOf_self]
    cases hstate : w.state.isCalmOrWatch with
    | true => rfl
    | false => rw [h hstate]; cases sail <;> rfl
  simp only [windHanding, hallows, Device.setWind_bookings, Bool.and_eq_true, beq_iff_eq, Bool.not_eq_true', and_assoc]
  rfl

theorem settleAt_noClass (w : WindRec) {state : WindState} (h : state.isCalmOrWatch = false) :
    w.settleAt state = { w with state := state, classes := ⟨false, false, false⟩ } := by
  simp only [WindRec.settleAt, permittedClasses, h, Bool.false_and]

theorem settleAt_classes_empty (w : WindRec) (state : WindState) (h : state.isCalmOrWatch = false) :
    (w.settleAt state).classes = SailSet.empty := by
  rw [settleAt_noClass w h]
  rfl

theorem settleAt_upClasses (w : WindRec) {state : WindState} (h : state.isCalmOrWatch = true) :
    w.settleAt state = { w with state := state, classes := ⟨!w.flagM && !w.flagL, !w.flagM, true⟩ } := by
  simp only [WindRec.settleAt, permittedClasses, h, Bool.true_and]

theorem isCalmOrWatch_of_vane {x : WindState} (h : x.isVane = true) : x.isCalmOrWatch = false := by
  cases x with
  | vane => rfl
  | calm | watch | halt => cases h

/-- An evaluation that stays outside VANE settles the wind record and hands it on. -/
theorem evaluate_below {c : CraneIx} {d : Device} (h : (d.windOf c).state.isVane = false) (hlevel : d.level c ≠ .vane) :
    evaluate c d = windHanding c (d.setWind c ((d.windOf c).settleAt (d.level c).toState)) := by
  rw [evaluate, if_neg (by simp [h])]
  simp only [beq_iff_eq, if_neg hlevel]
  rfl

theorem evaluate_inVane {c : CraneIx} {d : Device} (h : (d.windOf c).state.isVane = true) :
    evaluate c d = windHanding c (d.setWind c ((d.windOf c).settleAt (d.windOf c).state)) := by
  rw [evaluate, if_pos h]
  rfl

theorem evaluate_enters {c : CraneIx} {d : Device} (h : (d.windOf c).state.isVane = false)
    (hlevel : d.level c = .vane) :
    evaluate c d = windHanding c (enterVane c d) := by
  rw [evaluate, if_neg (by simp [h])]
  simp only [hlevel]
  rfl

/-- Settles O21: figure by figure, then an evaluation in VANE and at each level below it. -/
theorem flagsMeanAndLadderFollowSpeeds : Obligations.FlagsMeanAndLadderFollowSpeeds := by
  refine ⟨fun m s k hm hs _ hk => ⟨meanStep_up hs hk, meanStep_down hm hk⟩, meanStep_le,
    fun r s w => ⟨rfl, judgeMeanFlag_above _ _, judgeMeanFlag_clear _, judgeMeanFlag_kept _⟩,
    fun r s w => ⟨?_, pushBounded_of_lt, pushBounded_of_full, judgeGustFlag_judges _ _ _ _ _,
      judgeGustFlag_judges _ _ _ _ _, judgeGustFlag_judges _ _ _ _ _, judgeGustFlag_judges _ _ _ _ _⟩, fun d c => ?_⟩
  · exact (pushBounded_length _ _ _).trans_le (Nat.min_le_right _ _)
  have hset : ∀ state, windHanding c (d.setWind c ((d.windOf c).settleAt state)) = _ := fun state =>
    windHanding_setWind c _ d (settleAt_classes_empty _ state)
  refine ⟨level_vane, fun hvg hvm => ⟨fun hs => ?_, fun hs hlive => ⟨fun hlm => ?_, fun hl hm => ?_⟩⟩,
    fun hvane => ?_, fun hvane => ⟨fun hlevel => ?_, fun hlevel => ?_, fun hlevel => ?_⟩⟩
  · rw [level_below hvg hvm, if_pos hs]
  · rw [level_below hvg hvm, if_neg, if_pos hlm]
    simp only [hs]
    tauto
  · rw [level_below hvg hvm, if_neg, if_neg (by simp [hl, hm])]
    simp only [hs]
    tauto
  · rw [evaluate_inVane hvane, hset, settleAt_noClass _ (isCalmOrWatch_of_vane hvane)]
  · rw [evaluate_below hvane (by simp [hlevel]), hset, hlevel, settleAt_upClasses _ rfl]
    rfl
  · rw [evaluate_below hvane (by simp [hlevel]), hset, hlevel, settleAt_upClasses _ rfl]
    rfl
  · rw [evaluate_below hvane (by simp [hlevel]), hset, hlevel, settleAt_noClass _ rfl]
    rfl

/-! ### Wind records across an evaluation -/

theorem enterVane_windOf (c : CraneIx) (d : Device) :
    (enterVane c d).windOf c = { d.windOf c with
      state := .vane .clearing, classes := ⟨false, false, false⟩
      vaneTimer := if d.membership c = .admitted then some (100 * d.plan.site.vaneClearLimit)
        else (d.windOf c).vaneTimer } := by
  let e := (modWind c (fun w => { w with state := .vane .clearing, classes := .empty }) d).raise .vaneEntered
    (some c.val) none none
  have hasked := requestVane_cellsOnly c e
  have hwind : (requestVane c e).windOf c = { d.windOf c with state := .vane .clearing, classes := .empty } := by
    rw [hasked.windOf, raise_windOf, modWind_windOf_self]
  have hmember : (requestVane c e).membership c = d.membership c := by
    rw [Device.membership, hasked.crane]
    rw [raise_crane]
    rfl
  have hplan : (requestVane c e).plan = d.plan := by
    rw [hasked.plan, raise_plan]
    rfl
  show (if (requestVane c e).membership c == .admitted then startVaneTimer c (requestVane c e)
    else requestVane c e).windOf c = _
  by_cases hadmitted : d.membership c = .admitted
  · rw [if_pos (by rw [hmember, hadmitted]; rfl), startVaneTimer, modWind_windOf_self, hwind, hplan, if_pos hadmitted]
    rfl
  · rw [if_neg (by simp [hmember, hadmitted]), hwind, if_neg hadmitted]
    rfl

/-- An evaluation leaves the channel, the figures and the flags of the wind record. -/
theorem evaluate_windOf (c : CraneIx) (d : Device) :
    ∃ state classes timer, (evaluate c d).windOf c =
      { d.windOf c with state := state, classes := classes, vaneTimer := timer } := by
  have hhanded : ∀ e, (windHanding c e).windOf c = e.windOf c := fun e => (windHanding_claimsOnly c e).windOf c
  cases hvane : (d.windOf c).state.isVane with
  | true =>
    rw [evaluate_inVane hvane, hhanded, Device.setWind_windOf_self]
    exact ⟨_, _, _, rfl⟩
  | false =>
    by_cases hlevel : d.level c = .vane
    · rw [evaluate_enters hvane hlevel, hhanded, enterVane_windOf]
      exact ⟨_, _, _, rfl⟩
    · rw [evaluate_below hvane hlevel, hhanded, Device.setWind_windOf_self]
      exact ⟨_, _, _, rfl⟩

theorem WindClaims.frame {c : CraneIx} {d t : Device} (h : WindClaims c d t) :
    t = { d with wind := t.wind, cells := t.cells, bookings := t.bookings, faults := t.faults } := by
  conv_lhs => rw [h]
  rw [← h.wind]

theorem WindClaims.sameElsewhere {c : CraneIx} {d t : Device} (h : WindClaims c d t) : d.sameElsewhere c t := by
  intro x hx
  refine ⟨?_, ?_, ?_, h.windOf_of_ne hx, ?_, ?_⟩ <;> rw [h] <;> rfl

/-! ### FORCE_VANE and SET_WIND_SOURCE (R100, R127) -/

theorem setWindSource_val {c : CraneIx} {value : Nat} {setting : SourceSetting} {now : WindSource} (d : Device)
    (h : (value = 0 ∧ setting = .link ∧ now = .link) ∨ (value = 1 ∧ setting = .mast ∧ now = .mast)) :
    setWindSource c.val value d = (changeSource c setting d).done ∧ effectiveSource (d.profile c) setting = now := by
  rcases h with ⟨rfl, rfl, rfl⟩ | ⟨rfl, rfl, rfl⟩ <;> simp only [setWindSource, craneIx?_val] <;> exact ⟨trivial, rfl⟩

theorem forceVane_refused {d : Device} {c : CraneIx}
    (h : d.membership c = .absent ∨ d.membership c = .joining ∨ (d.windOf c).state.isVane = false) :
    forceVane c.val d = d.refuse .wrongState := by
  simp only [forceVane, craneIx?_val]
  split
  · rfl
  · next hmember =>
    have hstate : (d.windOf c).state.isVane = false := by
      simp at hmember
      tauto
    cases hs : (d.windOf c).state with
    | vane => rw [hs] at hstate; cases hstate
    | calm | watch | halt => rfl

theorem forceVane_forced {d : Device} {c : CraneIx} (hmember : d.membership c = .admitted ∨ d.membership c = .lost)
    (h : (d.windOf c).state = .vane .forced) : forceVane c.val d = d.done := by
  simp only [forceVane, craneIx?_val, h]
  rcases hmember with hm | hm <;> rw [hm] <;> rfl

theorem forceVane_forces {d : Device} {c : CraneIx} (hmember : d.membership c = .admitted ∨ d.membership c = .lost)
    (h : (d.windOf c).state = .vane .clearing ∨ (d.windOf c).state = .vane .vaneFree) :
    forceVane c.val d = (d.setWind c { d.windOf c with state := .vane .forced, vaneTimer := none }).done := by
  simp only [forceVane, craneIx?_val]
  rcases h with h | h <;> rw [h] <;> rcases hmember with hm | hm <;> rw [hm] <;> rfl

/-- A permit composed in VANE_FORCED releases the brake and stops every axis and the hoist. -/
theorem compose_of_forced {d : Device} {c : CraneIx} (h : (d.windOf c).state = .vane .forced) (seq : Nat) :
    (compose d c seq).release = true ∧ (compose d c seq).slewPlus = .stop ∧ (compose d c seq).slewMinus = .stop ∧
      (compose d c seq).trolleyOut = .stop ∧ (compose d c seq).trolleyIn = .stop ∧
      (compose d c seq).hoistStop = true := by
  have hrelease : (compose d c seq).release = true := by
    show d.brakeReleased c = true
    simp only [Device.brakeReleased, h]
  obtain ⟨hslewPlus, hslewMinus, hout, hin, hhoist, -⟩ := compose_lawful d c seq hrelease
  exact ⟨hrelease, hslewPlus, hslewMinus, hout, hin, hhoist⟩

theorem changeSource_kept {d : Device} {c : CraneIx} {setting : SourceSetting} {now : WindSource}
    (hnow : effectiveSource (d.profile c) setting = now)
    (h : d.source c = now ∨ d.membership c = .absent ∨ d.membership c = .joining) :
    changeSource c setting d = d.setWind c { d.windOf c with source := setting } := by
  have hsource : (modWind c (fun w => { w with source := setting }) d).source c = now := by
    rw [Device.source, modWind_windOf_self]
    exact hnow
  rw [changeSource]
  simp only [hsource]
  refine if_pos ?_
  rcases h with h | h | h
  · simp [h]
  all_goals
    rw [show (modWind c (fun w => { w with source := setting }) d).membership c = _ from h]
    simp

/-- What a switched channel starts from (R100, R105). -/
def WindRec.switched (w : WindRec) (setting : SourceSetting) (admitted : Bool) : WindSource → WindRec
  | .mast => { w with source := setting, channel := .live, holdRun := 0, silence := none }
  | .link => { w.warm with source := setting, silence := if admitted then some 300 else w.silence }

theorem changeSource_switched {d : Device} {c : CraneIx} {setting : SourceSetting} {now : WindSource}
    (hnow : effectiveSource (d.profile c) setting = now) (hsource : d.source c ≠ now)
    (hmember : d.membership c = .admitted ∨ d.membership c = .lost) :
    changeSource c setting d =
      evaluate c (d.setWind c ((d.windOf c).switched setting (d.membership c == .admitted) now)) := by
  have hafter : (modWind c (fun w => { w with source := setting }) d).source c = now := by
    rw [Device.source, modWind_windOf_self]
    exact hnow
  rw [changeSource]
  simp only [hafter]
  rw [if_neg]
  · have hset : ∀ w w', (d.setWind c w).setWind c w' = d.setWind c w' := fun w w' => by simp [Device.setWind]
    cases now <;> simp only [modWind, Device.setWind_windOf_self, hset] <;> rfl
  · rw [show (modWind c (fun w => { w with source := setting }) d).membership c = d.membership c from rfl]
    rcases hmember with h | h <;> simp [h, hsource]

/-- Settles O57: the tables row by row; a permit shows RELEASE as the weathervane law says, and a switched channel is
what the change of source left, evaluated. -/
theorem windCommandsFollowTheirTables : Obligations.WindCommandsFollowTheirTables := by
  refine ⟨fun s hs => ⟨fun index hindex => ?_, fun c => ⟨fun h => ?_, fun hmember => ⟨fun h => ?_, fun h => ?_⟩⟩⟩,
    fun s hs => ⟨fun index value h => ?_, fun c value setting now hset => ⟨fun h => ?_, fun hsource hmember => ?_⟩⟩⟩
  · refine act_served hs ?_
    simp only [forceVane, craneIx?_of_le hindex]
    rfl
  · exact act_served hs (forceVane_refused h)
  · exact act_served hs (forceVane_forced hmember h)
  · exact ⟨act_served hs (forceVane_forces hmember h), compose_of_forced (by simp [Device.windOf])⟩
  · refine act_served hs ?_
    rcases h with h | h
    · simp only [setWindSource, craneIx?_of_le h]
      rfl
    · obtain ⟨v, rfl⟩ := Nat.exists_eq_add_of_le' h
      unfold setWindSource
      cases craneIx? index <;> rfl
  · obtain ⟨hserve, hnow⟩ := setWindSource_val s.dev hset
    exact act_served hs (by rw [hserve, changeSource_kept hnow h]; rfl)
  · obtain ⟨hserve, hnow⟩ := setWindSource_val s.dev hset
    have hclaims := changeSource_windClaims c setting s.dev
    obtain ⟨state, classes, timer, hwind⟩ := evaluate_windOf c
      (s.dev.setWind c ((s.dev.windOf c).switched setting (s.dev.membership c == .admitted) now))
    rw [← changeSource_switched hnow hsource hmember, Device.setWind_windOf_self] at hwind
    refine ⟨_, act_served hs (by rw [hserve]; rfl), ?_, hclaims.sameElsewhere, ?_, ?_, ?_⟩
    · rw [hwind]
      cases now <;> rfl
    · rintro rfl
      rw [hwind]
      exact ⟨rfl, rfl, rfl, rfl, rfl, rfl⟩
    · rintro rfl
      rw [hwind]
      refine ⟨rfl, rfl, rfl, rfl, rfl, rfl, fun hadmitted => ?_⟩
      rw [hadmitted]
      rfl
    · exact hclaims.frame

end Sys2Proof.Machine
end

