-- ==== Sys2Proof/Proofs/WindChannel.lean ====
section
/-! SUPPORT. The wind channel (sections 6.3, 6.4, 6.9 and 6.10): holds, gaps, readings and samples as equations on the
crane's wind record, and the expiries of the silence and vane clear timers. -/

namespace Sys2Proof.Machine

/-! ### Changes of one wind record -/

/-- A raise reads and changes the fault record and the clock alone. -/
theorem raise_faults_congr {d e : Device} (hfaults : e.faults = d.faults) (hclock : e.clock = d.clock) (k : FaultKind)
    (a b x : Option Nat) : (e.raise k a b x).faults = (d.raise k a b x).faults := by
  unfold Device.raise Device.faultEntry
  simp only [hfaults, hclock]
  split
  · exact hfaults
  · split <;> rfl

theorem setWind_setWind (c : CraneIx) (w w' : WindRec) (d : Device) :
    (d.setWind c w).setWind c w' = d.setWind c w' := by
  simp [Device.setWind]

theorem modWind_setWind (c : CraneIx) (f : WindRec → WindRec) (w : WindRec) (d : Device) :
    modWind c f (d.setWind c w) = d.setWind c (f w) := by
  rw [modWind, Device.setWind_windOf_self, setWind_setWind]

theorem modWind_modWind (c : CraneIx) (f g : WindRec → WindRec) (d : Device) :
    modWind c f (modWind c g d) = d.setWind c (f (g (d.windOf c))) := modWind_setWind c f _ d

/-- The part with one crane's channel STALE and WIND_STALE raised unless it was STALE. -/
def Device.staleWith (d : Device) (c : CraneIx) (w : WindRec) : Device :=
  Device.setWind
    { d with faults := if w.channel = .stale then d.faults else (d.raise .windStale (some c.val) none none).faults }
    c { w with channel := .stale, liveRun := 0 }

theorem goStale_setWind (c : CraneIx) (w : WindRec) (d : Device) : goStale c (d.setWind c w) = d.staleWith c w := by
  simp only [goStale, Device.setWind_windOf_self, modWind_setWind, beq_iff_eq, Device.staleWith]
  split
  · rfl
  · rw [raise_eq, raise_faults_congr (e := d.setWind c _) (d := d) rfl rfl]
    rfl

theorem goStale_eq (c : CraneIx) (d : Device) : goStale c d = d.staleWith c (d.windOf c) := by
  rw [← goStale_setWind, Device.setWind_eq_self]

/-! ### Holds, gaps and readings (R102, R103) -/

theorem takeHold_setWind_empty {c : CraneIx} {w : WindRec} (d : Device) (hrun : w.holdRun < 2) (h : w.recent = []) :
    takeHold c (d.setWind c w) = d.setWind c { w with holdRun := w.holdRun + 1 } := by
  rw [takeHold]
  simp only [Device.setWind_windOf_self, if_pos hrun, h, modWind_setWind]
  rfl

theorem takeHold_setWind_newest {c : CraneIx} {w : WindRec} {l : List Nat} {s : Nat} (d : Device) (hrun : w.holdRun < 2)
    (h : w.recent = l ++ [s]) :
    takeHold c (d.setWind c w) = d.setWind c (handleSpeed d.plan.site s { w with holdRun := w.holdRun + 1 }) := by
  rw [takeHold]
  simp only [Device.setWind_windOf_self, if_pos hrun, h, modWind_setWind, List.getLast?_append, List.getLast?_singleton,
    Option.some_or, produceSpeed, Device.setWind_plan]

theorem takeHold_full {c : CraneIx} {d : Device} (hrun : 2 ≤ (d.windOf c).holdRun) : takeHold c d = goStale c d :=
  if_neg (Nat.not_lt.mpr hrun)

theorem takeHold_holdRun {c : CraneIx} {d : Device} (hrun : (d.windOf c).holdRun < 2) :
    ((takeHold c d).windOf c).holdRun = (d.windOf c).holdRun + 1 := by
  rw [takeHold]
  simp only [if_pos hrun]
  split <;> simp [produceSpeed, handleSpeed]

theorem fillHolds_one (c : CraneIx) (d : Device) :
    fillHolds 1 c d = if (d.windOf c).holdRun < 2 then takeHold c d else goStale c d := rfl

theorem fillHolds_two (c : CraneIx) (d : Device) :
    fillHolds 2 c d = if (d.windOf c).holdRun < 2 then fillHolds 1 c (takeHold c d) else goStale c d := rfl

theorem takeReading_real {count : Nat} (c : CraneIx) (d : Device) (h : count ≠ 65535) :
    takeReading c count d = d.setWind c
      { handleSpeed d.plan.site (speedOf count (d.profile c).anemometer) (d.windOf c) with holdRun := 0 } := by
  rw [takeReading, if_neg (by simpa using h), produceSpeed, modWind_modWind]

theorem takeGap_far {gap : Nat} (c : CraneIx) (d : Device) (h : 4 ≤ gap) :
    takeGap c (some gap) d = modWind c (fun w => { w with holdRun := 2 }) (goStale c d) := by
  obtain ⟨n, rfl⟩ := Nat.exists_eq_add_of_le' h
  rfl

/-! ### Sequence numbers (R101) -/

theorem sampleGap_some {seq : Nat} (last : Nat) (hseq : seq ≤ 255) :
    ∃ gap, sampleGap (some last) seq = some gap ∧ gap ≤ 255 ∧ (last + gap) % 256 = seq := by
  exact ⟨(((seq : Int) - last) % 256).toNat, rfl, by omega, by omega⟩

/-! ### The live run (R102, R105) -/

theorem takeSample_good {c : CraneIx} {seq count : Nat} {gap : Option Nat} (d : Device) (hcount : count ≠ 65535)
    (hgap : gap = none ∨ gap = some 1) {e : Device}
    (he : e = takeReading c count (d.setWind c { d.windOf c with lastSeq := some seq, silence := some 300 })) :
    (takeSample c seq count gap d).windOf c = { e.windOf c with
      liveRun := min ((d.windOf c).liveRun + 1) 3
      channel := if 2 ≤ (d.windOf c).liveRun then .live else (d.windOf c).channel } := by
  have hid : takeGap c gap = id := by
    rcases hgap with rfl | rfl <;> rfl
  have hgood : (count != 65535 && (gap == none || gap == some 1)) = true := by
    rcases hgap with rfl | rfl <;> simpa using hcount
  have htake : takeSample c seq count gap d = countLive c true e := by
    rw [takeSample, hgood, hid, he]
    rfl
  have hrec : (e.windOf c).liveRun = (d.windOf c).liveRun ∧ (e.windOf c).channel = (d.windOf c).channel := by
    rw [he, takeReading_real c _ hcount, Device.setWind_windOf_self, Device.setWind_windOf_self]
    exact ⟨rfl, rfl⟩
  rw [htake, countLive, modWind_windOf_self, if_pos rfl, hrec.1, hrec.2]
  dsimp only
  by_cases hlive : 2 ≤ (d.windOf c).liveRun
  · rw [if_pos hlive, if_pos (by simp; omega)]
  · rw [if_neg hlive, if_neg (by simp; omega)]

theorem takeSample_bad {c : CraneIx} {seq count : Nat} {gap : Option Nat} (d : Device)
    (h : ¬(count ≠ 65535 ∧ (gap = none ∨ gap = some 1))) {e : Device}
    (he : e = takeReading c count (takeGap c gap
      (d.setWind c { d.windOf c with lastSeq := some seq, silence := some 300 }))) :
    (takeSample c seq count gap d).windOf c = { e.windOf c with liveRun := 0 } := by
  have hbad : (count != 65535 && (gap == none || gap == some 1)) = false := by
    simpa [Option.isSome_iff_ne_none] using h
  have htake : takeSample c seq count gap d = countLive c false e := by
    rw [takeSample, hbad, he]
    rfl
  rw [htake, countLive, modWind_windOf_self, if_neg (by decide)]

/-! ### The timers' expiries (R104, R126) -/

/-- The first member of an ascending list that passes a test is the least that does. -/
theorem find?_least {α : Type} [LinearOrder α] {l : List α} (hl : l.Pairwise (· < ·)) {p : α → Bool} {x : α}
    (h : l.find? p = some x) : p x = true ∧ ∀ y ∈ l, p y = true → x ≤ y := by
  obtain ⟨hx, before, after, rfl, hbefore⟩ := List.find?_eq_some_iff_append.mp h
  refine ⟨hx, fun y hy hp => ?_⟩
  rcases List.mem_append.mp hy with hy | hy
  · exact absurd hp (by simpa using hbefore y hy)
  · rcases List.mem_cons.mp hy with rfl | hy
    · exact le_refl _
    · exact le_of_lt (List.rel_of_pairwise_cons (List.pairwise_append.mp hl).2.1 hy)

theorem allCells_ascending : allCells.Pairwise (· < ·) := List.pairwise_lt_finRange 48

/-- The crane has a JIB footprint in the cell and does not hold it at WEATHERVANE. -/
def Device.lacksVane (d : Device) (c : CraneIx) (k : CellIx) : Prop :=
  d.hasJib c k = true ∧
    ¬((d.cell k).standing.holder = some c ∧ (d.cell k).standing.cls = some .weathervane)

theorem lackingVaneCell_least (d : Device) (c : CraneIx) :
    (∀ k, d.lackingVaneCell c = some k → d.lacksVane c k ∧ ∀ j, d.lacksVane c j → k ≤ j) ∧
      (d.lackingVaneCell c = none → ∀ j, ¬d.lacksVane c j) := by
  have htest : ∀ k, (!((d.cell k).standing.holder == some c && (d.cell k).standing.cls == some .weathervane)) = true ↔
      ¬((d.cell k).standing.holder = some c ∧ (d.cell k).standing.cls = some .weathervane) := fun k => by
    simp [imp_iff_not_or]
  have hmem : ∀ k, k ∈ d.jibCells c ↔ d.hasJib c k = true := fun k => by simp [Device.jibCells]
  refine ⟨fun k hk => ?_, fun hnone j hj => ?_⟩
  · obtain ⟨hlack, hleast⟩ := find?_least (allCells_ascending.filter _) hk
    exact ⟨⟨(hmem k).mp (List.mem_of_find?_eq_some hk), (htest k).mp hlack⟩,
      fun j hj => hleast j ((hmem j).mpr hj.1) ((htest j).mpr hj.2)⟩
  · exact List.find?_eq_none.mp hnone j ((hmem j).mpr hj.1) ((htest j).mpr hj.2)

theorem requestVane_pending (c : CraneIx) (d : Device) (k : FaultKind) (h : (d.faultEntry k).pending = true) :
    ((requestVane c d).faultEntry k).pending = true :=
  (Local.request c .weathervane).foldl_pending (d.jibCells c) d k h

theorem enterVane_pending (c : CraneIx) (d : Device) (k : FaultKind) (h : (d.faultEntry k).pending = true) :
    ((enterVane c d).faultEntry k).pending = true := by
  have hraise := raise_pending_mono (modWind c (fun w => { w with state := .vane .clearing, classes := .empty }) d)
    .vaneEntered k (some c.val) none none h
  have hasked := requestVane_pending c _ k hraise
  unfold enterVane
  dsimp only
  split <;> exact hasked

theorem windHanding_faultEntry (c : CraneIx) (d : Device) (k : FaultKind) :
    (windHanding c d).faultEntry k = d.faultEntry k := rfl

theorem setWind_faultEntry (c : CraneIx) (w : WindRec) (d : Device) (k : FaultKind) :
    (d.setWind c w).faultEntry k = d.faultEntry k := rfl

theorem evaluate_pending (c : CraneIx) (d : Device) (k : FaultKind) (h : (d.faultEntry k).pending = true) :
    ((evaluate c d).faultEntry k).pending = true := by
  cases hvane : (d.windOf c).state.isVane with
  | true =>
    rwa [evaluate_inVane hvane, windHanding_faultEntry, setWind_faultEntry]
  | false =>
    by_cases hlevel : d.level c = .vane
    · rw [evaluate_enters hvane hlevel, windHanding_faultEntry]
      exact enterVane_pending c d k h
    · rwa [evaluate_below hvane hlevel, windHanding_faultEntry, setWind_faultEntry]

theorem staleWith_pending {c : CraneIx} {d : Device} {w : WindRec} (h : w.channel ≠ .stale) :
    ((d.staleWith c w).faultEntry .windStale).pending = true := by
  have hraised := raise_pending d .windStale (some c.val) none none
  rw [Device.staleWith, setWind_faultEntry]
  simp only [if_neg h]
  exact hraised

theorem silenceDone_eq {c : CraneIx} {d : Device} (h : (d.windOf c).silence = some 0) :
    silenceDone c d = evaluate c (d.staleWith c { d.windOf c with silence := none }) := by
  rw [silenceDone, if_pos (by simp [h]), silenceExpired, modWind, goStale_setWind]

theorem noClass_has (sail : Sail) : (SailSet.mk false false false).has sail = false := by
  cases sail <;> rfl

/-- A channel that goes STALE under LINK brings a crane outside VANE, with VG and VM clear, to HALT. -/
theorem evaluate_stale {c : CraneIx} {d : Device} {w : WindRec} (hw : w.source = (d.windOf c).source)
    (hsource : d.source c = .link) (hvg : w.flagVG = false) (hvm : w.flagVM = false) (hvane : w.state.isVane = false) :
    evaluate c (d.staleWith c w) = { d with
      wind := d.wind.set c
        { w with channel := .stale, liveRun := 0, state := .halt, classes := ⟨false, false, false⟩ }
      bookings := d.bookings.map fun b =>
        if b.crane = c ∧ b.state = .lifting then { b with state := .holdLower } else b
      faults := if w.channel = .stale then d.faults else (d.raise .windStale (some c.val) none none).faults } := by
  have hwind : (d.staleWith c w).windOf c = { w with channel := .stale, liveRun := 0 } :=
    Device.setWind_windOf_self _ c _
  have hlink : (d.staleWith c w).source c = .link := by
    rw [Device.source, hwind, ← hsource]
    exact congrArg (effectiveSource _) hw
  have hlevel : (d.staleWith c w).level c = .halt := by
    rw [level_below (by rw [hwind]; exact hvg) (by rw [hwind]; exact hvm),
      if_pos (.inr ⟨hlink, by rw [hwind]; exact fun h => nomatch h⟩)]
  rw [evaluate_below (by rw [hwind]; exact hvane) (by rw [hlevel]; decide), hlevel, hwind, settleAt_noClass _ rfl,
    windHanding_setWind c _ _ fun _ => rfl]
  simp only [noClass_has, and_true, Device.staleWith, Device.setWind, Vector.set_set]
  rfl

theorem takeGap_farStale {gap : Nat} (c : CraneIx) (d : Device) (h : 4 ≤ gap) :
    takeGap c (some gap) d = d.staleWith c { d.windOf c with holdRun := 2 } := by
  rw [takeGap_far c d h, goStale_eq, Device.staleWith, modWind_setWind]
  rfl

theorem WindOnly.frame {c : CraneIx} {d t : Device} (h : WindOnly c d t) :
    t = { d with wind := t.wind, faults := t.faults } := by
  conv_lhs => rw [h]
  rw [← h.wind]

theorem examineSample_link {c : CraneIx} {r : Report} {d : Device} (h : d.source c = .link) :
    examineSample c r d = if sampleGap (d.windOf c).lastSeq r.windSeq = some 0 then d
      else takeSample c r.windSeq r.pulses (sampleGap (d.windOf c).lastSeq r.windSeq) d := by
  simp only [examineSample, h, beq_iff_eq]

/-- Settles O56: the expiries by their equations, then the channel's operations in the order of section 6.3. -/
theorem channelFollowsSamplesAndTimers : Obligations.ChannelFollowsSamplesAndTimers := by
  refine ⟨fun s c hreset => ⟨fun h => act_expiry_not_due (x := .silence c) hreset h,
    fun h => act_expiry_not_due (x := .vaneClear c) hreset h, fun h hsource hvg hvm hvane => ?_,
    fun h => ?_, fun h => ?_⟩,
    fun last seq _ hseq => ⟨rfl, sampleGap_some last hseq⟩, fun d c => ⟨fun hrun => ⟨fun h => ?_, fun l s h => ?_⟩,
      fun hrun => ?_, ⟨rfl, rfl, fun hrun => ?_, fun hrun => ?_, fun hrun => ?_,
        fun hrun => ⟨?_, ?_⟩, fun gap hgap => ?_⟩,
      ⟨if_pos rfl, fun count hcount => takeReading_real c d hcount⟩,
      fun seq count gap hgap => ⟨fun hgood => ?_, fun hbad => takeSample_bad d hbad rfl, rfl,
        (takeSample_windOnly c seq count gap d).windClaims.sameElsewhere, ?_⟩,
      fun r => ⟨fun hsource => ?_, fun hsource => ⟨fun hgap => ?_, fun hgap => ?_⟩⟩,
      fun hsource => ⟨?_, ?_⟩, fun hsource => ⟨?_, ?_⟩⟩⟩
  · have hdue := act_expiry_due (x := .silence c) hreset h
    refine hdue.trans ?_
    rw [expire, silenceDone_eq h, evaluate_stale (w := { s.dev.windOf c with silence := none }) rfl
      hsource hvg hvm hvane]
  · have hdue := act_expiry_due (x := .silence c) hreset h
    have hwind : (s.dev.staleWith c { s.dev.windOf c with silence := none }).windOf c = _ :=
      Device.setWind_windOf_self _ c _
    obtain ⟨state, classes, timer, hafter⟩ := evaluate_windOf c
      (s.dev.staleWith c { s.dev.windOf c with silence := none })
    have hother := (silenceExpired_windClaims c s.dev).sameElsewhere
    rw [hwind, ← silenceDone_eq h] at hafter
    have hsome : (s.dev.windOf c).silence.isSome = true := by simp [show (s.dev.windOf c).silence = some 0 from h]
    refine ⟨_, hdue, ?_, ?_, ?_, ?_, fun hlive => ?_⟩
    all_goals dsimp only [expire]
    · rw [hafter]
    · rw [hafter]
    · rw [hafter]
    · rw [silenceDone, if_pos hsome]
      exact hother
    · rw [silenceDone_eq h]
      refine evaluate_pending c _ _ (staleWith_pending ?_)
      exact hlive
  · have hdue := act_expiry_due (x := .vaneClear c) hreset h
    have hsome : (s.dev.windOf c).vaneTimer.isSome = true := by simp [show (s.dev.windOf c).vaneTimer = some 0 from h]
    refine ⟨s.dev.lackingVaneCell c, ?_, lackingVaneCell_least s.dev c⟩
    refine hdue.trans ?_
    rw [expire, vaneClearDone, if_pos hsome]
    rfl
  · have := takeHold_setWind_empty (c := c) d hrun h
    rwa [Device.setWind_eq_self] at this
  · have := takeHold_setWind_newest (c := c) d hrun h
    rwa [Device.setWind_eq_self] at this
  · rw [takeHold_full hrun, goStale_eq]
    rfl
  · exact if_pos hrun
  · have hrun' : (d.windOf c).holdRun = 0 := hrun
    show fillHolds 2 c d = _
    rw [fillHolds_two, if_pos (by omega), fillHolds_one, if_pos (by rw [takeHold_holdRun (by omega)]; omega)]
  · have hrun' : (d.windOf c).holdRun = 1 := hrun
    show fillHolds 2 c d = _
    rw [fillHolds_two, if_pos (by omega), fillHolds_one, if_neg (by rw [takeHold_holdRun (by omega)]; omega)]
  · show fillHolds 1 c d = _
    rw [fillHolds_one, if_neg (Nat.not_lt.mpr hrun), goStale_eq]
    rfl
  · show fillHolds 2 c d = _
    rw [fillHolds_two, if_neg (Nat.not_lt.mpr hrun), goStale_eq]
    rfl
  · rw [takeGap_farStale c d hgap]
    rfl
  · obtain ⟨hcount, hgap⟩ := hgood
    refine takeSample_good d hcount hgap ?_
    rcases hgap with rfl | rfl <;> rfl
  · exact (takeSample_windOnly c seq count gap d).frame
  · simp only [examineSample, hsource]
  · rw [examineSample_link hsource, if_pos hgap]
  · rw [examineSample_link hsource, if_neg hgap]
  all_goals simp only [startChannel, returnChannel, hsource] <;> rfl

end Sys2Proof.Machine
end

