-- ==== Sys2Proof/Proofs/SiteSeconds.lean ====
section
/-! SUPPORT. Site seconds (sections 6.8, 8.1 and 9.6): what a site second changes, what a mast sample gives a crane, and
the pulses and expiries that raise site seconds. -/

namespace Sys2Proof.Machine

/-! ### Pending faults stay pending -/

/-- No pending fault is cleared. -/
def Device.pendingKept (d t : Device) : Prop :=
  ∀ k, (d.faultEntry k).pending = true → (t.faultEntry k).pending = true

theorem pendingKept_refl (d : Device) : d.pendingKept d := fun _ h => h

theorem Device.pendingKept.trans {d e t : Device} (h : d.pendingKept e) (h' : e.pendingKept t) : d.pendingKept t :=
  fun k hk => h' k (h k hk)

theorem pendingKept_of_faults {d t : Device} (h : t.faults = d.faults) : d.pendingKept t := fun k hk => by
  rwa [Device.faultEntry, h]

theorem Device.pendingKept.of_faults {d e t : Device} (h : e.pendingKept t) (hfaults : e.faults = d.faults) :
    d.pendingKept t := (pendingKept_of_faults hfaults).trans h

theorem pendingKept_ite {d a b : Device} {p : Prop} [Decidable p] (ha : d.pendingKept a) (hb : d.pendingKept b) :
    d.pendingKept (if p then a else b) := by
  split
  exacts [ha, hb]

theorem pendingKept_foldl {α : Type} {f : Device → α → Device} (hf : ∀ d x, Device.pendingKept d (f d x)) :
    ∀ (l : List α) (d : Device), d.pendingKept (l.foldl f d)
  | [], d => pendingKept_refl d
  | x :: l, d => (hf d x).trans (pendingKept_foldl hf l (f d x))

theorem raise_pendingKept (d : Device) (k : FaultKind) (a b x : Option Nat) : d.pendingKept (d.raise k a b x) :=
  fun j h => raise_pending_mono d k j a b x h

theorem Local.pendingKept_foldl {f : Device → CellIx → Device} (hf : Local f) (l : List CellIx) (d : Device) :
    d.pendingKept (l.foldl f d) := fun k h => hf.foldl_pending l d k h

theorem reservePath_pendingKept (c : CraneIx) (path : List CellIx) (d : Device) :
    d.pendingKept (reservePath c path d) :=
  (Local.reserveCell c).pendingKept_foldl _ d

theorem activate_pendingKept (id : Nat) (d : Device) : d.pendingKept (activate id d) := by
  unfold activate
  split
  · exact (reservePath_pendingKept _ _ _).of_faults rfl
  · exact pendingKept_refl d

theorem retireOne_pendingKept (b : Booking) (reason : RetireReason) (d : Device) :
    d.pendingKept (retireOne b reason d) := by
  have hrevert : d.pendingKept (if b.state.running then revertPath b.crane b.path d else d) :=
    pendingKept_ite ((Local.revertCell b.crane).pendingKept_foldl _ d) (pendingKept_refl d)
  have hrejudge : ∀ e : Device, e.pendingKept (if b.state.inForce then rejudgePath b.path e else e) := fun e =>
    pendingKept_ite (Local.rejudgeCell.pendingKept_foldl _ e) (pendingKept_refl e)
  refine hrevert.trans ?_
  unfold retireOne
  generalize (if b.state.running then revertPath b.crane b.path d else d) = e
  have hremoved := hrejudge { e with bookings := removeBooking b.id (unlinkPred b e.bookings) }
  refine (hremoved.of_faults (d := e) rfl).trans ?_
  exact pendingKept_ite (raise_pendingKept _ _ _ _ _) (pendingKept_refl _)

theorem retireChain_pendingKept : ∀ (fuel id : Nat) (reason : RetireReason) (d : Device),
    d.pendingKept (retireChain fuel id reason d)
  | 0, _, _, d => pendingKept_refl d
  | fuel + 1, id, reason, d => by
    rw [retireChain]
    split
    · exact pendingKept_refl d
    · next b hb =>
      refine (retireOne_pendingKept b reason d).trans ?_
      dsimp only
      split
      · exact pendingKept_refl _
      · split
        · exact activate_pendingKept _ _
        · exact pendingKept_refl _
        · exact retireChain_pendingKept fuel _ _ _

theorem matchBooking_pendingKept (now : Nat) (d : Device) (id : Nat) : d.pendingKept (matchBooking now d id) := by
  have hretire : d.pendingKept (retire id .expired d) := retireChain_pendingKept _ _ _ _
  unfold matchBooking
  split
  · exact pendingKept_refl d
  · split
    · exact pendingKept_ite hretire (pendingKept_refl d)
    · exact pendingKept_ite hretire (pendingKept_ite
        ((reservePath_pendingKept _ _ _).of_faults rfl) (pendingKept_refl d))
    · exact pendingKept_ite hretire (pendingKept_refl d)
    · exact pendingKept_ite hretire (pendingKept_refl d)
    · exact pendingKept_ite (pendingKept_of_faults rfl) (pendingKept_refl d)
    · exact pendingKept_ite (pendingKept_of_faults rfl) (pendingKept_refl d)

theorem windowMatching_pendingKept (d : Device) : d.pendingKept (windowMatching d) := by
  unfold windowMatching
  split
  · exact pendingKept_refl d
  · exact pendingKept_foldl (matchBooking_pendingKept _) _ d

theorem mastCrane_pendingKept (d : Device) (c : CraneIx) : d.pendingKept (mastCrane d c) := fun k h =>
  evaluate_pending c _ k h

theorem mastSample_pendingKept (d : Device) : d.pendingKept (mastSample d) :=
  (pendingKept_foldl mastCrane_pendingKept _ _).of_faults rfl

theorem siteSecond_pendingKept (d : Device) : d.pendingKept (siteSecond d) := by
  have hmatch := (windowMatching_pendingKept
    (d.setClockRec { d.clock with siteTime := nextSiteTime d.clock.siteTime })).of_faults (d := d) rfl
  exact hmatch.trans ((mastSample_pendingKept (reopenSuspended _)).of_faults rfl)

/-! ### What a site second changes -/

/-- Between two states of the part the clock, the mast record, the claim, wind and fault records, the booking table and
the counter of free choices alone differ. -/
def Device.secondOnly (d t : Device) : Prop :=
  t = { d with
    clock := t.clock, mast := t.mast, cells := t.cells, wind := t.wind, bookings := t.bookings, faults := t.faults
    picks := t.picks }

theorem secondOnly_refl (d : Device) : d.secondOnly d := rfl

theorem Device.secondOnly.trans {d e t : Device} (h : d.secondOnly e) (h' : e.secondOnly t) : d.secondOnly t := by
  unfold Device.secondOnly at *
  rw [h', h]

theorem ClaimsOnly.secondOnly {d t : Device} (h : ClaimsOnly d t) : d.secondOnly t := by
  unfold Device.secondOnly
  rw [h]

theorem WindClaims.secondOnly {c : CraneIx} {d t : Device} (h : WindClaims c d t) : d.secondOnly t := by
  unfold Device.secondOnly
  conv_lhs => rw [h.frame]
  rw [h]

/-- A run of mast speeds leaves the clock, the mast record and the plan. -/
theorem mastCranes_frame (l : List CraneIx) (d : Device) :
    d.secondOnly (l.foldl mastCrane d) ∧ (l.foldl mastCrane d).clock = d.clock ∧
      (l.foldl mastCrane d).mast = d.mast := by
  induction l generalizing d with
  | nil => exact ⟨secondOnly_refl d, rfl, rfl⟩
  | cons c l ih =>
    have hclaims := mastCrane_windClaims d c
    obtain ⟨honly, hclock, hmast⟩ := ih (mastCrane d c)
    exact ⟨hclaims.secondOnly.trans honly, hclock.trans (by rw [hclaims]), hmast.trans (by rw [hclaims])⟩

/-- The mast record a site second leaves (R113). -/
def Device.latchedMast (d : Device) : Mast := ⟨0, d.mast.pulses, speedOf d.mast.pulses d.plan.site.mastScale⟩

/-- The part as a mast sample finds it, with the mast count latched. -/
def Device.latched (d : Device) : Device := { d with mast := d.latchedMast }

theorem mastSample_eq (d : Device) :
    mastSample d = (d.latched.shuffle (allCranes.filter d.latched.onMast)).foldl mastCrane
      (d.latched.picked (allCranes.filter d.latched.onMast)) := rfl

theorem mastSample_frame (d : Device) :
    d.secondOnly (mastSample d) ∧ (mastSample d).clock = d.clock ∧ (mastSample d).mast = d.latchedMast := by
  obtain ⟨honly, hframe⟩ := mastCranes_frame (d.latched.shuffle (allCranes.filter d.latched.onMast))
    (d.latched.picked (allCranes.filter d.latched.onMast))
  exact ⟨Device.secondOnly.trans (e := d.latched.picked (allCranes.filter d.latched.onMast)) rfl honly, hframe⟩

theorem siteSecond_frame (d : Device) :
    d.secondOnly (siteSecond d) ∧ (siteSecond d).clock = { d.clock with siteTime := nextSiteTime d.clock.siteTime } ∧
      (siteSecond d).mast = d.latchedMast := by
  let x : Clock := { d.clock with siteTime := nextSiteTime d.clock.siteTime }
  have hmatch := windowMatching_claimsOnly (d.setClockRec x)
  have hopen := reopenSuspended_claimsOnly (windowMatching (d.setClockRec x))
  obtain ⟨honly, hclock, hmast⟩ := mastSample_frame (reopenSuspended (windowMatching (d.setClockRec x)))
  have hbefore := hmatch.trans hopen
  refine ⟨(Device.secondOnly.trans (e := d.setClockRec x) rfl hbefore.secondOnly).trans honly,
    hclock.trans hbefore.clock, hmast.trans ?_⟩
  rw [Device.latchedMast, hbefore.mast, hbefore.plan]
  rfl

/-! ### The mast speed of a crane (R113) -/

theorem mastCrane_windOf_of_ne {c x : CraneIx} (d : Device) (h : x ≠ c) : (mastCrane d c).windOf x = d.windOf x :=
  (mastCrane_windClaims d c).windOf_of_ne h

/-- A run of mast speeds, each crane once, gives a crane the record its own mast speed gives it. -/
theorem mastCranes_windOf {l : List CraneIx} (hl : l.Nodup) (d : Device) (c : CraneIx) :
    (c ∉ l → (l.foldl mastCrane d).windOf c = d.windOf c) ∧
      (c ∈ l → ∃ e, (l.foldl mastCrane d).windOf c = (mastCrane e c).windOf c ∧ e.windOf c = d.windOf c ∧
        e.mast = d.mast ∧ e.plan = d.plan) := by
  induction l generalizing d with
  | nil => exact ⟨fun _ => rfl, fun h => absurd h (by simp)⟩
  | cons x l ih =>
    obtain ⟨hx, hl⟩ := List.nodup_cons.mp hl
    have hclaims := mastCrane_windClaims d x
    obtain ⟨hout, hin⟩ := ih hl (mastCrane d x)
    refine ⟨fun hc => ?_, fun hc => ?_⟩
    · obtain ⟨hne, hc⟩ := not_or.mp fun h => hc (List.mem_cons.mpr h)
      exact (hout hc).trans (mastCrane_windOf_of_ne d hne)
    · rcases List.mem_cons.mp hc with rfl | hc
      · exact ⟨d, hout hx, rfl, rfl, rfl⟩
      · obtain ⟨e, hrec, hwind, hmast, hplan⟩ := hin hc
        have hne : c ≠ x := fun h => hx (h ▸ hc)
        exact ⟨e, hrec, hwind.trans (mastCrane_windOf_of_ne d hne), hmast.trans (by rw [hclaims]),
          hplan.trans (by rw [hclaims])⟩

theorem mastCrane_record (d : Device) (c : CraneIx) :
    ((mastCrane d c).windOf c).holdRun = 0 ∧
      ((mastCrane d c).windOf c).mean =
        (handleSpeed d.plan.site (mastSpeedFor d.mast.speed (d.profile c).height) (d.windOf c)).mean ∧
      ((mastCrane d c).windOf c).recent.getLast? = some (mastSpeedFor d.mast.speed (d.profile c).height) := by
  obtain ⟨state, classes, timer, hwind⟩ := evaluate_windOf c (modWind c (fun w => { w with holdRun := 0 })
    (produceSpeed c (mastSpeedFor d.mast.speed (d.profile c).height) d))
  have hrec : (mastCrane d c).windOf c = _ := hwind
  rw [hrec, produceSpeed, modWind_modWind, Device.setWind_windOf_self]
  refine ⟨rfl, rfl, ?_⟩
  show (pushBounded 3 _ (d.windOf c).recent).getLast? = _
  rw [pushBounded, lastN, List.getLast?_drop, if_neg (by simp), List.getLast?_append]
  rfl

theorem onMast_iff (d : Device) (c : CraneIx) :
    d.onMast c = true ↔ d.source c = .mast ∧ (d.membership c = .admitted ∨ d.membership c = .lost) := by
  simp [Device.onMast]

theorem mastSample_windOf (d : Device) (c : CraneIx) :
    (d.onMast c = false → (mastSample d).windOf c = d.windOf c) ∧
      (d.onMast c = true → ((mastSample d).windOf c).holdRun = 0 ∧
        ((mastSample d).windOf c).mean =
          (handleSpeed d.plan.site (mastSpeedFor d.latchedMast.speed (d.profile c).height) (d.windOf c)).mean ∧
        ((mastSample d).windOf c).recent.getLast? = some (mastSpeedFor d.latchedMast.speed (d.profile c).height)) := by
  have hperm := shuffle_perm d.latched (allCranes.filter d.latched.onMast)
  have hmem : c ∈ d.latched.shuffle (allCranes.filter d.latched.onMast) ↔ d.onMast c = true := by
    rw [hperm.mem_iff, List.mem_filter]
    exact ⟨fun h => h.2, fun h => ⟨mem_allCranes c, h⟩⟩
  have hnodup := hperm.nodup_iff.mpr ((List.nodup_finRange 10).filter d.latched.onMast)
  obtain ⟨hout, hin⟩ := mastCranes_windOf hnodup (d.latched.picked (allCranes.filter d.latched.onMast)) c
  rw [mastSample_eq]
  refine ⟨fun h => hout (by rw [hmem, h]; exact Bool.false_ne_true), fun h => ?_⟩
  obtain ⟨e, hrec, hwind, hmast, hplan⟩ := hin (hmem.mpr h)
  have hrecord := mastCrane_record e c
  rw [hwind, hmast, Device.profile, hplan] at hrecord
  rw [hrec]
  exact hrecord

/-! ### Bookings that reopen (R159) -/

theorem windAllows_iff (d : Device) (c : CraneIx) (x : Sail) : d.windAllows c x = true ↔ d.sailAllowed c x := by
  unfold Device.windAllows Device.sailAllowed
  cases (d.windOf c).state <;> simp [WindState.isCalmOrWatch]

/-- Suspended bookings whose sail the wind allows are opened again, the others kept, each in its place. -/
theorem reopenSuspended_getElem? {d : Device} {i : Nat} {b : Booking} (h : d.bookings[i]? = some b) :
    (b.state = .suspended → d.sailAllowed b.crane b.sail →
      (reopenSuspended d).bookings[i]? = some { b with state := .opened }) ∧
      (b.state ≠ .suspended ∨ ¬d.sailAllowed b.crane b.sail → (reopenSuspended d).bookings[i]? = some b) := by
  have hmap : (reopenSuspended d).bookings[i]? =
      some (if b.state == .suspended && d.windAllows b.crane b.sail then { b with state := .opened } else b) := by
    simp only [reopenSuspended, List.getElem?_map, h, Option.map_some]
  have htest : (b.state == .suspended && d.windAllows b.crane b.sail) = true ↔
      b.state = .suspended ∧ d.sailAllowed b.crane b.sail := by
    rw [Bool.and_eq_true, beq_iff_eq, windAllows_iff]
  exact ⟨fun hs ha => by rw [hmap, if_pos (htest.mpr ⟨hs, ha⟩)], fun hn => by rw [hmap, if_neg (by rw [htest]; tauto)]⟩

/-! ### Pulses (R134, R136) -/

theorem ppsPulse_glitch {d : Device} {n : Nat} (hfollow : d.clock.following = true) (h : d.clock.lastPulse = some n)
    (hn : n < 50) : ppsPulse d = d := by
  rw [ppsPulse]
  simp only [hfollow, if_true, glitch, h, Option.any_some, decide_eq_true hn]

theorem ppsPulse_taken {d : Device} (hfollow : d.clock.following = true)
    (h : d.clock.lastPulse = none ∨ ∃ n, d.clock.lastPulse = some n ∧ 50 ≤ n) :
    ppsPulse d = siteSecond (d.setClockRec { d.clock with lastPulse := some 0, pulseWait := some 200 }) := by
  have hglitch : glitch d.clock = false := by
    rcases h with h | ⟨n, h, hn⟩
    · rw [glitch, h]
      rfl
    · rw [glitch, h]
      exact decide_eq_false (Nat.not_lt.mpr hn)
  rw [ppsPulse]
  simp only [hfollow, if_true, hglitch]
  rfl

/-- A pulse in FALLBACK that does not complete the pulse run. -/
theorem ppsPulse_counted {d : Device} {run : Nat} (hfollow : d.clock.following = false)
    (hrun : nextPulseRun d.clock = run) (hne : run ≠ 3) :
    ppsPulse d = d.setClockRec { d.clock with lastPulse := some 0, pulseRun := run } := by
  rw [ppsPulse]
  simp only [hfollow, hrun, beq_iff_eq, if_neg hne]
  rfl

/-- The clock that a completed pulse run brings back to FOLLOWING. -/
def Clock.back (x : Clock) : Clock := ⟨x.siteTime, true, some 200, none, some 0, 3⟩

theorem ppsPulse_back {d : Device} (hfollow : d.clock.following = false) (hrun : nextPulseRun d.clock = 3) :
    ppsPulse d = if recentFallback d.clock then d.setClockRec d.clock.back
      else siteSecond (d.setClockRec d.clock.back) := by
  rw [ppsPulse]
  simp only [hfollow, hrun]
  rfl

theorem nextPulseRun_first {x : Clock} (h : x.lastPulse = none ∨ ∃ n, x.lastPulse = some n ∧ (n < 95 ∨ 105 < n)) :
    nextPulseRun x = 1 := by
  rcases h with h | ⟨n, h, hn⟩
  · rw [nextPulseRun, h]
    rfl
  · rw [nextPulseRun, h, Option.any_some, if_neg (by simp; omega)]

theorem nextPulseRun_spaced {x : Clock} {n : Nat} (h : x.lastPulse = some n) (hlo : 95 ≤ n) (hhi : n ≤ 105) :
    nextPulseRun x = min (x.pulseRun + 1) 3 := by
  rw [nextPulseRun, h, Option.any_some, if_pos (by simp; omega)]

/-- A pulse that raises a site second from the clock given. -/
theorem exec_pulse_second {s : State} {x : Clock} (hreset : s.dev.resetLow = false)
    (h : ppsPulse s.dev = siteSecond (s.dev.setClockRec x)) :
    ∃ t, exec .ppsPulse s = .next t ∧ t.dev.clock = { x with siteTime := nextSiteTime x.siteTime } ∧
      t.dev.mast = s.dev.latchedMast ∧
      t = { s with dev := { s.dev with
        clock := t.dev.clock, mast := t.dev.mast, cells := t.dev.cells, wind := t.dev.wind
        bookings := t.dev.bookings, faults := t.dev.faults, picks := t.dev.picks } } := by
  obtain ⟨honly, hclock, hmast⟩ := siteSecond_frame (s.dev.setClockRec x)
  refine ⟨_, act_to hreset h, hclock, hmast, ?_⟩
  exact congrArg (fun d => ({ s with dev := d } : State)) (Device.secondOnly.trans (e := s.dev.setClockRec x) rfl honly)

/-! ### Expiries of the clock (R135) -/

theorem startFallback_frame (d : Device) :
    d.secondOnly (startFallback d) ∧ (startFallback d).clock = { d.clock with fallback := some 100 } ∧
      (startFallback d).mast = d.mast ∧ (startFallback d).faults = d.faults := ⟨rfl, rfl, rfl, rfl⟩

theorem fallbackExpired_frame {d : Device} (h : d.clock.fallback = some 0) :
    ∃ t, fallbackExpired d = t ∧ d.secondOnly t ∧
      t.clock = { d.clock with siteTime := nextSiteTime d.clock.siteTime, fallback := some 100 } ∧
      t.mast = d.latchedMast := by
  obtain ⟨honly, hclock, hmast⟩ := siteSecond_frame d
  obtain ⟨honly', hclock', hmast', -⟩ := startFallback_frame (siteSecond d)
  refine ⟨startFallback (siteSecond d), if_pos (by simp [h]), honly.trans honly', ?_, hmast'.trans hmast⟩
  rw [hclock', hclock]

theorem pulseWaitExpired_frame {d : Device} (h : d.clock.pulseWait = some 0) :
    ∃ t, pulseWaitExpired d = t ∧ d.secondOnly t ∧
      t.clock = { d.clock with
        siteTime := nextSiteTime (nextSiteTime d.clock.siteTime), following := false, pulseWait := none
        fallback := some 100, pulseRun := 0 } ∧
      t.mast = ⟨0, 0, 0⟩ ∧ (t.faultEntry .clockRefLost).pending = true := by
  have hlost : d.secondOnly ((loseReference d).raise .clockRefLost none none none) := by
    rw [Device.secondOnly, raise_eq]
    rfl
  have hclock₀ : ((loseReference d).raise .clockRefLost none none none).clock =
    (loseReference d).clock := raise_clock _ _ _ _ _
  have hraised := raise_pending (loseReference d) .clockRefLost none none none
  have hwait : pulseWaitExpired d =
      startFallback (siteSecond (siteSecond ((loseReference d).raise .clockRefLost none none none))) :=
    if_pos (by simp [h])
  generalize (loseReference d).raise .clockRefLost none none none = e at *
  obtain ⟨honly₁, hclock₁, hmast₁⟩ := siteSecond_frame e
  obtain ⟨honly₂, hclock₂, hmast₂⟩ := siteSecond_frame (siteSecond e)
  obtain ⟨honly₃, hclock₃, hmast₃, hfaults⟩ := startFallback_frame (siteSecond (siteSecond e))
  refine ⟨_, hwait, hlost.trans (honly₁.trans (honly₂.trans honly₃)), ?_, hmast₃.trans (hmast₂.trans ?_), ?_⟩
  · rw [hclock₃, hclock₂, hclock₁, hclock₀]
    rfl
  · rw [Device.latchedMast, hmast₁]
    simp [Device.latchedMast, speedOf]
  · exact pendingKept_of_faults hfaults _ (siteSecond_pendingKept _ _ (siteSecond_pendingKept _ _ hraised))

/-- Settles O58: pulses by the state of the reference, the two expiries, and a site second in its steps. -/
theorem pulsesAndFallbackDriveTheClock : Obligations.PulsesAndFallbackDriveTheClock := by
  refine ⟨fun s hreset => ⟨act_to hreset rfl, fun hfollow => ⟨fun n hlast hn =>
        act_to hreset (ppsPulse_glitch hfollow hlast hn),
      fun hlast => exec_pulse_second hreset (ppsPulse_taken hfollow hlast)⟩,
    fun hfollow => ⟨fun hlast => act_to hreset (ppsPulse_counted hfollow (nextPulseRun_first hlast) (by decide)),
      fun n hlast hlo hhi => ⟨fun hrun => act_to hreset (ppsPulse_counted hfollow ?_ ?_), fun hrun => ?_⟩⟩⟩,
    fun s hreset => ⟨fun h => act_expiry_not_due (x := .pulseWait) hreset h,
      fun h => act_expiry_not_due (x := .fallback) hreset h, fun h => ?_, fun h => ?_⟩,
    fun d => ⟨rfl, fun l hl => ?_, fun c => ⟨fun hsource hmember => ?_, fun h => ?_⟩⟩⟩
  · rw [nextPulseRun_spaced hlast hlo hhi]
    omega
  · omega
  · have hback := ppsPulse_back hfollow (by rw [nextPulseRun_spaced hlast hlo hhi, hrun]; rfl)
    refine ⟨fun m hm hlo hhi => act_to hreset ?_, fun hm =>
      exec_pulse_second (x := s.dev.clock.back) hreset ?_⟩
    · rw [hback, recentFallback, hm, Option.any_some, if_pos (decide_eq_true (by show 100 - m ≤ 50; omega))]
      rfl
    · rw [hback, if_neg]
      rcases hm with hm | ⟨m, hm, hlt⟩
      · rw [recentFallback, hm]
        exact Bool.false_ne_true
      · rw [recentFallback, hm, Option.any_some]
        exact fun h => absurd (of_decide_eq_true h) (by show ¬(100 - m ≤ 50); omega)
  · obtain ⟨t, ht, honly, hclock, hmast, hpending⟩ := pulseWaitExpired_frame h
    exact ⟨{ s with dev := t }, (act_expiry_due (x := .pulseWait) hreset h).trans (by rw [← ht]; rfl), hclock, hmast,
      hpending, congrArg (fun d => ({ s with dev := d } : State)) honly⟩
  · obtain ⟨t, ht, honly, hclock, hmast⟩ := fallbackExpired_frame h
    exact ⟨{ s with dev := t }, (act_expiry_due (x := .fallback) hreset h).trans (by rw [← ht]; rfl), hclock, hmast,
      congrArg (fun d => ({ s with dev := d } : State)) honly⟩
  · subst hl
    exact ⟨_, rfl, List.length_map _, fun i b hb => reopenSuspended_getElem? hb⟩
  · exact (mastSample_windOf d c).2 ((onMast_iff d c).mpr ⟨hsource, hmember⟩)
  · refine (mastSample_windOf d c).1 (Bool.eq_false_iff.mpr fun hon => ?_)
    obtain ⟨hsource, hmember⟩ := (onMast_iff d c).mp hon
    rcases h with h | h | h
    · exact h hsource
    all_goals rcases hmember with hm | hm <;> rw [hm] at h <;> cases h

end Sys2Proof.Machine
end

