-- ==== Sys2Proof/Proofs/Rejudgement.lean ====
section
/-! SUPPORT. Re-judgement of a cell where it comes to rest at once, and a cell given on (sections 4.3 to 4.5): the rules
that the claims, releases, reports and conversions go by. -/

namespace Sys2Proof.Machine

variable {d : Device} {k : CellIx} {r : CellClaim} {c : CraneIx} {x : ClaimClass}

/-! ### Reservations and lifts over a cell -/

theorem reservedAgainst_iff (d : Device) (c : CraneIx) (k : CellIx) :
    d.reservedAgainst c k = true ↔ ∃ b ∈ d.bookings, b.state.inForce = true ∧ b.crane ≠ c ∧ k ∈ b.path := by
  simp [Device.reservedAgainst, and_assoc]

theorem barred_iff (d : Device) (c : CraneIx) (k : CellIx) (x : ClaimClass) :
    d.barred c k x ↔ d.reservedAgainst c k = true ∧ d.tier .booked < d.tier x := by
  rw [Device.barred, reservedAgainst_iff]

theorem liftsOver_iff (d : Device) (c : CraneIx) (k : CellIx) : d.liftsOver c k ↔ d.liftLists c k = true := by
  unfold Device.liftsOver Device.liftLists
  simp [running_iff, and_assoc]

theorem displacedByReservation_eq (d : Device) (k : CellIx) (c : CraneIx) (x : ClaimClass) :
    displacedByReservation d k c x = true ↔ d.barred c k x := by
  rw [barred_iff]
  simp [displacedByReservation]

theorem displacedByReservation_of_not_barred (h : ¬d.barred c k x) : displacedByReservation d k c x = false := by
  rw [← displacedByReservation_eq] at h
  exact Bool.not_eq_true _ ▸ h

theorem lingerRule_holder {l : Option Nat} {st : Standing} (h : lingerRule d k c x l = some st) :
    st.holder = some c := by
  unfold lingerRule at h
  split at h
  · cases h; rfl
  · split at h
    · split at h
      · cases h
      · cases h; rfl
    · cases h; rfl

/-- A holder is displaced by a strictly stronger head waiter or by a reservation that bars its class. -/
theorem displaced_iff (d : Device) (k : CellIx) (c : CraneIx) (x : ClaimClass) (q : List Waiter) :
    displaced d k c x q = true ↔ (∃ w ∈ q.head?, d.tier w.cls < d.tier x) ∨ d.barred c k x := by
  rw [displaced, Bool.or_eq_true, displacedByReservation_eq]
  cases q <;> simp [displacedByWaiter]

theorem not_displaced {q : List Waiter} (hq : ∀ w ∈ q.head?, d.tier x ≤ d.tier w.cls) (hb : ¬d.barred c k x) :
    displaced d k c x q = false := by
  rw [← Bool.not_eq_true, displaced_iff]
  rintro (⟨w, hw, hlt⟩ | h)
  · exact absurd (hq w hw) (Nat.not_le.mpr hlt)
  · exact hb h

/-! ### Records that re-judgement leaves in one step -/

/-- A record judged, where re-judgement comes to a record in one step. -/
theorem judge_of_settle {r' : CellClaim} (h : ∀ n, settle (n + 1) d k r = r') :
    judge d k r = { r' with contested := contestedNow d r', intruded := !r'.intruders.isEmpty } := by
  obtain ⟨n, hn⟩ := settleBound_succ r
  rw [judge, hn, h n]

theorem judge_free (h : r.standing = .free) :
    judge d k r = { r with contested := false, intruded := !r.intruders.isEmpty } := by
  rw [judge_of_settle fun n => settle_free (n + 1) h, contestedNow, h]
  rfl

theorem judge_held {l : Option Nat} {st : Standing} (h : r.standing = .held c x l)
    (hd : displaced d k c x r.queue = false) (hl : lingerRule d k c x l = some st) :
    (judge d k r).standing = st ∧ (judge d k r).queue = r.queue ∧ (judge d k r).intruders = r.intruders := by
  rw [judge_of_settle fun n => settle_held h hd hl]
  exact ⟨rfl, rfl, rfl⟩

theorem judge_held_displaced {l : Option Nat} (h : r.standing = .held c x l) (hd : displaced d k c x r.queue = true)
    (ho : d.relation c k ≠ .outside) :
    (judge d k r).standing = .draining c x ∧ (judge d k r).queue = r.queue ∧ (judge d k r).intruders = r.intruders := by
  rw [judge_of_settle fun n => settle_held_displaced h hd ho]
  exact ⟨rfl, rfl, rfl⟩

theorem judge_draining {st : Standing} (h : r.standing = .draining c x) (hd : displaced d k c x r.queue = false)
    (hl : lingerRule d k c x none = some st) :
    (judge d k r).standing = st ∧ (judge d k r).queue = r.queue ∧ (judge d k r).intruders = r.intruders := by
  rw [judge_of_settle fun n => settle_draining h hd hl]
  exact ⟨rfl, rfl, rfl⟩

theorem judge_granted {n : Nat} (h : r.standing = .granted c x n) (hd : displaced d k c x r.queue = false) :
    (judge d k r).standing = .granted c x n ∧ (judge d k r).queue = r.queue ∧
      (judge d k r).intruders = r.intruders := by
  obtain ⟨hw, hr⟩ := Bool.or_eq_false_iff.mp hd
  rw [judge_of_settle fun n => settle_granted h hr hw]
  exact ⟨h, rfl, rfl⟩

/-- A cell judged FREE of a tier-0 holder or without a tier-0 waiter is not CONTESTED. -/
theorem contestedNow_of_waiters (h : ∀ w ∈ r.queue, d.tier w.cls ≠ 0) : contestedNow d r = false := by
  unfold contestedNow
  split
  · rw [Bool.and_eq_false_iff]
    refine .inr (List.any_eq_false.mpr fun w hw => ?_)
    simpa using h w hw
  · rfl

/-- A record whose waiters, once judged, are all below tier 0 is not CONTESTED. -/
theorem judge_not_contested (h : ∀ w ∈ (judge d k r).queue, d.tier w.cls ≠ 0) : (judge d k r).contested = false :=
  contestedNow_of_waiters h

/-! ### A cell given on (R69) -/

/-- What a record becomes where its holder's claim ends, in the cases in which one crane at most asks for the cell. -/
def CellClaim.givenOn (d : Device) (k : CellIx) (r r' : CellClaim) : Prop :=
  (r.queue = [] → r.intruders = [] → r'.standing = .free ∧ r'.queue = []) ∧
    (∀ w, r.queue = [w] → d.tier w.cls ≠ 0 →
      ¬(d.reservedAgainst w.crane k = true ∧ d.tier .booked < d.tier w.cls) →
      r'.standing = d.standingGranted k w.crane w.cls ∧ r'.queue = []) ∧
    ∀ x l, r.queue = [] → r.intruders = x :: l → freePasses d x k = true → d.relation x k = .inside →
      r'.standing = .held x .free none ∧ r'.queue = [] ∧ x ∉ r'.intruders

theorem givenOn_iff (d t : Device) (k : CellIx) : d.givenOn k t ↔ (d.cell k).givenOn d k (t.cell k) := Iff.rfl

/-- A grant below tier 0, with no stronger waiter and no reservation against it, is not re-judged. -/
theorem settle_grant (hq : ∀ w ∈ (dequeue c r.queue).head?, d.tier x ≤ d.tier w.cls) (hb : ¬d.barred c k x)
    (ht : d.tier x ≠ 0) (n : Nat) : settle (n + 1) d k (grant d k c x r) = grant d k c x r := by
  have hd : displaced d k c x (grant d k c x r).queue = false := not_displaced hq hb
  by_cases hin : d.relation c k = .inside
  · have hst : (grant d k c x r).standing = .held c x none := by simp [grant, hin]
    rw [settle_held hst hd (st := .held c x none), ← hst]
    simp [lingerRule, hin]
  · have hst : (grant d k c x r).standing = .granted c x (d.takeUpTicks k) := by simp [grant, hin, ht]
    obtain ⟨hw, hr⟩ := Bool.or_eq_false_iff.mp hd
    exact settle_granted hst hr hw

theorem grant_standing (ht : d.tier x ≠ 0) : (grant d k c x r).standing = d.standingGranted k c x := by
  simp [grant, Device.standingGranted, ht]

/-- A crane whose FREE request would pass is not barred at FREE. -/
theorem not_barred_of_freePasses (h : freePasses d c k = true) : ¬d.barred c k .free := by
  rw [barred_iff]
  rintro ⟨hres, hlt⟩
  simp [freePasses, hres, Nat.not_le.mpr hlt] at h

/-- A grant at FREE to a crane that is INSIDE, with no waiter, is HELD and not re-judged. -/
theorem settle_grant_inside (hq : r.queue = []) (hpass : freePasses d c k = true) (hin : d.relation c k = .inside)
    (n : Nat) :
    settle (n + 1) d k (grant d k c .free r) = grant d k c .free r ∧
      (grant d k c .free r).standing = .held c .free none := by
  have hst : (grant d k c .free r).standing = .held c .free none := by simp [grant, hin]
  have hqueue : (grant d k c .free r).queue = [] := by rw [grant_queue, hq]; rfl
  refine ⟨?_, hst⟩
  rw [settle_held hst (not_displaced (by rw [hqueue]; simp) (not_barred_of_freePasses hpass))
    (lingerRule_near rfl (by rw [hin]; decide)), ← hst]

/-- A record given on, re-judged. -/
theorem settle_giveOn (r : CellClaim) (n : Nat) : r.givenOn d k (settle (n + 1) d k (giveOn d k r)) := by
  refine ⟨fun hq hi => ?_, fun w hq ht hb => ?_, fun x l hq hi hpass hin => ?_⟩
  · have hgive : giveOn d k r = { r with standing := .free } := by
      rw [giveOn, hq, hi]
      rfl
    rw [hgive, settle_free _ rfl]
    exact ⟨rfl, hq⟩
  · have hgive : giveOn d k r = grant d k w.crane w.cls r := by rw [giveOn, hq]
    have hnone : dequeue w.crane r.queue = [] := by rw [hq]; simp [dequeue]
    rw [hgive, settle_grant (by rw [hnone]; simp) (by rwa [barred_iff]) ht]
    exact ⟨grant_standing ht, hnone⟩
  · have hgive : giveOn d k r = grant d k x .free r := by
      rw [giveOn, hq, hi]
      simp [hpass]
    obtain ⟨hsettle, hst⟩ := settle_grant_inside hq hpass hin n
    rw [hgive, hsettle]
    exact ⟨hst, by rw [grant_queue, hq]; rfl, by simp⟩

theorem judge_giveOn (r : CellClaim) : r.givenOn d k (judge d k (giveOn d k r)) := by
  obtain ⟨n, hn⟩ := settleBound_succ (giveOn d k r)
  have h := settle_giveOn (d := d) (k := k) r n
  rw [← hn] at h
  exact h

/-- A HELD record that lapses as it is judged is given on. -/
theorem judge_lapsed {l : Option Nat} (h : r.standing = .held c x l) (hd : displaced d k c x r.queue = false)
    (hl : lingerRule d k c x l = none) : r.givenOn d k (judge d k r) := by
  have hbound : settleBound r = (2 * r.queue.length + r.intruders.length + 4) + 1 + 1 := rfl
  have hgive := settle_giveOn (d := d) (k := k) r (2 * r.queue.length + r.intruders.length + 4)
  rw [← settle_held_lapsed h hd hl, ← hbound] at hgive
  exact hgive

/-- A crane INSIDE whose FREE request would pass holds a cell that no crane waits for, once granted at FREE. -/
theorem judge_grant_inside (hq : r.queue = []) (hpass : freePasses d c k = true) (hin : d.relation c k = .inside) :
    (judge d k (grant d k c .free r)).standing = .held c .free none ∧ (judge d k (grant d k c .free r)).queue = [] ∧
      (judge d k (grant d k c .free r)).intruders = dropCrane c r.intruders := by
  obtain ⟨-, hst⟩ := settle_grant_inside hq hpass hin 0
  rw [judge_of_settle fun n => (settle_grant_inside hq hpass hin n).1]
  exact ⟨hst, by rw [grant_queue, hq]; rfl, rfl⟩

/-- A released cell is given on. -/
theorem releaseCell_givenOn (k : CellIx) (d : Device) : d.givenOn k (releaseCell k d) := by
  rw [releaseCell, givenOn_iff, updCell_cell]
  exact judge_giveOn _

/-- What is given on is read from the queue, the intruders, the plan, the positions and the bookings. -/
theorem CellClaim.givenOn.of_cellsOnly {e : Device} {r₀ r r' : CellClaim} (h : r.givenOn e k r') (he : CellsOnly d e)
    (hq : r.queue = r₀.queue) (hi : r.intruders = r₀.intruders) : r₀.givenOn d k r' := by
  have hstand : ∀ c x, e.standingGranted k c x = d.standingGranted k c x := fun c x => by rw [he]; rfl
  simpa only [CellClaim.givenOn, hq, hi, he.tier, he.reservedAgainst, he.freePasses, he.relation, hstand] using h

/-! ### Claims that nothing displaces: WEATHERVANE and LOST (R68, R78, R80) -/

/-- A class of tier 0 whose holder runs no linger timer. -/
def ClaimClass.firm (x : ClaimClass) : Prop := x = .weathervane ∨ x = .lost

theorem ClaimClass.firm.tier (h : x.firm) (d : Device) : d.tier x = 0 := by
  rcases h with rfl | rfl <;> rfl

theorem ClaimClass.firm.linger (h : x.firm) (l : Option Nat) : lingerRule d k c x l = some (.held c x none) :=
  lingerRule_exempt (by rcases h with rfl | rfl <;> rfl)

theorem ClaimClass.firm.not_displaced (h : x.firm) (q : List Waiter) : displaced d k c x q = false :=
  displaced_of_tier_zero (h.tier d)

/-- A cell HELD at a firm class stays so. -/
theorem settle_firm (hx : x.firm) (h : r.standing = .held c x none) (n : Nat) : settle n d k r = r := by
  cases n with
  | zero => rfl
  | succ n =>
    rw [settle_held h (hx.not_displaced _) (hx.linger none), ← h]

/-- A holder at a firm class, HELD or DRAINING, is HELD once the cell is judged. -/
theorem judge_firm {l : Option Nat} (hx : x.firm) (h : r.standing = .held c x l ∨ r.standing = .draining c x) :
    (judge d k r).standing = .held c x none ∧ (judge d k r).queue = r.queue := by
  rcases h with h | h
  · obtain ⟨hstanding, hqueue, -⟩ := judge_held h (hx.not_displaced r.queue) (hx.linger l)
    exact ⟨hstanding, hqueue⟩
  · obtain ⟨hstanding, hqueue, -⟩ := judge_draining h (hx.not_displaced r.queue) (hx.linger none)
    exact ⟨hstanding, hqueue⟩

/-- A crane stands at a class in a cell: it holds it, or waits in it with that class alone. -/
def CellClaim.standsAt (r : CellClaim) (c : CraneIx) (x : ClaimClass) : Prop :=
  r.standing = .held c x none ∨
    (r.standing.holder ≠ some c ∧ (∀ w ∈ r.queue, w.crane = c → w.cls = x) ∧ ∃ w ∈ r.queue, w.crane = c)

theorem grant_standsAt (hx : x.firm) {w : Waiter} (hw : w ∈ r.queue)
    (hcls : ∀ w ∈ r.queue, w.crane = c → w.cls = x) (hc : ∃ w ∈ r.queue, w.crane = c) :
    (grant d k w.crane w.cls r).standsAt c x := by
  by_cases h : w.crane = c
  · left
    have hwx := hcls w hw h
    simp [grant, h, hwx, hx.tier d]
  · right
    obtain ⟨v, hv, hvc⟩ := hc
    refine ⟨by rw [grant_holder]; exact fun e => h (Option.some.inj e), fun u hu huc => ?_, v, ?_, hvc⟩
    · rw [grant_queue, mem_dequeue] at hu
      exact hcls u hu.1 huc
    · rw [grant_queue, mem_dequeue]
      exact ⟨hv, fun e => h (e.symm.trans hvc)⟩

theorem giveOn_standsAt (hx : x.firm) (hcls : ∀ w ∈ r.queue, w.crane = c → w.cls = x)
    (hc : ∃ w ∈ r.queue, w.crane = c) : (giveOn d k r).standsAt c x := by
  rcases giveOn_cases d k r with ⟨w, hw, h⟩ | ⟨hnil, -⟩ | ⟨hnil, -⟩
  · rw [h]
    exact grant_standsAt hx hw hcls hc
  all_goals
    obtain ⟨w, hw, -⟩ := hc
    rw [hnil] at hw
    cases hw

/-- Re-judgement keeps a crane's standing at a firm class. -/
theorem settle_standsAt (hx : x.firm) : ∀ (n : Nat) (r : CellClaim), r.standsAt c x → (settle n d k r).standsAt c x
  | 0, _, h => h
  | n + 1, r, h => by
    rcases h with h | ⟨hholder, hcls, hc⟩
    · rw [settle_firm hx h]
      exact .inl h
    have hgive := settle_standsAt hx n _ (giveOn_standsAt (d := d) (k := k) hx hcls hc)
    have hsame : ∀ st : Standing, st.holder = r.standing.holder →
        ({ r with standing := st } : CellClaim).standsAt c x := fun st hst =>
      .inr ⟨by rw [hst]; exact hholder, hcls, hc⟩
    have hlinger : ∀ y z (l : Option Nat) st, r.standing.holder = some y → lingerRule d k y z l = some st →
        ({ r with standing := st } : CellClaim).standsAt c x := fun y z l st hy hst =>
      hsame st (by rw [hy]; exact lingerRule_holder hst)
    unfold settle
    split
    · exact .inr ⟨hholder, hcls, hc⟩
    · next y z t hst =>
      split
      · exact hgive
      · split
        · refine settle_standsAt hx n _ (giveOn_standsAt hx (fun w hw hwc => ?_) ?_)
          · rcases (mem_enqueue d _ _ _).mp hw with rfl | hw
            · exact absurd (by rw [hst]; exact congrArg some hwc) hholder
            · exact hcls w hw hwc
          · obtain ⟨w, hw, hwc⟩ := hc
            exact ⟨w, (mem_enqueue d _ _ _).mpr (.inr hw), hwc⟩
        · exact .inr ⟨hholder, hcls, hc⟩
    · next y z l hst =>
      have hy : r.standing.holder = some y := by rw [hst]; rfl
      split
      · split
        · exact hgive
        · exact hsame _ (by rw [hst]; rfl)
      · split
        · next st hl => exact hlinger y z l st hy hl
        · exact hgive
    · next y z hst =>
      have hy : r.standing.holder = some y := by rw [hst]; rfl
      split
      · exact .inr ⟨hholder, hcls, hc⟩
      · split
        · next st hl => exact hlinger y z none st hy hl
        · exact hgive

theorem judge_standsAt (hx : x.firm) (h : r.standsAt c x) : (judge d k r).standsAt c x := settle_standsAt hx _ r h

/-- A holder whose claim takes a firm class is HELD at it once the cell is judged. -/
theorem judge_setHolderClass_firm (hx : x.firm) (h : r.standing.holder = some c) :
    (judge d k (setHolderClass d x r)).standing = .held c x none := by
  have htier : (d.tier x == 0) = true := by rw [hx.tier d]; rfl
  refine (judge_firm (l := none) hx ?_).1
  cases hst : r.standing with
  | free => rw [hst] at h; cases h
  | granted y z n =>
    rw [hst] at h
    cases h
    exact .inl (by simp only [setHolderClass, hst, htier]; rfl)
  | held y z l =>
    rw [hst] at h
    cases h
    exact .inl (by simp only [setHolderClass, hst, htier]; rfl)
  | draining y z =>
    rw [hst] at h
    cases h
    exact .inr (by simp only [setHolderClass, hst])

/-- A crane that asks for a firm class, with no entry yet, or with its entry moved to it, stands at it. -/
theorem enqueue_standsAt {q : List Waiter} (hholder : r.standing.holder ≠ some c) (hq : ∀ w ∈ q, w.crane ≠ c) :
    ({ r with queue := enqueue d ⟨c, x⟩ q } : CellClaim).standsAt c x := by
  refine .inr ⟨hholder, fun w hw hwc => ?_, ⟨c, x⟩, (mem_enqueue d _ _ _).mpr (.inl rfl), rfl⟩
  rcases (mem_enqueue d _ _ _).mp hw with rfl | hw
  · rfl
  · exact absurd hwc (hq w hw)

/-! ### Requests at a firm class (R60 to R62) -/

/-- A request at tier 0 on a cell with the crane's footprint is never refused. -/
theorem requestCode_firm (hx : x.firm) (h : d.footprint c k ≠ none) :
    requestCode d c k x =
      if (d.cell k).standing.holder = some c ∨ (entryOf c (d.cell k).queue).isSome then .already
      else if (d.cell k).standing = .free then .ok else .queued := by
  have hsome : (d.footprint c k).isNone = false := Option.isNone_eq_false_iff.mpr (Option.isSome_iff_ne_none.mpr h)
  simp [requestCode, hsome, hx.tier d]

theorem request_free (hx : x.firm) (h : d.footprint c k ≠ none) (hfree : (d.cell k).standing = .free)
    (hentry : entryOf c (d.cell k).queue = none) : request c k x d = updCell k (grant d k c x) d := by
  have hcode : requestCode d c k x = .ok := by
    rw [requestCode_firm hx h, if_neg (by simp [hfree, hentry, Standing.holder]), if_pos hfree]
  simp only [request, hcode]

theorem request_taken (hx : x.firm) (h : d.footprint c k ≠ none) (hholder : (d.cell k).standing.holder ≠ some c)
    (hfree : (d.cell k).standing ≠ .free) (hentry : entryOf c (d.cell k).queue = none) :
    request c k x d = updCell k (fun r => { r with queue := enqueue d ⟨c, x⟩ r.queue }) d := by
  have hcode : requestCode d c k x = .queued := by
    rw [requestCode_firm hx h, if_neg (by simp [hholder, hentry]), if_neg hfree]
  simp only [request, hcode]

theorem request_standing (hx : x.firm) (h : d.footprint c k ≠ none)
    (hown : (d.cell k).standing.holder = some c ∨ (entryOf c (d.cell k).queue).isSome) :
    request c k x d = upgrade c k x d := by
  have hcode : requestCode d c k x = .already := by rw [requestCode_firm hx h, if_pos hown]
  simp only [request, hcode]

theorem judge_grant_firm (hx : x.firm) : (judge d k (grant d k c x r)).standing = .held c x none :=
  (judge_firm (l := none) hx (.inl (by simp [grant, hx.tier d]))).1

/-- A request at a firm class from a crane without a standing in the cell leaves it standing at that class. -/
theorem request_standsAt (hx : x.firm) (h : d.footprint c k ≠ none) (hholder : (d.cell k).standing.holder ≠ some c)
    (hentry : entryOf c (d.cell k).queue = none) : ((request c k x d).cell k).standsAt c x := by
  by_cases hfree : (d.cell k).standing = .free
  · rw [request_free hx h hfree hentry, updCell_cell]
    exact .inl (judge_grant_firm hx)
  · rw [request_taken hx h hholder hfree hentry, updCell_cell]
    exact judge_standsAt hx (enqueue_standsAt hholder ((entryOf_eq_none c _).mp hentry))

/-! ### Faults of requests (R74) -/

/-- Of the faults, the entry of CONTEST alone may change. -/
def Device.contestOnly (d t : Device) : Prop := ∀ j, j ≠ .contest → t.faultEntry j = d.faultEntry j

theorem updCell_contestOnly (k : CellIx) (f : CellClaim → CellClaim) (d : Device) : d.contestOnly (updCell k f d) := by
  intro j hj
  unfold updCell
  dsimp only
  split
  · rw [raise_entry, if_neg hj]
    rfl
  · rfl

theorem upgrade_contestOnly (c : CraneIx) (k : CellIx) (x : ClaimClass) (d : Device) :
    d.contestOnly (upgrade c k x d) := by
  unfold upgrade
  dsimp only
  split
  · split
    · split
      exacts [updCell_contestOnly _ _ _, fun _ _ => rfl]
    · exact fun _ _ => rfl
  · split
    · split
      · exact updCell_contestOnly _ _ _
      · split
        exacts [updCell_contestOnly _ _ _, fun _ _ => rfl]
    · exact fun _ _ => rfl

theorem request_contestOnly (c : CraneIx) (k : CellIx) (x : ClaimClass) (d : Device) :
    d.contestOnly (request c k x d) := by
  unfold request
  split
  exacts [updCell_contestOnly _ _ _, updCell_contestOnly _ _ _, upgrade_contestOnly _ _ _ _, fun _ _ => rfl]

theorem requestAll_contestOnly (c : CraneIx) (x : ClaimClass) (ks : List CellIx) (d : Device) :
    d.contestOnly (requestAll c x ks d) := by
  unfold requestAll
  induction ks generalizing d with
  | nil => exact fun _ _ => rfl
  | cons k ks ih => exact fun j hj => (ih (request c k x d) j hj).trans (request_contestOnly c k x d j hj)

end Sys2Proof.Machine
end

