-- ==== Sys2Proof/Proofs/Weathervaning.lean ====
section
/-! SUPPORT. Weathervaning (sections 7.3 to 7.7): what asking for WEATHERVANE leaves in each cell, entry into VANE,
rejoin and return, the clearing check, and RESUME. -/

namespace Sys2Proof.Machine

/-! ### WEATHERVANE asked for (R80, R122) -/

theorem footprint_of_hasJib {d : Device} {c : CraneIx} {k : CellIx} (h : d.hasJib c k = true) :
    d.footprint c k ≠ none := by
  intro hnone
  rw [Device.hasJib, hnone] at h
  cases h

theorem upgrade_holder {d : Device} {c : CraneIx} {k : CellIx} {x y : ClaimClass}
    (hholder : (d.cell k).standing.holder = some c) (hcls : (d.cell k).standing.cls = some y) :
    upgrade c k x d =
      if d.tier x < d.tier y || equalTierUpgrade d x y then updCell k (setHolderClass d x) d else d := by
  simp only [upgrade, hholder, hcls, beq_self_eq_true, if_true]

theorem upgrade_waiter {d : Device} {c : CraneIx} {k : CellIx} {x : ClaimClass} {w : Waiter}
    (hholder : (d.cell k).standing.holder ≠ some c) (hentry : entryOf c (d.cell k).queue = some w) :
    upgrade c k x d =
      if d.tier x < d.tier w.cls then updCell k (fun r => { r with queue := requeue d c x r.queue }) d
      else if equalTierUpgrade d x w.cls then updCell k (fun r => { r with queue := reclass c x r.queue }) d
      else d := by
  simp only [upgrade, beq_iff_eq, if_neg hholder, hentry]

theorem firm_not_equalTier {x : ClaimClass} (hx : x.firm) (d : Device) (y : ClaimClass) :
    equalTierUpgrade d x y = false := by
  rcases hx with rfl | rfl <;> simp [equalTierUpgrade]

theorem standing_cls_of_holder {st : Standing} {c : CraneIx} (h : st.holder = some c) : ∃ x, st.cls = some x := by
  cases st with
  | free => cases h
  | granted _ x _ | held _ x _ | draining _ x => exact ⟨x, rfl⟩

/-- In a cell a crane holds or waits at tier 0. -/
def CellClaim.first (d : Device) (c : CraneIx) (r : CellClaim) : Prop :=
  (∃ x, r.standing.holder = some c ∧ r.standing.cls = some x ∧ d.tier x = 0) ∨
    ∃ w ∈ r.queue, w.crane = c ∧ d.tier w.cls = 0

theorem CellClaim.standsAt.first {r : CellClaim} {c : CraneIx} {x : ClaimClass} (h : r.standsAt c x) (hx : x.firm)
    (d : Device) : r.first d c := by
  rcases h with h | ⟨-, hcls, w, hw, hwc⟩
  · exact .inl ⟨x, by rw [h]; rfl, by rw [h]; rfl, hx.tier d⟩
  · exact .inr ⟨w, hw, hwc, by rw [hcls w hw hwc]; exact hx.tier d⟩

/-- A request at a firm class on a cell with the crane's footprint. -/
theorem request_firm {d : Device} {c : CraneIx} {k : CellIx} {x : ClaimClass} (hx : x.firm)
    (h : d.footprint c k ≠ none) :
    ((d.cell k).standing = .free → (d.cell k).queue = [] → ((request c k x d).cell k).standing = .held c x none) ∧
      ((d.cell k).standing.holder = some c → (∀ y, (d.cell k).standing.cls = some y → d.tier y ≠ 0) →
        ((request c k x d).cell k).standing = .held c x none) ∧
      ((request c k x d).cell k).first d c := by
  have hheld : (d.cell k).standing.holder = some c → (∀ y, (d.cell k).standing.cls = some y → d.tier y ≠ 0) →
      ((request c k x d).cell k).standing = .held c x none := fun hholder hweak => by
    obtain ⟨y, hcls⟩ := standing_cls_of_holder hholder
    have hlt : d.tier x < d.tier y := by
      rw [hx.tier d]
      exact Nat.pos_of_ne_zero (hweak y hcls)
    rw [request_standing hx h (.inl hholder), upgrade_holder hholder hcls, if_pos (by simp [hlt]), updCell_cell]
    exact judge_setHolderClass_firm hx hholder
  refine ⟨fun hfree hqueue => ?_, hheld, ?_⟩
  · rw [request_free hx h hfree (by rw [hqueue]; rfl), updCell_cell]
    exact judge_grant_firm hx
  by_cases hholder : (d.cell k).standing.holder = some c
  · obtain ⟨y, hcls⟩ := standing_cls_of_holder hholder
    by_cases hy : d.tier y = 0
    · rw [request_standing hx h (.inl hholder), upgrade_holder hholder hcls, if_neg (by
        simp [hx.tier d, hy, firm_not_equalTier hx])]
      exact .inl ⟨y, hholder, hcls, hy⟩
    · have hst := hheld hholder fun z hz => by
        rw [hcls] at hz
        cases hz
        exact hy
      exact .inl ⟨x, by rw [hst]; rfl, by rw [hst]; rfl, hx.tier d⟩
  cases hentry : entryOf c (d.cell k).queue with
  | none => exact (request_standsAt hx h hholder hentry).first hx d
  | some w =>
    obtain ⟨hw, hwc⟩ := entryOf_some _ _ _ hentry
    rw [request_standing hx h (.inr (by rw [hentry]; rfl)), upgrade_waiter hholder hentry]
    by_cases hlt : d.tier x < d.tier w.cls
    · rw [if_pos hlt, updCell_cell]
      exact (judge_standsAt hx (enqueue_standsAt hholder fun v hv => ((mem_dequeue _ _ _).mp hv).2)).first hx d
    · rw [if_neg hlt, firm_not_equalTier hx, if_neg (by decide)]
      refine .inr ⟨w, hw, hwc, ?_⟩
      rw [hx.tier d] at hlt
      omega

theorem requestVane_cell (c : CraneIx) (d : Device) (k : CellIx) :
    (requestVane c d).cell k = if d.hasJib c k = true then (request c k .weathervane d).cell k else d.cell k := by
  have hmem : k ∈ d.jibCells c ↔ d.hasJib c k = true := by simp [Device.jibCells]
  rw [requestVane, requestAll, (Local.request c .weathervane).foldl_cell (d.jibCells c)
    (allCells_nodup.filter _)]
  simp only [hmem]

theorem requestVane_asks (c : CraneIx) (d : Device) : d.vaneAsked c (requestVane c d) := by
  intro k
  rw [requestVane_cell]
  refine ⟨fun h => if_neg (by simp [h]), fun h => ?_⟩
  rw [if_pos h]
  exact request_firm (.inl rfl) (footprint_of_hasJib h)

/-- What is asked for goes by the plan and the claim records. -/
theorem vaneAsked_congr {d e t t' : Device} {c : CraneIx} (hcells : e.cells = d.cells) (hplan : e.plan = d.plan)
    (hafter : t'.cells = t.cells) (h : e.vaneAsked c t) : d.vaneAsked c t' := by
  unfold Device.vaneAsked Device.hasJib Device.footprint Device.cellRec Device.cell Device.tier at *
  rw [hcells, hplan] at h
  rwa [hafter]

/-! ### Entry, rejoin and return (R122, R129, R130) -/

/-- A crane's wind record, its claims and the fault record alone differ, and the claims are those of a crane that asks
for WEATHERVANE. -/
def Device.asked (d : Device) (c : CraneIx) (t : Device) (w : WindRec) : Prop :=
  t.windOf c = w ∧ d.vaneAsked c t ∧ t = { d with wind := d.wind.set c w, cells := t.cells, faults := t.faults }

theorem asked_of_windClaims {d t : Device} {c : CraneIx} {w : WindRec} (h : WindClaims c d t) (hw : t.windOf c = w)
    (hb : t.bookings = d.bookings) (hasked : d.vaneAsked c t) : d.asked c t w := by
  refine ⟨hw, hasked, ?_⟩
  conv_lhs => rw [h]
  rw [hw, hb]

/-- WEATHERVANE asked for by a crane of which the wind record, and the fault record, alone have changed. -/
theorem requestVane_asked {c : CraneIx} {d e : Device} (h : WindOnly c d e) :
    d.asked c (requestVane c e) (e.windOf c) := by
  have hasked := requestVane_cellsOnly c e
  exact asked_of_windClaims (h.windClaims.trans (hasked.claimsOnly.windClaims c)) (hasked.windOf c)
    (hasked.bookings.trans (by rw [h])) (vaneAsked_congr (by rw [h]) (by rw [h]) rfl (requestVane_asks c e))

theorem requestVane_vaneEntered (c : CraneIx) (d : Device) :
    (requestVane c d).faultEntry .vaneEntered = d.faultEntry .vaneEntered :=
  requestAll_contestOnly c .weathervane _ d _ (by decide)

theorem startVaneTimer_windOf (c : CraneIx) (d : Device) :
    (startVaneTimer c d).windOf c =
      { d.windOf c with vaneTimer := some (100 * d.plan.site.vaneClearLimit) } := modWind_windOf_self c _ d

theorem startVaneTimer_asked {c : CraneIx} {d t : Device} {w : WindRec} (h : d.asked c t w) :
    d.asked c (startVaneTimer c t) { w with vaneTimer := some (100 * d.plan.site.vaneClearLimit) } := by
  obtain ⟨hw, hasked, hframe⟩ := h
  have hplan : t.plan = d.plan := by rw [hframe]
  refine asked_of_windClaims (t := startVaneTimer c t) ?_ ?_ ?_ (vaneAsked_congr rfl rfl rfl hasked)
  · have hclaims : WindClaims c d t := by
      have hb : t.bookings = d.bookings := by rw [hframe]
      unfold WindClaims
      rw [hw, hb]
      exact hframe
    exact hclaims.trans (startVaneTimer_windOnly c t).windClaims
  · rw [startVaneTimer_windOf, hw, hplan]
  · show t.bookings = d.bookings
    rw [hframe]

theorem enterVane_asked (c : CraneIx) (d : Device) :
    d.asked c (enterVane c d) { d.windOf c with
      state := .vane .clearing, classes := ⟨false, false, false⟩
      vaneTimer := if d.membership c = .admitted then some (100 * d.plan.site.vaneClearLimit)
        else (d.windOf c).vaneTimer } := by
  have honly := (WindOnly.modWind c (fun w => { w with state := .vane .clearing, classes := .empty }) d).trans
    (WindOnly.raise c _ .vaneEntered (some c.val) none none)
  have hasked := (requestVane_asked honly).2.1
  refine asked_of_windClaims (enterVane_windClaims c d) (enterVane_windOf c d) (enterVane_bookings c d)
    (vaneAsked_congr rfl rfl ?_ hasked)
  unfold enterVane
  dsimp only
  split <;> rfl

theorem enterVane_raises (c : CraneIx) (d : Device) : ((enterVane c d).faultEntry .vaneEntered).pending = true := by
  have hraised := raise_pending (modWind c (fun w => { w with state := .vane .clearing, classes := .empty }) d)
    .vaneEntered (some c.val) none none
  have hasked := requestVane_pending c _ _ hraised
  unfold enterVane
  dsimp only
  split <;> exact hasked

theorem rejoinVane_asked (c : CraneIx) (d : Device) :
    d.asked c (rejoinVane c d)
      { d.windOf c with state := .vane .clearing, vaneTimer := some (100 * d.plan.site.vaneClearLimit) } := by
  have honly := (WindOnly.modWind c (fun w => { w with state := .vane .clearing }) d).trans
    (startVaneTimer_windOnly c _)
  have hasked := requestVane_asked honly
  rw [startVaneTimer_windOf, modWind_windOf_self] at hasked
  exact hasked

theorem returnVane_asked (c : CraneIx) (d : Device) :
    d.asked c (returnVane c d) { d.windOf c with
      vaneTimer := if (d.windOf c).state = .vane .clearing then some (100 * d.plan.site.vaneClearLimit)
        else (d.windOf c).vaneTimer } := by
  have hasked := requestVane_asked (WindOnly.refl c d)
  unfold returnVane
  simp only [(requestVane_cellsOnly c d).windOf, beq_iff_eq]
  split
  · exact startVaneTimer_asked hasked
  · exact hasked

theorem returnVane_vaneEntered (c : CraneIx) (d : Device) :
    (returnVane c d).faultEntry .vaneEntered = d.faultEntry .vaneEntered := by
  unfold returnVane
  dsimp only
  split <;> exact requestVane_vaneEntered c d

/-! ### The clearing check (R124, R125) -/

theorem clearToVane_iff (d : Device) (c : CraneIx) : d.clearToVane c = true ↔ d.readyToVane c := by
  rw [readyToVane_iff, Device.clearToVane, Bool.and_eq_true]

theorem clearingCheck_clearing {d : Device} {c : CraneIx} (h : (d.windOf c).state = .vane .clearing) :
    (d.readyToVane c →
      clearingCheck c d = d.setWind c { d.windOf c with state := .vane .vaneFree, vaneTimer := none }) ∧
      (¬d.readyToVane c → clearingCheck c d = d) := by
  simp only [clearingCheck, h, ← clearToVane_iff]
  exact ⟨fun hready => if_pos hready, fun hready => if_neg hready⟩

theorem clearingCheck_free {d : Device} {c : CraneIx} (h : (d.windOf c).state = .vane .vaneFree) :
    (d.readyToVane c → clearingCheck c d = d) ∧
      (¬d.readyToVane c → clearingCheck c d = d.setWind c { d.windOf c with
        state := .vane .clearing, vaneTimer := some (100 * d.plan.site.vaneClearLimit) }) := by
  simp only [clearingCheck, h, ← clearToVane_iff]
  refine ⟨fun hready => if_pos hready, fun hready => (if_neg hready).trans ?_⟩
  rw [startVaneTimer, modWind_modWind]
  rfl

theorem clearingCheck_other {d : Device} {c : CraneIx}
    (h : (d.windOf c).state = .vane .forced ∨ (d.windOf c).state.isVane = false) : clearingCheck c d = d := by
  rcases h with h | h
  · simp only [clearingCheck, h]
  · cases hs : (d.windOf c).state with
    | vane => rw [hs] at h; cases h
    | calm | watch | halt => simp only [clearingCheck, hs]

/-! ### What a frame sent leaves -/

theorem sendFrame_windOf (c x : CraneIx) (d : Device) (f : TxFrame) : (d.sendFrame c f).windOf x = d.windOf x := by
  rw [sendFrame_eq]
  exact Device.setPort_windOf d c _ x

theorem sendFrame_sameElsewhere {c : CraneIx} {d t : Device} (h : d.sameElsewhere c t) (f : TxFrame) :
    d.sameElsewhere c (t.sendFrame c f) := fun x hx => by
  rw [sendFrame_eq]
  obtain ⟨hcrane, hreach, hpermit, hwind, hport, hhold⟩ := h x hx
  exact ⟨hcrane, hreach, hpermit, hwind, (Device.setPort_port_of_ne t c _ x hx).trans hport, hhold⟩

theorem WindClaims.sendFrame_frame {c : CraneIx} {d t : Device} (h : WindClaims c d t) (f : TxFrame) :
    t.sendFrame c f = { d with
      wind := (t.sendFrame c f).wind, cells := (t.sendFrame c f).cells, bookings := (t.sendFrame c f).bookings
      ports := (t.sendFrame c f).ports, faults := (t.sendFrame c f).faults } := by
  rw [sendFrame_eq]
  generalize (t.sendFrame c f).port c = p
  have hports : t.ports = d.ports := by rw [h]
  conv_lhs => rw [h.frame]
  unfold Device.setPort
  rw [hports]

/-- A frame heard and served, with a reply sent from what serving it has left. -/
theorem next_of_reply {s : State} {o : Host.Outcome State Fault Refusal} {c : CraneIx} {restart : Bool} {e : Device}
    {kind : Nat} {code : ReplyCode} (hnext : o = .next { s with dev := e.reply c kind code })
    (h : WindClaims c (s.heard c restart) e) :
    ∃ t, o = .next t ∧ t.dev = e.reply c kind code ∧ t.dev.port c = (s.dev.reply c kind code).port c ∧
      s.dev.sameElsewhere c t.dev ∧
      t = { s with dev := { s.heard c restart with
        wind := t.dev.wind, cells := t.dev.cells, bookings := t.dev.bookings, ports := t.dev.ports
        faults := t.dev.faults } } := by
  have hports : e.ports = s.dev.ports := by
    rw [h]
    rfl
  refine ⟨_, hnext, rfl, sendFrame_port_congr _ ?_, heard_sameElsewhere (sendFrame_sameElsewhere h.sameElsewhere _),
    congrArg (fun d => ({ s with dev := d } : State)) (h.sendFrame_frame _)⟩
  rw [Device.port, hports, Device.port]

/-! ### RESUME (R80, R128) -/

theorem resumeFrame_not_admitted {c : CraneIx} {d : Device} (h : d.membership c ≠ .admitted) :
    resumeFrame c d = d.reply c 0x0A .notAdmitted := if_pos (by simpa using h)

theorem resumeFrame_wind {c : CraneIx} {d : Device} (hmember : d.membership c = .admitted)
    (h : (d.windOf c).state.isVane = false ∨ d.level c = .vane) : resumeFrame c d = d.reply c 0x0A .wind := by
  rw [resumeFrame, if_neg (by simp [hmember]), if_pos (by rcases h with h | h <;> simp [h])]

theorem heard_level {s : State} (c x : CraneIx) (restart : Bool) : (s.heard c restart).level x = s.dev.level x := by
  rw [Device.level, Device.level, Device.source, Device.source, State.heard]
  rfl

theorem resumeFrame_taken {c : CraneIx} {d : Device} (hmember : d.membership c = .admitted)
    (hvane : (d.windOf c).state.isVane = true) (hlevel : d.level c ≠ .vane) :
    resumeFrame c d = (returnToService c d).reply c 0x0A .ok := by
  rw [resumeFrame, if_neg (by simp [hmember]), if_neg (by simp [hvane, hlevel])]

/-- A weathervane claim on a cell that the crane is OUTSIDE and no crane asks for ends at RESUME. -/
theorem resumeCell_free {c : CraneIx} {d : Device} {k : CellIx} {l : Option Nat}
    (hst : (d.cell k).standing = .held c .weathervane l) (hout : d.relation c k = .outside)
    (hq : (d.cell k).queue = []) (hi : (d.cell k).intruders = []) : ((resumeCell c d k).cell k).standing = .free := by
  have hrelease : resumeCell c d k = releaseCell k d := by
    simp [resumeCell, hst, hout, Standing.holder, Standing.cls]
  rw [hrelease, releaseCell, updCell_cell]
  exact ((judge_giveOn (d.cell k)).1 hq hi).1

/-- The wind record that RESUME leaves. -/
def WindRec.resumed (w : WindRec) (level : Level) : WindRec := { w.settleAt level.toState with vaneTimer := none }

theorem returnToService_eq (c : CraneIx) (d : Device) :
    returnToService c d =
      windHanding c (resumeCells c (d.setWind c ((d.windOf c).resumed (d.level c)))) := rfl

theorem returnToService_windOf (c : CraneIx) (d : Device) :
    (returnToService c d).windOf c = (d.windOf c).resumed (d.level c) := by
  rw [returnToService_eq, (windHanding_claimsOnly c _).windOf, (resumeCells_cellsOnly c _).windOf,
    Device.setWind_windOf_self]

theorem windHanding_cell (c : CraneIx) (d : Device) (k : CellIx) : (windHanding c d).cell k = d.cell k := rfl

theorem returnToService_cell (c : CraneIx) (d : Device) (k : CellIx) :
    (returnToService c d).cell k =
      (resumeCell c (d.setWind c ((d.windOf c).resumed (d.level c))) k).cell k := by
  rw [returnToService_eq, windHanding_cell, resumeCells, (Local.resumeCell c).foldl_cell _ allCells_nodup,
    if_pos (mem_allCells k)]

theorem resumed_eq {w : WindRec} {level : Level} :
    level ≠ .vane → w.resumed level = { w with
      state := match level with | .calm => .calm | .watch => .watch | _ => .halt
      vaneTimer := none
      classes :=
        let up := level == .calm || level == .watch
        ⟨up && !w.flagM && !w.flagL, up && !w.flagM, up⟩ } := by
  intro h
  cases level with
  | vane => exact absurd rfl h
  | calm | watch | halt => rfl

/-- Settles O55: RESUME by its table, then VANE from entry to clearing, by the rules of each operation. -/
theorem vaneIsEnteredClearedAndLeft : Obligations.VaneIsEnteredClearedAndLeft := by
  intro s c restart
  refine ⟨fun hreset hmember => ?_, fun hhears => ⟨fun hwind => ?_, fun hvane hlevel => ?_⟩, fun d c =>
    ⟨⟨enterVane_asked c d, enterVane_raises c d⟩, evaluate_enters, ⟨rejoinVane_asked c d, requestVane_vaneEntered c _⟩,
      ⟨returnVane_asked c d, returnVane_vaneEntered c d⟩, clearingCheck_clearing, clearingCheck_free,
      clearingCheck_other, fun r => ⟨rfl, fun hvane => ?_, fun hvane => ?_⟩⟩⟩
  · exact (act_not_admitted restart hreset hmember _).trans (by rw [resumeFrame_not_admitted hmember])
  · refine (act_hears hhears (resumeFrame c)).trans ?_
    rw [resumeFrame_wind (heard_admitted hhears) hwind]
  · have hact := act_hears hhears (resumeFrame c)
    rw [resumeFrame_taken (heard_admitted hhears) hvane (by rwa [heard_level])] at hact
    obtain ⟨t, hnext, hdev, hport, hothers, hframe⟩ :=
      next_of_reply hact (returnToService_windClaims c (s.heard c restart))
    refine ⟨t, hnext, ?_, fun k l hst hout hq hi => ?_, hport, hothers, hframe⟩
    · rw [hdev, Device.reply, sendFrame_windOf, returnToService_windOf, heard_level, resumed_eq hlevel]
      rfl
    · rw [hdev, Device.reply, sendFrame_cell, returnToService_cell]
      exact resumeCell_free (l := l) hst hout hq hi
  · simp only [windReport, hvane, if_true, and_self]
  · simp only [windReport, hvane]
    exact ⟨rfl, rfl⟩

end Sys2Proof.Machine
end

