-- ==== Sys2Proof/Proofs/CellEvents.lean ====
section
/-! SUPPORT. RELEASE, the expiries of take-up and linger timers, and the six steps of a report on one cell (sections 4.3
to 4.5, 4.7 and 4.8). -/

namespace Sys2Proof.Machine

/-! ### What a frame that changes claims alone leaves -/

theorem CellsOnly.windClaims {c : CraneIx} {d t : Device} (h : CellsOnly d t) : WindClaims c d t :=
  h.claimsOnly.windClaims c

/-- A frame heard that changes claims alone, with its reply. -/
theorem next_of_claims {s : State} {o : Host.Outcome State Fault Refusal} {c : CraneIx} {restart : Bool} {e : Device}
    {kind : Nat} {code : ReplyCode} (hnext : o = .next { s with dev := e.reply c kind code })
    (h : CellsOnly (s.heard c restart) e) :
    ∃ t, o = .next t ∧ (∀ k, t.dev.cell k = e.cell k) ∧ t.dev.faults = e.faults ∧
      t.dev.port c = (s.dev.reply c kind code).port c ∧ s.dev.sameElsewhere c t.dev ∧
      t = { s with dev := { s.heard c restart with
        cells := t.dev.cells, ports := t.dev.ports, faults := t.dev.faults } } := by
  obtain ⟨t, ht, hdev, hport, hothers, hframe⟩ := next_of_reply hnext h.windClaims
  refine ⟨t, ht, fun k => ?_, ?_, hport, hothers, ?_⟩
  · rw [hdev]
    exact sendFrame_cell c e _ k
  · rw [hdev]
    exact sendFrame_faults c e _
  · have hwind : t.dev.wind = (s.heard c restart).wind := by
      rw [hdev, Device.reply, sendFrame_eq]
      exact h.wind
    have hbookings : t.dev.bookings = (s.heard c restart).bookings := by
      rw [hdev, Device.reply, sendFrame_eq]
      exact h.bookings
    conv_lhs => rw [hframe]
    rw [hwind, hbookings]

/-! ### The inhibit set (R66) -/

theorem joinInhibit_cell_of_ne {j k : CellIx} (c : CraneIx) (d : Device) (h : j ≠ k) :
    (joinInhibit c k d).cell j = d.cell j := by
  unfold joinInhibit
  split
  exacts [rfl, touchCell_cell_of_ne _ _ _ _ h]

theorem joinInhibit_cell (c : CraneIx) (k : CellIx) (d : Device) :
    ((joinInhibit c k d).cell k).standing = (d.cell k).standing ∧
      ((joinInhibit c k d).cell k).queue = (d.cell k).queue ∧
      ((joinInhibit c k d).cell k).intruders = (d.cell k).intruders ∧ d.inhibitJoined c k (joinInhibit c k d) := by
  unfold joinInhibit
  split
  · next h => exact ⟨rfl, rfl, rfl, fun x => by simp [beq_iff_eq.mp h]⟩
  · next h =>
    rw [touchCell_cell]
    refine ⟨rfl, rfl, rfl, fun x => ?_⟩
    have hout : d.relation c k ≠ .outside := by simpa using h
    simp [hout, or_comm]

/-- The cell's inhibit set is that which the crane has joined. -/
theorem inhibitJoined_of_inhibit {c : CraneIx} {k : CellIx} {d t : Device}
    (h : (t.cell k).inhibit = ((joinInhibit c k d).cell k).inhibit) : d.inhibitJoined c k t := fun x => by
  rw [h]
  exact (joinInhibit_cell c k d).2.2.2 x

/-- A cell released once a crane has joined its inhibit set. -/
theorem release_joined {c : CraneIx} {k : CellIx} {d e : Device} (h : CellsOnly (joinInhibit c k d) e)
    (hcell : e.cell k = (joinInhibit c k d).cell k) (hother : ∀ j, j ≠ k → e.cell j = (joinInhibit c k d).cell j) :
    d.givenOn k (releaseCell k e) ∧ d.inhibitJoined c k (releaseCell k e) ∧
      (∀ j, j ≠ k → (releaseCell k e).cell j = d.cell j) ∧ CellsOnly d (releaseCell k e) := by
  obtain ⟨-, hq, hi, -⟩ := joinInhibit_cell c k d
  refine ⟨?_, inhibitJoined_of_inhibit ?_, fun j hj => ?_, ?_⟩
  · exact ((givenOn_iff e _ k).mp (releaseCell_givenOn k e)).of_cellsOnly ((joinInhibit_cellsOnly c k d).trans h)
      (by rw [hcell, hq]) (by rw [hcell, hi])
  · rw [releaseCell, updCell_cell, judge_inhibit, giveOn_inhibit, hcell]
  · exact (updCell_cell_of_ne _ _ _ _ hj).trans ((hother j hj).trans (joinInhibit_cell_of_ne c d hj))
  · exact ((joinInhibit_cellsOnly c k d).trans h).trans (updCell_cellsOnly _ _ _)

/-! ### RELEASE (R70) -/

theorem releaseFrame_not_admitted {c : CraneIx} {cell : Nat} {d : Device} (h : d.membership c ≠ .admitted) :
    releaseFrame c cell d = d.reply c 0x04 .notAdmitted := by
  have hcode : releaseCode d c cell = .notAdmitted := if_pos (by simpa using h)
  unfold releaseFrame
  rw [hcode]
  cases cellIx? cell <;> rfl

theorem releaseFrame_invalid {c : CraneIx} {cell : Nat} {d : Device} (hmember : d.membership c = .admitted)
    (h : 48 ≤ cell) : releaseFrame c cell d = d.reply c 0x04 .invalid := by
  unfold releaseFrame releaseCode
  rw [cellIx?_of_le h]
  simp [hmember]

theorem releaseFrame_val (c : CraneIx) (k : CellIx) (d : Device) :
    releaseFrame c k.val d =
      (if releaseCode d c k.val = .ok then giveUp c k d else d).reply c 0x04 (releaseCode d c k.val) := by
  simp only [releaseFrame, cellIx?_val, beq_iff_eq]

theorem releaseCode_holder {c : CraneIx} {k : CellIx} {x : ClaimClass} {d : Device}
    (hmember : d.membership c = .admitted) (hholder : (d.cell k).standing.holder = some c)
    (hcls : (d.cell k).standing.cls = some x) :
    releaseCode d c k.val =
      if x = .free ∨ x = .emergency then if d.relation c k = .inside then .inCell else .ok else .wrongState := by
  have hrel : x.releasable = true ↔ x = .free ∨ x = .emergency := by cases x <;> simp [ClaimClass.releasable]
  simp only [releaseCode, hmember, cellIx?_val, hholder, hcls, Option.any_some, ← hrel]
  cases x.releasable <;> simp

theorem releaseCode_waiter {c : CraneIx} {k : CellIx} {w : Waiter} {d : Device} (hmember : d.membership c = .admitted)
    (hholder : (d.cell k).standing.holder ≠ some c) (hentry : entryOf c (d.cell k).queue = some w) :
    releaseCode d c k.val = if w.cls = .free ∨ w.cls = .emergency then .ok else .wrongState := by
  have hrel : w.cls.releasable = true ↔ w.cls = .free ∨ w.cls = .emergency := by
    cases w.cls <;> simp [ClaimClass.releasable]
  simp only [releaseCode, hmember, cellIx?_val, hentry, ← hrel]
  simp [hholder]

theorem releaseCode_none {c : CraneIx} {k : CellIx} {d : Device} (hmember : d.membership c = .admitted)
    (hholder : (d.cell k).standing.holder ≠ some c) (hentry : entryOf c (d.cell k).queue = none) :
    releaseCode d c k.val = .notHolder := by
  simp only [releaseCode, hmember, cellIx?_val, hentry]
  simp [hholder]

theorem giveUp_holder {c : CraneIx} {k : CellIx} {d : Device} (h : (d.cell k).standing.holder = some c) :
    giveUp c k d = releaseCell k (joinInhibit c k d) := if_pos (by simp [h])

theorem giveUp_waiter {c : CraneIx} {k : CellIx} {d : Device} (h : (d.cell k).standing.holder ≠ some c) :
    giveUp c k d = updCell k (fun r => { r with queue := dequeue c r.queue }) (joinInhibit c k d) :=
  if_neg (by simp [h])

/-- A holder that stays where the only waiter goes: a HELD or DRAINING cell, its holder not OUTSIDE. -/
theorem judge_unwaited {d : Device} {k : CellIx} {r : CellClaim} {h : CraneIx} {x : ClaimClass}
    (hst : (∃ l, r.standing = .held h x l) ∨ r.standing = .draining h x) (hq : r.queue = [])
    (hnear : d.relation h k ≠ .outside) (hb : ¬d.barred h k x) :
    (∃ l, (judge d k r).standing = .held h x l) ∧ (judge d k r).queue = [] := by
  have hd : displaced d k h x r.queue = false := not_displaced (by rw [hq]; simp) hb
  rcases hst with ⟨l, hst⟩ | hst
  · obtain ⟨l', hl⟩ := lingerRule_of_near (d := d) (k := k) (c := h) (x := x) l hnear
    obtain ⟨h1, h2, -⟩ := judge_held hst hd hl
    exact ⟨⟨l', h1⟩, h2.trans hq⟩
  · obtain ⟨l', hl⟩ := lingerRule_of_near (d := d) (k := k) (c := h) (x := x) none hnear
    obtain ⟨h1, h2, -⟩ := judge_draining hst hd hl
    exact ⟨⟨l', h1⟩, h2.trans hq⟩

/-- The one waiter of a cell goes, once it has joined the inhibit set. -/
theorem dequeue_joined {d : Device} {c h : CraneIx} {k : CellIx} {x hx : ClaimClass} (hq : (d.cell k).queue = [⟨c, x⟩])
    (hst : (∃ l, (d.cell k).standing = .held h hx l) ∨ (d.cell k).standing = .draining h hx)
    (hnear : d.relation h k ≠ .outside) (hb : ¬d.barred h k hx) {t : Device}
    (ht : t = updCell k (fun r => { r with queue := dequeue c r.queue }) (joinInhibit c k d)) :
    (t.cell k).queue = [] ∧ (∃ l, (t.cell k).standing = .held h hx l) ∧ d.inhibitJoined c k t ∧
      (∀ j, j ≠ k → t.cell j = d.cell j) ∧ CellsOnly d t := by
  obtain ⟨hstanding, hqueue, -, -⟩ := joinInhibit_cell c k d
  have hcell : t.cell k = judge d k
      { (joinInhibit c k d).cell k with queue := dequeue c ((joinInhibit c k d).cell k).queue } := by
    rw [ht, updCell_cell, (joinInhibit_cellsOnly c k d).judge]
  obtain ⟨hheld, hempty⟩ := judge_unwaited (d := d) (k := k)
    (r := { (joinInhibit c k d).cell k with queue := dequeue c ((joinInhibit c k d).cell k).queue })
    (hstanding.symm ▸ hst) (by rw [hqueue, hq]; simp [dequeue]) hnear hb
  rw [← hcell] at hheld hempty
  refine ⟨hempty, hheld, inhibitJoined_of_inhibit (by rw [hcell, judge_inhibit]), fun j hj => ?_, ?_⟩
  · rw [ht, updCell_cell_of_ne _ _ _ _ hj, joinInhibit_cell_of_ne c d hj]
  · rw [ht]
    exact (joinInhibit_cellsOnly c k d).trans (updCell_cellsOnly _ _ _)

theorem holder_ne {st : Standing} {c h : CraneIx} {x : ClaimClass} (hst : (∃ l, st = .held h x l) ∨ st = .draining h x)
    (hne : h ≠ c) : st.holder ≠ some c := by
  rcases hst with ⟨l, rfl⟩ | rfl <;> exact fun e => hne (Option.some.inj e)

/-- Settles O46: the code by the crane's standing, then what giving it up leaves of the cell. -/
theorem releaseGivesUpTheStanding : Obligations.ReleaseGivesUpTheStanding := by
  intro s c restart cell
  refine ⟨fun hreset hmember => ?_, fun hhears => ?_⟩
  · exact (act_not_admitted restart hreset hmember _).trans (by rw [releaseFrame_not_admitted hmember])
  have hmember := heard_admitted hhears
  have hact := act_hears hhears (releaseFrame c cell)
  refine ⟨fun hcell => hact.trans (by rw [releaseFrame_invalid hmember hcell]), ?_⟩
  rintro k rfl
  rw [releaseFrame_val] at hact
  have hrefused : ∀ code, releaseCode (s.heard c restart) c k.val = code → code ≠ .ok →
      exec (.release c restart k.val) s = .next { s with dev := (s.heard c restart).reply c 0x04 code } := by
    intro code hcode hne
    rw [hcode, if_neg hne] at hact
    exact hact
  refine ⟨fun hholder hq => hrefused _ (releaseCode_none hmember hholder ((entryOf_eq_none c _).mpr hq)) (by decide),
    fun x hholder hcls => ⟨fun hfree hemergency => hrefused _ ?_ (by decide), fun hx =>
      ⟨fun hin => hrefused _ ?_ (by decide), fun hin => ?_⟩⟩, fun h x hx hq hne hst =>
    ⟨fun hfree hemergency => hrefused _ ?_ (by decide), fun hrel hnear hb => ?_⟩⟩
  · rw [releaseCode_holder hmember hholder hcls, if_neg (by tauto)]
  · rw [releaseCode_holder hmember hholder hcls, if_pos hx]
    exact if_pos hin
  · have hcode : releaseCode (s.heard c restart) c k.val = .ok := by
      rw [releaseCode_holder hmember hholder hcls, if_pos hx]
      exact if_neg hin
    have hholds : ((s.heard c restart).cell k).standing.holder = some c := hholder
    rw [hcode, if_pos rfl, giveUp_holder hholds] at hact
    obtain ⟨hgiven, hjoined, hother, honly⟩ :=
      release_joined (d := s.heard c restart) (CellsOnly.refl (joinInhibit c k (s.heard c restart))) rfl fun _ _ => rfl
    obtain ⟨t, hnext, hcell, -, hport, hothers, hframe⟩ := next_of_claims hact honly
    refine ⟨t, hnext, ?_, ?_, fun j hj => (hcell j).trans (hother j hj), hport, hothers, hframe⟩
    · rw [givenOn_iff, hcell]
      exact hgiven
    · intro y
      rw [hcell]
      exact hjoined y
  · have hentry : entryOf c ((s.heard c restart).cell k).queue = some ⟨c, x⟩ := by
      rw [show ((s.heard c restart).cell k).queue = _ from hq]
      simp [entryOf]
    rw [releaseCode_waiter hmember (holder_ne hst hne) hentry, if_neg (by tauto)]
  · have hentry : entryOf c ((s.heard c restart).cell k).queue = some ⟨c, x⟩ := by
      rw [show ((s.heard c restart).cell k).queue = _ from hq]
      simp [entryOf]
    have hholds : ((s.heard c restart).cell k).standing.holder ≠ some c := holder_ne hst hne
    rw [releaseCode_waiter hmember hholds hentry, if_pos hrel, if_pos rfl, giveUp_waiter hholds] at hact
    obtain ⟨hqueue, hheld, hjoined, hother, honly⟩ :=
      dequeue_joined (d := s.heard c restart) hq hst hnear (by rwa [barred_iff]) rfl
    obtain ⟨t, hnext, hcell, -, hport, hothers, hframe⟩ := next_of_claims hact honly
    refine ⟨t, hnext, ?_, ?_, fun y => ?_, fun j hj => (hcell j).trans (hother j hj), hport, hothers, hframe⟩
    · rw [hcell, hqueue]
    · rw [hcell]
      exact hheld
    · rw [hcell]
      exact hjoined y

end Sys2Proof.Machine
end

