-- ==== Sys2Proof/Proofs/ReportedCells.lean ====
section
/-! SUPPORT. The expiries of take-up and linger timers, and the six steps of a report on one cell (R64 to R67, R72, R75
to R77). -/

namespace Sys2Proof.Machine

/-! ### Take-up and linger expiries (R65, R67) -/

theorem takeUpExpired_granted {d : Device} {k : CellIx} {c : CraneIx} {x : ClaimClass} {n : Nat}
    (h : (d.cell k).standing = .granted c x n) :
    takeUpExpired k d =
      releaseCell k ((joinInhibit c k d).raise .takeupLapse (some c.val) (some k.val) none) := by
  simp only [takeUpExpired, h]

theorem lingerExpired_held {d : Device} {k : CellIx} {c : CraneIx} {x : ClaimClass} {n : Nat}
    (h : (d.cell k).standing = .held c x (some n)) : lingerExpired k d = releaseCell k d := by
  simp only [lingerExpired, h]

theorem CellsOnly.frame_state {s : State} {t : Device} (h : CellsOnly s.dev t) :
    ({ s with dev := t } : State) = { s with dev := { s.dev with cells := t.cells, faults := t.faults } } :=
  congrArg (fun d => ({ s with dev := d } : State)) h

theorem takeUp_eq_zero {st : Standing} : st.takeUp = some 0 ↔ ∃ c x, st = .granted c x 0 := by
  cases st <;> simp [Standing.takeUp]

theorem linger_eq_zero {st : Standing} : st.linger = some 0 ↔ ∃ c x, st = .held c x (some 0) := by
  cases st <;> simp [Standing.linger]

/-! ### Changes of one cell -/

/-- One cell alone changes, and its inhibit set stays. -/
structure OnCell (k : CellIx) (d t : Device) : Prop where
  only : CellsOnly d t
  other : ∀ j, j ≠ k → t.cell j = d.cell j
  inhibit : (t.cell k).inhibit = (d.cell k).inhibit

theorem OnCell.refl (k : CellIx) (d : Device) : OnCell k d d := ⟨CellsOnly.refl d, fun _ _ => rfl, rfl⟩

theorem OnCell.trans {k : CellIx} {d e t : Device} (h : OnCell k d e) (h' : OnCell k e t) : OnCell k d t :=
  ⟨h.only.trans h'.only, fun j hj => (h'.other j hj).trans (h.other j hj), h'.inhibit.trans h.inhibit⟩

theorem OnCell.ite {k : CellIx} {d a b : Device} {p : Prop} [Decidable p] (ha : OnCell k d a) (hb : OnCell k d b) :
    OnCell k d (if p then a else b) := by
  split
  exacts [ha, hb]

theorem OnCell.raise {k : CellIx} {d : Device} {x : FaultKind} {a b e : Option Nat} : OnCell k d (d.raise x a b e) :=
  ⟨CellsOnly.raise _ _ _ _ _, fun j _ => raise_cell _ _ _ _ _ j, by rw [raise_cell]⟩

theorem OnCell.touch {k : CellIx} {f : CellClaim → CellClaim} {d : Device} (hf : ∀ r, (f r).inhibit = r.inhibit) :
    OnCell k d (touchCell k f d) :=
  ⟨touchCell_cellsOnly _ _ _, fun j hj => touchCell_cell_of_ne _ _ _ _ hj, by rw [touchCell_cell]; exact hf _⟩

theorem OnCell.upd {k : CellIx} {f : CellClaim → CellClaim} {d : Device} (hf : ∀ r, (f r).inhibit = r.inhibit) :
    OnCell k d (updCell k f d) :=
  ⟨updCell_cellsOnly _ _ _, fun j hj => updCell_cell_of_ne _ _ _ _ hj, by
    rw [updCell_cell, judge_inhibit]; exact hf _⟩

/-! ### The six steps of R77 -/

section steps
variable {c : CraneIx} {e : RelEntry} {first : Bool} {d : Device}

theorem reportTakeUp_onCell : OnCell e.cell d (reportTakeUp c e d) := by
  unfold reportTakeUp
  split
  · exact OnCell.ite (OnCell.touch fun _ => rfl) (OnCell.refl _ _)
  · exact OnCell.refl _ _

theorem reportLinger_onCell : OnCell e.cell d (reportLinger c e d) := by
  unfold reportLinger
  split
  · exact OnCell.ite (OnCell.ite (OnCell.upd fun _ => rfl) (OnCell.touch fun _ => rfl)) (OnCell.refl _ _)
  · exact OnCell.refl _ _

theorem reportDrain_onCell : OnCell e.cell d (reportDrain c e d) := by
  unfold reportDrain
  split
  · exact OnCell.ite (OnCell.upd fun r => giveOn_inhibit d e.cell r) (OnCell.refl _ _)
  · exact OnCell.refl _ _

theorem reportIntrusion_onCell : OnCell e.cell d (reportIntrusion c first e d) := by
  have hgrant : OnCell e.cell d (updCell e.cell (grant d e.cell c .free) d) :=
    OnCell.upd fun r => grant_inhibit d e.cell c .free r
  have htouch : OnCell e.cell d (touchCell e.cell (fun r => { r with intruders := r.intruders ++ [c] }) d) :=
    OnCell.touch fun _ => rfl
  unfold reportIntrusion
  exact OnCell.ite (OnCell.ite (OnCell.ite hgrant (hgrant.trans OnCell.raise)) (htouch.trans OnCell.raise))
    (OnCell.refl _ _)

theorem reportLeaveIntruders_onCell : OnCell e.cell d (reportLeaveIntruders c e d) := by
  unfold reportLeaveIntruders
  exact OnCell.ite (OnCell.refl _ _) (OnCell.touch fun _ => rfl)

/-- Steps 2 to 6. -/
theorem reportSteps_onCell (d : Device) :
    OnCell e.cell d (reportLeaveIntruders c e (reportIntrusion c first e (reportDrain c e (reportLinger c e
      (reportTakeUp c e d))))) :=
  ((reportTakeUp_onCell.trans reportLinger_onCell).trans (reportDrain_onCell.trans reportIntrusion_onCell)).trans
    reportLeaveIntruders_onCell

/-- Step 1: of the cell the inhibit set alone changes. -/
theorem reportInhibit_cell (c : CraneIx) (e : RelEntry) (d : Device) :
    ((reportInhibit c e d).cell e.cell).standing = (d.cell e.cell).standing ∧
      ((reportInhibit c e d).cell e.cell).queue = (d.cell e.cell).queue ∧
      ((reportInhibit c e d).cell e.cell).intruders = (d.cell e.cell).intruders ∧
      ∀ x, x ∈ ((reportInhibit c e d).cell e.cell).inhibit ↔
        x ∈ (d.cell e.cell).inhibit ∧ ¬(x = c ∧ e.now = .outside) := by
  unfold reportInhibit
  split
  · next h =>
    rw [touchCell_cell]
    exact ⟨rfl, rfl, rfl, fun x => by simp [beq_iff_eq.mp h]⟩
  · next h =>
    have hnow : e.now ≠ .outside := by simpa using h
    exact ⟨rfl, rfl, rfl, fun x => by simp [hnow]⟩

theorem reportInhibit_near (h : e.now ≠ .outside) : reportInhibit c e d = d := if_neg (by simpa using h)

theorem reportInhibit_other {j : CellIx} (h : j ≠ e.cell) : (reportInhibit c e d).cell j = d.cell j := by
  unfold reportInhibit
  split
  exacts [touchCell_cell_of_ne _ _ _ _ h, rfl]

theorem reportTakeUp_taken {x : ClaimClass} {n : Nat} (hst : (d.cell e.cell).standing = .granted c x n)
    (h : e.now = .inside) :
    reportTakeUp c e d = touchCell e.cell
      (fun r => { r with standing := .held c x none, intruders := dropCrane c r.intruders }) d := by
  simp [reportTakeUp, hst, h]

theorem reportTakeUp_not_inside (h : e.now ≠ .inside) : reportTakeUp c e d = d := by
  unfold reportTakeUp
  split
  · exact if_neg (by simp [h])
  · rfl

theorem reportTakeUp_not_granted (h : ∀ x n, (d.cell e.cell).standing ≠ .granted c x n) : reportTakeUp c e d = d := by
  unfold reportTakeUp
  split
  · next y x n hst => exact if_neg (by
      rintro hy
      simp only [Bool.and_eq_true, beq_iff_eq] at hy
      exact h x n (hy.1 ▸ hst))
  · rfl

theorem reportLinger_near {x : ClaimClass} {l : Option Nat} (hst : (d.cell e.cell).standing = .held c x l)
    (h : e.now ≠ .outside) :
    reportLinger c e d = touchCell e.cell (fun r => { r with standing := .held c x none }) d := by
  simp [reportLinger, hst, h]

theorem reportLinger_outside {x : ClaimClass} {l : Option Nat} (hst : (d.cell e.cell).standing = .held c x l)
    (h : e.now = .outside) : reportLinger c e d = rejudgeCell e.cell d := by
  simp [reportLinger, hst, h]

theorem reportLinger_not_held (h : ∀ x l, (d.cell e.cell).standing ≠ .held c x l) : reportLinger c e d = d := by
  unfold reportLinger
  split
  · next y x l hst => exact if_neg (by
      rintro hy
      exact h x l (beq_iff_eq.mp hy ▸ hst))
  · rfl

theorem reportDrain_outside {x : ClaimClass} (hst : (d.cell e.cell).standing = .draining c x) (h : e.now = .outside) :
    reportDrain c e d = releaseCell e.cell d := by
  simp [reportDrain, hst, h]

theorem reportDrain_near (h : e.now ≠ .outside) : reportDrain c e d = d := by
  unfold reportDrain
  split
  · exact if_neg (by simp [h])
  · rfl

theorem reportDrain_not_draining (h : ∀ x, (d.cell e.cell).standing ≠ .draining c x) : reportDrain c e d = d := by
  unfold reportDrain
  split
  · next y x hst => exact if_neg (by
      rintro hy
      simp only [Bool.and_eq_true, beq_iff_eq] at hy
      exact h x (hy.1 ▸ hst))
  · rfl

theorem reportIntrusion_kept
    (h : e.now ≠ .inside ∨ (d.cell e.cell).standing.holder = some c ∨ c ∈ (d.cell e.cell).intruders) :
    reportIntrusion c first e d = d := by
  refine if_neg ?_
  rcases h with h | h | h <;> simp [h]

theorem reportIntrusion_granted (hnow : e.now = .inside) (hst : (d.cell e.cell).standing = .free)
    (hin : c ∉ (d.cell e.cell).intruders) (hpass : freePasses d c e.cell = true) :
    reportIntrusion c first e d =
      if first then updCell e.cell (grant d e.cell c .free) d
      else (updCell e.cell (grant d e.cell c .free) d).raise .intrusion (some c.val) (some e.cell.val) none := by
  simp [reportIntrusion, hnow, hst, hin, hpass, Standing.holder]

theorem reportIntrusion_intrudes (hnow : e.now = .inside) (hholder : (d.cell e.cell).standing.holder ≠ some c)
    (hin : c ∉ (d.cell e.cell).intruders) (h : ¬((d.cell e.cell).standing = .free ∧ freePasses d c e.cell = true)) :
    reportIntrusion c first e d =
      (touchCell e.cell (fun r => { r with intruders := r.intruders ++ [c] }) d).raise .intrusion (some c.val)
        (some e.cell.val) none := by
  have hpass : ((d.cell e.cell).standing == .free && freePasses d c e.cell) = false := by
    rw [← Bool.not_eq_true, Bool.and_eq_true, beq_iff_eq]
    exact h
  simp [reportIntrusion, hnow, hholder, hin, hpass]

theorem reportLeaveIntruders_inside (h : e.now = .inside) : reportLeaveIntruders c e d = d := if_pos (by simp [h])

end steps

/-! ### The steps together -/

section together
variable {c : CraneIx} {e : RelEntry} {d : Device}

/-- The cell that step 6 leaves: the crane INSIDE, or off the intruder list. -/
theorem reportLeaveIntruders_cell (c : CraneIx) (e : RelEntry) (d : Device) :
    ((reportLeaveIntruders c e d).cell e.cell).standing = (d.cell e.cell).standing ∧
      ((reportLeaveIntruders c e d).cell e.cell).queue = (d.cell e.cell).queue ∧
      (∀ x, x ∈ ((reportLeaveIntruders c e d).cell e.cell).intruders → x ∈ (d.cell e.cell).intruders) ∧
      (e.now ≠ .inside → c ∉ ((reportLeaveIntruders c e d).cell e.cell).intruders) := by
  unfold reportLeaveIntruders
  split
  · next h => exact ⟨rfl, rfl, fun _ hx => hx, fun hn => absurd (beq_iff_eq.mp h) hn⟩
  · rw [touchCell_cell]
    exact ⟨rfl, rfl, fun x hx => ((mem_dropCrane _ _ _).mp hx).1, fun _ hc => ((mem_dropCrane _ _ _).mp hc).2 rfl⟩

/-- A cell given on, which step 6 leaves given on. -/
theorem givenOn_leave {d₀ : Device} {r : CellClaim} (h : r.givenOn d₀ e.cell (d.cell e.cell)) :
    r.givenOn d₀ e.cell ((reportLeaveIntruders c e d).cell e.cell) := by
  obtain ⟨hst, hq, hsub, -⟩ := reportLeaveIntruders_cell c e d
  rw [CellClaim.givenOn, hst, hq]
  exact ⟨h.1, h.2.1, fun x l h1 h2 h3 h4 =>
    ⟨(h.2.2 x l h1 h2 h3 h4).1, (h.2.2 x l h1 h2 h3 h4).2.1, fun hx => (h.2.2 x l h1 h2 h3 h4).2.2 (hsub x hx)⟩⟩

/-- A cell given on is not one that step 4 releases. -/
theorem givenOn_drain {d₀ : Device} {r : CellClaim} (h : r.givenOn d₀ e.cell (d.cell e.cell)) :
    r.givenOn d₀ e.cell ((reportDrain c e d).cell e.cell) := by
  have hkept : ∀ st, (d.cell e.cell).standing = st → (∀ x, st ≠ .draining c x) → reportDrain c e d = d :=
    fun st hst hne => reportDrain_not_draining fun x => hst ▸ hne x
  refine ⟨fun h1 h2 => ?_, fun w h1 h2 h3 => ?_, fun x l h1 h2 h3 h4 => ?_⟩
  · have hgiven := h.1 h1 h2
    rwa [hkept _ hgiven.1 (by simp)]
  · have hgiven := h.2.1 w h1 h2 h3
    rwa [hkept _ hgiven.1 (by unfold Device.standingGranted; split <;> simp)]
  · have hgiven := h.2.2 x l h1 h2 h3 h4
    rwa [hkept _ hgiven.1 (by simp)]

theorem holder_of_held {st : Standing} {x : ClaimClass} {l : Option Nat} (h : st = .held c x l) :
    st.holder = some c := by
  rw [h]
  rfl

/-! The report of a crane that holds the cell, by its standing. -/

theorem reportCell_granted_inside (first : Bool) {x : ClaimClass} {n : Nat}
    (hst : (d.cell e.cell).standing = .granted c x n)
    (h : e.now = .inside) :
    ((reportCell c first d e).cell e.cell).standing = .held c x none ∧
      ((reportCell c first d e).cell e.cell).queue = (d.cell e.cell).queue ∧
      c ∉ ((reportCell c first d e).cell e.cell).intruders := by
  have hnear : e.now ≠ .outside := by rw [h]; decide
  let d₂ := touchCell e.cell (fun r => { r with standing := .held c x none, intruders := dropCrane c r.intruders }) d
  have hst₂ : (d₂.cell e.cell).standing = .held c x none := by rw [touchCell_cell]
  let d₃ := touchCell e.cell (fun r => { r with standing := .held c x none }) d₂
  have hst₃ : (d₃.cell e.cell).standing = .held c x none := by rw [touchCell_cell]
  have hreport : reportCell c first d e = d₃ := by
    rw [reportCell, reportInhibit_near hnear, reportTakeUp_taken hst h, reportLinger_near hst₂ hnear,
      reportDrain_near hnear, reportIntrusion_kept (.inr (.inl (holder_of_held hst₃))), reportLeaveIntruders_inside h]
  rw [hreport]
  refine ⟨hst₃, ?_, ?_⟩
  · rw [touchCell_cell, touchCell_cell]
  · rw [touchCell_cell, touchCell_cell]
    exact fun hc => ((mem_dropCrane _ _ _).mp hc).2 rfl

theorem reportCell_granted_out (first : Bool) {x : ClaimClass} {n : Nat}
    (hst : (d.cell e.cell).standing = .granted c x n)
    (h : e.now ≠ .inside) :
    ((reportCell c first d e).cell e.cell).standing = .granted c x n ∧
      ((reportCell c first d e).cell e.cell).queue = (d.cell e.cell).queue := by
  obtain ⟨hst₁, hq₁, -⟩ := reportInhibit_cell c e d
  rw [hst] at hst₁
  have hreport : reportCell c first d e = reportLeaveIntruders c e (reportInhibit c e d) := by
    rw [reportCell, reportTakeUp_not_inside h, reportLinger_not_held (by simp [hst₁]),
      reportDrain_not_draining (by simp [hst₁]), reportIntrusion_kept (.inl h)]
  obtain ⟨hst₆, hq₆, -⟩ := reportLeaveIntruders_cell c e (reportInhibit c e d)
  rw [hreport]
  exact ⟨hst₆.trans hst₁, hq₆.trans hq₁⟩

theorem reportCell_held_near (first : Bool) {x : ClaimClass} {l : Option Nat}
    (hst : (d.cell e.cell).standing = .held c x l)
    (h : e.now ≠ .outside) :
    ((reportCell c first d e).cell e.cell).standing = .held c x none ∧
      ((reportCell c first d e).cell e.cell).queue = (d.cell e.cell).queue := by
  let d₃ := touchCell e.cell (fun r => { r with standing := .held c x none }) d
  have hst₃ : (d₃.cell e.cell).standing = .held c x none := by rw [touchCell_cell]
  have hreport : reportCell c first d e = reportLeaveIntruders c e d₃ := by
    rw [reportCell, reportInhibit_near h, reportTakeUp_not_granted (by simp [hst]), reportLinger_near hst h,
      reportDrain_near h, reportIntrusion_kept (.inr (.inl (holder_of_held hst₃)))]
  obtain ⟨hst₆, hq₆, -⟩ := reportLeaveIntruders_cell c e d₃
  rw [hreport]
  exact ⟨hst₆.trans hst₃, hq₆.trans (by rw [touchCell_cell])⟩

/-- A holder reported OUTSIDE has its cell re-judged; it drains no more than the re-judgement left it draining. -/
theorem reportCell_held_outside (first : Bool) {x : ClaimClass} {l : Option Nat}
    (hst : (d.cell e.cell).standing = .held c x l) (h : e.now = .outside) :
    reportCell c first d e =
      reportLeaveIntruders c e (reportDrain c e (rejudgeCell e.cell (reportInhibit c e d))) := by
  have hst₁ : ((reportInhibit c e d).cell e.cell).standing = .held c x l := (reportInhibit_cell c e d).1.trans hst
  have hout : e.now ≠ .inside := by rw [h]; decide
  rw [reportCell, reportTakeUp_not_inside hout, reportLinger_outside hst₁ h, reportIntrusion_kept (.inl hout)]

/-- A holder reported OUTSIDE that its cell's re-judgement leaves HELD. -/
theorem reportCell_lingers (first : Bool) {x : ClaimClass} {l l' : Option Nat}
    (hst : (d.cell e.cell).standing = .held c x l) (h : e.now = .outside)
    (hd : displaced d e.cell c x (d.cell e.cell).queue = false)
    (hl : lingerRule d e.cell c x l = some (.held c x l')) :
    ((reportCell c first d e).cell e.cell).standing = .held c x l' := by
  obtain ⟨hst₁, hq₁, -⟩ := reportInhibit_cell c e d
  rw [hst] at hst₁
  have hjudged : ((rejudgeCell e.cell (reportInhibit c e d)).cell e.cell).standing = .held c x l' := by
    rw [rejudgeCell, updCell_cell, (reportInhibit_cellsOnly c e d).judge]
    exact (judge_held (r := (reportInhibit c e d).cell e.cell) hst₁ (by rw [hq₁]; exact hd) hl).1
  rw [reportCell_held_outside first hst h, (reportLeaveIntruders_cell c e _).1,
    reportDrain_not_draining (by simp [hjudged])]
  exact hjudged

theorem reportCell_lapses (first : Bool) {x : ClaimClass} {l : Option Nat}
    (hst : (d.cell e.cell).standing = .held c x l) (h : e.now = .outside)
    (hd : displaced d e.cell c x (d.cell e.cell).queue = false) (hl : lingerRule d e.cell c x l = none) :
    d.givenOn e.cell (reportCell c first d e) := by
  obtain ⟨hst₁, hq₁, hi₁, -⟩ := reportInhibit_cell c e d
  rw [hst] at hst₁
  have hjudged : (d.cell e.cell).givenOn d e.cell ((rejudgeCell e.cell (reportInhibit c e d)).cell e.cell) := by
    rw [rejudgeCell, updCell_cell, (reportInhibit_cellsOnly c e d).judge]
    have hlapse := judge_lapsed (r := (reportInhibit c e d).cell e.cell) hst₁ (by rw [hq₁]; exact hd) hl
    exact hlapse.of_cellsOnly (CellsOnly.refl d) hq₁ hi₁
  rw [givenOn_iff, reportCell_held_outside first hst h]
  exact givenOn_leave (givenOn_drain hjudged)

theorem reportCell_draining_outside (first : Bool) {x : ClaimClass} (hst : (d.cell e.cell).standing = .draining c x)
    (h : e.now = .outside) : d.givenOn e.cell (reportCell c first d e) := by
  obtain ⟨hst₁, hq₁, hi₁, -⟩ := reportInhibit_cell c e d
  rw [hst] at hst₁
  have hout : e.now ≠ .inside := by rw [h]; decide
  have hreport : reportCell c first d e = reportLeaveIntruders c e (releaseCell e.cell (reportInhibit c e d)) := by
    rw [reportCell, reportTakeUp_not_inside hout, reportLinger_not_held (by simp [hst₁]),
      reportDrain_outside hst₁ h, reportIntrusion_kept (.inl hout)]
  have hgiven : ((reportInhibit c e d).cell e.cell).givenOn (reportInhibit c e d) e.cell
      ((releaseCell e.cell (reportInhibit c e d)).cell e.cell) := releaseCell_givenOn _ _
  rw [givenOn_iff, hreport]
  exact givenOn_leave (hgiven.of_cellsOnly (reportInhibit_cellsOnly c e d) hq₁ hi₁)

theorem reportCell_draining_near (first : Bool) {x : ClaimClass} (hst : (d.cell e.cell).standing = .draining c x)
    (h : e.now ≠ .outside) :
    ((reportCell c first d e).cell e.cell).standing = .draining c x ∧
      ((reportCell c first d e).cell e.cell).queue = (d.cell e.cell).queue := by
  have hholder : (d.cell e.cell).standing.holder = some c := by rw [hst]; rfl
  have hreport : reportCell c first d e = reportLeaveIntruders c e d := by
    rw [reportCell, reportInhibit_near h, reportTakeUp_not_granted (by simp [hst]),
      reportLinger_not_held (by simp [hst]),
      reportDrain_near h, reportIntrusion_kept (.inr (.inl hholder))]
  obtain ⟨hst₆, hq₆, -⟩ := reportLeaveIntruders_cell c e d
  rw [hreport]
  exact ⟨hst₆.trans hst, hq₆⟩

/-! The report of a crane INSIDE a cell that it does not hold. -/

theorem reportCell_inside (first : Bool) (h : e.now = .inside) (hholder : (d.cell e.cell).standing.holder ≠ some c) :
    reportCell c first d e = reportIntrusion c first e d := by
  have hnear : e.now ≠ .outside := by rw [h]; decide
  rw [reportCell, reportInhibit_near hnear, reportTakeUp_not_granted fun x n hst => hholder (by rw [hst]; rfl),
    reportLinger_not_held fun x l hst => hholder (by rw [hst]; rfl), reportDrain_near hnear,
      reportLeaveIntruders_inside h]

theorem dropCrane_of_not_mem {l : List CraneIx} (h : c ∉ l) : dropCrane c l = l :=
  List.filter_eq_self.mpr fun _ hx => bne_iff_ne.mpr fun he => h (he ▸ hx)

theorem reportCell_let_pass (first : Bool) (h : e.now = .inside) (hst : (d.cell e.cell).standing = .free)
    (hin : c ∉ (d.cell e.cell).intruders) (hpass : freePasses d c e.cell = true) (hq : (d.cell e.cell).queue = [])
    (hrel : d.relation c e.cell = .inside) {t : Device} (ht : t = reportCell c first d e) :
    (t.cell e.cell).standing = .held c .free none ∧ (t.cell e.cell).queue = [] ∧
      (t.cell e.cell).intruders = (d.cell e.cell).intruders ∧
      (first = false → (t.faultEntry .intrusion).pending = true) ∧
      (first = true → t.faultEntry .intrusion = d.faultEntry .intrusion) := by
  obtain ⟨h1, h2, h3⟩ := judge_grant_inside (r := d.cell e.cell) hq hpass hrel
  rw [dropCrane_of_not_mem hin] at h3
  rw [reportCell_inside first h (by rw [hst]; exact nofun), reportIntrusion_granted h hst hin hpass] at ht
  cases first with
  | true =>
    rw [ht, if_pos rfl, updCell_cell]
    exact ⟨h1, h2, h3, nofun, fun _ => updCell_contestOnly _ _ d _ (by decide)⟩
  | false =>
    rw [ht, if_neg (by decide), raise_cell, updCell_cell]
    exact ⟨h1, h2, h3, fun _ => raise_pending _ _ _ _ _, nofun⟩

theorem reportCell_intrudes (first : Bool) (h : e.now = .inside) (hholder : (d.cell e.cell).standing.holder ≠ some c)
    (hin : c ∉ (d.cell e.cell).intruders) (hpass : ¬((d.cell e.cell).standing = .free ∧ freePasses d c e.cell = true))
    {t : Device} (ht : t = reportCell c first d e) :
    (t.cell e.cell).standing = (d.cell e.cell).standing ∧ (t.cell e.cell).queue = (d.cell e.cell).queue ∧
      (t.cell e.cell).intruders = (d.cell e.cell).intruders ++ [c] ∧ (t.cell e.cell).intruded = true ∧
      (t.faultEntry .intrusion).pending = true := by
  rw [reportCell_inside first h hholder, reportIntrusion_intrudes h hholder hin hpass] at ht
  rw [ht, raise_cell, touchCell_cell]
  exact ⟨rfl, rfl, rfl, by simp, raise_pending _ _ _ _ _⟩

end together

theorem reportCell_onCell (c : CraneIx) (first : Bool) (d : Device) (e : RelEntry) :
    (∀ j, j ≠ e.cell → (reportCell c first d e).cell j = d.cell j) ∧
      ∀ x, x ∈ ((reportCell c first d e).cell e.cell).inhibit ↔
        x ∈ (d.cell e.cell).inhibit ∧ ¬(x = c ∧ e.now = .outside) := by
  have hsteps := reportSteps_onCell (c := c) (e := e) (first := first) (reportInhibit c e d)
  refine ⟨fun j hj => (hsteps.other j hj).trans (reportInhibit_other hj), fun x => ?_⟩
  have hinhibit : ((reportCell c first d e).cell e.cell).inhibit = _ := hsteps.inhibit
  rw [hinhibit]
  exact (reportInhibit_cell c e d).2.2.2 x

/-- The class is one whose holder runs no linger timer (R68). -/
theorem lingerExempt_iff (d : Device) (c : CraneIx) (k : CellIx) (x : ClaimClass) :
    lingerExempt d k c x = true ↔ x = .weathervane ∨ x = .lost ∨ (x = .booked ∧ d.liftsOver c k) := by
  cases x <;> simp [lingerExempt, liftsOver_iff]

/-- Settles O47: the two expiries by the cell's standing, then a report by what the crane has in the cell. -/
theorem reportsAndTimersMoveTheCell : Obligations.ReportsAndTimersMoveTheCell := by
  refine ⟨fun s k hreset => ⟨fun c x hst => ?_, fun c x hst => ?_, fun h => ?_, fun h => ?_⟩, fun d c first e =>
    ⟨(reportCell_onCell c first d e).1, reportCell_cellsOnly c first d e, (reportCell_onCell c first d e).2,
      (reportLeaveIntruders_cell c e _).2.2.2,
      fun x n hst => ⟨reportCell_granted_inside first hst, reportCell_granted_out first hst⟩,
      fun x l hst => reportCell_held_near first hst, fun x l hst hnow hout hb hq => ?_,
      fun x hst => ⟨reportCell_draining_outside first hst, reportCell_draining_near first hst⟩,
      fun hnow hholder => ⟨fun hin => ?_, fun hin => ⟨fun hfree hpass hq hrel => ?_, fun hpass => ?_⟩⟩⟩⟩
  · have hdue := act_expiry_due (x := .takeUp k) hreset (takeUp_eq_zero.mpr ⟨c, x, hst⟩)
    rw [expire, takeUpExpired_granted hst] at hdue
    obtain ⟨hgiven, hjoined, hother, honly⟩ := release_joined (c := c) (k := k) (d := s.dev)
      (e := (joinInhibit c k s.dev).raise .takeupLapse (some c.val) (some k.val) none) (CellsOnly.raise _ _ _ _ _)
      (raise_cell ..) fun j _ => raise_cell ..
    exact ⟨_, hdue, hgiven, hjoined, updCell_pending _ _ _ _ (raise_pending _ _ _ _ _), hother, honly.frame_state⟩
  · have hdue := act_expiry_due (x := .linger k) hreset (linger_eq_zero.mpr ⟨c, x, hst⟩)
    rw [expire, lingerExpired_held hst] at hdue
    refine ⟨_, hdue, releaseCell_givenOn k s.dev, ?_, fun j hj => updCell_cell_of_ne _ _ _ _ hj,
      (updCell_cellsOnly _ _ _).frame_state⟩
    show ((releaseCell k s.dev).cell k).inhibit = _
    rw [releaseCell, updCell_cell, judge_inhibit, giveOn_inhibit]
  · refine act_expiry_not_due (x := .takeUp k) hreset fun hdue => ?_
    obtain ⟨c, x, hst⟩ := takeUp_eq_zero.mp hdue
    exact h c x hst
  · refine act_expiry_not_due (x := .linger k) hreset fun hdue => ?_
    obtain ⟨c, x, hst⟩ := linger_eq_zero.mp hdue
    exact h c x hst
  · have hd : displaced d e.cell c x (d.cell e.cell).queue = false := not_displaced hq hb
    refine ⟨fun hexempt => ?_, fun hexempt => ⟨fun n hl => ?_, fun hl hticks => ?_, fun hl hticks => ?_⟩⟩
    · exact reportCell_lingers first hst hnow hd (lingerRule_exempt ((lingerExempt_iff d c e.cell x).mpr hexempt))
    all_goals
      have hrun : lingerExempt d e.cell c x = false := by rwa [← Bool.not_eq_true, lingerExempt_iff]
    · exact reportCell_lingers first hst hnow hd (by simp [lingerRule, hrun, hl])
    · exact reportCell_lingers first hst hnow hd (by simp [lingerRule, hrun, hl, hout, hticks])
    · exact reportCell_lapses first hst hnow hd (by simp [lingerRule, hrun, hl, hout, hticks])
  · exact (reportCell_inside first hnow hholder).trans (reportIntrusion_kept (.inr (.inr hin)))
  · exact reportCell_let_pass first hnow hfree hin hpass hq hrel rfl
  · exact reportCell_intrudes first hnow hholder hin hpass rfl

end Sys2Proof.Machine
end

