-- ==== Sys2Proof/Proofs/Claims.lean ====
section
/-! SUPPORT. CLAIM taken and the auto-claims (sections 3.10, 4.2, 4.3 and 4.5): what a request below tier 0 makes of the
cell, by the standing it finds. -/

namespace Sys2Proof.Machine

variable {d : Device} {c : CraneIx} {k : CellIx} {x : ClaimClass}

/-! ### Requests that are not refused (R60 to R62) -/

/-- A request on an unprotected cell with the crane's footprint, of a class that no reservation bars. -/
theorem requestCode_open (hfoot : d.footprint c k ≠ none) (hprot : d.protectedCell k = false) (hb : ¬d.barred c k x) :
    requestCode d c k x =
      if (d.cell k).standing.holder = some c ∨ (entryOf c (d.cell k).queue).isSome then .already
      else if (d.cell k).standing = .free then .ok else .queued := by
  have hsome : (d.footprint c k).isNone = false := Option.isNone_eq_false_iff.mpr (Option.isSome_iff_ne_none.mpr hfoot)
  have hres : (d.reservedAgainst c k && decide (d.tier x > d.tier .booked)) = false := by
    rw [← Bool.not_eq_true, Bool.and_eq_true, decide_eq_true_eq]
    rwa [barred_iff] at hb
  simp [requestCode, hsome, hprot, hres]

theorem request_of_ok (h : requestCode d c k x = .ok) : request c k x d = updCell k (grant d k c x) d := by
  simp only [request, h]

theorem request_of_queued (h : requestCode d c k x = .queued) :
    request c k x d = updCell k (fun r => { r with queue := enqueue d ⟨c, x⟩ r.queue }) d := by
  simp only [request, h]

theorem request_of_already (h : requestCode d c k x = .already) : request c k x d = upgrade c k x d := by
  simp only [request, h]

/-- What a request leaves of a cell: its standing and queue, the inhibit set kept, no other cell and no fault
changed. -/
structure Requested (d : Device) (k : CellIx) (t : Device) (standing : Standing) (queue : List Waiter) : Prop where
  standing : (t.cell k).standing = standing
  queue : (t.cell k).queue = queue
  inhibit : (t.cell k).inhibit = (d.cell k).inhibit
  others : ∀ j, j ≠ k → t.cell j = d.cell j
  faults : t.faults = d.faults

theorem Requested.unchanged (d : Device) (k : CellIx) : Requested d k d (d.cell k).standing (d.cell k).queue :=
  ⟨rfl, rfl, rfl, fun _ _ => rfl, rfl⟩

/-- A change of one cell that, judged, leaves no waiter of tier 0. -/
theorem requested_of_judge {f : CellClaim → CellClaim} {r : CellClaim} {st : Standing} {q : List Waiter}
    (hr : f (d.cell k) = r) (hinhibit : r.inhibit = (d.cell k).inhibit)
    (h : (judge d k r).standing = st ∧ (judge d k r).queue = q) (hq : ∀ w ∈ q, d.tier w.cls ≠ 0) :
    Requested d k (updCell k f d) st q where
  standing := by rw [updCell_cell, hr]; exact h.1
  queue := by rw [updCell_cell, hr]; exact h.2
  inhibit := by rw [updCell_cell, hr, judge_inhibit]; exact hinhibit
  others j hj := updCell_cell_of_ne _ _ _ _ hj
  faults := updCell_faults k f d (.inl (by rw [hr]; exact judge_not_contested (h.2 ▸ hq)))

/-! ### A record with one waiter, judged -/

theorem lingerRule_stopped (h : d.relation c k ≠ .outside) : lingerRule d k c x none = some (.held c x none) := by
  cases hl : lingerExempt d k c x
  · exact lingerRule_near hl h
  · exact lingerRule_exempt hl

theorem displaced_of_waiter {h : CraneIx} {hx : ClaimClass} {w : Waiter} (hlt : d.tier w.cls < d.tier hx) :
    displaced d k h hx [w] = true := (displaced_iff d k h hx [w]).mpr (.inl ⟨w, rfl, hlt⟩)

theorem not_displaced_of_waiter {h : CraneIx} {hx : ClaimClass} {w : Waiter} (hle : d.tier hx ≤ d.tier w.cls)
    (hb : ¬d.barred h k hx) : displaced d k h hx [w] = false :=
  not_displaced (by simpa using hle) hb

/-- A HELD cell with one waiter, its holder near it. -/
theorem judge_waited {r : CellClaim} {h : CraneIx} {hx : ClaimClass} {l : Option Nat} {w : Waiter}
    (hst : r.standing = .held h hx l) (hq : r.queue = [w]) (hnear : d.relation h k ≠ .outside) (hb : ¬d.barred h k hx) :
    (d.tier w.cls < d.tier hx → (judge d k r).standing = .draining h hx ∧ (judge d k r).queue = [w]) ∧
      (d.tier hx ≤ d.tier w.cls → ∀ l', lingerRule d k h hx l = some (.held h hx l') →
        (judge d k r).standing = .held h hx l' ∧ (judge d k r).queue = [w]) := by
  refine ⟨fun hlt => ?_, fun hle l' hl => ?_⟩
  · obtain ⟨h1, h2, -⟩ := judge_held_displaced hst (by rw [hq]; exact displaced_of_waiter hlt) hnear
    exact ⟨h1, h2.trans hq⟩
  · obtain ⟨h1, h2, -⟩ := judge_held hst (by rw [hq]; exact not_displaced_of_waiter hle hb) hl
    exact ⟨h1, h2.trans hq⟩

theorem judge_intruders_waited {r : CellClaim} {h : CraneIx} {hx : ClaimClass} {l : Option Nat}
    (hst : r.standing = .held h hx l) (hnear : d.relation h k ≠ .outside) :
    (judge d k r).intruders = r.intruders := by
  cases hd : displaced d k h hx r.queue with
  | true => exact (judge_held_displaced hst hd hnear).2.2
  | false =>
    obtain ⟨l', hl⟩ := lingerRule_of_near (d := d) (k := k) (c := h) (x := hx) l hnear
    exact (judge_held hst hd hl).2.2

/-- A grant with one waiter, strictly stronger: it is withdrawn, its crane waiting behind the one that takes the
cell. -/
theorem judge_withdrawn {r : CellClaim} {h : CraneIx} {hx : ClaimClass} {n : Nat} (hst : r.standing = .granted h hx n)
    (hq : r.queue = [⟨c, x⟩]) (hne : h ≠ c) (hlt : d.tier x < d.tier hx) (ht : d.tier x ≠ 0) (hb : ¬d.barred c k x)
    (hbh : ¬d.barred h k hx) :
    (judge d k r).standing = d.standingGranted k c x ∧ (judge d k r).queue = [⟨h, hx⟩] := by
  let r' : CellClaim := { r with queue := enqueue d ⟨h, hx⟩ r.queue }
  have hqueue : r'.queue = [⟨c, x⟩, ⟨h, hx⟩] := by
    show enqueue d ⟨h, hx⟩ r.queue = _
    rw [hq]
    simp [enqueue, hlt.le]
  have hgive : giveOn d k r' = grant d k c x r' := by rw [giveOn, hqueue]
  have hleft : dequeue c r'.queue = [⟨h, hx⟩] := by
    rw [hqueue]
    simp [dequeue, hne]
  have hwaiter : displacedByWaiter d hx r.queue = true := by
    rw [hq]
    simpa [displacedByWaiter] using hlt
  have hsettle : settle (settleBound r) d k r = grant d k c x r' := by
    have hbound : settleBound r = (r.intruders.length + 6) + 1 + 1 := by
      rw [settleBound, hq]
      simp only [List.length_cons, List.length_nil]
      omega
    rw [hbound, settle_granted_withdrawn hst (displacedByReservation_of_not_barred hbh) hwaiter]
    show settle _ d k (giveOn d k r') = _
    rw [hgive, settle_grant (by rw [hleft]; simpa using hlt.le) hb ht]
  rw [judge_standing, judge_queue, hsettle]
  exact ⟨grant_standing ht, hleft⟩

/-! ### Requests by the standing they find (R61 to R63, R71) -/

/-- A FREE cell that no crane waits for is granted. -/
theorem request_granted (hcode : requestCode d c k x = .ok) (ht : d.tier x ≠ 0) (hb : ¬d.barred c k x)
    (hq : (d.cell k).queue = []) :
    Requested d k (request c k x d) (d.standingGranted k c x) [] ∧ c ∉ ((request c k x d).cell k).intruders ∧
      ((request c k x d).cell k).contested = false := by
  obtain ⟨h1, h2, h3, h4⟩ := judge_grant (r := d.cell k) (by rw [hq]; rfl) (by rwa [← barred_iff]) ht
  rw [request_of_ok hcode]
  refine ⟨requested_of_judge rfl rfl ⟨h1, h2⟩ (by simp), ?_, ?_⟩
  · rw [updCell_cell, h3]
    simp
  · rw [updCell_cell, h4]

/-- A cell HELD by another crane, near it, is waited for. -/
theorem request_waits {h : CraneIx} {hx : ClaimClass} {l : Option Nat} (hcode : requestCode d c k x = .queued)
    (ht : d.tier x ≠ 0) (hst : (d.cell k).standing = .held h hx l) (hq : (d.cell k).queue = [])
    (hnear : d.relation h k ≠ .outside) (hb : ¬d.barred h k hx) :
    (d.tier x < d.tier hx → Requested d k (request c k x d) (.draining h hx) [⟨c, x⟩]) ∧
      (d.tier hx ≤ d.tier x → ∃ l', Requested d k (request c k x d) (.held h hx l') [⟨c, x⟩]) ∧
      ((request c k x d).cell k).intruders = (d.cell k).intruders := by
  have hr : ({ d.cell k with queue := enqueue d ⟨c, x⟩ (d.cell k).queue } : CellClaim) =
      { d.cell k with queue := [⟨c, x⟩] } := by rw [hq]; rfl
  obtain ⟨hdrain, hheld⟩ := judge_waited (r := { d.cell k with queue := [⟨c, x⟩] }) hst rfl hnear hb
  rw [request_of_queued hcode]
  refine ⟨fun hlt => requested_of_judge hr rfl (hdrain hlt) (by simpa using ht), fun hle => ?_, ?_⟩
  · obtain ⟨l', hl⟩ := lingerRule_of_near (d := d) (k := k) (c := h) (x := hx) l hnear
    exact ⟨l', requested_of_judge hr rfl (hheld hle l' hl) (by simpa using ht)⟩
  · rw [updCell_cell, hr]
    exact judge_intruders_waited (r := { d.cell k with queue := [⟨c, x⟩] }) hst hnear

/-- A stronger class, or EMERGENCY for FREE at equal tier (R61). -/
def Device.stronger (d : Device) (x y : ClaimClass) : Prop :=
  d.tier x < d.tier y ∨ (d.tier x = d.tier y ∧ x = .emergency ∧ y = .free)

theorem equalTierUpgrade_iff {y : ClaimClass} (hx : x = .free ∨ x = .emergency) :
    equalTierUpgrade d x y = true ↔ d.tier x = d.tier y ∧ x = .emergency ∧ y = .free := by
  rcases hx with rfl | rfl <;> simp [equalTierUpgrade]

theorem upgrade_of_holder {y : ClaimClass} (hx : x = .free ∨ x = .emergency)
    (hholder : (d.cell k).standing.holder = some c) (hcls : (d.cell k).standing.cls = some y) :
    (d.stronger x y → upgrade c k x d = updCell k (setHolderClass d x) d) ∧
      (¬d.stronger x y → upgrade c k x d = d) := by
  have htest : (decide (d.tier x < d.tier y) || equalTierUpgrade d x y) = true ↔ d.stronger x y := by
    rw [Bool.or_eq_true, decide_eq_true_eq, equalTierUpgrade_iff hx, Device.stronger]
  rw [upgrade_holder hholder hcls]
  exact ⟨fun h => if_pos (htest.mpr h), fun h => if_neg fun e => h (htest.mp e)⟩

/-- A grant whose crane claims again. -/
theorem upgrade_grant {y z : ClaimClass} {n : Nat} (hx : x = .free ∨ x = .emergency) (ht : d.tier x ≠ 0)
    (hb : ¬d.barred c k x) (hst : (d.cell k).standing = .granted c y n) (hq : (d.cell k).queue = [])
    (hz : (d.stronger x y ∧ z = x) ∨ (¬d.stronger x y ∧ z = y)) :
    Requested d k (upgrade c k x d) (.granted c z n) [] := by
  obtain ⟨hup, hkept⟩ := upgrade_of_holder (c := c) (k := k) hx (by rw [hst]; rfl) (by rw [hst]; rfl) (y := y)
  rcases hz with ⟨hstrong, rfl⟩ | ⟨hweak, rfl⟩
  · have hr : setHolderClass d z (d.cell k) = { d.cell k with standing := .granted c z n } := by
      simp [setHolderClass, hst, ht]
    obtain ⟨h1, h2, -⟩ := judge_granted (r := { d.cell k with standing := .granted c z n }) rfl
      (not_displaced (by simp [hq]) hb)
    rw [hup hstrong]
    exact requested_of_judge hr rfl ⟨h1, h2.trans hq⟩ (by simp)
  · have hsame := Requested.unchanged d k
    rw [hkept hweak]
    rwa [hst, hq] at hsame

/-- A holder near its cell that claims again. -/
theorem upgrade_hold {y z : ClaimClass} (hx : x = .free ∨ x = .emergency) (ht : d.tier x ≠ 0)
    (hb : ¬d.barred c k x) (hst : (d.cell k).standing = .held c y none) (hq : (d.cell k).queue = [])
    (hnear : d.relation c k ≠ .outside) (hz : (d.stronger x y ∧ z = x) ∨ (¬d.stronger x y ∧ z = y)) :
    Requested d k (upgrade c k x d) (.held c z none) [] := by
  obtain ⟨hup, hkept⟩ := upgrade_of_holder (c := c) (k := k) hx (by rw [hst]; rfl) (by rw [hst]; rfl) (y := y)
  rcases hz with ⟨hstrong, rfl⟩ | ⟨hweak, rfl⟩
  · have hr : setHolderClass d z (d.cell k) = { d.cell k with standing := .held c z none } := by
      simp [setHolderClass, hst, ht]
    obtain ⟨h1, h2, -⟩ := judge_held (r := { d.cell k with standing := .held c z none }) rfl
      (not_displaced (by simp [hq]) hb) (lingerRule_stopped hnear)
    rw [hup hstrong]
    exact requested_of_judge hr rfl ⟨h1, h2.trans hq⟩ (by simp)
  · have hsame := Requested.unchanged d k
    rw [hkept hweak]
    rwa [hst, hq] at hsame

/-- The one waiter of a HELD cell, its holder near it, that claims again. -/
theorem upgrade_entry {y z : ClaimClass} {h : CraneIx} {hx : ClaimClass} (hfree : x = .free ∨ x = .emergency)
    (ht : d.tier x ≠ 0) (hq : (d.cell k).queue = [⟨c, y⟩]) (hne : h ≠ c) (hst : (d.cell k).standing = .held h hx none)
    (hnear : d.relation h k ≠ .outside) (hb : ¬d.barred h k hx)
    (hz : (d.stronger x y ∧ z = x) ∨ (¬d.stronger x y ∧ z = y)) :
    (d.stronger x y → d.tier x < d.tier hx → Requested d k (upgrade c k x d) (.draining h hx) [⟨c, z⟩]) ∧
      (¬d.stronger x y ∨ d.tier hx ≤ d.tier x → Requested d k (upgrade c k x d) (.held h hx none) [⟨c, z⟩]) := by
  have hholder : (d.cell k).standing.holder ≠ some c := by
    rw [hst]
    exact fun e => hne (Option.some.inj e)
  have hentry : entryOf c (d.cell k).queue = some ⟨c, y⟩ := by rw [hq]; simp [entryOf]
  have hup := upgrade_waiter (x := x) hholder hentry
  rcases hz with ⟨hstrong, rfl⟩ | ⟨hweak, rfl⟩
  · obtain ⟨f, hf, hr⟩ : ∃ f : CellClaim → CellClaim, upgrade c k z d = updCell k f d ∧
        f (d.cell k) = { d.cell k with queue := [⟨c, z⟩] } := by
      rcases hstrong with hlt | ⟨heq, hemergency, hy⟩
      · exact ⟨_, hup.trans (if_pos hlt), by simp [requeue, dequeue, enqueue, hq]⟩
      · have hequal := (equalTierUpgrade_iff (d := d) (y := y) hfree).mpr ⟨heq, hemergency, hy⟩
        exact ⟨_, hup.trans ((if_neg (by simp [heq])).trans (if_pos hequal)), by simp [reclass, hq]⟩
    obtain ⟨hdrain, hheld⟩ := judge_waited (r := { d.cell k with queue := [⟨c, z⟩] }) hst rfl hnear hb
    rw [hf]
    refine ⟨fun _ hlt => requested_of_judge hr rfl (hdrain hlt) (by simpa using ht), fun h => ?_⟩
    have hle := h.resolve_left (not_not_intro hstrong)
    exact requested_of_judge hr rfl (hheld hle none (lingerRule_stopped hnear)) (by simpa using ht)
  · have hkept : upgrade c k x d = d := by
      have hequal : equalTierUpgrade d x z = false := by
        rw [← Bool.not_eq_true, equalTierUpgrade_iff hfree]
        exact fun e => hweak (.inr e)
      rw [hup, if_neg fun e => hweak (.inl e), hequal, if_neg (by decide)]
    have hsame := Requested.unchanged d k
    rw [hst, hq] at hsame
    rw [hkept]
    exact ⟨fun hstrong => absurd hstrong hweak, fun _ => hsame⟩

/-- A cell GRANTED to another crane: a stronger claim takes it, the crane granted waiting behind; another claim
waits. -/
theorem request_granted_other {h : CraneIx} {hx : ClaimClass} {n : Nat} (hcode : requestCode d c k x = .queued)
    (ht : d.tier x ≠ 0) (hb : ¬d.barred c k x) (hne : h ≠ c) (hst : (d.cell k).standing = .granted h hx n)
    (hq : (d.cell k).queue = []) (hbh : ¬d.barred h k hx) :
    (d.tier x < d.tier hx → Requested d k (request c k x d) (d.standingGranted k c x) [⟨h, hx⟩]) ∧
      (d.tier hx ≤ d.tier x → Requested d k (request c k x d) (.granted h hx n) [⟨c, x⟩]) := by
  have hr : ({ d.cell k with queue := enqueue d ⟨c, x⟩ (d.cell k).queue } : CellClaim) =
      { d.cell k with queue := [⟨c, x⟩] } := by rw [hq]; rfl
  rw [request_of_queued hcode]
  refine ⟨fun hlt => requested_of_judge hr rfl ?_ (by simp; omega), fun hle =>
    requested_of_judge hr rfl ?_ (by simpa using ht)⟩
  · exact judge_withdrawn (r := { d.cell k with queue := [⟨c, x⟩] }) hst rfl hne hlt ht hb hbh
  · obtain ⟨h1, h2, -⟩ := judge_granted (r := { d.cell k with queue := [⟨c, x⟩] }) hst
      (not_displaced_of_waiter (w := ⟨c, x⟩) hle hbh)
    exact ⟨h1, h2⟩

/-! ### CLAIM and the auto-claims -/

/-- A CLAIM that is taken: its reply, and what the request has left. -/
theorem claim_next {s : State} {restart : Bool} {code : ReplyCode} (hhears : s.hears c restart)
    (hx : x = .free ∨ x = .emergency) (hcode : requestCode (s.heard c restart) c k x = code)
    (htaken : code.taken = true) :
    ∃ t, exec (.claim c restart k.val x.code) s = .next t ∧
      (∀ j, t.dev.cell j = (request c k x (s.heard c restart)).cell j) ∧
      t.dev.port c = (s.dev.reply c 0x03 code).port c ∧ s.dev.sameElsewhere c t.dev ∧
      (x = .free → t.dev.faults = (request c k x (s.heard c restart)).faults) ∧
      (x = .emergency → t.dev.faults = ((request c k x (s.heard c restart)).raise .emergencyClaim (some c.val)
        (some k.val) none).faults) ∧
      t = { s with dev := { s.heard c restart with
        cells := t.dev.cells, ports := t.dev.ports, faults := t.dev.faults } } := by
  have hact := act_hears hhears (claimFrame c k.val x.code)
  rw [claimFrame_eq (heard_admitted hhears) hx, hcode] at hact
  have honly : CellsOnly (s.heard c restart) (request c k x (s.heard c restart)) := (Local.request c x).only _ _
  rcases hx with rfl | rfl
  · rw [if_neg (by simp)] at hact
    obtain ⟨t, ht, hcell, hfaults, hport, hothers, hframe⟩ := next_of_claims hact honly
    exact ⟨t, ht, hcell, hport, hothers, fun _ => hfaults, nofun, hframe⟩
  · rw [if_pos ⟨rfl, htaken⟩] at hact
    obtain ⟨t, ht, hcell, hfaults, hport, hothers, hframe⟩ :=
      next_of_claims hact (honly.trans (CellsOnly.raise _ _ _ _ _))
    exact ⟨t, ht, fun j => (hcell j).trans (raise_cell ..), hport, hothers, nofun, fun _ => hfaults, hframe⟩

/-- A CLAIM whose request leaves a standing and a queue, answered with a code. -/
theorem claim_answered {s : State} {restart : Bool} {code : ReplyCode} {st : Standing} {q : List Waiter}
    (hhears : s.hears c restart) (hx : x = .free ∨ x = .emergency)
    (hcode : requestCode (s.heard c restart) c k x = code) (htaken : code.taken = true)
    (h : Requested (s.heard c restart) k (request c k x (s.heard c restart)) st q) :
    ∃ t, exec (.claim c restart k.val x.code) s = .next t ∧
      (t.dev.cell k).standing = st ∧ (t.dev.cell k).queue = q ∧
      (t.dev.cell k).inhibit = (s.dev.cell k).inhibit ∧ (∀ j, j ≠ k → t.dev.cell j = s.dev.cell j) ∧
      t.dev.port c = (s.dev.reply c 0x03 code).port c ∧ s.dev.sameElsewhere c t.dev ∧
      (x = .free → t.dev.faults = s.dev.faults) ∧
      t = { s with dev := { s.heard c restart with
        cells := t.dev.cells, ports := t.dev.ports, faults := t.dev.faults } } := by
  obtain ⟨t, ht, hcell, hport, hothers, hfree, -, hframe⟩ := claim_next hhears hx hcode htaken
  exact ⟨t, ht, (congrArg _ (hcell k)).trans h.standing, (congrArg _ (hcell k)).trans h.queue,
    (congrArg _ (hcell k)).trans h.inhibit, fun j hj => (hcell j).trans (h.others j hj), hport, hothers,
    fun hx => (hfree hx).trans h.faults, hframe⟩

/-- A CLAIM of a crane that has a standing in the cell. -/
theorem claim_again {s : State} {restart : Bool} {st : Standing} {q : List Waiter}
    (hhears : s.hears c restart) (hx : x = .free ∨ x = .emergency)
    (hcode : requestCode (s.heard c restart) c k x = .already)
    (h : Requested (s.heard c restart) k (upgrade c k x (s.heard c restart)) st q) :
    ∃ t, exec (.claim c restart k.val x.code) s = .next t ∧
      (t.dev.cell k).standing = st ∧ (t.dev.cell k).queue = q ∧
      (t.dev.cell k).inhibit = (s.dev.cell k).inhibit ∧ (∀ j, j ≠ k → t.dev.cell j = s.dev.cell j) ∧
      t.dev.port c = (s.dev.reply c 0x03 .already).port c ∧ s.dev.sameElsewhere c t.dev ∧
      (x = .free → t.dev.faults = s.dev.faults) ∧
      t = { s with dev := { s.heard c restart with
        cells := t.dev.cells, ports := t.dev.ports, faults := t.dev.faults } } := by
  rw [← request_of_already hcode] at h
  exact claim_answered hhears hx hcode rfl h

theorem autoClaimDue_iff (d : Device) (c : CraneIx) (e : RelEntry) :
    autoClaimDue d c e = true ↔
      (d.profile c).autoClaim = 1 ∧ (e.now = .near ∨ e.now = .approaching) ∧
        (∃ r, d.cellRec e.cell = some r ∧ r.kind = 0) ∧ (d.cell e.cell).standing.holder ≠ some c ∧
        (∀ w ∈ (d.cell e.cell).queue, w.crane ≠ c) ∧ c ∉ (d.cell e.cell).inhibit := by
  have hshared : d.sharedCell e.cell = true ↔ ∃ r, d.cellRec e.cell = some r ∧ r.kind = 0 := by
    unfold Device.sharedCell
    cases d.cellRec e.cell <;> simp
  simp [autoClaimDue, hshared, entryOf_eq_none, and_assoc]

theorem protectedCell_of_shared {r : CellRec} (h : d.cellRec k = some r) (hkind : r.kind = 0) :
    d.protectedCell k = false := by
  simp [Device.protectedCell, h, hkind]

/-- A cell that another crane holds or has been granted, and no crane waits for, is asked for behind it. -/
theorem requestCode_behind {h : CraneIx} (hfoot : d.footprint c k ≠ none) (hprot : d.protectedCell k = false)
    (hb : ¬d.barred c k x) (hholder : (d.cell k).standing.holder = some h) (hne : h ≠ c) (hq : (d.cell k).queue = []) :
    requestCode d c k x = .queued := by
  have hfree : (d.cell k).standing ≠ .free := by
    intro e
    rw [e] at hholder
    cases hholder
  rw [requestCode_open hfoot hprot hb, if_neg, if_neg hfree]
  rintro (e | e)
  · exact hne (Option.some.inj (hholder.symm.trans e))
  · rw [hq] at e
    cases e

theorem requestCode_own (hfoot : d.footprint c k ≠ none) (hprot : d.protectedCell k = false) (hb : ¬d.barred c k x)
    (hown : (d.cell k).standing.holder = some c ∨ ∃ y l, (d.cell k).queue = ⟨c, y⟩ :: l) :
    requestCode d c k x = .already := by
  rw [requestCode_open hfoot hprot hb, if_pos]
  rcases hown with h | ⟨y, l, hq⟩
  · exact .inl h
  · exact .inr (by rw [hq]; simp [entryOf])

/-- Settles O45: the code, then the request by the standing it finds. -/
theorem claimIsGrantedOrWaits : Obligations.ClaimIsGrantedOrWaits := by
  refine ⟨fun s c restart k x hhears hx hfoot hprot hres ht hst hq => ?_,
    fun s c h restart k x hx l hhears hfree hfoot hprot hres ht hst hne hq hnear hresh => ?_,
    fun s c restart k x hhears hx hfoot hprot hb ht => ⟨fun y z hz => ⟨fun n hst hq => ?_, fun hst hq hnear => ?_,
      fun h hx' hq hne hst hnear hbh => ?_⟩, fun h hx' n hne hst hq hbh => ⟨fun hlt => ?_, fun hle => ?_⟩⟩,
    fun d c e => ⟨fun hdue => ?_, fun x hx hdue => ?_⟩⟩
  · have hb : ¬(s.heard c restart).barred c k x := by rwa [barred_iff]
    have hcode : requestCode (s.heard c restart) c k x = .ok := by
      rw [requestCode_open (d := s.heard c restart) hfoot hprot hb]
      have hst' : ((s.heard c restart).cell k).standing = .free := hst
      have hq' : ((s.heard c restart).cell k).queue = [] := hq
      simp [hst', hq', Standing.holder, entryOf]
    obtain ⟨hreq, hin, hcontested⟩ := request_granted hcode ht hb hq
    obtain ⟨t, hnext, hcell, hport, hothers, hfree, hemergency, hframe⟩ := claim_next hhears hx hcode rfl
    refine ⟨t, hnext, (congrArg _ (hcell k)).trans hreq.standing, (congrArg _ (hcell k)).trans hreq.queue,
      (congrArg _ (hcell k)).trans hreq.inhibit, by rw [hcell]; exact hin, (congrArg _ (hcell k)).trans hcontested,
      fun j hj => (hcell j).trans (hreq.others j hj), hport, hothers, fun h => (hfree h).trans hreq.faults,
      fun h => (hemergency h).trans ?_, hframe⟩
    exact raise_faults_congr (d := s.dev) hreq.faults ((Local.request c x).only (s.heard c restart) k).clock _ _ _ _
  · have hb : ¬(s.heard c restart).barred c k x := by rwa [barred_iff]
    have hbh : ¬(s.heard c restart).barred h k hx := by rwa [barred_iff]
    have hholder : ((s.heard c restart).cell k).standing.holder = some h := holder_of_held hst
    have hcode := requestCode_behind (d := s.heard c restart) hfoot hprot hb hholder hne hq
    obtain ⟨hdrain, hheld, hintruders⟩ := request_waits hcode ht hst hq hnear hbh
    obtain ⟨t, hnext, hcell, hport, hothers, -, -, hframe⟩ := claim_next hhears hfree hcode rfl
    have hkept : ∀ st, Requested (s.heard c restart) k (request c k x (s.heard c restart)) st [⟨c, x⟩] →
        (t.dev.cell k).standing = st ∧ (t.dev.cell k).queue = [⟨c, x⟩] ∧
          (t.dev.cell k).inhibit = (s.dev.cell k).inhibit ∧ ∀ j, j ≠ k → t.dev.cell j = s.dev.cell j := fun st hreq =>
      ⟨(congrArg _ (hcell k)).trans hreq.standing, (congrArg _ (hcell k)).trans hreq.queue,
        (congrArg _ (hcell k)).trans hreq.inhibit, fun j hj => (hcell j).trans (hreq.others j hj)⟩
    have hin : (t.dev.cell k).intruders = (s.dev.cell k).intruders := (congrArg _ (hcell k)).trans hintruders
    rcases Nat.lt_or_ge (s.dev.tier x) (s.dev.tier hx) with hlt | hle
    · obtain ⟨h1, h2, h3, h4⟩ := hkept _ (hdrain hlt)
      exact ⟨t, hnext, h2, fun _ => h1, fun h => absurd hlt (Nat.not_lt.mpr h), h3, hin, h4, hport, hothers, hframe⟩
    · obtain ⟨l', hreq⟩ := hheld hle
      obtain ⟨h1, h2, h3, h4⟩ := hkept _ hreq
      exact ⟨t, hnext, h2, fun h => absurd h (Nat.not_lt.mpr hle), fun _ => ⟨l', h1⟩, h3, hin, h4, hport, hothers,
        hframe⟩
  · have hcode := requestCode_own (d := s.heard c restart) hfoot hprot hb (.inl (by
      rw [show ((s.heard c restart).cell k).standing = _ from hst]; rfl))
    obtain ⟨t, h, hst', hq', hrest⟩ := claim_again hhears hx hcode
      (upgrade_grant hx ht hb hst hq hz)
    exact ⟨t, h, ⟨hst', hq'⟩, hrest⟩
  · have hcode := requestCode_own (d := s.heard c restart) hfoot hprot hb (.inl (holder_of_held hst))
    obtain ⟨t, h, hst', hq', hrest⟩ := claim_again hhears hx hcode
      (upgrade_hold hx ht hb hst hq hnear hz)
    exact ⟨t, h, ⟨hst', hq'⟩, hrest⟩
  · have hcode := requestCode_own (d := s.heard c restart) hfoot hprot hb (.inr ⟨y, [], hq⟩)
    obtain ⟨hdrain, hheld⟩ := upgrade_entry (d := s.heard c restart) hx ht hq hne hst hnear hbh hz
    by_cases hstrong : s.dev.stronger x y ∧ s.dev.tier x < s.dev.tier hx'
    · obtain ⟨t, h, hst', hq', hrest⟩ := claim_again hhears hx hcode (hdrain hstrong.1 hstrong.2)
      refine ⟨t, h, ⟨hq', fun _ _ => hst', fun h => absurd hstrong ?_⟩, hrest⟩
      rintro ⟨hs, hlt⟩
      exact h.elim (fun h => h hs) (Nat.not_le.mpr hlt)
    · obtain ⟨t, h, hst', hq', hrest⟩ := claim_again hhears hx hcode
        (hheld ((not_and_or.mp hstrong).imp_right Nat.not_lt.mp))
      exact ⟨t, h, ⟨hq', fun hs hlt => absurd ⟨hs, hlt⟩ hstrong, fun _ => hst'⟩, hrest⟩
  · have hcode := requestCode_behind (d := s.heard c restart) hfoot hprot hb (by
      rw [show ((s.heard c restart).cell k).standing = _ from hst]; rfl) hne hq
    obtain ⟨t, h, hst', hq', hrest⟩ := claim_answered hhears hx hcode rfl
      ((request_granted_other hcode ht hb hne hst hq hbh).1 hlt)
    exact ⟨t, h, ⟨hst', hq'⟩, hrest⟩
  · have hcode := requestCode_behind (d := s.heard c restart) hfoot hprot hb (by
      rw [show ((s.heard c restart).cell k).standing = _ from hst]; rfl) hne hq
    obtain ⟨t, h, hst', hq', hrest⟩ := claim_answered hhears hx hcode rfl
      ((request_granted_other hcode ht hb hne hst hq hbh).2 hle)
    exact ⟨t, h, ⟨hst', hq'⟩, hrest⟩
  · refine if_neg fun h => hdue ?_
    exact (autoClaimDue_iff d c e).mp h
  · have hclass : serviceClass d c e.cell = x := by
      rw [serviceClass]
      rcases hx with ⟨hlift, rfl⟩ | ⟨hlift, rfl⟩ <;> rw [liftsOver_iff] at hlift
      · exact if_pos hlift
      · exact if_neg hlift
    have hauto : autoClaim c d e = request c e.cell x d := by
      rw [autoClaim, if_pos ((autoClaimDue_iff d c e).mpr hdue), hclass]
    refine ⟨hauto, fun hfoot hb ht hst hq => ?_⟩
    obtain ⟨r, hr, hkind⟩ := hdue.2.2.1
    have hcode : requestCode d c e.cell x = .ok := by
      rw [requestCode_open hfoot (protectedCell_of_shared hr hkind) hb]
      simp [hst, hq, Standing.holder, entryOf]
    rw [hauto]
    exact (request_granted hcode ht hb hq).1.standing

end Sys2Proof.Machine
end

