-- ==== Sys2Proof/Proofs/LostCranes.lean ====
section
/-! SUPPORT. A crane that becomes LOST, and the reconciliation of its cells at its return. -/

namespace Sys2Proof.Machine

variable {d : Device} {c : CraneIx} {k : CellIx} {x : ClaimClass}

/-! ### Becoming LOST (R28, R29, R31, R78) -/

/-- The device as a crane's loss is recorded, before its claims are converted (R30). -/
def markedLost (c : CraneIx) (d : Device) : Device :=
  (d.setCrane c { d.crane c with membership := .lost, link := none, streak := false }).raise .linkLost (some c.val)
    none none

theorem loseCrane_eq (c : CraneIx) (d : Device) : loseCrane c d = windLost c (loseCells c (markedLost c d)) := rfl

theorem markedLost_cell (c : CraneIx) (d : Device) (k : CellIx) : (markedLost c d).cell k = d.cell k := raise_cell ..

theorem markedLost_cellsOnly (c : CraneIx) (d : Device) :
    CellsOnly (d.setCrane c { d.crane c with membership := .lost, link := none, streak := false }) (markedLost c d) :=
  CellsOnly.raise ..

theorem windLost_cell (c : CraneIx) (d : Device) (k : CellIx) : (windLost c d).cell k = d.cell k := rfl

theorem windLost_faultEntry (c : CraneIx) (d : Device) (j : FaultKind) :
    (windLost c d).faultEntry j = d.faultEntry j := rfl

/-- Each cell of a crane that becomes LOST is converted alone. -/
theorem loseCrane_cell (c : CraneIx) (d : Device) (k : CellIx) :
    (loseCrane c d).cell k = (loseCell c (markedLost c d) k).cell k := by
  rw [loseCrane_eq, windLost_cell, loseCells, (Local.loseCell c).foldl_cell _ allCells_nodup, if_pos (mem_allCells k)]

theorem loseCell_held (h : (d.cell k).standing.holder = some c) :
    ((loseCell c d k).cell k).standing = .held c .lost none := by
  rw [loseCell, if_pos (by simpa using h), updCell_cell]
  exact judge_setHolderClass_firm (.inr rfl) h

theorem loseCell_standsAt (hholder : (d.cell k).standing.holder ≠ some c) (hfoot : d.footprint c k ≠ none) :
    ((loseCell c d k).cell k).standsAt c .lost := by
  rw [loseCell, if_neg (by simpa using hholder)]
  split
  · rw [updCell_cell]
    exact judge_standsAt (.inr rfl) (enqueue_standsAt hholder fun w hw => ((mem_dequeue c w _).mp hw).2)
  · next hentry => exact request_standsAt (.inr rfl) hfoot hholder (by simpa using hentry)

theorem loseCrane_holder (h : (d.cell k).standing.holder = some c) :
    ((loseCrane c d).cell k).standing = .held c .lost none := by
  rw [loseCrane_cell]
  exact loseCell_held (by rwa [markedLost_cell])

theorem loseCrane_waits (hholder : (d.cell k).standing.holder ≠ some c) (hfoot : d.footprint c k ≠ none) :
    ((loseCrane c d).cell k).standing = .held c .lost none ∨ ⟨c, .lost⟩ ∈ ((loseCrane c d).cell k).queue := by
  have hstands : ((loseCrane c d).cell k).standsAt c .lost := by
    rw [loseCrane_cell]
    exact loseCell_standsAt (by rwa [markedLost_cell]) (by rwa [(markedLost_cellsOnly c d).footprint])
  rcases hstands with h | ⟨-, hcls, w, hw, hc⟩
  · exact .inl h
  · have hwaiter : w = ⟨c, .lost⟩ := by cases w; cases hc; exact congrArg _ (hcls _ hw rfl)
    exact .inr (hwaiter ▸ hw)

theorem loseCrane_linkLost (c : CraneIx) (d : Device) : ((loseCrane c d).faultEntry .linkLost).pending = true := by
  have hcells : (markedLost c d).pendingKept (loseCells c (markedLost c d)) :=
    (Local.loseCell c).pendingKept_foldl allCells _
  rw [loseCrane_eq, windLost_faultEntry]
  exact hcells .linkLost (raise_pending ..)

theorem loseCrane_windOf (c : CraneIx) (d : Device) :
    (loseCrane c d).windOf c = { d.windOf c with silence := none, vaneTimer := none } := by
  have hwind : (loseCells c (markedLost c d)).windOf c = d.windOf c :=
    ((markedLost_cellsOnly c d).trans (loseCells_cellsOnly c _)).windOf c
  rw [loseCrane_eq, windLost, modWind_windOf, if_pos rfl, hwind]

theorem windLost_frame {e : Device} {r : CraneRec} (h : CellsOnly (d.setCrane c r) e) :
    windLost c e = { d with
      roster := (windLost c e).roster, cells := (windLost c e).cells, wind := (windLost c e).wind
      faults := (windLost c e).faults } := by
  show { e with wind := (windLost c e).wind } = { d with
    roster := e.roster, cells := e.cells, wind := (windLost c e).wind, faults := e.faults }
  rw [h.roster]
  generalize (windLost c e).wind = w
  conv_lhs => rw [h]
  rfl

theorem loseCrane_frame (c : CraneIx) (d : Device) :
    loseCrane c d = { d with
      roster := (loseCrane c d).roster, cells := (loseCrane c d).cells, wind := (loseCrane c d).wind
      faults := (loseCrane c d).faults } := by
  rw [loseCrane_eq]
  exact windLost_frame ((markedLost_cellsOnly c d).trans (loseCells_cellsOnly c _))

/-- The second flagged frame in a row, whatever it asks, makes the crane LOST (R29). -/
theorem withStreak_lost (hmember : d.membership c = .admitted) (hstreak : (d.crane c).streak = true)
    (serve : Device → Device) : withStreak c true serve d = loseCrane c d := by
  simp only [Device.membership] at hmember
  simp [withStreak, hmember, hstreak]

theorem deliver_lost {f : CraneFrame} (hmember : d.membership c = .admitted) (hstreak : (d.crane c).streak = true)
    (hreport : ∀ r, f = .report r → r.slew < 3600) (hbook : ∀ b, f = .book b → b.form ≤ 1) :
    deliver c true f d = loseCrane c d := by
  cases f with
  | report r =>
    exact (if_pos (decide_eq_true (hreport r rfl))).trans (withStreak_lost hmember hstreak _)
  | book b => exact (if_pos (hbook b rfl)).trans (withStreak_lost hmember hstreak _)
  | _ => exact withStreak_lost hmember hstreak _

/-- Both ways a crane becomes LOST. -/
theorem exec_loses {s : State} {i : Instr} (hreset : s.dev.resetLow = false)
    (h : (i = .linkTimerExpiry c ∧ (s.dev.crane c).link = some 0) ∨
      (s.dev.membership c = .admitted ∧ (s.dev.crane c).streak = true ∧
        ∃ f : CraneFrame, i = f.instr c true ∧ (∀ r, f = .report r → r.slew < 3600) ∧
          ∀ b, f = .book b → b.form ≤ 1)) :
    exec i s = .next { s with dev := loseCrane c s.dev } := by
  rcases h with ⟨rfl, hlink⟩ | ⟨hmember, hstreak, f, rfl, hreport, hbook⟩
  · refine (act_expiry_due (x := .link c) hreset hlink).trans ?_
    rw [show expire (.link c) s.dev = linkExpired c s.dev from rfl, linkExpired, if_pos (by rw [hlink]; rfl)]
  · rw [exec_frame]
    exact act_to hreset (deliver_lost hmember hstreak hreport hbook)

/-! ### Reconciliation at a return (R33, R79) -/

theorem reconcileCell_outside (hholder : (d.cell k).standing.holder = some c) (hout : d.relation c k = .outside) :
    reconcileCell c d k = releaseCell k d := by
  rw [reconcileCell, if_pos (by simpa using hholder), if_pos (by simpa using hout)]

/-- The class a returning crane's claim on a cell takes (R79). -/
def reconciledClass (d : Device) (c : CraneIx) (k : CellIx) : ClaimClass :=
  if (d.windOf c).state.isVane && d.hasJib c k then .weathervane else serviceClass d c k

theorem reconciledClass_eq
    (h : (((d.windOf c).state.isVane = true ∧ d.hasJib c k = true) ∧ x = .weathervane) ∨
      (¬((d.windOf c).state.isVane = true ∧ d.hasJib c k = true) ∧ d.liftsOver c k ∧ x = .booked) ∨
      (¬((d.windOf c).state.isVane = true ∧ d.hasJib c k = true) ∧ ¬d.liftsOver c k ∧ x = .free)) :
    reconciledClass d c k = x := by
  simp only [liftsOver_iff] at h
  rcases h with ⟨hvane, rfl⟩ | ⟨hvane, hlift, rfl⟩ | ⟨hvane, hlift, rfl⟩
  · exact if_pos (by simpa using hvane)
  · exact (if_neg (by simpa using hvane)).trans (if_pos hlift)
  · exact (if_neg (by simpa using hvane)).trans (if_neg hlift)

/-- The cell of a LOST holder that is not OUTSIDE is judged at its new class. -/
theorem reconcileCell_near (hst : (d.cell k).standing = .held c .lost none) (hnear : d.relation c k ≠ .outside) :
    (reconcileCell c d k).cell k =
      judge d k { d.cell k with standing := .held c (reconciledClass d c k) none } := by
  have hset : setHolderClass d (reconciledClass d c k) (d.cell k) =
      { d.cell k with standing := .held c (reconciledClass d c k) none } := by simp [setHolderClass, hst]
  rw [reconcileCell, if_pos (by simp [hst, Standing.holder]), if_neg (by simpa using hnear), updCell_cell, ← hset]
  rfl

/-- A returning crane's entry is withdrawn behind another crane's claim. -/
theorem reconcileCell_waiter (hholder : (d.cell k).standing.holder ≠ some c) (hq : (d.cell k).queue = [⟨c, .lost⟩]) :
    (reconcileCell c d k).cell k = judge d k { d.cell k with queue := [] } := by
  have hentry : entryOf c (d.cell k).queue = some ⟨c, .lost⟩ := by simp [hq, entryOf]
  have hdrop : dequeue c (d.cell k).queue = [] := by simp [hq, dequeue]
  have hupd : reconcileCell c d k = updCell k (fun r => { r with queue := dequeue c r.queue }) d := by
    simp [reconcileCell, hholder, hentry]
  rw [hupd, updCell_cell, hdrop]

theorem reconcileCell_unmoved (hholder : (d.cell k).standing.holder ≠ some c)
    (hq : ∀ w ∈ (d.cell k).queue, w.crane = c → w.cls ≠ .lost) : reconcileCell c d k = d := by
  rw [reconcileCell, if_neg (by simpa using hholder)]
  split
  · next w hw =>
    obtain ⟨hmem, hc⟩ := entryOf_some c _ w hw
    exact if_neg (by simpa using hq w hmem hc)
  · rfl

theorem reconcileCell_givenOn (hholder : (d.cell k).standing.holder = some c) (hout : d.relation c k = .outside) :
    d.givenOn k (reconcileCell c d k) := by
  rw [reconcileCell_outside hholder hout]
  exact releaseCell_givenOn k d

theorem reconcileCell_lost (hst : (d.cell k).standing = .held c .lost none) (hnear : d.relation c k ≠ .outside)
    (h : (((d.windOf c).state.isVane = true ∧ d.hasJib c k = true) ∧ x = .weathervane) ∨
      (¬((d.windOf c).state.isVane = true ∧ d.hasJib c k = true) ∧ d.liftsOver c k ∧ x = .booked) ∨
      (¬((d.windOf c).state.isVane = true ∧ d.hasJib c k = true) ∧ ¬d.liftsOver c k ∧ x = .free)) :
    ((d.cell k).queue = [] → ¬d.barred c k x → ((reconcileCell c d k).cell k).standing = .held c x none) ∧
      (d.barred c k x → ((reconcileCell c d k).cell k).standing = .draining c x) ∧
      ∀ w l, (d.cell k).queue = w :: l → d.tier w.cls < d.tier x →
        ((reconcileCell c d k).cell k).standing = .draining c x := by
  rw [reconcileCell_near hst hnear, reconciledClass_eq h]
  have hdrain : displaced d k c x (d.cell k).queue = true →
      (judge d k { d.cell k with standing := .held c x none }).standing = .draining c x := fun hd =>
    (judge_held_displaced (r := { d.cell k with standing := .held c x none }) rfl hd hnear).1
  refine ⟨fun hq hb => (judge_held (r := { d.cell k with standing := .held c x none }) rfl
      (not_displaced (by simp [hq]) hb) (lingerRule_stopped hnear)).1,
    fun hb => hdrain ((displaced_iff ..).mpr (.inr hb)),
    fun w l hq hlt => hdrain ((displaced_iff ..).mpr (.inl ⟨w, by simp [hq], hlt⟩))⟩

theorem reconcileCell_withdrawn {h : CraneIx} (hq : (d.cell k).queue = [⟨c, .lost⟩]) (hne : h ≠ c)
    (hst : (d.cell k).standing = .held h x none ∨ (d.cell k).standing = .draining h x)
    (hnear : d.relation h k ≠ .outside) (hb : ¬d.barred h k x) :
    ((reconcileCell c d k).cell k).standing = .held h x none ∧ ((reconcileCell c d k).cell k).queue = [] ∧
      ((reconcileCell c d k).cell k).contested = false := by
  have hholder : (d.cell k).standing.holder ≠ some c := by
    rcases hst with hst | hst <;> simpa [hst, Standing.holder] using hne
  have hkept : displaced d k h x ([] : List Waiter) = false := not_displaced (by simp) hb
  have hlinger := lingerRule_stopped (x := x) hnear
  rw [reconcileCell_waiter hholder hq]
  have hjudge : (judge d k { d.cell k with queue := [] }).standing = .held h x none ∧
      (judge d k { d.cell k with queue := [] }).queue = [] ∧
      (judge d k { d.cell k with queue := [] }).intruders = (d.cell k).intruders :=
    hst.elim (fun hst => judge_held (r := { d.cell k with queue := [] }) hst hkept hlinger)
      fun hst => judge_draining (r := { d.cell k with queue := [] }) hst hkept hlinger
  obtain ⟨hstanding, hqueue, -⟩ := hjudge
  exact ⟨hstanding, hqueue, judge_not_contested (by simp [hqueue])⟩

/-- Settles O40: a loss converts each cell alone; a return judges each cell at the class R79 gives. -/
theorem lossAndReturnConvertClaims : Obligations.LossAndReturnConvertClaims := by
  refine ⟨fun s c i hreset h => ?_, fun d c k => ?_⟩
  · have hnext := exec_loses hreset h
    have hheld := fun k => loseCrane_holder (d := s.dev) (c := c) (k := k)
    have hasked := fun k => loseCrane_waits (d := s.dev) (c := c) (k := k)
    have hcrane := loseCrane_crane c s.dev
    have hraised := loseCrane_linkLost c s.dev
    have hwind := loseCrane_windOf c s.dev
    have hothers := (ForCrane.loseCrane c s.dev).others
    have hframe := loseCrane_frame c s.dev
    generalize loseCrane c s.dev = t at *
    exact ⟨{ s with dev := t }, hnext, hcrane, hraised, hheld, hasked, hwind, hothers,
      congrArg (fun d => ({ s with dev := d } : State)) hframe⟩
  · have hother := (Local.reconcileCell c).other d k
    have honly := (Local.reconcileCell c).only d k
    have hgiven := reconcileCell_givenOn (d := d) (c := c) (k := k)
    have hnear := fun x => reconcileCell_lost (d := d) (c := c) (k := k) (x := x)
    have hwaiter := fun h x => reconcileCell_withdrawn (d := d) (c := c) (k := k) (h := h) (x := x)
    have hunmoved := reconcileCell_unmoved (d := d) (c := c) (k := k)
    generalize reconcileCell c d k = t at *
    exact ⟨hother, honly, hgiven, fun x hst ho hx => hnear x hst ho hx, fun h x hq hne hst ho hb =>
      hwaiter h x hq hne hst ho hb, hunmoved⟩

end Sys2Proof.Machine
end

