-- ==== Sys2Proof/Proofs/WarmResets.lean ====
section
/-! SUPPORT. WARM_RESTART: the booking table across a warm reset, and the other blocks' warm values. -/

namespace Sys2Proof.Machine

/-! ### Bookings left of a table -/

theorem modifyBooking_ids {f : Booking → Booking} (hf : ∀ b, (f b).id = b.id) (id : Nat) (l : List Booking) :
    (modifyBooking id f l).map (fun b => b.id) = l.map fun b => b.id := by
  rw [modifyBooking, List.map_map]
  refine List.map_congr_left fun b _ => ?_
  simp only [Function.comp]
  split
  exacts [hf b, rfl]

theorem unlinkPred_ids (b : Booking) (l : List Booking) :
    (unlinkPred b l).map (fun b => b.id) = l.map fun b => b.id := by
  unfold unlinkPred
  split
  · exact modifyBooking_ids (f := fun x => { x with succ := none }) (fun _ => rfl) _ l
  · rfl

/-- A booking of the table that has lost at most its link forward. -/
theorem unlinked_of_mem {b x : Booking} {l : List Booking} (h : x ∈ unlinkPred b l) :
    ∃ y ∈ l, y.id = x.id ∧ y.state = x.state ∧ y.overrun = x.overrun := by
  unfold unlinkPred at h
  split at h
  · obtain ⟨y, hy, rfl⟩ := List.mem_map.mp h
    refine ⟨y, hy, ?_⟩
    split <;> exact ⟨rfl, rfl, rfl⟩
  · exact ⟨x, h, rfl, rfl, rfl⟩

theorem dropChain_ids : ∀ (fuel id : Nat) (l : List Booking),
    ((dropChain fuel id l).map fun b => b.id).Sublist (l.map fun b => b.id)
  | 0, _, l => List.Sublist.refl _
  | fuel + 1, id, l => by
    unfold dropChain
    split
    · exact List.Sublist.refl _
    · next b _ =>
      have hdrop : ((removeBooking id (unlinkPred b l)).map fun b => b.id).Sublist (l.map fun b => b.id) :=
        unlinkPred_ids b l ▸ (removeBooking_sublist id _).map _
      dsimp only
      split
      exacts [(dropChain_ids fuel _ _).trans hdrop, hdrop]

theorem mem_dropChain : ∀ (fuel id : Nat) (l : List Booking) (x : Booking), x ∈ dropChain fuel id l →
    ∃ y ∈ l, y.id = x.id ∧ y.state = x.state ∧ y.overrun = x.overrun ∧ (0 < fuel → x.id ≠ id)
  | 0, _, _, x, h => ⟨x, h, rfl, rfl, rfl, fun h => absurd h (Nat.lt_irrefl 0)⟩
  | fuel + 1, id, l, x, h => by
    unfold dropChain at h
    split at h
    · next hnone =>
      refine ⟨x, h, rfl, rfl, rfl, fun _ => ?_⟩
      simpa using List.find?_eq_none.mp hnone x h
    · next b _ =>
      dsimp only at h
      have hdropped : ∃ z ∈ removeBooking id (unlinkPred b l), z.id = x.id ∧ z.state = x.state ∧
          z.overrun = x.overrun := by
        split at h
        · obtain ⟨z, hz, h1, h2, h3, -⟩ := mem_dropChain fuel _ _ x h
          exact ⟨z, hz, h1, h2, h3⟩
        · exact ⟨x, h, rfl, rfl, rfl⟩
      obtain ⟨z, hz, h1, h2, h3⟩ := hdropped
      obtain ⟨hmem, hne⟩ := (mem_removeBooking id _ z).mp hz
      obtain ⟨y, hy, h1', h2', h3'⟩ := unlinked_of_mem hmem
      exact ⟨y, hy, h1'.trans h1, h2'.trans h2, h3'.trans h3, fun _ => h1 ▸ hne⟩

/-! ### The table across a warm reset (R149) -/

/-- A booking after a warm reset has dealt with it. -/
def Booking.warmed (b : Booking) : Booking := if b.state.running then { b with state := .suspended } else b

theorem Booking.warmed_not_running (b : Booking) : b.warmed.state.running = false := by
  unfold Booking.warmed
  split
  · rfl
  · next h => simpa using h

theorem eq_of_ids {l : List Booking} {x y : Booking} (h : (l.map fun b => b.id).Nodup) (hx : x ∈ l) (hy : y ∈ l)
    (hid : x.id = y.id) : x = y := List.inj_on_of_nodup_map h hx hy hid

theorem warmBooking_ids (l : List Booking) (id : Nat) :
    ((warmBooking l id).map fun b => b.id).Sublist (l.map fun b => b.id) := by
  unfold warmBooking
  split
  · exact List.Sublist.refl _
  · split
    · split
      · exact dropChain_ids _ _ _
      · rw [modifyBooking_ids (f := fun x => { x with state := .suspended }) fun _ => rfl]
    · exact List.Sublist.refl _

/-- A booking `x` that a warm reset leaves comes from `y`, dealt with exactly where `dealt` holds. -/
structure WarmedFrom (dealt : Prop) (y x : Booking) : Prop where
  id : y.id = x.id
  overrun : y.overrun = x.overrun
  done : dealt → x.state = y.warmed.state ∧ ¬(y.state.running = true ∧ y.overrun = true)
  left : ¬dealt → x.state = y.state

theorem mem_warmBooking {l : List Booking} {id : Nat} {x : Booking} (hids : (l.map fun b => b.id).Nodup)
    (h : x ∈ warmBooking l id) : ∃ y ∈ l, WarmedFrom (y.id = id) y x := by
  have hkept : ∀ y ∈ l, y.id = x.id → y.overrun = x.overrun → y.state = x.state →
      (y.id = id → y.state.running = false) → ∃ y ∈ l, WarmedFrom (y.id = id) y x := fun y hy h1 h2 h3 hrun =>
    ⟨y, hy, h1, h2, fun hid => ⟨by rw [Booking.warmed, if_neg (by simp [hrun hid]), h3], by simp [hrun hid]⟩,
      fun _ => h3.symm⟩
  unfold warmBooking at h
  split at h
  · next hnone =>
    exact hkept x h rfl rfl rfl fun hid => absurd hid (by simpa using List.find?_eq_none.mp hnone x h)
  · next b hb =>
    have hmem := List.mem_of_find?_eq_some hb
    have hbid : b.id = id := by simpa using List.find?_some hb
    split at h
    · next hrun =>
      split at h
      · obtain ⟨y, hy, h1, h2, h3, hne⟩ := mem_dropChain _ _ _ x h
        exact hkept y hy h1 h3 h2 fun hid => absurd (h1.symm.trans hid) (hne (Nat.succ_pos _))
      · next hover =>
        obtain ⟨y, hy, rfl⟩ := List.mem_map.mp h
        by_cases hid : y.id = id
        · obtain rfl := eq_of_ids hids hy hmem (hid.trans hbid.symm)
          rw [if_pos (by simpa using hid)]
          exact ⟨y, hy, rfl, rfl, fun _ => ⟨by simp [Booking.warmed, hrun], fun h => hover h.2⟩,
            fun h => absurd hid h⟩
        · rw [if_neg (by simpa using hid)]
          exact ⟨y, hy, rfl, rfl, fun h => absurd h hid, fun _ => rfl⟩
    · next hrun =>
      refine hkept x h rfl rfl rfl fun hid => ?_
      obtain rfl := eq_of_ids hids h hmem (hid.trans hbid.symm)
      simpa using hrun

theorem mem_foldl_warmBooking {ids : List Nat} : ids.Nodup → ∀ {l : List Booking} {x : Booking},
    (l.map fun b => b.id).Nodup → x ∈ ids.foldl warmBooking l → ∃ y ∈ l, WarmedFrom (y.id ∈ ids) y x := by
  induction ids with
  | nil => exact fun _ _ x _ h => ⟨x, h, rfl, rfl, nofun, fun _ => rfl⟩
  | cons i ids ih =>
    intro hnodup l x hids h
    obtain ⟨hi, hnodup⟩ := List.nodup_cons.mp hnodup
    obtain ⟨z, hz, hzx⟩ := ih hnodup ((warmBooking_ids l i).nodup hids) h
    obtain ⟨y, hy, hyz⟩ := mem_warmBooking hids hz
    have hsame : z.state = y.state → z.warmed.state = y.warmed.state := fun h => by
      simp only [Booking.warmed, h]
      split
      exacts [rfl, h]
    refine ⟨y, hy, hyz.id.trans hzx.id, hyz.overrun.trans hzx.overrun, fun hdealt => ?_, fun hnot => ?_⟩
    · by_cases hyi : y.id = i
      · have hstate := hzx.left (hyz.id ▸ hyi ▸ hi)
        exact ⟨hstate.trans (hyz.done hyi).1, (hyz.done hyi).2⟩
      · have hstate := hyz.left hyi
        obtain ⟨h1, h2⟩ := hzx.done (hyz.id ▸ (List.mem_cons.mp hdealt).resolve_left hyi)
        rw [hstate, ← hyz.overrun] at h2
        exact ⟨h1.trans (hsame hstate), h2⟩
    · rw [List.mem_cons, not_or] at hnot
      exact (hzx.left (hyz.id ▸ hnot.2)).trans (hyz.left hnot.1)

theorem mem_warmBookings {l : List Booking} {x : Booking} (hids : (l.map fun b => b.id).Nodup)
    (h : x ∈ warmBookings l) :
    ∃ y ∈ l, y.id = x.id ∧ x.state = y.warmed.state ∧ ¬(y.state.running = true ∧ y.overrun = true) := by
  obtain ⟨y, hy, hfrom⟩ := mem_foldl_warmBooking hids hids h
  obtain ⟨hstate, hover⟩ := hfrom.done (List.mem_map_of_mem hy)
  exact ⟨y, hy, hfrom.id, hstate, hover⟩

theorem warmBooking_of_no_overrun {l : List Booking} (hids : (l.map fun b => b.id).Nodup)
    (h : ∀ b ∈ l, b.overrun = false) (id : Nat) :
    warmBooking l id = l.map fun b => if b.id = id then b.warmed else b := by
  have hother : (∀ b ∈ l, b.id = id → b.state.running = false) →
      l = l.map fun b => if b.id = id then b.warmed else b := fun hrun => by
    refine (List.map_id l).symm.trans (List.map_congr_left fun b hb => ?_)
    split
    · next hid => simp [Booking.warmed, hrun b hb hid]
    · rfl
  unfold warmBooking
  split
  · next hnone => exact hother fun b hb hid => absurd hid (by simpa using List.find?_eq_none.mp hnone b hb)
  · next b hb =>
    have hmem := List.mem_of_find?_eq_some hb
    have hbid : b.id = id := by simpa using List.find?_some hb
    have hsame : ∀ x ∈ l, x.id = id → x = b := fun x hx hid => eq_of_ids hids hx hmem (hid.trans hbid.symm)
    split
    · next hrun =>
      rw [if_neg (by simp [h b hmem]), modifyBooking]
      refine List.map_congr_left fun x hx => ?_
      by_cases hid : x.id = id
      · rw [if_pos (by simpa using hid), if_pos hid, hsame x hx hid, Booking.warmed, if_pos hrun]
      · rw [if_neg (by simpa using hid), if_neg hid]
    · next hrun => exact hother fun x hx hid => by simpa [hsame x hx hid] using hrun

theorem Booking.warmed_id (b : Booking) : b.warmed.id = b.id := by unfold Booking.warmed; split <;> rfl

theorem Booking.warmed_overrun (b : Booking) : b.warmed.overrun = b.overrun := by
  unfold Booking.warmed; split <;> rfl

theorem foldl_warmBooking_of_no_overrun (ids : List Nat) : ids.Nodup → ∀ l : List Booking,
    (l.map fun b => b.id).Nodup → (∀ b ∈ l, b.overrun = false) →
    ids.foldl warmBooking l = l.map fun b => if b.id ∈ ids then b.warmed else b := by
  induction ids with
  | nil => intro _ l _ _; simp
  | cons i ids ih =>
    intro hnodup l hids h
    obtain ⟨hi, hnodup⟩ := List.nodup_cons.mp hnodup
    have hstep := warmBooking_of_no_overrun hids h i
    rw [List.foldl_cons, ih hnodup _ ((warmBooking_ids l i).nodup hids) ?_, hstep, List.map_map]
    · refine List.map_congr_left fun b _ => ?_
      by_cases hb : b.id = i
      · simp [hb, Booking.warmed_id, hi]
      · simp [hb]
    · rw [hstep]
      intro x hx
      obtain ⟨b, hb, rfl⟩ := List.mem_map.mp hx
      split
      exacts [(Booking.warmed_overrun b).trans (h b hb), h b hb]

theorem warmBookings_of_no_overrun {l : List Booking} (hids : (l.map fun b => b.id).Nodup)
    (h : ∀ b ∈ l, b.overrun = false) : warmBookings l = l.map Booking.warmed := by
  rw [warmBookings, foldl_warmBooking_of_no_overrun _ hids l hids h]
  exact List.map_congr_left fun b hb => if_pos (List.mem_map_of_mem hb)

/-- Settles O60: each block at its warm values, the table booking by booking. -/
theorem warmRestartKeepsWhatR182Keeps : Obligations.WarmRestartKeepsWhatR182Keeps := by
  intro s hs
  refine ⟨warmReset s.dev, act_served hs rfl, fun c => ⟨?_, ?_, ?_, ?_, ?_⟩, fun k => ?_, rfl, fun k => ?_, rfl, rfl,
    fun hids => ⟨fun b hb => ?_, fun b hb hrun hover => ?_, fun h => warmBookings_of_no_overrun hids h⟩, rfl⟩
  · simp [warmReset, Device.crane, CraneRec.reset]
  · simp [warmReset, Device.reachOf]
  · simp [warmReset, Device.permitOf]
  · simp [warmReset, Device.port, Port.reset]
  · simp [warmReset, Device.windOf, WindRec.warmReset, WindRec.warm]
  · simp [warmReset, Device.cell, CellClaim.reset]
  · simp [warmReset, Device.faultEntry, FaultUnit.warm]
  · obtain ⟨y, -, -, hstate, -⟩ := mem_warmBookings hids hb
    exact hstate ▸ y.warmed_not_running
  · rw [booking_eq_none]
    intro x hx hid
    obtain ⟨y, hy, hyx, -, hnot⟩ := mem_warmBookings hids hx
    obtain rfl := eq_of_ids hids hy hb (hyx.trans hid)
    exact hnot ⟨hrun, hover⟩

end Sys2Proof.Machine
end

