-- ==== Sys2Proof/Proofs/Queries.lean ====
section
/-! SUPPORT. QUERY: the record it names, and the segment of it that is sent. -/

namespace Sys2Proof.Machine

variable {s : State} {c : CraneIx} {restart : Bool}

/-! ### What a frame's delivery leaves as it stands -/

theorem delivered_planState (s : State) (c : CraneIx) (restart : Bool) :
    (s.delivered c restart).planState = s.dev.planState := by unfold State.delivered; split <;> rfl

theorem delivered_booking (s : State) (c : CraneIx) (restart : Bool) (id : Nat) :
    (s.delivered c restart).booking id = s.dev.booking id := by unfold State.delivered; split <;> rfl

theorem delivered_claimBytes (s : State) (c : CraneIx) (restart : Bool) (k : CellIx) :
    claimBytes (s.delivered c restart) k = claimBytes s.dev k := by unfold State.delivered; split <;> rfl

theorem delivered_planItem (s : State) (c : CraneIx) (restart : Bool) (item index : Nat) :
    planItem item index (s.delivered c restart) = planItem item index s.dev := by
  unfold State.delivered
  split <;> rfl

/-! ### The record a QUERY names -/

theorem queryRecord_plan {d : Device} {item : Nat} (index : Nat) (hitem : item ≤ 3) :
    queryRecord item index d =
      if d.planState = .loading then .error .busy
      else match planItem item index d with | some l => .ok l | none => .error .invalid := by
  simp only [queryRecord, if_pos hitem, beq_iff_eq] <;> rfl

theorem queryRecord_booking {d : Device} {id : Nat} (h : 1 ≤ id) (h' : id ≤ 65535) :
    queryRecord 6 id d =
      match d.booking id with | some b => .ok (bookingBytes b) | none => .error .unknownBooking := by
  have hwithin : within 1 65535 id = true := (within_iff ..).mpr ⟨h, h'⟩
  simp only [queryRecord, hwithin] <;> rfl

theorem queryRecord_no_item {d : Device} {item : Nat} (index : Nat) (h : 6 < item) :
    queryRecord item index d = .error .invalid := by
  rw [queryRecord, if_neg (by omega), if_neg (by simp; omega), if_neg (by simp; omega), if_neg (by simp; omega)]

/-! ### The frames -/

theorem query_refused {item index segment : Nat} {code : ReplyCode} (h : s.delivers c restart)
    (hrecord : queryRecord item index (s.delivered c restart) = .error code) :
    exec (.query c restart item index segment) s =
      .next { s with dev := (s.delivered c restart).reply c 0x0C code } := by
  refine (act_delivers h (queryFrame c item index segment)).trans ?_
  rw [queryFrame, hrecord]

theorem query_answered {item index segment : Nat} {l : List Byte} (h : s.delivers c restart)
    (hrecord : queryRecord item index (s.delivered c restart) = .ok l)
    (hsegment : segment * 52 < l.length ∨ segment = 0) :
    exec (.query c restart item index segment) s =
      .next { s with
        dev := (s.delivered c restart).sendFrame c (.reply ⟨0x0C, .ok, .none, some ⟨item, recordIndex item index,
          segment, max 1 ((l.length + 51) / 52), (l.drop (segment * 52)).take 52⟩⟩) } := by
  refine (act_delivers h (queryFrame c item index segment)).trans ?_
  have hcount : segment < segmentCount l := by
    simp only [segmentCount, Config.segmentBytes]
    omega
  simp only [queryFrame, hrecord, if_pos hcount]
  rfl

theorem query_no_segment {item index segment : Nat} {l : List Byte} (h : s.delivers c restart)
    (hrecord : queryRecord item index (s.delivered c restart) = .ok l) (hpast : l.length ≤ segment * 52)
    (hsegment : segment ≠ 0) :
    exec (.query c restart item index segment) s =
      .next { s with dev := (s.delivered c restart).reply c 0x0C .invalid } := by
  refine (act_delivers h (queryFrame c item index segment)).trans ?_
  have hcount : ¬segment < segmentCount l := by
    simp only [segmentCount, Config.segmentBytes]
    omega
  simp only [queryFrame, hrecord, if_neg hcount]

/-- An item whose index a REPLY gives on (entry 29). -/
theorem recordIndex_kept {item : Nat} (index : Nat) (h : item ≠ 0) (h' : item ≠ 3) :
    recordIndex item index = index := by
  rw [recordIndex, if_neg (by simp [h, h'])]

/-- A record whose index is given on as it is: the segments it has, and INVALID past them. -/
theorem query_answers {item index : Nat} {l : List Byte} (h : s.delivers c restart) (h0 : item ≠ 0) (h3 : item ≠ 3)
    (hrecord : queryRecord item index (s.delivered c restart) = .ok l) (segment : Nat) :
    (segment * 52 < l.length ∨ segment = 0 → exec (.query c restart item index segment) s =
      .next { s with
        dev := (s.delivered c restart).sendFrame c (.reply ⟨0x0C, .ok, .none, some ⟨item, index, segment,
          max 1 ((l.length + 51) / 52), (l.drop (segment * 52)).take 52⟩⟩) }) ∧
      (l.length ≤ segment * 52 → segment ≠ 0 → exec (.query c restart item index segment) s =
        .next { s with dev := (s.delivered c restart).reply c 0x0C .invalid }) := by
  refine ⟨fun hsegment => ?_, fun hpast hsegment => query_no_segment h hrecord hpast hsegment⟩
  have hnext := query_answered h hrecord hsegment
  rwa [recordIndex_kept index h0 h3] at hnext

/-- Settles O59: the record named, then its segments. -/
theorem queryAnswersASegment : Obligations.QueryAnswersASegment := by
  intro s c restart h
  have hplan : ∀ {item index : Nat} {l : List Byte}, item ≤ 3 → s.dev.planState ≠ .loading →
      planItem item index s.dev = some l → queryRecord item index (s.delivered c restart) = .ok l := by
    intro item index l hitem hstate hl
    rw [queryRecord_plan index hitem, if_neg (by rwa [delivered_planState]), delivered_planItem, hl]
  have hnone : ∀ {item index : Nat}, item ≤ 3 → s.dev.planState ≠ .loading →
      planItem item index s.dev = none → queryRecord item index (s.delivered c restart) = .error .invalid := by
    intro item index hitem hstate hl
    rw [queryRecord_plan index hitem, if_neg (by rwa [delivered_planState]), delivered_planItem, hl]
  refine ⟨fun x => query_answers h (by decide) (by decide) ?_, fun k => query_answers h (by decide) (by decide) ?_,
    fun id b h1 h2 hb => query_answers h (by decide) (by decide) ?_, fun id h1 h2 hb segment => query_refused h ?_,
    fun item index hitem hstate segment => query_refused h ?_,
    fun hstate => ⟨fun x => query_answers h (by decide) (by decide) (hplan (by decide) hstate ?_),
      fun k => query_answers h (by decide) (by decide) (hplan (by decide) hstate ?_),
      fun index => ⟨fun segment => query_refused h (hnone (by decide) hstate ?_),
        fun segment => query_refused h (hnone (by decide) hstate ?_)⟩,
      fun index => ⟨recordIndex 0 index, fun item l hitem segment hsegment => ?_⟩⟩,
    fun index => ⟨fun segment => query_refused h ?_, fun segment => query_refused h ?_⟩,
    fun index hindex segment => query_refused h ?_,
    fun item index hitem segment => query_refused h (queryRecord_no_item index hitem)⟩
  · simp [queryRecord, craneIx?_val]
  · simp [queryRecord, cellIx?_val, delivered_claimBytes]
  · rw [queryRecord_booking h1 h2, delivered_booking, hb]
  · rw [queryRecord_booking h1 h2, delivered_booking, hb]
  · rw [queryRecord_plan index hitem, if_pos (by rwa [delivered_planState])]
  · simp [planItem, craneIx?_val]
  · simp [planItem, cellIx?_val]
  · simp [planItem, craneIx?_of_le]
  · simp [planItem, cellIx?_of_le]
  · rcases hitem with ⟨rfl, rfl⟩ | ⟨rfl, rfl⟩
    · exact query_answered h (hplan (by decide) hstate rfl) (.inl hsegment)
    · exact query_answered h (hplan (by decide) hstate rfl) (.inl hsegment)
  · simp [queryRecord, craneIx?_of_le]
  · simp [queryRecord, cellIx?_of_le]
  · have hwithin : within 1 65535 index = false := by
      rw [← Bool.not_eq_true, within_iff]
      omega
    simp [queryRecord, hwithin]

end Sys2Proof.Machine
end

