-- ==== Sys2Proof/Proofs/Records.lean ====
section
/-! SUPPORT. The supervisor's reading commands, and the booking, cell claim and crane records as bytes. -/

namespace Sys2Proof.Machine

/-! ### NEXT_BOOKING (R150) -/

theorem bookingAfter_unknown {id : Nat} {l : List Booking} (hid : 1 ≤ id) (h : ∀ b ∈ l, b.id ≠ id) :
    bookingAfter id l = none := by
  have hdrop : l.dropWhile (fun b => b.id != id) = [] :=
    List.dropWhile_eq_nil_iff.mpr fun b hb => by simpa using h b hb
  rw [bookingAfter, if_neg (by simp; omega), hdrop]

theorem bookingAfter_found {b : Booking} {l rest : List Booking} (hid : 1 ≤ b.id) (h : ∀ y ∈ l, y.id ≠ b.id) :
    bookingAfter b.id (l ++ b :: rest) = some rest.head? := by
  have hdrop : (l ++ b :: rest).dropWhile (fun y => y.id != b.id) = b :: rest := by
    rw [List.dropWhile_append_of_pos fun y hy => by simpa using h y hy, List.dropWhile_cons_of_neg (by simp)]
  rw [bookingAfter, if_neg (by simp; omega), hdrop]

/-! ### The booking record (Table 10-7) -/

theorem flagByte_eq (b : Bool) : flagByte b = if b then 1 else 0 := by cases b <;> rfl

/-- The first 24 bytes of a booking record. -/
def bookingHead (b : Booking) : List Byte :=
  beBytes 2 b.id ++ [byte b.crane.val, byte b.state.code] ++ optBytes 4 b.windowStart ++ optBytes 4 b.windowEnd ++
    beBytes 2 b.length ++ beBytes 4 b.reservedStart ++ beBytes 4 b.reservedEnd ++
    [byte b.sail.code, byte b.path.length]

/-- The eight bytes of a booking's path. -/
def pathBytes (b : Booking) : List Byte := (b.path.map fun k => byte k.val) ++ absent (8 - b.path.length)

/-- The last seven bytes of a booking record. -/
def bookingTail (b : Booking) : List Byte :=
  [byte b.cycles] ++ beBytes 2 (b.pred.getD 0) ++ beBytes 2 (b.succ.getD 0) ++
    [flagByte b.overrun, byte b.origin.code]

theorem bookingBytes_eq (b : Booking) : bookingBytes b = bookingHead b ++ (pathBytes b ++ bookingTail b) := by
  simp only [bookingBytes, bookingHead, pathBytes, bookingTail, List.append_assoc]

theorem bookingHead_length (b : Booking) : (bookingHead b).length = 24 := by
  simp [bookingHead, optBytes_length]

theorem pathBytes_length {b : Booking} (h : b.path.length ≤ 8) : (pathBytes b).length = 8 := by
  simp [pathBytes, absent]
  omega

theorem bookingTail_length (b : Booking) : (bookingTail b).length = 7 := rfl

/-- A byte of the first 24. -/
theorem bookingBytes_head (b : Booking) {i : Nat} (h : i < 24) : (bookingBytes b)[i]? = (bookingHead b)[i]? := by
  rw [bookingBytes_eq, List.getElem?_append_left (by rwa [bookingHead_length])]

theorem bookingBytes_head_part (b : Booking) {i n : Nat} (h : i + n ≤ 24) :
    ((bookingBytes b).drop i).take n = ((bookingHead b).drop i).take n := by
  rw [bookingBytes_eq, List.drop_append_of_le_length (by rw [bookingHead_length]; omega),
    List.take_append_of_le_length (by rw [List.length_drop, bookingHead_length]; omega)]

theorem bookingBytes_path {b : Booking} (h : b.path.length ≤ 8) :
    ((bookingBytes b).drop 24).take 8 = pathBytes b := by
  rw [bookingBytes_eq, List.drop_left' (bookingHead_length b), List.take_left' (pathBytes_length h)]

theorem bookingBytes_tail {b : Booking} (h : b.path.length ≤ 8) : (bookingBytes b).drop 32 = bookingTail b := by
  rw [bookingBytes_eq, ← List.append_assoc, List.drop_left']
  rw [List.length_append, bookingHead_length, pathBytes_length h]

theorem bookingBytes_tail_byte {b : Booking} (h : b.path.length ≤ 8) (i : Nat) :
    (bookingBytes b)[32 + i]? = (bookingTail b)[i]? := by
  rw [← bookingBytes_tail h, List.getElem?_drop]

/-- The bytes of a booking's length, reservation, class and path count. -/
def bookingSpan (b : Booking) : List Byte :=
  beBytes 2 b.length ++ beBytes 4 b.reservedStart ++ beBytes 4 b.reservedEnd ++ [byte b.sail.code, byte b.path.length]

theorem bookingHead_window (b : Booking) :
    ((bookingHead b).drop 4).take 8 = optBytes 4 b.windowStart ++ optBytes 4 b.windowEnd := by
  unfold bookingHead Booking.windowStart Booking.windowEnd
  cases b.window <;> rfl

theorem bookingBytes_window (b : Booking) :
    ((bookingBytes b).drop 4).take 8 = optBytes 4 b.windowStart ++ optBytes 4 b.windowEnd := by
  rw [bookingBytes_head_part b (by decide), bookingHead_window]

theorem bookingHead_span (b : Booking) : (bookingHead b).drop 12 = bookingSpan b := by
  unfold bookingHead Booking.windowStart Booking.windowEnd
  cases b.window <;> rfl

theorem bookingBytes_span (b : Booking) {i n : Nat} (h : i + n ≤ 12) :
    ((bookingBytes b).drop (12 + i)).take n = ((bookingSpan b).drop i).take n := by
  rw [bookingBytes_head_part b (by omega), ← List.drop_drop, bookingHead_span]

theorem bookingBytes_span_byte (b : Booking) {i : Nat} (h : i < 12) :
    (bookingBytes b)[12 + i]? = (bookingSpan b)[i]? := by
  rw [bookingBytes_head b (by omega), ← bookingHead_span, List.getElem?_drop]

/-! ### The cell claim record (R84) -/

/-- The standing of a cell as bytes: holder, class and the two timers. -/
def standingBytes (st : Standing) : List Byte :=
  [byte st.code] ++ optBytes 1 (st.holder.map fun c => c.val) ++ optBytes 1 (st.cls.map ClaimClass.code) ++
    optBytes 2 st.takeUp ++ optBytes 2 st.linger

/-- A cell's waiters, inhibit set, intruders and two flags as bytes. -/
def crowdBytes (r : CellClaim) : List Byte :=
  listBytes (fun w => [byte w.crane.val, byte w.cls.code]) r.queue ++ listBytes (fun c => [byte c.val]) r.inhibit ++
    listBytes (fun c => [byte c.val]) r.intruders ++ [flagByte r.contested, flagByte r.intruded]

theorem claimBytes_eq (d : Device) (k : CellIx) :
    claimBytes d k = byte k.val :: (standingBytes (d.cell k).standing ++ crowdBytes (d.cell k)) := by
  simp only [claimBytes, standingBytes, crowdBytes, List.append_assoc, List.cons_append, List.nil_append]

theorem standingBytes_length (st : Standing) : (standingBytes st).length = 7 := by
  simp [standingBytes, optBytes_length]

theorem claimBytes_standing (d : Device) (k : CellIx) :
    ((claimBytes d k).drop 1).take 7 = standingBytes (d.cell k).standing := by
  rw [claimBytes_eq, List.drop_succ_cons, List.drop_zero, List.take_left' (standingBytes_length _)]

theorem claimBytes_crowd (d : Device) (k : CellIx) : (claimBytes d k).drop 8 = crowdBytes (d.cell k) := by
  rw [claimBytes_eq, List.drop_succ_cons, List.drop_left' (standingBytes_length _)]

theorem crowdBytes_length (r : CellClaim) :
    (crowdBytes r).length = 5 + 2 * r.queue.length + r.inhibit.length + r.intruders.length := by
  have hwaiter : ∀ w : Waiter, ([byte w.crane.val, byte w.cls.code] : List Byte).length = 2 := fun _ => rfl
  have hcrane : ∀ c : CraneIx, ([byte c.val] : List Byte).length = 1 := fun _ => rfl
  simp only [crowdBytes, listBytes, List.length_append, List.length_cons, List.length_nil,
    flatMap_length_of_width hwaiter, flatMap_length_of_width hcrane]
  omega

theorem listBytes_one (f : CellIx → Byte) (l : List CellIx) :
    listBytes (fun k => [f k]) l = byte l.length :: l.map f := by rw [listBytes, List.map_eq_flatMap]

/-! ### The crane record (R170) -/

theorem sailSetBytes_eq (x : SailSet) :
    sailSetBytes x = byte (x.l.toNat + x.m.toNat + x.s.toNat) ::
      ((if x.l then [0] else []) ++ (if x.m then [1] else []) ++ if x.s then [2] else []) := by
  obtain ⟨l, m, s⟩ := x
  cases l <;> cases m <;> cases s <;> rfl

theorem windState_bytes (w : WindState) :
    byte w.code :: optBytes 1 (w.sub.map VaneSub.code) = match w with
      | .calm => [0, 255] | .watch => [1, 255] | .halt => [2, 255]
      | .vane .clearing => [3, 0] | .vane .vaneFree => [3, 1] | .vane .forced => [3, 2] := by
  cases w with
  | vane sub => cases sub <;> rfl
  | _ => rfl

theorem optBytes_eq (n : Nat) (v : Option Nat) :
    optBytes n v = match v with | some v => beBytes n v | none => List.replicate n 255 := by
  cases v <;> rfl

theorem remaining_eq (r : CraneRec) : r.remaining = r.joinWait.or r.link := by
  unfold CraneRec.remaining
  cases r.joinWait <;> rfl

/-- The reach part of a crane with a position: the fields before the relation entries, and the entries. -/
theorem reachPart_eq (r : ReachRec) :
    1 :: beBytes 2 r.pos.slew ++ [byteOfInt r.pos.rate] ++ beBytes 2 r.pos.radius ++ [byteOfInt r.pos.speed] ++
        beBytes 2 r.pos.hook ++ beBytes 2 r.ma ++ beBytes 1 r.mr ++ envelopeBytes r.stop ++ envelopeBytes r.warn ++
        listBytes relEntryBytes r.entries =
      (1 :: beBytes 2 r.pos.slew ++ [byteOfInt r.pos.rate] ++ beBytes 2 r.pos.radius ++ [byteOfInt r.pos.speed] ++
        beBytes 2 r.pos.hook ++ beBytes 2 r.ma ++ [byte r.mr] ++ [r.stop, r.warn].flatMap envelopeBytes) ++
        byte r.entries.length :: r.entries.flatMap relEntryBytes := by
  simp only [listBytes, beBytes_one, List.flatMap_cons, List.flatMap_nil, List.append_nil, List.append_assoc]

/-- The permit part of a crane with a permit, its first fields and wind state together. -/
theorem permitPart_eq (p : Permit) :
    1 :: permitRecordBytes p =
      1 :: byte p.seq :: byte p.slewPlus.code :: byte p.slewMinus.code :: byte p.trolleyOut.code ::
        byte p.trolleyIn.code :: flagByte p.hoistStop :: flagByte p.release ::
        (byte p.wind.code :: optBytes 1 (p.wind.sub.map VaneSub.code)) ++ sailSetBytes p.classes ++
        [byte p.quality.code] ++
        (match p.booking with
          | some (id, st) => beBytes 2 id ++ [byte st.code]
          | none => [0, 0, 255]) ++
        cellListBytes p.heldList ++ cellListBytes p.grantedList ++ cellListBytes p.vacateList ++
        cellListBytes p.waitingList := rfl

/-- Settles O34: each command's answer, then the three records field by field. -/
theorem readingCommandsAnswerTheRecord : Obligations.ReadingCommandsAnswerTheRecord := by
  intro s hs
  refine ⟨fun index => ⟨act_served hs rfl, act_served hs rfl⟩,
    fun c => ⟨act_served hs ?_, act_served hs ?_⟩, fun k => ⟨act_served hs ?_, act_served hs ?_⟩,
    fun index h => ⟨act_served hs ?_, act_served hs ?_⟩, fun index h => ⟨act_served hs ?_, act_served hs ?_⟩,
    fun item index h => act_served hs ?_, fun id b hb => act_served hs ?_, fun id hb => act_served hs ?_,
    fun b l hl => act_served hs ?_, fun hl => act_served hs ?_, fun id hid hb => act_served hs ?_,
    fun l b x l' hid hl h => act_served hs ?_, fun l b hid hl h => ⟨act_served hs ?_, fun b h => ?_, fun d k => ?_,
      fun d c => ?_⟩⟩
  · simp [readPlanItem, planItem, craneIx?_val]
  · simp [readCrane, craneIx?_val]
  · simp [readPlanItem, planItem, cellIx?_val]
  · simp [readCell, cellIx?_val]
  · simp [readPlanItem, planItem, craneIx?_of_le h, Device.refuse]
  · simp [readCrane, craneIx?_of_le h, Device.refuse]
  · simp [readPlanItem, planItem, cellIx?_of_le h, Device.refuse]
  · simp [readCell, cellIx?_of_le h, Device.refuse]
  · obtain ⟨n, rfl⟩ : ∃ n, item = n + 4 := ⟨item - 4, by omega⟩
    rfl
  · rw [readBooking, hb]
  · rw [readBooking, hb]
  · rw [nextBooking, hl]
    rfl
  · rw [nextBooking, hl]
    rfl
  · rw [nextBooking, bookingAfter_unknown hid (booking_eq_none.mp hb)]
  · rw [nextBooking, hl, bookingAfter_found hid h]
    rfl
  · rw [nextBooking, hl, bookingAfter_found hid h]
    rfl
  · refine ⟨?_, ?_, ?_, ?_, fun x y hw => ?_, fun hw => ?_, ?_, ?_, ?_, ?_, ?_, ?_, ?_, ?_, ?_⟩
    · rw [bookingBytes_eq, List.length_append, List.length_append, bookingHead_length, pathBytes_length h,
        bookingTail_length]
    · exact bookingBytes_head_part b (by decide)
    · exact bookingBytes_head b (by decide)
    · refine (bookingBytes_head b (by decide)).trans ?_
      show some (byte b.state.code) = _
      cases b.state <;> rfl
    · exact (bookingBytes_window b).trans (by rw [Booking.windowStart, Booking.windowEnd, hw]; rfl)
    · exact (bookingBytes_window b).trans (by rw [Booking.windowStart, Booking.windowEnd, hw]; rfl)
    · exact bookingBytes_span b (i := 0) (by decide)
    · exact bookingBytes_span b (i := 2) (by decide)
    · refine (bookingBytes_span_byte b (i := 10) (by decide)).trans ?_
      show some (byte b.sail.code) = _
      cases b.sail <;> rfl
    · exact bookingBytes_span_byte b (i := 11) (by decide)
    · exact bookingBytes_path h
    · exact bookingBytes_tail_byte h 0
    · show ((bookingBytes b).drop (32 + 1)).take 4 = _
      rw [← List.drop_drop, bookingBytes_tail h]
      rfl
    · exact (bookingBytes_tail_byte h 5).trans (congrArg some (flagByte_eq _))
    · refine (bookingBytes_tail_byte h 6).trans ?_
      show some (byte b.origin.code) = _
      cases b.origin <;> rfl
  · refine ⟨?_, by rw [claimBytes_eq]; rfl, fun hst => ?_, fun c x n hst => ?_, fun c x hst => ?_,
      fun c x n hst => ?_, fun c x hst => ?_, ?_⟩
    · rw [claimBytes_eq, List.length_cons, List.length_append, standingBytes_length, crowdBytes_length]
      omega
    · exact (claimBytes_standing d k).trans (by rw [hst]; rfl)
    · exact (claimBytes_standing d k).trans (by rw [hst]; cases x <;> rfl)
    · exact (claimBytes_standing d k).trans (by rw [hst]; cases x <;> rfl)
    · exact (claimBytes_standing d k).trans (by rw [hst]; cases x <;> rfl)
    · exact (claimBytes_standing d k).trans (by rw [hst]; cases x <;> rfl)
    · rw [claimBytes_crowd, crowdBytes, listBytes, listBytes, listBytes, flagByte_eq, flagByte_eq,
        ← List.map_eq_flatMap, ← List.map_eq_flatMap]
      refine congrArg (fun l => byte (d.cell k).queue.length :: l ++ _ ++ _ ++ _) ?_
      refine congrArg (fun f => (d.cell k).queue.flatMap f) (funext fun w => ?_)
      cases w.cls <;> rfl
  · refine congrArg₂ (· ++ ·) (congrArg₂ (· ++ ·) (congrArg₂ (· ++ ·) (congrArg₂ (· ++ ·) (congrArg₂ (· ++ ·)
      ?_ ?_) ?_) ?_) ?_) ?_
    · refine congrArg₂ List.cons rfl (congrArg₂ List.cons ?_ (congrArg₂ List.cons ?_
        (congrArg (fun l => byte (d.crane c).errored :: byte (d.crane c).lastPeriod :: l) ?_)))
      · cases (d.crane c).membership <;> rfl
      · cases (d.crane c).quality <;> rfl
      · rw [remaining_eq]
        exact optBytes_eq 2 _
    · unfold reachBytes
      cases d.reachOf c with
      | none => rfl
      | some r =>
        refine (reachPart_eq r).trans (congrArg₂ (· ++ ·) rfl (congrArg (byte r.entries.length :: ·) ?_))
        refine congrArg (fun f => r.entries.flatMap f) (funext fun e => ?_)
        refine congrArg₂ (· ++ ·) (congrArg₂ (· ++ ·) (congrArg₂ (· ++ ·) (congrArg₂ (· ++ ·)
          (congrArg₂ List.cons rfl (congrArg₂ List.cons ?_ ?_)) ?_) ?_) ?_) ?_
        · cases e.now <;> rfl
        · rcases e.prev with - | (_ | _) <;> rfl
        · rcases e.slewToward with - | (_ | _) <;> rfl
        · rcases e.trolleyToward with - | (_ | _) <;> rfl
        · rcases e.slewExit with - | (_ | _) <;> rfl
        · rcases e.trolleyExit with - | (_ | _) <;> rfl
    · unfold permitPartBytes
      cases d.permitOf c with
      | none => rfl
      | some p =>
        refine (permitPart_eq p).trans (congrArg₂ (· ++ ·) (congrArg₂ (· ++ ·) (congrArg₂ (· ++ ·) (congrArg₂ (· ++ ·)
          (congrArg₂ (· ++ ·) (congrArg₂ (· ++ ·) (congrArg₂ (· ++ ·) (congrArg (fun l => 1 :: byte p.seq :: l)
            (congrArg₂ List.cons ?_ (congrArg₂ List.cons ?_ (congrArg₂ List.cons ?_ (congrArg₂ List.cons ?_
              (congrArg₂ List.cons (flagByte_eq _) (congrArg₂ List.cons (flagByte_eq _) ?_)))))))
            (sailSetBytes_eq _)) ?_) ?_) (listBytes_one _ _)) (listBytes_one _ _)) (listBytes_one _ _))
            (listBytes_one _ _))
        · cases p.slewPlus <;> rfl
        · cases p.slewMinus <;> rfl
        · cases p.trolleyOut <;> rfl
        · cases p.trolleyIn <;> rfl
        · exact windState_bytes _
        · cases p.quality <;> rfl
        · rcases p.booking with - | ⟨id, _ | _⟩ <;> rfl
    · refine congrArg₂ (· ++ ·) (congrArg₂ (· ++ ·) (congrArg₂ (· ++ ·) (congrArg₂ (· ++ ·) (congrArg₂ (· ++ ·)
        (congrArg₂ (· ++ ·) (congrArg₂ (· ++ ·) (congrArg₂ (· ++ ·) (congrArg₂ (· ++ ·) (congrArg₂ (· ++ ·)
          (congrArg₂ List.cons ?_ (congrArg₂ List.cons ?_ (congrArg₂ List.cons ?_ (optBytes_eq 1 _)))) rfl) rfl)
          (optBytes_eq 2 _)) (optBytes_eq 2 _)) rfl) rfl) rfl) ?_) rfl) rfl
      · cases (d.windOf c).source <;> rfl
      · cases d.source c <;> rfl
      · cases (d.windOf c).channel <;> rfl
      · simp only [flagByte_eq]
    · refine congrArg₂ (· ++ ·) (congrArg₂ (· ++ ·) (congrArg₂ (· ++ ·) (windState_bytes _) (sailSetBytes_eq _))
        (optBytes_eq 2 _)) ?_
      cases d.level c <;> rfl
    · exact congrArg₂ List.cons (flagByte_eq _) rfl

end Sys2Proof.Machine
end

