-- ==== Sys2Proof/Proofs/Autoload.lean ====
section
/-! SUPPORT. Autoload: what each group read does, and the causes a load ends with. -/

namespace Sys2Proof.Machine

variable {d : Device} {l : Load}

/-! ### A group read (R18) -/

theorem loadRead_header {data : List Byte} (h : d.load = some l) (hg : l.group = .header) :
    loadRead (some data) d = loadHeader l data d := by simp only [loadRead, h, hg]

theorem loadRead_site {data : List Byte} (h : d.load = some l) (hg : l.group = .site) :
    loadRead (some data) d = loadSite l data d := by simp only [loadRead, h, hg]

theorem loadRead_cranes {data : List Byte} (h : d.load = some l) (hg : l.group = .cranes) :
    loadRead (some data) d = loadCranes l data d := by simp only [loadRead, h, hg]

theorem loadRead_cells {data : List Byte} (h : d.load = some l) (hg : l.group = .cells) :
    loadRead (some data) d = loadCells l data d := by simp only [loadRead, h, hg]

theorem loadRead_trailer {data : List Byte} (h : d.load = some l) (hg : l.group = .trailer) :
    loadRead (some data) d = loadTrailer l data d := by simp only [loadRead, h, hg]

theorem signature_iff (a b : Byte) (rest : List Byte) :
    field 0 2 (a :: b :: rest) = 0xC3A9 ↔ a = 0xC3 ∧ b = 0xA9 := by
  rw [field_two]
  constructor
  · intro h
    have ha := a.isLt
    have hb := b.isLt
    exact ⟨BitVec.eq_of_toNat_eq (by simp; omega), BitVec.eq_of_toNat_eq (by simp; omega)⟩
  · rintro ⟨rfl, rfl⟩
    rfl

theorem loadHeader_signature {a b : Byte} {rest : List Byte} (h : ¬(a = 0xC3 ∧ b = 0xA9)) :
    loadHeader l (a :: b :: rest) d = failLoad .signature none d := by
  rw [← signature_iff a b rest] at h
  rw [loadHeader, if_neg (by simp), if_pos (by simpa using h)]

theorem loadHeader_selector {sel : Byte} :
    loadHeader l [0xC3, 0xA9, sel] d =
      if within 1 3 sel.toNat then
        d.loading ({ l with selector := some sel.toNat }.advance 3 l.staging)
      else failLoad .selector none d := by
  have hsel : field 2 1 ([0xC3, 0xA9, sel] : List Byte) = sel.toNat := field_one sel []
  rw [loadHeader, if_neg (by simp), if_neg (by simp [signature_iff]), if_neg (by simp), hsel]
  cases within 1 3 sel.toNat <;> rfl

theorem loadSite_whole {bytes : List Byte} (h : bytes.length = 27) :
    loadSite l bytes d = d.loading (l.advance 27 { l.staging with site := readSite bytes }) := by
  rw [loadSite, if_neg (by omega), List.take_of_length_le (Nat.le_of_eq h)]

theorem loadCranes_whole {bytes : List Byte} (h : bytes.length = 190) :
    loadCranes l bytes d = d.loading (l.advance 190 { l.staging with cranes := readProfiles bytes }) := by
  rw [loadCranes, if_neg (by omega)]

theorem loadCells_whole {bytes : List Byte} {cells : List (CellIx × CellRec)} {n : Nat}
    (h : readCellGroup bytes = .cells cells n) :
    loadCells l bytes d = d.loading (l.advance n (placeCells cells l.staging)) := by simp only [loadCells, h]

theorem planRead_of_load (h : d.load = some l) :
    d.planRead = some ⟨0x54, beBytes 2 l.address, l.group.bytes⟩ := by rw [Device.planRead, h]; rfl

theorem loadTrailer_whole {bytes : List Byte} (h : bytes.length = 4) :
    loadTrailer l bytes d = finishLoad l.staging (BitVec.ofNat 32 (beNat bytes)) d := by
  rw [loadTrailer, if_neg (by omega), field, List.drop_zero, List.take_of_length_le (Nat.le_of_eq h)]

/-! ### The end of a load (R19) -/

theorem finishLoad_digest {staging : Plan} {x : BitVec 32} (h : planDigest staging ≠ x) :
    finishLoad staging x d = failLoad .digest none d := by
  rw [finishLoad, if_pos (by simpa using h)]

theorem finishLoad_invalid {staging : Plan} {x : BitVec 32} {v : Violation} (h : planDigest staging = x)
    (hv : validate staging = some v) :
    finishLoad staging x d = failLoad .validation (some v.item) { d with validation := some (.failed v) } := by
  rw [finishLoad, if_neg (by simpa using h), hv]

theorem finishLoad_valid {staging : Plan} {x : BitVec 32} (h : planDigest staging = x)
    (hv : validate staging = none) :
    finishLoad staging x d = { d with
      load := none, plan := staging, digest := x, possession := allClosed, validation := some .pass
      autoloadResult := some .pass, planState := .active } := by
  rw [finishLoad, if_neg (by simpa using h), hv]

/-- The time of a load has passed where its timer stands at 0 (entry 2). -/
theorem expireIfDue_load (h : d.load = some l) :
    (l.remaining = 0 → expireIfDue d .load = failLoad .read none d) ∧
      (l.remaining ≠ 0 → expireIfDue d .load = d) := by
  have htimer : d.timer .load = some l.remaining := by simp [Device.timer, h]
  refine ⟨fun hr => ?_, fun hr => expireIfDue_of_not_due (by simpa [htimer] using hr)⟩
  rw [expireIfDue_of_due (by rw [htimer, hr])]
  show loadTimeout d = _
  simp only [loadTimeout, h]

/-- Settles O35: group by group, then the causes. -/
theorem autoloadEndsActiveOrEmpty : Obligations.AutoloadEndsActiveOrEmpty := by
  refine ⟨fun s l hreset h => ⟨fun sel hg h1 h3 => act_to hreset ?_, fun bytes sel hg hsel hlen => act_to hreset ?_,
      fun bytes sel hg hsel hlen => ?_, fun bytes cells n hg hcells => act_to hreset ?_,
      fun bytes hg hlen hdigest hvalid => act_to hreset ?_⟩,
    fun d => ⟨fun h => ?_, fun l h => ?_⟩,
    fun s hreset => ⟨fun h data => ⟨act_to hreset ?_, act_to hreset ?_⟩, fun l h => ⟨act_to hreset ?_,
      fun hr => act_to hreset ((expireIfDue_load h).1 hr), fun hr => act_to hreset ((expireIfDue_load h).2 hr),
      fun a b rest hg hab => act_to hreset ?_, fun sel hg hsel => act_to hreset ?_,
      fun bytes hg hbad => act_to hreset ?_,
      fun bytes hg hlen => ⟨fun hdigest => act_to hreset ?_, fun v hdigest hv => act_to hreset ?_⟩⟩⟩⟩
  · rw [loadRead_header h hg, loadHeader_selector, if_pos ((within_iff ..).mpr ⟨h1, h3⟩), Load.advance, hg]
    rfl
  · rw [loadRead_site h hg, loadSite_whole hlen, Load.advance, hg, hsel]
    rcases Nat.lt_or_ge sel 2 with hlt | hge
    · rw [if_pos hlt]
      simp [nextGroup, Nat.not_le.mpr hlt]
      rfl
    · rw [if_neg (Nat.not_lt.mpr hge)]
      simp [nextGroup, hge]
      rfl
  · refine ⟨{ s with dev := s.dev.loading (l.advance 190 { l.staging with cranes := readProfiles bytes }) },
      act_to hreset ?_, rfl, _, rfl, ?_, hsel, rfl, rfl, rfl, rfl, fun c => ?_⟩
    · rw [loadRead_cranes h hg, loadCranes_whole hlen]
    · simp [Load.advance, hg, hsel, nextGroup]
    · simp [Load.advance, readProfiles]
  · rw [loadRead_cells h hg, loadCells_whole hcells, Load.advance, hg]
    rfl
  · rw [loadRead_trailer h hg, loadTrailer_whole hlen, finishLoad_valid hdigest hvalid, ← hdigest]
    rfl
  · simp [Device.planRead, h]
  · refine (planRead_of_load h).trans (congrArg (fun n => some (PlanRead.mk 0x54 (beBytes 2 l.address) n)) ?_)
    cases l.group <;> rfl
  · simp [loadRead, h]
  · exact expireIfDue_of_not_due (by simp [Device.timer, h])
  · simp only [loadRead, h]
    rfl
  · rw [loadRead_header h hg, loadHeader_signature hab]
    rfl
  · rw [loadRead_header h hg, loadHeader_selector, if_neg]
    · rfl
    · rw [within_iff]
      rcases hsel with rfl | hsel
      · decide
      · omega
  · rw [loadRead_cells h hg, loadCells, hbad]
    rfl
  · rw [loadRead_trailer h hg, loadTrailer_whole hlen, finishLoad_digest hdigest]
    rfl
  · rw [loadRead_trailer h hg, loadTrailer_whole hlen, finishLoad_invalid hdigest hv]
    cases v.item <;> rfl

end Sys2Proof.Machine
end

