-- ==== Sys2Proof/Proofs/Cancellations.lean ====
section
/-! SUPPORT. A frame answered after its claims and bookings have changed; CANCEL, CANCEL_BOOKING and ABORT_BOOKING. -/

namespace Sys2Proof.Machine

/-! ### Frames that change claims and bookings -/

/-- A frame whose effect stays with the claims and the bookings, and what is sent after it. -/
theorem next_of_sent {s : State} {o : Host.Outcome State Fault Refusal} {c : CraneIx} {restart : Bool} {e : Device}
    {f : TxFrame} (hnext : o = .next { s with dev := e.sendFrame c f }) (h : ClaimsOnly (s.heard c restart) e) :
    ∃ t, o = .next t ∧ t.dev.cells = e.cells ∧ t.dev.bookings = e.bookings ∧ t.dev.faults = e.faults ∧
      t.dev.port c = (s.dev.sendFrame c f).port c ∧ s.dev.sameElsewhere c t.dev ∧
      t = { s with dev := { s.heard c restart with
        cells := t.dev.cells, bookings := t.dev.bookings, ports := t.dev.ports, faults := t.dev.faults } } := by
  have hports : e.ports = s.dev.ports := h.ports
  have hothers : s.dev.sameElsewhere c (e.sendFrame c f) :=
    heard_sameElsewhere (sendFrame_sameElsewhere (h.windClaims c).sameElsewhere f)
  have hport : (e.sendFrame c f).port c = (s.dev.sendFrame c f).port c :=
    sendFrame_port_congr f (by rw [Device.port, hports, Device.port])
  have hframe : e.sendFrame c f = { s.heard c restart with
      cells := (e.sendFrame c f).cells, bookings := (e.sendFrame c f).bookings, ports := (e.sendFrame c f).ports
      faults := (e.sendFrame c f).faults } := by
    rw [sendFrame_eq]
    generalize (e.sendFrame c f).port c = p
    show e.setPort c p = { s.heard c restart with
      cells := e.cells, bookings := e.bookings, ports := e.ports.set c p, faults := e.faults }
    rw [h.ports]
    conv_lhs => rw [h]
    rfl
  have hcells : (e.sendFrame c f).cells = e.cells := by rw [sendFrame_eq]; rfl
  have hbookings := sendFrame_bookings c e f
  have hfaults := sendFrame_faults c e f
  generalize e.sendFrame c f = t at *
  exact ⟨{ s with dev := t }, hnext, hcells, hbookings, hfaults, hport, hothers,
    congrArg (fun d => ({ s with dev := d } : State)) hframe⟩

theorem booking_congr {d t : Device} (h : t.bookings = d.bookings) (id : Nat) : t.booking id = d.booking id := by
  rw [Device.booking, h, Device.booking]

/-! ### A booking retired with the chain behind it (R146) -/

/-- An id that is not live stays so while bookings only leave the table. -/
theorem TableLeft.booking_eq_none {d t : Device} (h : TableLeft d.bookings t.bookings) {n : Nat}
    (hn : d.booking n = none) : t.booking n = none := by
  rw [Machine.booking_eq_none] at hn ⊢
  intro x hx
  obtain ⟨y, hy, hid, -⟩ := h x hx
  exact hid ▸ hn y hy

theorem retireChain_left (reason : RetireReason) (h : reason ≠ .complete) : ∀ (fuel id : Nat) (d : Device),
    TableLeft d.bookings (retireChain fuel id reason d).bookings ∧
      (0 < fuel → (retireChain fuel id reason d).booking id = none)
  | 0, _, d => ⟨TableLeft.refl _, fun h => absurd h (Nat.lt_irrefl 0)⟩
  | fuel + 1, id, d => by
    unfold retireChain
    split
    · next hnone => exact ⟨TableLeft.refl _, fun _ => hnone⟩
    · next b hb =>
      have hone := retireOne_left b reason d
      have hgone : (retireOne b reason d).booking id = none := booking_eq_none.mpr fun x hx => by
        rw [retireOne_bookings, mem_removeBooking, booking_id hb] at hx
        exact hx.2
      have hrest : ∀ t : Device, TableLeft (retireOne b reason d).bookings t.bookings →
          TableLeft d.bookings t.bookings ∧ (0 < fuel + 1 → t.booking id = none) := fun t ht =>
        ⟨hone.trans ht, fun _ => ht.booking_eq_none hgone⟩
      dsimp only
      split
      · exact hrest _ (TableLeft.refl _)
      · split
        · exact absurd rfl h
        · exact hrest _ (TableLeft.refl _)
        · exact hrest _ (retireChain_left .chain (by decide) fuel _ _).1

/-- Retirement with neither completion nor departure takes the successor with it. -/
theorem retire_succ_gone {d : Device} {id n : Nat} {b : Booking} {reason : RetireReason} (hc : reason ≠ .complete)
    (hd : reason ≠ .detached) (hb : d.booking id = some b) (hn : b.succ = some n) :
    (retire id reason d).booking n = none := by
  have hfuel : 0 < d.bookings.length := List.length_pos_of_mem (booking_mem hb)
  have hchain : retire id reason d = retireChain d.bookings.length n .chain (retireOne b reason d) := by
    rw [retire, retireChain, hb]
    cases reason with
    | complete => exact absurd rfl hc
    | detached => exact absurd rfl hd
    | _ => simp only [hn]
  rw [hchain]
  exact (retireChain_left .chain (by decide) _ n _).2 hfuel

theorem retire_unchained {d : Device} {id : Nat} {b : Booking} {reason : RetireReason} (hb : d.booking id = some b)
    (hn : b.succ = none) : retire id reason d = retireOne b reason d := by
  rw [retire, retireChain, hb]
  simp only [hn]

theorem unlinkPred_eq (b : Booking) (l : List Booking) :
    unlinkPred b l = l.map fun x => if b.pred = some x.id then { x with succ := none } else x := by
  unfold unlinkPred
  cases b.pred with
  | none => simp
  | some p =>
    refine List.map_congr_left fun x _ => ?_
    by_cases h : p = x.id
    · simp [h]
    · simp [h, Ne.symm h]

/-- A booking is gone from a table with its successor, and nothing has come in. -/
def Device.cancelled (d : Device) (id : Nat) (b : Booking) (t : Device) : Prop :=
  t.booking id = none ∧ (∀ n, b.succ = some n → t.booking n = none) ∧
    (∀ x ∈ t.bookings, ∃ y ∈ d.bookings, y.id = x.id) ∧
    (b.succ = none → b.state = .pending ∨ b.state = .chained → t.cells = d.cells ∧
      t.bookings = removeBooking id (d.bookings.map fun x =>
        if b.pred = some x.id then { x with succ := none } else x))

theorem retire_cancelled {d : Device} {id : Nat} {b : Booking} (hb : d.booking id = some b) :
    d.cancelled id b (retire id .cancelled d) := by
  obtain ⟨hleft, hgone⟩ := retireChain_left .cancelled (by decide) (d.bookings.length + 1) id d
  refine ⟨hgone (Nat.succ_pos _), fun n hn => retire_succ_gone (by decide) (by decide) hb hn, fun x hx => ?_,
    fun hn hstate => ?_⟩
  · obtain ⟨y, hy, hid, -⟩ := hleft x hx
    exact ⟨y, hy, hid⟩
  · rw [retire_unchained hb hn, retireOne_bookings, booking_id hb, unlinkPred_eq]
    refine ⟨?_, rfl⟩
    rcases hstate with h | h <;> simp [retireOne, h, BookingState.running, BookingState.inForce]

theorem Device.cancelled.congr {d t t' : Device} {id : Nat} {b : Booking} (h : d.cancelled id b t)
    (hcells : t'.cells = t.cells) (hbookings : t'.bookings = t.bookings) : d.cancelled id b t' := by
  unfold Device.cancelled at h ⊢
  rwa [booking_congr hbookings, hcells, hbookings, show (∀ n, b.succ = some n → t'.booking n = none) =
    ∀ n, b.succ = some n → t.booking n = none by simp only [booking_congr hbookings]]

/-! ### CANCEL (R147) -/

theorem cancelRefusal_of_booking {d : Device} {c : CraneIx} {id : Nat} {b : Booking}
    (hmember : d.membership c = .admitted) (hb : d.booking id = some b) :
    cancelRefusal d c id =
      if b.crane ≠ c then some .unknownBooking
      else if b.origin = .supervisor ∨ b.state.running = true then some .wrongState else none := by
  simp [cancelRefusal, hmember, hb]

theorem cancelFrame_refused {d : Device} {c : CraneIx} {id : Nat} {code : ReplyCode}
    (h : cancelRefusal d c id = some code) : cancelFrame c id d = d.reply c 0x06 code := by
  rw [cancelFrame, h]

theorem cancelFrame_taken {d : Device} {c : CraneIx} {id : Nat} (h : cancelRefusal d c id = none) :
    cancelFrame c id d = (retire id .cancelled d).reply c 0x06 .ok := by
  rw [cancelFrame, h]

/-- Settles O50: Table 8-4, then what a retirement takes away. -/
theorem cancelledBookingsLeaveTheTable : Obligations.CancelledBookingsLeaveTheTable := by
  intro s id
  refine ⟨fun c restart hreset hmember => ?_, fun hnone => ⟨fun c restart hhears => ?_, fun hs =>
      ⟨act_served hs ?_, act_served hs ?_⟩⟩,
    fun b hb => ⟨fun c restart hhears => ?_, fun hs => ⟨fun hrun => act_served hs ?_, fun hrun =>
      ⟨retire id .cancelled s.dev, act_served hs ?_, retire_cancelled hb, retire_claimsOnly id .cancelled s.dev⟩,
      retire id .cancelled s.dev, act_served hs ?_, retire_cancelled hb, retire_claimsOnly id .cancelled s.dev⟩⟩⟩
  · refine (act_not_admitted restart hreset hmember (cancelFrame c id)).trans ?_
    rw [cancelFrame_refused (code := .notAdmitted) (by rw [cancelRefusal, if_pos (by simpa using hmember)])]
  · refine (act_hears hhears (cancelFrame c id)).trans ?_
    have hnone' : (s.heard c restart).booking id = none := hnone
    rw [cancelFrame_refused (code := .unknownBooking)
      (by rw [cancelRefusal, if_neg (by simp [heard_admitted hhears]), hnone'])]
  · rw [cancelBooking, hnone]
    rfl
  · rw [abortBooking, hnone]
    rfl
  · have hact := act_hears hhears (cancelFrame c id)
    have hcode := cancelRefusal_of_booking (heard_admitted hhears) (b := b) (id := id) (d := s.heard c restart) hb
    refine ⟨fun hc => hact.trans ?_, fun hc hor => hact.trans ?_, fun hc horigin hrun => ?_⟩
    · rw [cancelFrame_refused (hcode.trans (if_pos hc))]
    · rw [cancelFrame_refused (hcode.trans ((if_neg (not_not_intro hc)).trans (if_pos hor)))]
    · rw [cancelFrame_taken (hcode.trans ((if_neg (not_not_intro hc)).trans (if_neg (by simp [horigin, hrun]))))]
        at hact
      obtain ⟨t, hnext, hcells, hbookings, -, hport, hothers, hframe⟩ :=
        next_of_sent hact (retire_claimsOnly id .cancelled _)
      have hgone : s.dev.cancelled id b (retire id .cancelled (s.heard c restart)) :=
        retire_cancelled (d := s.heard c restart) hb
      exact ⟨t, hnext, hgone.congr hcells hbookings, hport, hothers, hframe⟩
  · rw [cancelBooking, hb]
    exact if_pos hrun
  · rw [cancelBooking, hb]
    exact if_neg (by simp [hrun])
  · rw [abortBooking, hb]
    rfl

end Sys2Proof.Machine
end

