-- ==== Sys2Proof/Proofs/BookRequests.lean ====
section
/-! SUPPORT. BOOK: the tests of R141 in their order, and the requests they refuse. -/

namespace Sys2Proof.Machine

variable {d : Device} {c : CraneIx} {b : BookReq} {path : List CellIx}

/-! ### A request's fields -/

theorem sail?_eq_none_iff (n : Nat) : sail? n = none ↔ 2 < n := by
  rcases n with - | - | - | n
  · decide
  · decide
  · decide
  · exact ⟨fun _ => by omega, fun _ => rfl⟩

theorem sail?_eq_some {n : Nat} (h : n ≤ 2) : ∃ sail, sail? n = some sail :=
  Option.ne_none_iff_exists'.mp fun hnone => absurd ((sail?_eq_none_iff n).mp hnone) (Nat.not_lt.mpr h)

theorem cycles_out {n : Nat} (h : n = 0 ∨ 255 < n) : within 1 255 n = false := by
  rw [← Bool.not_eq_true, within_iff]
  omega

theorem cellIx?_eq_some {n : Nat} {k : CellIx} (h : cellIx? n = some k) : n = k.val := by
  unfold cellIx? at h
  split at h
  · cases h
    rfl
  · cases h

theorem pathCells_map : ∀ path : List CellIx, pathCells (path.map fun k => k.val) = some path
  | [] => rfl
  | k :: path => by
    have hrest := pathCells_map path
    simp only [pathCells] at hrest
    simp [pathCells, cellIx?_val, hrest]

theorem pathCells_eq_some : ∀ {l : List Nat} {path : List CellIx}, pathCells l = some path → l = path.map fun k => k.val
  | [], path, h => by
    cases h
    rfl
  | n :: l, path, h => by
    simp only [pathCells, List.mapM_cons, Option.bind_eq_bind, Option.bind_eq_some_iff, Option.pure_def,
      Option.some.injEq] at h
    obtain ⟨k, hk, rest, hrest, rfl⟩ := h
    rw [List.map_cons, ← pathCells_eq_some hrest, ← cellIx?_eq_some hk]

theorem pathValid_iff (d : Device) (c : CraneIx) (path : List CellIx) :
    pathValid d c path = true ↔
      1 ≤ path.length ∧ path.length ≤ 8 ∧ path.Nodup ∧ ∀ k ∈ path, d.footprint c k ≠ none := by
  simp [pathValid, Option.isSome_iff_ne_none, and_assoc]

/-! ### Conditions 6 to 10 of R141 -/

theorem badWindow_iff (d : Device) (b : BookReq) :
    badWindow d b = true ↔
      (b.form = 0 ∧ (b.second ≤ b.first ∨ b.second - b.first < 60 ∨ 14400 < b.second - b.first ∨ b.second ≤ d.now)) ∨
        (b.form ≠ 0 ∧ (b.second < 60 ∨ 14400 < b.second)) := by
  by_cases h : b.form = 0 <;> simp [badWindow, h, or_assoc]

theorem judgeBook_badWindow (h : badWindow d b = true) : judgeBook d c b = .error .badWindow := by
  rw [judgeBook, if_pos h]

theorem judgeBook_no_cells (h : badWindow d b = false) (hpath : pathCells b.path = none) :
    judgeBook d c b = .error .noFootprint := by
  rw [judgeBook, if_neg (by simp [h]), hpath]

theorem judgeBook_noFootprint (h : badWindow d b = false) (hpath : pathCells b.path = some path)
    (hvalid : pathValid d c path = false) : judgeBook d c b = .error .noFootprint := by
  rw [judgeBook, if_neg (by simp [h]), hpath]
  exact if_pos (by simp [hvalid])

theorem judgeBook_badChain (h : badWindow d b = false) (hpath : pathCells b.path = some path)
    (hvalid : pathValid d c path = true) {code : ReplyCode} (hplan : bookPlan d c b = .error code) :
    judgeBook d c b = .error code := by
  simp only [judgeBook, h, hpath, hvalid, hplan]
  rfl

/-- The ids of the chain a request is put behind. -/
def BookPlan.chain (d : Device) (p : BookPlan) : List Nat :=
  match p.pred with
  | some i => chainBack (d.bookings.length + 1) d.bookings i
  | none => []

theorem judgeBook_planned (h : badWindow d b = false) (hpath : pathCells b.path = some path)
    (hvalid : pathValid d c path = true) {p : BookPlan} (hplan : bookPlan d c b = .ok p) :
    judgeBook d c b =
      if d.bookings.any (conflictsWith c p.reservedStart p.reservedEnd path (p.chain d)) then .error .conflict
      else if 64 ≤ d.bookings.length then .error .full else .ok (path, p) := by
  simp only [judgeBook, h, hpath, hvalid, hplan]
  rfl

theorem bookPlan_window (d : Device) (c : CraneIx) (h : b.form = 0) :
    bookPlan d c b = .ok ⟨some (b.first, b.second), b.second - b.first, b.first, b.second, none⟩ := by
  rw [bookPlan, if_pos (by simp [h])]

theorem bookPlan_unknown (h : b.form = 1) (hp : d.booking b.first = none) : bookPlan d c b = .error .badChain := by
  rw [bookPlan, if_neg (by simp [h]), hp]

theorem bookPlan_chain (h : b.form = 1) {p : Booking} (hp : d.booking b.first = some p) :
    bookPlan d c b =
      if p.crane ≠ c ∨ p.succ ≠ none ∨ p.reservedEnd + b.second ≤ d.now then .error .badChain
      else .ok ⟨none, b.second, p.reservedStart, p.reservedEnd + b.second, some p.id⟩ := by
  rw [bookPlan, if_neg (by simp [h]), hp]
  simp [Option.isSome_iff_ne_none, or_assoc]

/-- A request with a window conflicts with what its interval overlaps, of its crane or on its path (R142). -/
theorem conflictsWith_nil (c : CraneIx) (s e : Nat) (path : List CellIx) (x : Booking) :
    conflictsWith c s e path [] x = true ↔
      overlap s e x.reservedStart x.reservedEnd = true ∧ (x.crane = c ∨ ∃ k ∈ path, k ∈ x.path) := by
  by_cases h : x.crane = c
  · simp [conflictsWith, h]
  · simp [conflictsWith, h, and_comm]

/-- A request with a window (R142). -/
theorem judgeBook_window (h : badWindow d b = false) (hpath : pathCells b.path = some path)
    (hvalid : pathValid d c path = true) (hform : b.form = 0) :
    judgeBook d c b =
      if d.bookings.any (conflictsWith c b.first b.second path []) then .error .conflict
      else if 64 ≤ d.bookings.length then .error .full
      else .ok (path, ⟨some (b.first, b.second), b.second - b.first, b.first, b.second, none⟩) :=
  judgeBook_planned h hpath hvalid (bookPlan_window d c hform)

theorem no_conflict {l : List Booking} {s e : Nat}
    (h : ∀ x ∈ l, overlap s e x.reservedStart x.reservedEnd = true → x.crane ≠ c ∧ ∀ k ∈ path, k ∉ x.path) :
    l.any (conflictsWith c s e path []) = false := by
  rw [← Bool.not_eq_true, List.any_eq_true]
  rintro ⟨x, hx, hconflict⟩
  obtain ⟨hover, hsame⟩ := (conflictsWith_nil ..).mp hconflict
  obtain ⟨hcrane, hcell⟩ := h x hx hover
  rcases hsame with h | ⟨k, hk, hk'⟩
  exacts [hcrane h, hcell k hk hk']

/-! ### The requests refused -/

theorem bookFrame_invalid (h : 2 < b.sail ∨ b.cycles = 0 ∨ 255 < b.cycles) :
    bookFrame c b d = d.reply c 0x05 .invalid := by
  unfold bookFrame
  split
  · rfl
  · next sail hsail =>
    have hcycles : b.cycles = 0 ∨ 255 < b.cycles :=
      h.resolve_left fun h => by rw [(sail?_eq_none_iff _).mpr h] at hsail; cases hsail
    exact if_pos (by simp [cycles_out hcycles])

theorem bookFrame_judged {sail : Sail} (hsail : sail? b.sail = some sail) (h1 : 1 ≤ b.cycles) (h2 : b.cycles ≤ 255) :
    (d.clock.siteTime = none → bookFrame c b d = d.reply c 0x05 .noClock) ∧
      (d.clock.siteTime ≠ none → d.membership c ≠ .admitted → bookFrame c b d = d.reply c 0x05 .notAdmitted) ∧
      (d.clock.siteTime ≠ none → d.membership c = .admitted →
        (∀ code, judgeBook d c b = .error code → bookFrame c b d = d.reply c 0x05 code) ∧
          ∀ path p, judgeBook d c b = .ok (path, p) →
            bookFrame c b d = (insertRequest c b sail .crane path p d).replyBooking c 0x05 d.freshId) := by
  have hcycles : within 1 255 b.cycles = true := (within_iff ..).mpr ⟨h1, h2⟩
  refine ⟨fun ht => ?_, fun ht hm => ?_, fun ht hm => ⟨fun code hj => ?_, fun path p hj => ?_⟩⟩
  · simp [bookFrame, hsail, hcycles, ht]
  · simp [bookFrame, hsail, hcycles, ht, hm]
  · simp [bookFrame, hsail, hcycles, ht, hm, hj]
  · simp [bookFrame, hsail, hcycles, ht, hm, hj]

theorem supervisorBook_invalid (hplan : d.planState = .active) (h : 2 < b.sail ∨ b.cycles = 0 ∨ 255 < b.cycles) :
    supervisorBook c.val b d = d.refuse .invalid := by
  rw [supervisorBook, if_neg (by simp [hplan]), craneIx?_val]
  rcases hsail : sail? b.sail with - | sail
  · rfl
  · have hcycles : b.cycles = 0 ∨ 255 < b.cycles :=
      h.resolve_left fun h => by rw [(sail?_eq_none_iff _).mpr h] at hsail; cases hsail
    exact if_pos (by simp [cycles_out hcycles])

theorem supervisorBook_judged {sail : Sail} (hplan : d.planState = .active) (hsail : sail? b.sail = some sail)
    (h1 : 1 ≤ b.cycles) (h2 : b.cycles ≤ 255) (hform : b.form ≤ 1) :
    (d.clock.siteTime = none → supervisorBook c.val b d = d.refuse .noClock) ∧
      (d.clock.siteTime ≠ none → (d.profile c).present ≠ 1 → supervisorBook c.val b d = d.refuse .unknownCrane) ∧
      (d.clock.siteTime ≠ none → (d.profile c).present = 1 →
        (∀ code, judgeBook d c b = .error code → supervisorBook c.val b d = d.refuse code) ∧
          ∀ path p, judgeBook d c b = .ok (path, p) →
            supervisorBook c.val b d = ⟨insertRequest c b sail .supervisor path p d, .ok,
              (((insertRequest c b sail .supervisor path p d).booking d.freshId).map bookingBytes).getD []⟩) := by
  have hcycles : within 1 255 b.cycles = true := (within_iff ..).mpr ⟨h1, h2⟩
  have hform' : ¬1 < b.form := Nat.not_lt.mpr hform
  refine ⟨fun ht => ?_, fun ht hm => ?_, fun ht hm => ⟨fun code hj => ?_, fun path p hj => ?_⟩⟩
  · simp [supervisorBook, hplan, craneIx?_val, hsail, hcycles, hform', ht]
  · simp [supervisorBook, hplan, craneIx?_val, hsail, hcycles, hform', ht, isPresent, hm]
  · simp [supervisorBook, hplan, craneIx?_val, hsail, hcycles, hform', ht, isPresent, hm, hj]
  · simp [supervisorBook, hplan, craneIx?_val, hsail, hcycles, hform', ht, isPresent, hm, hj]

theorem judgeBook_delivered (s : State) (c : CraneIx) (restart : Bool) (b : BookReq) :
    judgeBook (s.delivered c restart) c b = judgeBook s.dev c b := by unfold State.delivered; split <;> rfl

theorem delivered_siteTime (s : State) (c : CraneIx) (restart : Bool) :
    (s.delivered c restart).clock.siteTime = s.dev.clock.siteTime := by unfold State.delivered; split <;> rfl

theorem delivered_membership (s : State) (c : CraneIx) (restart : Bool) :
    (s.delivered c restart).membership c = s.dev.membership c := by
  unfold State.delivered
  split
  exacts [heard_membership restart, rfl]

theorem book_refused {s : State} {restart : Bool} {code : ReplyCode} (hform : b.form ≤ 1) (h : s.delivers c restart)
    (hbook : bookFrame c b (s.delivered c restart) = (s.delivered c restart).reply c 0x05 code) :
    exec (.book c restart b) s = .next { s with dev := (s.delivered c restart).reply c 0x05 code } := by
  have hact := act_delivers h (bookFrame c b)
  rw [hbook] at hact
  refine Eq.trans ?_ hact
  refine congrArg s.act (funext fun d => ?_)
  exact if_pos hform

/-- Conditions 7 to 10 (R141): a path without valid cells, a bad chain, a conflict, a full table. -/
theorem judgeBook_path_refused (h : badWindow d b = false)
    (hbad : b.path = [] ∨ 8 < b.path.length ∨ ¬b.path.Nodup ∨ (∃ n ∈ b.path, 48 ≤ n) ∨
      (∃ k : CellIx, k.val ∈ b.path ∧ d.footprint c k = none)) : judgeBook d c b = .error .noFootprint := by
  rcases hpath : pathCells b.path with - | path
  · exact judgeBook_no_cells h hpath
  refine judgeBook_noFootprint h hpath ?_
  have hcells := pathCells_eq_some hpath
  rw [← Bool.not_eq_true, pathValid_iff]
  rintro ⟨hone, height, hnodup, hfoot⟩
  rw [hcells] at hbad
  rcases hbad with hnil | hlong | hdup | ⟨n, hn, hout⟩ | ⟨k, hk, hnone⟩
  · rw [List.map_eq_nil_iff.mp hnil] at hone
    exact absurd hone (by decide)
  · rw [List.length_map] at hlong
    omega
  · exact hdup (hnodup.map Fin.val_injective)
  · obtain ⟨k, -, rfl⟩ := List.mem_map.mp hn
    exact absurd k.isLt (Nat.not_lt.mpr hout)
  · obtain ⟨j, hj, hjk⟩ := List.mem_map.mp hk
    exact hfoot k (Fin.ext hjk ▸ hj) hnone

/-- Settles O49: the refusals before the request is judged, then conditions 6 to 10. -/
theorem refusedBookChangesNothing : Obligations.RefusedBookChangesNothing := by
  intro s c restart b hform
  refine ⟨fun hplan hs => act_served hs ?_, fun hs hplan index hindex => act_served hs ?_,
    fun h => ⟨fun hd => book_refused hform hd (bookFrame_invalid h), fun hplan hs =>
      act_served hs (supervisorBook_invalid hplan h)⟩,
    fun hsail h1 h2 => ?_, fun now hnow => ⟨fun h0 hw => judgeBook_badWindow ?_, fun h1 hw => judgeBook_badWindow ?_,
      fun hw => ⟨judgeBook_path_refused hw, fun path hpath hvalid => ?_⟩⟩⟩
  · rw [supervisorBook, if_pos (by simpa using hplan)]
    rfl
  · rw [supervisorBook, if_neg (by simp [hplan]), craneIx?_of_le hindex]
    rfl
  · obtain ⟨sail, hsail⟩ := sail?_eq_some hsail
    have hframe : ∀ {code}, (s.delivers c restart →
        bookFrame c b (s.delivered c restart) = (s.delivered c restart).reply c 0x05 code) → s.delivers c restart →
        exec (.book c restart b) s = .next { s with dev := (s.delivered c restart).reply c 0x05 code } :=
      fun hbook hd => book_refused hform hd (hbook hd)
    obtain ⟨hclock, hmember, hjudge⟩ := bookFrame_judged (d := s.delivered c restart) (c := c) hsail h1 h2
    rw [delivered_siteTime, delivered_membership] at *
    refine ⟨fun ht => ⟨hframe fun _ => hclock ht, fun hplan hs =>
        act_served hs ((supervisorBook_judged hplan hsail h1 h2 hform).1 ht)⟩,
      fun ht => ⟨fun hm => hframe fun _ => hmember ht hm, fun hplan hp hs =>
        act_served hs ((supervisorBook_judged hplan hsail h1 h2 hform).2.1 ht hp),
        fun code hj => ⟨fun hm => hframe fun _ => (hjudge ht hm).1 code ((judgeBook_delivered ..).trans hj),
          fun hplan hp hs => act_served hs (((supervisorBook_judged hplan hsail h1 h2 hform).2.2 ht hp).1 code hj)⟩⟩⟩
  · rw [badWindow_iff]
    have hnow' : s.dev.now = now := by rw [Device.now, hnow]; rfl
    exact .inl ⟨h0, by rwa [hnow']⟩
  · exact (badWindow_iff _ _).mpr (.inr ⟨by omega, hw⟩)
  · have hcells : pathCells b.path = some path := hpath ▸ pathCells_map path
    have hnow' : s.dev.now = now := by rw [Device.now, hnow]; rfl
    refine ⟨fun h1 hchain => judgeBook_badChain hw hcells hvalid ?_, fun h0 hconflict => ?_, fun h0 hfull hno => ?_⟩
    · rcases hchain with hnone | ⟨p, hp, hbad⟩
      · exact bookPlan_unknown h1 hnone
      · rw [bookPlan_chain h1 hp, hnow', if_pos hbad]
    · obtain ⟨x, hx, hover, hsame⟩ := hconflict
      rw [judgeBook_window hw hcells hvalid h0,
        if_pos (List.any_eq_true.mpr ⟨x, hx, (conflictsWith_nil ..).mpr ⟨hover, hsame⟩⟩)]
    · rw [judgeBook_window hw hcells hvalid h0, no_conflict hno, if_neg (by simp), if_pos hfull]

end Sys2Proof.Machine
end

