-- ==== Sys2Proof/Proofs/WindowMatching.lean ====
section
/-! SUPPORT. SET_CLOCK, HOLD_BOOKINGS, window matching row by row, and a reservation coming into force on a cell. -/

namespace Sys2Proof.Machine

/-! ### Window matching of one booking (R145) -/

section matching
variable {d : Device} {now id x y : Nat} {b : Booking}

theorem matchBooking_chained (hb : d.booking id = some b) (hs : b.state = .chained) :
    matchBooking now d id = if b.reservedEnd ≤ now then retire id .expired d else d := by
  simp only [matchBooking, hb, hs]

theorem matchBooking_ended (hb : d.booking id = some b) (hw : b.window = some (x, y))
    (hs : b.state = .pending ∨ b.state = .opened ∨ b.state = .suspended) (hy : y ≤ now) :
    matchBooking now d id = retire id .expired d := by
  rcases hs with hs | hs | hs <;> simp [matchBooking, hb, hs, Booking.windowEnd, hw, hy]

theorem matchBooking_overruns (hb : d.booking id = some b) (hw : b.window = some (x, y))
    (hs : b.state = .lifting ∨ b.state = .holdLower) (hy : y ≤ now) :
    matchBooking now d id = d.modBooking id fun z => { z with overrun := true } := by
  rcases hs with hs | hs <;> simp [matchBooking, hb, hs, Booking.windowEnd, hw, hy]

theorem matchBooking_opens (hb : d.booking id = some b) (hw : b.window = some (x, y)) (hs : b.state = .pending)
    (hy : now < y) (hx : x ≤ now) :
    matchBooking now d id = reservePath b.crane b.path (d.modBooking id fun z => { z with state := .opened }) := by
  simp [matchBooking, hb, hs, Booking.windowEnd, Booking.windowStart, hw, hy, hx]

theorem matchBooking_not_due (hb : d.booking id = some b) (hw : b.window = some (x, y)) (hy : now < y)
    (hs : b.state = .opened ∨ b.state = .suspended ∨ b.state = .lifting ∨ b.state = .holdLower ∨
      (b.state = .pending ∧ now < x)) : matchBooking now d id = d := by
  rcases hs with hs | hs | hs | hs | ⟨hs, hx⟩
  · simp [matchBooking, hb, hs, Booking.windowEnd, hw, hy]
  · simp [matchBooking, hb, hs, Booking.windowEnd, hw, hy]
  · simp [matchBooking, hb, hs, Booking.windowEnd, hw, hy]
  · simp [matchBooking, hb, hs, Booking.windowEnd, hw, hy]
  · simp [matchBooking, hb, hs, Booking.windowEnd, Booking.windowStart, hw, Nat.not_le.mpr hy, Nat.not_le.mpr hx]

end matching

/-- A booking that expires is gone, BOOKING_EXPIRED raised, and no booking has come in (R146). -/
theorem retire_expired {d : Device} {id : Nat} {b : Booking} (hb : d.booking id = some b) :
    (retire id .expired d).booking id = none ∧ ((retire id .expired d).faultEntry .bookingExpired).pending = true ∧
      ∀ x ∈ (retire id .expired d).bookings, ∃ y ∈ d.bookings, y.id = x.id := by
  obtain ⟨hleft, hgone⟩ := retireChain_left .expired (by decide) (d.bookings.length + 1) id d
  refine ⟨hgone (Nat.succ_pos _), ?_, fun x hx => ?_⟩
  · have hone : ((retireOne b .expired d).faultEntry .bookingExpired).pending = true := raise_pending ..
    have hrest : (retireOne b .expired d).pendingKept (retire id .expired d) := by
      rw [retire, retireChain, hb]
      dsimp only
      split
      · exact pendingKept_refl _
      · exact fun j hj => retireChain_pendingKept _ _ _ _ j hj
    exact hrest _ hone
  · obtain ⟨y, hy, hid, -⟩ := hleft x hx
    exact ⟨y, hy, hid⟩

theorem modBooking_bookings (d : Device) (id : Nat) (f : Booking → Booking) :
    (d.modBooking id f).bookings = d.bookings.map fun x => if x.id = id then f x else x := by
  refine List.map_congr_left fun x _ => ?_
  by_cases h : x.id = id <;> simp [h]

/-! ### A reservation coming into force (R82, R151) -/

theorem reservePath_cell (c : CraneIx) (path : List CellIx) (d : Device) (k : CellIx) :
    (reservePath c path d).cell k = if k ∈ path then (reserveCell c d k).cell k else d.cell k := by
  rw [reservePath, (Local.reserveCell c).foldl_cell _ (ascending_nodup path)]
  by_cases h : k ∈ path <;> simp [ascending, h, mem_allCells]

/-- The entries that stay where a reservation comes into force. -/
def keptWaiters (d : Device) (b : CraneIx) (q : List Waiter) : List Waiter :=
  q.filter fun w => w.crane = b ∨ d.tier w.cls ≤ d.tier .booked

theorem reserveCell_cell (b : CraneIx) (d : Device) (k : CellIx) :
    (reserveCell b d k).cell k = judge d k { d.cell k with queue := keptWaiters d b (d.cell k).queue } := by
  have hkept : keptWaiters d b (d.cell k).queue =
      (d.cell k).queue.filter fun w => w.crane == b || decide (d.tier w.cls ≤ d.tier .booked) :=
    List.filter_congr fun w _ => by simp [Bool.beq_eq_decide_eq]
  rw [hkept]
  exact updCell_cell ..

/-- A grant that a reservation bars is withdrawn and the cell is given on. -/
theorem judge_barred {d : Device} {k : CellIx} {r : CellClaim} {c : CraneIx} {x : ClaimClass} {n : Nat}
    (h : r.standing = .granted c x n) (hb : d.barred c k x) : r.givenOn d k (judge d k r) := by
  have hbound : settleBound r = (2 * r.queue.length + r.intruders.length + 4) + 1 + 1 := rfl
  have hgive := settle_giveOn (d := d) (k := k) r (2 * r.queue.length + r.intruders.length + 4)
  have hstep : settle (settleBound r) d k r =
      settle (2 * r.queue.length + r.intruders.length + 4 + 1) d k (giveOn d k r) := by
    rw [hbound, settle]
    simp only [h, (displacedByReservation_eq d k c x).mpr hb, if_true]
  rw [← hstep] at hgive
  exact hgive

theorem reserveCell_only (b : CraneIx) (d : Device) (k : CellIx) :
    (∀ j, j ≠ k → (reserveCell b d k).cell j = d.cell j) ∧ CellsOnly d (reserveCell b d k) :=
  ⟨(Local.reserveCell b).other d k, (Local.reserveCell b).only d k⟩

section reservation
variable {d : Device} {b h : CraneIx} {k : CellIx} {x : ClaimClass}

theorem reserveCell_free (hst : (d.cell k).standing = .free) :
    ((reserveCell b d k).cell k).standing = .free ∧
      ((reserveCell b d k).cell k).queue = keptWaiters d b (d.cell k).queue := by
  rw [reserveCell_cell, judge_free (r := { d.cell k with queue := keptWaiters d b (d.cell k).queue }) hst]
  exact ⟨hst, rfl⟩

theorem reserveCell_drains {l : Option Nat} (hst : (d.cell k).standing = .held h x l) (hb : d.barred h k x)
    (hnear : d.relation h k ≠ .outside) :
    ((reserveCell b d k).cell k).standing = .draining h x ∧
      ((reserveCell b d k).cell k).queue = keptWaiters d b (d.cell k).queue := by
  rw [reserveCell_cell]
  obtain ⟨h1, h2, -⟩ := judge_held_displaced (r := { d.cell k with queue := keptWaiters d b (d.cell k).queue }) hst
    ((displaced_iff ..).mpr (.inr hb)) hnear
  exact ⟨h1, h2⟩

theorem reserveCell_held (hst : (d.cell k).standing = .held h x none) (hb : ¬d.barred h k x)
    (hnear : d.relation h k ≠ .outside)
    (hq : ∀ w ∈ (keptWaiters d b (d.cell k).queue).head?, d.tier x ≤ d.tier w.cls) :
    ((reserveCell b d k).cell k).standing = .held h x none ∧
      ((reserveCell b d k).cell k).queue = keptWaiters d b (d.cell k).queue := by
  rw [reserveCell_cell]
  obtain ⟨h1, h2, -⟩ := judge_held (r := { d.cell k with queue := keptWaiters d b (d.cell k).queue }) hst
    (not_displaced hq hb) (lingerRule_stopped hnear)
  exact ⟨h1, h2⟩

theorem reserveCell_withdraws {n : Nat} (hst : (d.cell k).standing = .granted h x n) (hb : d.barred h k x) :
    (keptWaiters d b (d.cell k).queue = [] → (d.cell k).intruders = [] →
      ((reserveCell b d k).cell k).standing = .free ∧ ((reserveCell b d k).cell k).queue = []) ∧
      ∀ w, keptWaiters d b (d.cell k).queue = [w] → d.tier w.cls ≠ 0 → ¬d.barred w.crane k w.cls →
        ((reserveCell b d k).cell k).standing = d.standingGranted k w.crane w.cls ∧
          ((reserveCell b d k).cell k).queue = [] := by
  rw [reserveCell_cell]
  obtain ⟨hfree, hwaiter, -⟩ :=
    judge_barred (r := { d.cell k with queue := keptWaiters d b (d.cell k).queue }) hst hb
  exact ⟨hfree, fun w hw ht hbar => hwaiter w hw ht (by rwa [← barred_iff])⟩

end reservation

/-! ### SET_CLOCK (R138) and HOLD_BOOKINGS (R148) -/

theorem setClock_busy {d : Device} (time : Nat) (h : ∃ b ∈ d.bookings, b.state ≠ .pending) :
    setClock time d = ⟨d, .busy, clockBytes d⟩ := by
  rw [setClock, if_pos (by simpa using h)]

/-- The device as SET_CLOCK leaves it. -/
def clockSet (time : Nat) (d : Device) : Device :=
  windowMatching (d.setClockRec { d.clock with siteTime := some time })

theorem setClock_taken {d : Device} (time : Nat) (h : ∀ b ∈ d.bookings, b.state = .pending) :
    setClock time d = ⟨clockSet time d, .ok, clockBytes (clockSet time d)⟩ := by
  rw [setClock, if_neg]
  · rfl
  · simpa using h

theorem clockSet_claimsOnly (time : Nat) (d : Device) :
    ClaimsOnly (d.setClockRec { d.clock with siteTime := some time }) (clockSet time d) :=
  windowMatching_claimsOnly _

theorem clockSet_of_nothingDue {time : Nat} {d : Device} (h : nothingDue time d.bookings) :
    clockSet time d = d.setClockRec { d.clock with siteTime := some time } :=
  windowMatching_of_nothingDue _ fun _ hnow => by
    cases hnow
    exact h

theorem claimsOnly_clock_frame {d t : Device} {r : Clock} (h : ClaimsOnly (d.setClockRec r) t) :
    t.clock = r ∧ t = { d with clock := t.clock, bookings := t.bookings, cells := t.cells, faults := t.faults } := by
  have hclock : t.clock = r := h.clock
  refine ⟨hclock, ?_⟩
  rw [hclock]
  exact h

/-- Settles O51: the two commands, the rows of R145, and the cell of a path. -/
theorem clockIsSetAndWindowsMatched : Obligations.ClockIsSetAndWindowsMatched := by
  intro s hs
  refine ⟨fun time h => act_served hs (setClock_busy time h), fun time h => ?_,
    fun index value h => act_served hs ?_, fun c value h => ⟨act_served hs ?_, fun d now id b hb => ?_,
      fun d now hnow => ?_, fun d b k => ?_⟩⟩
  · have hserved := act_served (code := 0x20) hs (setClock_taken time h)
    obtain ⟨hclock, hframe⟩ := claimsOnly_clock_frame (clockSet_claimsOnly time s.dev)
    refine ⟨clockSet time s.dev, hserved, hclock, fun hdue => ?_, hframe⟩
    rw [clockSet_of_nothingDue hdue]
    exact ⟨rfl, rfl, rfl⟩
  · rcases hc : craneIx? index with - | c
    · rw [holdBookings, hc]
      rfl
    · have hvalue : 1 < value := h.resolve_left fun h => by rw [craneIx?_of_le h] at hc; cases hc
      rw [holdBookings, hc]
      exact if_pos hvalue
  · rw [holdBookings, craneIx?_val]
    exact (if_neg (Nat.not_lt.mpr h)).trans rfl
  · refine ⟨fun x y hw => ⟨fun hstate hy => ?_, fun hstate hy => ?_, fun hstate hy hx => ?_, fun hy hstate =>
      matchBooking_not_due hb hw hy hstate⟩, fun hstate => ⟨fun hdue => ?_, fun hdue => ?_⟩⟩
    · rw [matchBooking_ended hb hw hstate hy]
      exact retire_expired hb
    · rw [matchBooking_overruns hb hw hstate hy]
      exact ⟨modBooking_bookings .., rfl⟩
    · rw [matchBooking_opens hb hw hstate hy hx]
      have honly := reservePath_cellsOnly (c := b.crane)
        (d := d.modBooking id fun z => { z with state := .opened }) b.path
      refine ⟨honly.bookings.trans (modBooking_bookings ..), fun k hk => ?_,
        (ClaimsOnly.modBooking d id _).trans honly.claimsOnly⟩
      rw [reservePath_cell, if_neg hk]
      rfl
    · rw [matchBooking_chained hb hstate, if_pos hdue]
      exact retire_expired hb
    · rw [matchBooking_chained hb hstate, if_neg (Nat.not_le.mpr hdue)]
  · rw [windowMatching, hnow]
  · obtain ⟨hother, honly⟩ := reserveCell_only b d k
    exact ⟨hother, honly, reserveCell_free, fun h x l hst hb hnear => reserveCell_drains hst hb hnear,
      fun h x hst hb hnear hq => reserveCell_held hst hb hnear hq, fun h x n hst hb => reserveCell_withdraws hst hb⟩

end Sys2Proof.Machine
end

