-- ==== Sys2Proof/Proofs/BookingsMade.lean ====
section
/-! SUPPORT. A BOOK that is taken: the record that enters the table, and the window matching after it. -/

namespace Sys2Proof.Machine

/-! ### A booking put in table order -/

theorem insertBooking_modify {b : Booking} {f : Booking → Booking} (hid : (f b).id = b.id)
    (hstart : (f b).reservedStart = b.reservedStart) : ∀ {l : List Booking}, (∀ x ∈ l, x.id ≠ b.id) →
    modifyBooking b.id f (insertBooking b l) = insertBooking (f b) l
  | [], _ => by simp [modifyBooking, insertBooking]
  | x :: l, h => by
    have hl : l.map (fun x => if x.id == b.id then f x else x) = l := by
      refine (List.map_congr_left fun y hy => ?_).trans (List.map_id l)
      exact if_neg (by simpa using h y (List.mem_cons_of_mem _ hy))
    have hx : (if x.id == b.id then f x else x) = x := if_neg (by simpa using h x (List.mem_cons_self ..))
    have hbefore : bookingBefore (f b) x = bookingBefore b x := by simp only [bookingBefore, hid, hstart]
    have hrest := insertBooking_modify hid hstart fun y hy => h y (List.mem_cons_of_mem x hy)
    simp only [modifyBooking] at hrest
    rw [insertBooking, insertBooking, hbefore]
    split
    · rw [modifyBooking, List.map_cons, List.map_cons, hx, hl, if_pos (beq_self_eq_true _)]
    · rw [modifyBooking, List.map_cons, hx]
      exact congrArg (x :: ·) hrest

theorem booking_of_inserted {d : Device} {b : Booking} {l : List Booking} (hd : d.bookings = insertBooking b l)
    (h : ∀ x ∈ l, x.id ≠ b.id) : d.booking b.id = some b := by
  rcases hfound : d.booking b.id with - | x
  · exact absurd rfl (booking_eq_none.mp hfound b (by simp [hd]))
  · have hmem := booking_mem hfound
    rw [hd, mem_insertBooking] at hmem
    rcases hmem with rfl | hmem
    · rfl
    · exact absurd (booking_id hfound) (h x hmem)

/-! ### Window matching after an insertion (R144, R145) -/

/-- Window matching passes over a booking at a site time. -/
def Booking.notDue (now : Nat) (b : Booking) : Prop :=
  now < b.reservedEnd ∧ (∀ e, b.windowEnd = some e → now < e) ∧
    (b.state = .pending → ∀ x, b.windowStart = some x → now < x)

theorem nothingDue_iff (now : Nat) (l : List Booking) : nothingDue now l ↔ ∀ b ∈ l, b.notDue now := Iff.rfl

theorem matchBooking_quiet {d : Device} {now id : Nat} (h : ∀ b, d.booking id = some b → b.notDue now) :
    matchBooking now d id = d := by
  rcases hb : d.booking id with - | b
  · simp only [matchBooking, hb]
  obtain ⟨hreserved, hend, hstart⟩ := h b hb
  by_cases hs : b.state = .chained
  · rw [matchBooking_chained hb hs, if_neg (Nat.not_le.mpr hreserved)]
  rcases hw : b.window with - | ⟨x, y⟩
  · cases hst : b.state <;> simp [matchBooking, hb, hst, Booking.windowEnd, Booking.windowStart, hw]
    exact fun hle => absurd hreserved (Nat.not_lt.mpr hle)
  · refine matchBooking_not_due hb hw (hend y (by rw [Booking.windowEnd, hw]; rfl)) ?_
    cases hst : b.state with
    | chained => exact absurd hst hs
    | pending => exact .inr (.inr (.inr (.inr ⟨rfl, hstart hst x (by rw [Booking.windowStart, hw]; rfl)⟩)))
    | _ => simp

/-- A fold that leaves `e` only at one element, and then stays. -/
theorem foldl_moves {α β : Type} [DecidableEq α] {f : β → α → β} {e t : β} {n : α} (he : ∀ i, i ≠ n → f e i = e)
    (ht : ∀ i, f t i = t) (hn : f e n = t) : ∀ l : List α, l.foldl f e = if n ∈ l then t else e
  | [] => by simp
  | i :: l => by
    have hstay : ∀ l : List α, l.foldl f t = t := fun l => by
      induction l with
      | nil => rfl
      | cons i l ih => rw [List.foldl_cons, ht i, ih]
    by_cases hi : i = n
    · rw [List.foldl_cons, hi, hn, hstay, if_pos (List.mem_cons_self ..)]
    · rw [List.foldl_cons, he i hi, foldl_moves he ht hn l]
      simp [Ne.symm hi]

section insertion
variable {d : Device} {now : Nat} {b : Booking} {l : List Booking}

/-- A PENDING booking put in the table whose window has begun opens, and nothing else is matched. -/
theorem windowMatching_opens {x y : Nat} (hd : d.bookings = insertBooking b l) (hnow : d.clock.siteTime = some now)
    (hl : nothingDue now l) (hids : ∀ z ∈ l, z.id ≠ b.id) (hs : b.state = .pending) (hw : b.window = some (x, y))
    (hx : x ≤ now) (hy : now < y) :
    windowMatching d =
      reservePath b.crane b.path { d with bookings := insertBooking { b with state := .opened } l } := by
  have hquiet : ∀ (e : Device) (b' : Booking), e.bookings = insertBooking b' l → ∀ i, i ≠ b'.id →
      matchBooking now e i = e := fun e b' he i hi => matchBooking_quiet fun z hz => by
    have hmem := booking_mem hz
    rw [he, mem_insertBooking] at hmem
    rcases hmem with rfl | hmem
    · exact absurd (booking_id hz).symm hi
    · exact hl z hmem
  have htable : (d.modBooking b.id fun z => { z with state := .opened }) =
      { d with bookings := insertBooking { b with state := .opened } l } := by
    rw [Device.modBooking, hd, insertBooking_modify (f := fun z => { z with state := .opened }) rfl rfl hids]
  have hopens : matchBooking now d b.id =
      reservePath b.crane b.path { d with bookings := insertBooking { b with state := .opened } l } := by
    rw [matchBooking_opens (booking_of_inserted hd hids) hw hs hy hx, htable]
  have hbookings : (reservePath b.crane b.path
      { d with bookings := insertBooking { b with state := .opened } l }).bookings =
        insertBooking { b with state := .opened } l := (reservePath_cellsOnly _ _ _).bookings
  have hafter : ∀ i, matchBooking now (reservePath b.crane b.path
      { d with bookings := insertBooking { b with state := .opened } l }) i =
        reservePath b.crane b.path { d with bookings := insertBooking { b with state := .opened } l } := fun i => by
    by_cases hi : i = b.id
    · subst hi
      exact matchBooking_not_due (b := { b with state := .opened })
        (booking_of_inserted (b := { b with state := .opened }) hbookings hids) hw hy (.inl rfl)
    · exact hquiet _ { b with state := .opened } hbookings i hi
  rw [windowMatching, hnow]
  refine (foldl_moves (fun i hi => hquiet d b hd i hi) hafter hopens _).trans (if_pos ?_)
  rw [hd]
  exact List.mem_map_of_mem ((mem_insertBooking ..).mpr (.inl rfl))

end insertion

/-! ### A request that enters the table -/

theorem freshId_free {d : Device} (h : d.bookings.length < 64) : ∀ x ∈ d.bookings, x.id ≠ d.freshId :=
  freeIdFrom_free d.bookings d.nextId (by omega)

section request
variable {d : Device} {c : CraneIx} {b : BookReq} {sail : Sail} {path : List CellIx} {now : Nat}

/-- A window that has begun: the booking is OPEN at once, its reservation in force. -/
theorem insertRequest_opens {o : Origin} {new : Booking} (hnow : d.clock.siteTime = some now)
    (hlen : d.bookings.length < 64) (hl : nothingDue now d.bookings) (hx : b.first ≤ now) (hy : now < b.second)
    (hnew : new = ⟨d.freshId, c, .opened, some (b.first, b.second), b.second - b.first, b.first, b.second, sail, path,
      b.cycles, none, none, false, o⟩) :
    insertRequest c b sail o path ⟨some (b.first, b.second), b.second - b.first, b.first, b.second, none⟩ d =
      reservePath c path { d with bookings := insertBooking new d.bookings, nextId := idAfter d.freshId } := by
  have hopens := windowMatching_opens (b := { new with state := .pending }) (l := d.bookings)
    (d := { d with
      bookings := insertBooking { new with state := .pending } d.bookings
      nextId := idAfter d.freshId }) rfl hnow hl
    (by rw [hnew]; exact freshId_free hlen) rfl (by rw [hnew]) hx hy
  subst hnew
  exact hopens

/-- A request that is not yet due enters the table as it stands. -/
theorem insertRequest_waits {o : Origin} {p : BookPlan} {new : Booking} {table : List Booking}
    (hnew : newBooking d.freshId c b sail o path p = new) (htable : linkPred p.pred d.freshId d.bookings = table)
    (hnow : d.clock.siteTime = some now) (hl : nothingDue now table) (hdue : new.notDue now) :
    insertRequest c b sail o path p d =
      { d with bookings := insertBooking new table, nextId := idAfter d.freshId } := by
  rw [insertRequest, hnew, htable]
  refine windowMatching_of_nothingDue _ fun n hn => ?_
  obtain rfl : now = n := Option.some.inj (hnow.symm.trans hn)
  intro x hx
  rcases (mem_insertBooking ..).mp hx with rfl | hx
  exacts [hdue, hl x hx]

theorem linkPred_eq (i id : Nat) (l : List Booking) :
    linkPred (some i) id l = l.map fun x => if x.id = i then { x with succ := some id } else x := by
  refine List.map_congr_left fun x _ => ?_
  by_cases h : x.id = i <;> simp [h]

theorem nothingDue_linkPred (i id : Nat) {l : List Booking} (h : nothingDue now l) :
    nothingDue now (linkPred (some i) id l) := by
  rw [linkPred_eq, nothingDue_iff]
  intro x hx
  obtain ⟨y, hy, rfl⟩ := List.mem_map.mp hx
  split <;> exact h y hy

theorem replyBooking_of_booking {kind id : Nat} {n : Booking} (h : d.booking id = some n) :
    d.replyBooking c kind id = d.sendFrame c (.reply ⟨kind, .ok, .none, some ⟨6, id, 0, 1, bookingBytes n⟩⟩) := by
  rw [Device.replyBooking, h]

end request

section taken
variable {s : State} {c : CraneIx} {restart : Bool} {b : BookReq} {sail : Sail} {path : List CellIx} {p : BookPlan}

/-- A crane's BOOK that passes every test. -/
theorem book_taken {e : Device} {n : Booking} (hhears : s.hears c restart) (hform : b.form ≤ 1)
    (hsail : sail? b.sail = some sail) (h1 : 1 ≤ b.cycles) (h2 : b.cycles ≤ 255)
    (hclock : s.dev.clock.siteTime ≠ none) (hjudge : judgeBook s.dev c b = .ok (path, p))
    (he : insertRequest c b sail .crane path p (s.heard c restart) = e) (hn : e.booking s.dev.freshId = some n) :
    exec (.book c restart b) s =
      .next { s with
        dev := e.sendFrame c (.reply ⟨0x05, .ok, .none, some ⟨6, s.dev.freshId, 0, 1, bookingBytes n⟩⟩) } := by
  have hact := act_hears hhears (bookFrame c b)
  have hjudge' : judgeBook (s.heard c restart) c b = .ok (path, p) := hjudge
  obtain ⟨-, -, htaken⟩ := bookFrame_judged (d := s.heard c restart) (c := c) hsail h1 h2
  obtain ⟨-, htaken⟩ := htaken hclock (heard_admitted hhears)
  rw [htaken path p hjudge', he, show (s.heard c restart).freshId = s.dev.freshId from rfl,
    replyBooking_of_booking hn] at hact
  exact Eq.trans (congrArg s.act (funext fun d => if_pos hform)) hact

/-- The supervisor's BOOK that passes every test. -/
theorem supervisorBook_taken {e : Device} {n : Booking} (hs : s.takesCommands) (hplan : s.dev.planState = .active)
    (hpresent : (s.dev.profile c).present = 1) (hform : b.form ≤ 1) (hsail : sail? b.sail = some sail)
    (h1 : 1 ≤ b.cycles) (h2 : b.cycles ≤ 255) (hclock : s.dev.clock.siteTime ≠ none)
    (hjudge : judgeBook s.dev c b = .ok (path, p)) (he : insertRequest c b sail .supervisor path p s.dev = e)
    (hn : e.booking s.dev.freshId = some n) :
    exec (.supervisorBook c.val b) s = .next (s.answered 0x40 .ok (bookingBytes n) e) := by
  obtain ⟨-, -, htaken⟩ := supervisorBook_judged (c := c) hplan hsail h1 h2 hform
  obtain ⟨-, htaken⟩ := htaken hclock hpresent
  refine act_served hs ((htaken path p hjudge).trans ?_)
  rw [he, hn]
  rfl

end taken

/-- Settles O48: a window that has begun, and a request that waits. -/
theorem bookInsertsARecord : Obligations.BookInsertsARecord := by
  intro s c restart b sail path now hsail h1 h2 hnow hpath hone height hnodup hfoot hlen hdue
  have hcells : pathCells b.path = some path := hpath ▸ pathCells_map path
  have hvalid : pathValid s.dev c path = true := (pathValid_iff ..).mpr ⟨hone, height, hnodup, hfoot⟩
  have hfresh := freshId_free hlen
  have hclock : s.dev.clock.siteTime ≠ none := by simp [hnow]
  have hnow' : s.dev.now = now := by rw [Device.now, hnow]; rfl
  refine ⟨hfresh, fun new hform hx hy hmin hmax hno hnew => ?_, fun new table hcases => ?_⟩
  · have hwindow : badWindow s.dev b = false := by
      rw [← Bool.not_eq_true, badWindow_iff, hnow']
      omega
    have hjudge : judgeBook s.dev c b =
        .ok (path, ⟨some (b.first, b.second), b.second - b.first, b.first, b.second, none⟩) := by
      rw [judgeBook_window hwindow hcells hvalid hform, no_conflict hno, if_neg (by simp), if_neg (by omega)]
    have hentered : ∀ (d : Device) (o : Origin),
        (reservePath c path { d with bookings := insertBooking (new o) s.dev.bookings, nextId := idAfter s.dev.freshId
          }).booking s.dev.freshId = some (new o) := fun d o => by
      have hid : (new o).id = s.dev.freshId := by rw [hnew]
      rw [← hid]
      exact booking_of_inserted (reservePath_cellsOnly _ _ _).bookings (hid ▸ hfresh)
    refine ⟨fun hhears => book_taken hhears (by omega) hsail h1 h2 hclock hjudge ?_
        (hentered (s.heard c restart) .crane),
      fun hs hplan hpresent => supervisorBook_taken hs hplan hpresent (by omega) hsail h1 h2 hclock hjudge ?_
        (hentered s.dev .supervisor)⟩
    · exact insertRequest_opens (d := s.heard c restart) hnow hlen hdue hx hy (hnew .crane)
    · exact insertRequest_opens hnow hlen hdue hx hy (hnew .supervisor)
  · have hform : b.form ≤ 1 := by
      rcases hcases with ⟨h, -⟩ | ⟨p, h, -⟩ <;> omega
    have hplanned : ∃ p, judgeBook s.dev c b = .ok (path, p) ∧
        (∀ o, newBooking s.dev.freshId c b sail o path p = new o) ∧
        nothingDue now (linkPred p.pred s.dev.freshId s.dev.bookings) ∧ (∀ o, (new o).notDue now) ∧
        ∀ o, table o = insertBooking (new o) (linkPred p.pred s.dev.freshId s.dev.bookings) := by
      rcases hcases with ⟨hform, hlt, hmin, hmax, hx, hno, hnew, htable⟩ |
        ⟨p, hform, hp, hcrane, hsucc, hmin, hmax, hend, hno, hnew, htable⟩
      · have hwindow : badWindow s.dev b = false := by
          rw [← Bool.not_eq_true, badWindow_iff, hnow']
          omega
        refine ⟨⟨some (b.first, b.second), b.second - b.first, b.first, b.second, none⟩, ?_, fun o => (hnew o).symm,
          hdue, fun o => ?_, htable⟩
        · rw [judgeBook_window hwindow hcells hvalid hform, no_conflict hno, if_neg (by simp), if_neg (by omega)]
        · rw [hnew]
          exact ⟨by dsimp only; omega, fun e he => by cases he; omega, fun _ x hx' => by cases hx'; exact hx⟩
      · have hwindow : badWindow s.dev b = false := by
          rw [← Bool.not_eq_true, badWindow_iff]
          omega
        refine ⟨⟨none, b.second, p.reservedStart, p.reservedEnd + b.second, some p.id⟩, ?_, fun o => (hnew o).symm,
          nothingDue_linkPred _ _ hdue, fun o => ?_, fun o => by rw [htable, linkPred_eq]⟩
        · have hplan := bookPlan_chain (c := c) hform hp
          rw [hnow', if_neg (by simp [hcrane, hsucc, hend])] at hplan
          have hnone : s.dev.bookings.any (conflictsWith c p.reservedStart (p.reservedEnd + b.second) path
              (chainBack (s.dev.bookings.length + 1) s.dev.bookings p.id)) = false :=
            List.any_eq_false.mpr fun x hx => by rw [hno x hx]; simp
          rw [judgeBook_planned hwindow hcells hvalid hplan]
          exact (if_neg (by rw [BookPlan.chain, hnone]; simp)).trans (if_neg (by omega))
        · rw [hnew]
          exact ⟨hend, nofun, nofun⟩
    obtain ⟨p, hjudge, hnew, hquiet, hdue', htable⟩ := hplanned
    have hbooking : ∀ (d : Device) (o : Origin),
        ({ d with bookings := table o, nextId := idAfter s.dev.freshId } : Device).booking s.dev.freshId =
          some (new o) := fun d o => by
      have hid : (new o).id = s.dev.freshId := by rw [← hnew o]; rfl
      have hids : ∀ x ∈ linkPred p.pred s.dev.freshId s.dev.bookings, x.id ≠ s.dev.freshId := fun x hx => by
        have hmem : x.id ∈ (linkPred p.pred s.dev.freshId s.dev.bookings).map fun y => y.id := List.mem_map_of_mem hx
        rw [linkPred_ids] at hmem
        obtain ⟨y, hy, hyx⟩ := List.mem_map.mp hmem
        exact hyx ▸ hfresh y hy
      rw [← hid]
      exact booking_of_inserted (htable o) (hid ▸ hids)
    refine ⟨fun hhears => book_taken hhears hform hsail h1 h2 hclock hjudge ?_
        (hbooking (s.heard c restart) .crane),
      fun hs hplan hpresent => supervisorBook_taken hs hplan hpresent hform hsail h1 h2 hclock hjudge ?_
        (hbooking s.dev .supervisor)⟩
    · rw [htable]
      exact insertRequest_waits (d := s.heard c restart) (hnew .crane) rfl hnow hquiet (hdue' .crane)
    · rw [htable]
      exact insertRequest_waits (hnew .supervisor) rfl hnow hquiet (hdue' .supervisor)

end Sys2Proof.Machine
end

