-- ==== Sys2Proof/Proofs/LiftCycles.lean ====
section
/-! SUPPORT. LIFT_START, LIFT_END and LIFT_ABORT taken: the path's cells, the booking, and the chain behind it. -/

namespace Sys2Proof.Machine

/-! ### A booking changed in place -/

theorem find?_modifyBooking {id : Nat} {f : Booking → Booking} (hf : ∀ b, (f b).id = b.id) (l : List Booking) :
    (modifyBooking id f l).find? (fun b => b.id == id) = (l.find? fun b => b.id == id).map f := by
  induction l with
  | nil => rfl
  | cons x l ih =>
    by_cases h : x.id = id
    · simp [modifyBooking, h, hf]
    · have hx : ¬(x.id == id) = true := by simpa using h
      rw [modifyBooking, List.map_cons, if_neg hx, List.find?_cons_of_neg (p := fun b : Booking => b.id == id) hx,
        List.find?_cons_of_neg (p := fun b : Booking => b.id == id) hx]
      exact ih

theorem modBooking_booking {d : Device} {id : Nat} {f : Booking → Booking} {b : Booking} (hf : ∀ b, (f b).id = b.id)
    (hb : d.booking id = some b) : (d.modBooking id f).booking id = some (f b) := by
  have h := find?_modifyBooking hf (id := id) d.bookings
  rw [Device.booking] at hb
  rw [hb] at h
  exact h

/-! ### LIFT_START (R153) -/

section start
variable {d : Device} {c : CraneIx} {k : CellIx}

/-- A BOOKED request on a cell that no crane holds or waits for, its possession OPEN where it is PROTECTED. -/
theorem requestCode_booked (hfoot : d.footprint c k ≠ none)
    (hopen : d.protectedCell k = true → d.possessionOf k = .opened) (hst : (d.cell k).standing = .free)
    (hq : (d.cell k).queue = []) : requestCode d c k .booked = .ok := by
  have hsome : (d.footprint c k).isNone = false := Option.isNone_eq_false_iff.mpr (Option.isSome_iff_ne_none.mpr hfoot)
  cases hprot : d.protectedCell k with
  | false => simp [requestCode, hsome, hprot, hst, hq, Standing.holder, entryOf]
  | true => simp [requestCode, hsome, hprot, hopen hprot, hst, hq, Standing.holder, entryOf]

theorem not_barred_booked (d : Device) (c : CraneIx) (k : CellIx) : ¬d.barred c k .booked := fun h =>
  absurd h.2 (Nat.lt_irrefl _)

theorem requestAll_cell (c : CraneIx) (x : ClaimClass) (path : List CellIx) (d : Device) (k : CellIx) :
    (requestAll c x (ascending path) d).cell k = if k ∈ path then (request c k x d).cell k else d.cell k := by
  rw [requestAll, (Local.request c x).foldl_cell _ (ascending_nodup path)]
  by_cases h : k ∈ path <;> simp [h]

theorem startLift_eq {id : Nat} {b : Booking} (hb : d.booking id = some b) :
    startLift c id d =
      requestAll c .booked (ascending b.path) (d.modBooking id fun x => { x with state := .lifting }) := by
  rw [startLift, hb]

theorem liftStartFrame_taken {id : Nat} (h : liftStartRefusal d c id = none) :
    liftStartFrame c id d = (startLift c id d).replyBooking c 0x07 id := by
  rw [liftStartFrame, h]

end start

/-- Settles O53: the lift is taken, then each path cell answers its request alone. -/
theorem liftStartClaimsThePath : Obligations.LiftStartClaimsThePath := by
  intro s c restart id b hhears hb hcrane hstate hidle hhold hcalm hclass hopen
  have hrefusal : liftStartRefusal (s.heard c restart) c id = none := by
    have hclosed : pathClosed (s.heard c restart) b.path = false := by
      rw [← Bool.not_eq_true, pathClosed_iff]
      rintro ⟨k, hk, hprot, hclosed⟩
      have hopened : (s.heard c restart).possessionOf k = .opened := hopen k hk hprot
      rw [hclosed] at hopened
      cases hopened
    have hwind : (s.heard c restart).windAllows c b.sail = true := by
      have h : ((s.dev.windOf c).state.isCalmOrWatch && (s.dev.windOf c).classes.has b.sail) = true := by
        rw [hcalm, hclass]
        rfl
      exact h
    rw [liftStartRefusal_own (heard_admitted hhears) hb hcrane, hstate,
      show (s.heard c restart).liftRunning c = false from liftRunning_false.mpr hidle,
      show (s.heard c restart).hold c = false from hhold, hwind, hclosed]
    rfl
  have hact := act_hears hhears (liftStartFrame c id)
  have honly := requestAll_cellsOnly c .booked (ascending b.path)
    ((s.heard c restart).modBooking id fun x => { x with state := .lifting })
  have hbooking : (startLift c id (s.heard c restart)).booking id = some { b with state := .lifting } := by
    rw [startLift_eq (d := s.heard c restart) hb, booking_congr honly.bookings]
    exact modBooking_booking (d := s.heard c restart) (f := fun x => { x with state := .lifting }) (fun _ => rfl) hb
  rw [liftStartFrame_taken hrefusal, replyBooking_of_booking hbooking] at hact
  obtain ⟨t, hnext, hcells, hbookings, -, hport, hothers, hframe⟩ :=
    next_of_sent hact (startLift_claimsOnly c id (s.heard c restart))
  have hcell : ∀ k, t.dev.cell k = (requestAll c .booked (ascending b.path)
      ((s.heard c restart).modBooking id fun x => { x with state := .lifting })).cell k := fun k => by
    rw [Device.cell, hcells, startLift_eq (d := s.heard c restart) hb, Device.cell]
  refine ⟨t, hnext, ?_, fun k hk => ?_, fun k hk hfoot htier hst hq => ?_, hport, hothers, hframe⟩
  · rw [hbookings, startLift_eq (d := s.heard c restart) hb, honly.bookings]
    exact modBooking_bookings ..
  · rw [hcell, requestAll_cell, if_neg hk]
    rfl
  · have hrequested := (request_granted (d := (s.heard c restart).modBooking id fun x => { x with state := .lifting })
      (c := c) (k := k) (x := .booked) (requestCode_booked hfoot (hopen k hk) hst hq) htier
      (not_barred_booked _ c k) hq).1
    rw [hcell, requestAll_cell, if_pos hk]
    exact ⟨hrequested.standing, hrequested.queue⟩

/-! ### A crane INSIDE at class FREE -/

/-- The crane holds a cell at FREE, is INSIDE it, and no other crane waits for it or has a booking over it. -/
structure InsideHold (d : Device) (c : CraneIx) (k : CellIx) (l : Option Nat) : Prop where
  standing : (d.cell k).standing = .held c .free l
  queue : (d.cell k).queue = []
  inside : d.relation c k = .inside
  alone : ∀ x ∈ d.bookings, x.crane ≠ c → k ∉ x.path

section hold
variable {d : Device} {c : CraneIx} {k : CellIx} {l : Option Nat}

theorem not_barred_of_alone (h : ∀ x ∈ d.bookings, x.crane ≠ c → k ∉ x.path) (y : ClaimClass) : ¬d.barred c k y := by
  rintro ⟨⟨b, hb, -, hne, hk⟩, -⟩
  exact h b hb hne hk

/-- Such a hold is not displaced and does not linger. -/
theorem judge_insideHold {r : CellClaim} (hst : r.standing = .held c .free l) (hq : r.queue = [])
    (hin : d.relation c k = .inside) (halone : ∀ x ∈ d.bookings, x.crane ≠ c → k ∉ x.path) :
    (judge d k r).standing = .held c .free l ∧ (judge d k r).queue = [] := by
  have hlinger : lingerRule d k c .free l = some (.held c .free l) := by simp [lingerRule, lingerExempt, hin]
  obtain ⟨h1, h2, -⟩ := judge_held hst (not_displaced (by simp [hq]) (not_barred_of_alone halone .free)) hlinger
  exact ⟨h1, h2.trans hq⟩

/-- The hold stays while the cell's standing and queue do, and no other crane's booking comes to list the cell. -/
theorem InsideHold.of_claimsOnly {t : Device} (h : InsideHold d c k l) (ht : ClaimsOnly d t)
    (hst : (t.cell k).standing = .held c .free l) (hq : (t.cell k).queue = [])
    (hb : ∀ x ∈ t.bookings, ∃ y ∈ d.bookings, y.crane = x.crane ∧ y.path = x.path) : InsideHold t c k l where
  standing := hst
  queue := hq
  inside := by
    rw [ht]
    exact h.inside
  alone x hx hne := by
    obtain ⟨y, hy, hcrane, hpath⟩ := hb x hx
    exact hpath ▸ h.alone y hy (hcrane ▸ hne)

theorem InsideHold.of_cellsOnly {t : Device} (h : InsideHold d c k l) (ht : CellsOnly d t)
    (hst : (t.cell k).standing = .held c .free l) (hq : (t.cell k).queue = []) : InsideHold t c k l :=
  h.of_claimsOnly ht.claimsOnly hst hq fun x hx => ⟨x, ht.bookings ▸ hx, rfl, rfl⟩

theorem InsideHold.rejudgePath (h : InsideHold d c k l) (path : List CellIx) :
    InsideHold (rejudgePath path d) c k l := by
  have hcell : (Machine.rejudgePath path d).cell k = d.cell k ∨
      (Machine.rejudgePath path d).cell k = judge d k (d.cell k) := by
    rw [Machine.rejudgePath, Local.rejudgeCell.foldl_cell _ (ascending_nodup path)]
    split
    · exact .inr (updCell_cell ..)
    · exact .inl rfl
  have hkept : ((Machine.rejudgePath path d).cell k).standing = .held c .free l ∧
      ((Machine.rejudgePath path d).cell k).queue = [] := by
    rcases hcell with hcell | hcell <;> rw [hcell]
    exacts [⟨h.standing, h.queue⟩, judge_insideHold h.standing h.queue h.inside h.alone]
  exact h.of_cellsOnly (rejudgePath_cellsOnly _ _) hkept.1 hkept.2

/-- A revert of some crane's lift leaves the hold: its own class is FREE, and another's path is elsewhere. -/
theorem InsideHold.revertPath (h : InsideHold d c k l) {x : Booking} (hx : x ∈ d.bookings) :
    InsideHold (revertPath x.crane x.path d) c k l := by
  have hcell : (Machine.revertPath x.crane x.path d).cell k = d.cell k := by
    rw [Machine.revertPath, (Local.revertCell x.crane).foldl_cell _ (ascending_nodup x.path)]
    split
    · next hk =>
      have hc : x.crane = c := not_not.mp fun hne => h.alone x hx hne ((mem_ascending ..).mp hk)
      rw [revertCell, h.standing, hc, if_pos (by simp [Standing.holder])]
      rfl
    · rfl
  exact h.of_cellsOnly (revertPath_cellsOnly _ _ _) (by rw [hcell]; exact h.standing) (by rw [hcell]; exact h.queue)

theorem InsideHold.raise (h : InsideHold d c k l) (j : FaultKind) (a b e : Option Nat) :
    InsideHold (d.raise j a b e) c k l :=
  h.of_cellsOnly (CellsOnly.raise ..) (by rw [raise_cell]; exact h.standing) (by rw [raise_cell]; exact h.queue)

theorem unlinkPred_paths {b x : Booking} {l : List Booking} (h : x ∈ unlinkPred b l) :
    ∃ y ∈ l, y.crane = x.crane ∧ y.path = x.path := by
  rw [unlinkPred_eq] at h
  obtain ⟨y, hy, rfl⟩ := List.mem_map.mp h
  refine ⟨y, hy, ?_⟩
  split <;> exact ⟨rfl, rfl⟩

/-- What follows the revert in a retirement leaves the hold. -/
theorem InsideHold.removed (h : InsideHold d c k l) (b : Booking) (reason : RetireReason) :
    InsideHold (let e := { d with bookings := removeBooking b.id (unlinkPred b d.bookings) }
      let e := if b.state.inForce then Machine.rejudgePath b.path e else e
      if reason == .expired then e.raise .bookingExpired (some b.crane.val) none (some b.id) else e) c k l := by
  have hremoved : InsideHold { d with bookings := removeBooking b.id (unlinkPred b d.bookings) } c k l :=
    h.of_claimsOnly rfl h.standing h.queue fun x hx => unlinkPred_paths ((mem_removeBooking ..).mp hx).1
  dsimp only
  split
  · split
    exacts [(hremoved.rejudgePath _).raise _ _ _ _, hremoved.raise _ _ _ _]
  · split
    exacts [hremoved.rejudgePath _, hremoved]

theorem InsideHold.retireOne (h : InsideHold d c k l) {b : Booking} (hb : b ∈ d.bookings) (reason : RetireReason) :
    InsideHold (retireOne b reason d) c k l := by
  have hreverted : InsideHold (if b.state.running then Machine.revertPath b.crane b.path d else d) c k l := by
    split
    exacts [h.revertPath hb, h]
  exact hreverted.removed b reason

theorem InsideHold.activate (h : InsideHold d c k l) (id : Nat) : InsideHold (activate id d) c k l := by
  unfold Machine.activate
  rcases hb : d.booking id with - | b
  · exact h
  dsimp only
  have hinserted : InsideHold { d with bookings := insertBooking { b with
      state := .opened, window := some (d.now, min (d.now + b.length) b.reservedEnd), reservedStart := d.now
      reservedEnd := min (d.now + b.length) b.reservedEnd, pred := none } (removeBooking id d.bookings) } c k l := by
    refine h.of_claimsOnly rfl h.standing h.queue fun x hx => ?_
    rcases (mem_insertBooking ..).mp hx with rfl | hx
    · exact ⟨b, booking_mem hb, rfl, rfl⟩
    · exact ⟨x, ((mem_removeBooking ..).mp hx).1, rfl, rfl⟩
  generalize ({ d with bookings := _ } : Device) = e at hinserted
  have hcell : ((reservePath b.crane b.path e).cell k).standing = .held c .free l ∧
      ((reservePath b.crane b.path e).cell k).queue = [] := by
    rw [reservePath_cell]
    split
    · rw [reserveCell_cell]
      exact judge_insideHold (r := { e.cell k with queue := keptWaiters e b.crane (e.cell k).queue })
        hinserted.standing (by simp [keptWaiters, hinserted.queue]) hinserted.inside hinserted.alone
    · exact ⟨hinserted.standing, hinserted.queue⟩
  exact hinserted.of_cellsOnly (reservePath_cellsOnly _ _ _) hcell.1 hcell.2

theorem InsideHold.retireChain : ∀ (fuel id : Nat) (reason : RetireReason) {d : Device}, InsideHold d c k l →
    InsideHold (retireChain fuel id reason d) c k l
  | 0, _, _, _, h => h
  | fuel + 1, id, reason, d, h => by
    unfold Machine.retireChain
    split
    · exact h
    · next b hb =>
      have hone := h.retireOne (booking_mem hb) reason
      dsimp only
      split
      · exact hone
      · split
        · exact hone.activate _
        · exact hone
        · exact InsideHold.retireChain fuel _ _ hone

/-- A BOOKED hold under a lift that ends: its revert makes it a hold at FREE. -/
theorem revertPath_insideHold {path : List CellIx} (hk : k ∈ path) (htier : d.tier .free ≠ 0)
    (hst : (d.cell k).standing = .held c .booked l) (hq : (d.cell k).queue = []) (hin : d.relation c k = .inside)
    (halone : ∀ x ∈ d.bookings, x.crane ≠ c → k ∉ x.path) : InsideHold (revertPath c path d) c k l := by
  have hset : setHolderClass d .free (d.cell k) = { d.cell k with standing := .held c .free l } := by
    simp [setHolderClass, hst, htier]
  have hcell : (revertPath c path d).cell k = judge d k { d.cell k with standing := .held c .free l } := by
    rw [revertPath, (Local.revertCell c).foldl_cell _ (ascending_nodup path), if_pos ((mem_ascending ..).mpr hk),
      revertCell, hst, if_pos (by simp [Standing.holder]), if_pos (by simp [Standing.cls]), updCell_cell, hset]
  obtain ⟨h1, h2⟩ := judge_insideHold (r := { d.cell k with standing := .held c .free l }) rfl hq hin halone
  have honly := revertPath_cellsOnly c d path
  exact ⟨by rw [hcell]; exact h1, by rw [hcell]; exact h2, by rw [honly.relation]; exact hin,
    fun x hx => halone x (honly.bookings ▸ hx)⟩

/-- A running booking that is retired reverts its path first. -/
theorem retire_insideHold {id : Nat} {b : Booking} {reason : RetireReason} (hb : d.booking id = some b)
    (hcrane : b.crane = c) (hrun : b.state.running = true) (hk : k ∈ b.path) (htier : d.tier .free ≠ 0)
    (hst : (d.cell k).standing = .held c .booked l) (hq : (d.cell k).queue = []) (hin : d.relation c k = .inside)
    (halone : ∀ x ∈ d.bookings, x.crane ≠ c → k ∉ x.path) : InsideHold (retire id reason d) c k l := by
  have hreverted := revertPath_insideHold hk htier hst hq hin halone
  have hone : InsideHold (retireOne b reason d) c k l := by
    rw [Machine.retireOne, if_pos hrun, hcrane]
    exact hcrane ▸ hreverted.removed b reason
  rw [retire, Machine.retireChain, hb]
  dsimp only
  split
  · exact hone
  · split
    · exact hone.activate _
    · exact hone
    · exact InsideHold.retireChain _ _ _ hone

end hold

/-! ### The end of a cycle (R156, R157, R158) -/

section cycle
variable {d : Device} {c : CraneIx} {id : Nat} {b : Booking}

theorem revertPath_cell_of_not_mem {k : CellIx} {path : List CellIx} (c : CraneIx) (d : Device) (hk : k ∉ path) :
    (revertPath c path d).cell k = d.cell k := by
  rw [revertPath, (Local.revertCell c).foldl_cell _ (ascending_nodup path), if_neg (by simpa using hk)]

theorem liftStopRefusal_taken (hmember : d.membership c = .admitted) (hb : d.booking id = some b)
    (hcrane : b.crane = c) (hrun : b.state.running = true) : liftStopRefusal d c id = none := by
  simp [liftStopRefusal, hmember, hb, hcrane, hrun]

/-- The booking of a cycle that ends, one cycle taken off. -/
def Device.cycleOff (d : Device) (id : Nat) : Device := d.modBooking id fun x => { x with cycles := x.cycles - 1 }

theorem endLift_last (hb : d.booking id = some b) (h : b.cycles = 1) :
    endLift c id d = (retire id .complete d, .complete) := by
  simp only [endLift, hb, h]
  rfl

theorem endLift_overrun (hb : d.booking id = some b) (h : 2 ≤ b.cycles) (hover : b.overrun = true) :
    endLift c id d = (retire id .expired (d.cycleOff id), .expired) := by
  have hcycles : ¬(b.cycles - 1 == 0) = true := by simp; omega
  simp only [endLift, hb, if_neg hcycles, hover]
  rfl

theorem endLift_opens (hb : d.booking id = some b) (h : 2 ≤ b.cycles) (hover : b.overrun = false) :
    endLift c id d =
      (revertPath c b.path ((d.cycleOff id).modBooking id fun x => { x with state := .opened }), .none) := by
  have hcycles : ¬(b.cycles - 1 == 0) = true := by simp; omega
  simp only [endLift, hb, if_neg hcycles, hover]
  rfl

theorem abortLift_overrun (hb : d.booking id = some b) (hover : b.overrun = true) :
    abortLift c id d = (retire id .expired d, .expired) := by
  simp only [abortLift, hb, hover]
  rfl

theorem abortLift_suspends (hb : d.booking id = some b) (hover : b.overrun = false) :
    abortLift c id d = (revertPath c b.path (d.modBooking id fun x => { x with state := .suspended }), .none) := by
  simp only [abortLift, hb, hover]
  rfl

theorem activate_bookings {n : Nat} {x : Booking} (hx : d.booking n = some x) :
    (activate n d).bookings = insertBooking { x with
      state := .opened, window := some (d.now, min (d.now + x.length) x.reservedEnd), reservedStart := d.now
      reservedEnd := min (d.now + x.length) x.reservedEnd, pred := none } (removeBooking n d.bookings) := by
  simp only [activate, hx]
  exact (reservePath_cellsOnly _ _ _).bookings

theorem booking_removed {t : Device} {n : Nat} (ht : t.bookings = removeBooking id d.bookings) (hn : n ≠ id) :
    t.booking n = d.booking n := by
  rw [Device.booking, Device.booking, ht, removeBooking, List.find?_filter]
  refine congrArg (fun p => d.bookings.find? p) (funext fun y => ?_)
  by_cases hy : y.id = n <;> simp [hy, hn]

theorem retire_complete_succ {n : Nat} (hb : d.booking id = some b) (hn : b.succ = some n) :
    retire id .complete d = activate n (retireOne b .complete d) := by
  rw [retire, retireChain, hb]
  simp only [hn]

theorem retireOne_gone (hb : d.booking id = some b) (reason : RetireReason) :
    (retireOne b reason d).booking id = none := booking_eq_none.mpr fun x hx => by
  rw [retireOne_bookings, mem_removeBooking, booking_id hb] at hx
  exact hx.2

/-- A completed booking is gone, and its successor does not bring it back. -/
theorem retire_complete_gone (hb : d.booking id = some b) : (retire id .complete d).booking id = none := by
  have hone := retireOne_gone hb .complete
  rcases hn : b.succ with - | n
  · rw [retire_unchained hb hn]
    exact hone
  · rw [retire_complete_succ hb hn]
    rcases hx : (retireOne b .complete d).booking n with - | x
    · simp only [activate, hx]
      exact hone
    · have hne : n ≠ id := fun h => by rw [h, hone] at hx; cases hx
      rw [booking_eq_none, activate_bookings hx]
      intro y hy
      rcases (mem_insertBooking ..).mp hy with rfl | hy
      · exact (booking_id hx).symm ▸ hne
      · exact booking_eq_none.mp hone y ((mem_removeBooking ..).mp hy).1

/-- The successor of a completed booking opens at once, its window cut at its reserved end. -/
theorem retire_complete_opens {n : Nat} {x : Booking} (hb : d.booking id = some b) (hn : b.succ = some n)
    (hpred : b.pred = none) (hne : n ≠ id) (hx : d.booking n = some x) :
    (retire id .complete d).booking n = some { x with
      state := .opened, window := some (d.now, min (d.now + x.length) x.reservedEnd), reservedStart := d.now
      reservedEnd := min (d.now + x.length) x.reservedEnd, pred := none } := by
  have hclaims := retireOne_claimsOnly b .complete d
  have hnow : (retireOne b .complete d).now = d.now := by rw [Device.now, hclaims.clock, Device.now]
  have hone : (retireOne b .complete d).booking n = some x := by
    refine (booking_removed (id := id) ?_ hne).trans hx
    rw [retireOne_bookings, booking_id hb, unlinkPred, hpred]
  have htable := activate_bookings hone
  rw [hnow] at htable
  obtain rfl : x.id = n := booking_id hx
  rw [retire_complete_succ hb hn]
  exact booking_of_inserted htable fun y hy => ((mem_removeBooking ..).mp hy).2

end cycle

/-- No booking of another crane comes over a cell by a change that keeps cranes and paths. -/
theorem alone_modBooking {d : Device} {c : CraneIx} {k : CellIx} {f : Booking → Booking} (id : Nat)
    (hf : ∀ x, (f x).crane = x.crane ∧ (f x).path = x.path) (h : ∀ x ∈ d.bookings, x.crane ≠ c → k ∉ x.path) :
    ∀ x ∈ (d.modBooking id f).bookings, x.crane ≠ c → k ∉ x.path := by
  rw [modBooking_bookings]
  intro x hx hne
  obtain ⟨y, hy, rfl⟩ := List.mem_map.mp hx
  split at hne
  · next hid =>
    rw [if_pos hid, (hf y).2]
    exact h y hy ((hf y).1 ▸ hne)
  · next hid =>
    rw [if_neg hid]
    exact h y hy hne

section stop
variable {s : State} {c : CraneIx} {restart : Bool} {id : Nat} {b : Booking}

/-- A lift frame that ends a cycle: what its reply says, its claims and bookings as left, and the crane's holds. -/
theorem lift_stopped {i : Instr} {e : Device} {reply : Reply}
    (hnext : exec i s = .next { s with dev := e.sendFrame c (.reply reply) }) (h : ClaimsOnly (s.heard c restart) e)
    (hold : s.dev.tier .free ≠ 0 → ∀ k, k ∈ b.path → ∀ l, (s.dev.cell k).standing = .held c .booked l →
      (s.dev.cell k).queue = [] → s.dev.relation c k = .inside →
      (∀ x ∈ s.dev.bookings, x.crane ≠ c → k ∉ x.path) → InsideHold e c k l) :
    ∃ t, exec i s = .next t ∧ t.dev.cells = e.cells ∧ t.dev.bookings = e.bookings ∧ t.dev.faults = e.faults ∧
      t.dev.port c = (s.dev.sendFrame c (.reply reply)).port c ∧ s.dev.sameElsewhere c t.dev ∧
      (s.dev.tier .free ≠ 0 →
        ∀ k, k ∈ b.path → ∀ l, (s.dev.cell k).standing = .held c .booked l → (s.dev.cell k).queue = [] →
        s.dev.relation c k = .inside → (∀ x ∈ s.dev.bookings, x.crane ≠ c → k ∉ x.path) →
        (t.dev.cell k).standing = .held c .free l) ∧
      t = { s with dev := { s.heard c restart with
        cells := t.dev.cells, bookings := t.dev.bookings, ports := t.dev.ports, faults := t.dev.faults } } := by
  obtain ⟨t, ht, hcells, hbookings, hfaults, hport, hothers, hframe⟩ := next_of_sent hnext h
  refine ⟨t, ht, hcells, hbookings, hfaults, hport, hothers, fun htier k hk l hst hq hin halone => ?_, hframe⟩
  rw [Device.cell, hcells]
  exact (hold htier k hk l hst hq hin halone).standing

theorem liftEnd_next (hhears : s.hears c restart) (hb : s.dev.booking id = some b) (hcrane : b.crane = c)
    (hrun : b.state.running = true) :
    exec (.liftEnd c restart id) s = .next { s with
      dev := (endLift c id (s.heard c restart)).1.replyLift c 0x08 id (endLift c id (s.heard c restart)).2 } := by
  refine (act_hears hhears (liftEndFrame c id)).trans ?_
  rw [liftEndFrame, liftStopRefusal_taken (heard_admitted hhears) hb hcrane hrun]

theorem liftAbort_next (hhears : s.hears c restart) (hb : s.dev.booking id = some b) (hcrane : b.crane = c)
    (hrun : b.state.running = true) :
    exec (.liftAbort c restart id) s = .next { s with
      dev := (abortLift c id (s.heard c restart)).1.replyLift c 0x09 id (abortLift c id (s.heard c restart)).2 } := by
  refine (act_hears hhears (liftAbortFrame c id)).trans ?_
  rw [liftAbortFrame, liftStopRefusal_taken (heard_admitted hhears) hb hcrane hrun]

end stop

theorem retired_congr {e t : Device} {id : Nat} (hbookings : t.bookings = e.bookings) (hfaults : t.faults = e.faults)
    (h : e.booking id = none ∧ (e.faultEntry .bookingExpired).pending = true) :
    t.booking id = none ∧ (t.faultEntry .bookingExpired).pending = true := by
  rw [booking_congr hbookings, Device.faultEntry, hfaults]
  exact h

/-- A booking changed and its path reverted: the table, the other cells, and the crane's holds. -/
theorem cycle_reverted {i : Instr} {s : State} {c : CraneIx} {restart : Bool} {id kind : Nat} {b : Booking}
    {f : Booking → Booking} (hf : ∀ x, (f x).id = x.id ∧ (f x).crane = x.crane ∧ (f x).path = x.path)
    (hb : s.dev.booking id = some b)
    (hnext : exec i s = .next { s with
      dev := (revertPath c b.path ((s.heard c restart).modBooking id f)).replyLift c kind id .none }) :
    ∃ t, exec i s = .next t ∧
      (t.dev.bookings = (s.dev.bookings.map fun x => if x.id = id then f x else x) ∧
        ∀ k, k ∉ b.path → t.dev.cell k = s.dev.cell k) ∧
      t.dev.port c = (s.dev.sendFrame c
        (.reply ⟨kind, .ok, .none, some ⟨6, id, 0, 1, bookingBytes (f b)⟩⟩)).port c ∧
      s.dev.sameElsewhere c t.dev ∧
      (s.dev.tier .free ≠ 0 →
        ∀ k, k ∈ b.path → ∀ l, (s.dev.cell k).standing = .held c .booked l → (s.dev.cell k).queue = [] →
        s.dev.relation c k = .inside → (∀ x ∈ s.dev.bookings, x.crane ≠ c → k ∉ x.path) →
        (t.dev.cell k).standing = .held c .free l) ∧
      t = { s with dev := { s.heard c restart with
        cells := t.dev.cells, bookings := t.dev.bookings, ports := t.dev.ports, faults := t.dev.faults } } := by
  have honly := revertPath_cellsOnly c ((s.heard c restart).modBooking id f) b.path
  have hbooking : (revertPath c b.path ((s.heard c restart).modBooking id f)).booking id = some (f b) :=
    (booking_congr honly.bookings id).trans
      (modBooking_booking (d := s.heard c restart) (fun x => (hf x).1) hb)
  rw [Device.replyLift, replyBooking_of_booking hbooking] at hnext
  obtain ⟨t, ht, hcells, hbookings, -, hrest⟩ := lift_stopped (b := b) hnext
    ((ClaimsOnly.modBooking _ id f).trans honly.claimsOnly)
    fun htier k hk l hst hq hin halone => revertPath_insideHold (d := (s.heard c restart).modBooking id f) hk htier hst
      hq hin (alone_modBooking (d := s.heard c restart) id (fun x => (hf x).2) halone)
  refine ⟨t, ht, ⟨?_, fun k hk => ?_⟩, hrest⟩
  · rw [hbookings, honly.bookings]
    exact modBooking_bookings ..
  · rw [Device.cell, hcells]
    exact revertPath_cell_of_not_mem c _ hk

theorem cycleOff_opened (d : Device) (id : Nat) :
    ((d.cycleOff id).modBooking id fun x => { x with state := .opened }) =
      d.modBooking id fun x => { x with cycles := x.cycles - 1, state := .opened } := by
  refine congrArg (fun l => ({ d with bookings := l } : Device)) ?_
  rw [modifyBooking, Device.cycleOff, Device.modBooking, modifyBooking, modifyBooking, List.map_map]
  refine List.map_congr_left fun x _ => ?_
  by_cases h : x.id = id <;> simp [h]

/-- Settles O54: what the cycle's end does to the booking, then to the crane's holds. -/
theorem liftStopsEndTheCycle : Obligations.LiftStopsEndTheCycle := by
  intro s c restart id b hhears hb hcrane hrun
  have hb' : (s.heard c restart).booking id = some b := hb
  have hend := liftEnd_next hhears hb hcrane hrun
  have habort := liftAbort_next hhears hb hcrane hrun
  refine ⟨fun hcycles hover => ?_, fun hcycles hover => ?_, fun hcycles => ?_, fun hover => ?_, fun hover => ?_⟩
  · rw [endLift_opens hb' hcycles hover, cycleOff_opened] at hend
    obtain ⟨t, ht, heffect, hrest⟩ := cycle_reverted
      (f := fun x => { x with cycles := x.cycles - 1, state := .opened }) (fun _ => ⟨rfl, rfl, rfl⟩) hb hend
    exact ⟨t, ht, heffect, rfl, hrest⟩
  · rw [endLift_overrun hb' hcycles hover] at hend
    have hb1 : ((s.heard c restart).cycleOff id).booking id = some { b with cycles := b.cycles - 1 } :=
      modBooking_booking (f := fun x => { x with cycles := x.cycles - 1 }) (fun _ => rfl) hb'
    obtain ⟨t, ht, hcells, hbookings, hfaults, hrest⟩ := lift_stopped (b := b) hend
      ((ClaimsOnly.modBooking _ _ _).trans (retire_claimsOnly id .expired _))
      fun htier k hk l hst hq hin halone => retire_insideHold hb1 hcrane hrun hk htier hst hq hin
        (alone_modBooking (d := s.heard c restart) id (fun _ => ⟨rfl, rfl⟩) halone)
    obtain ⟨hgone, hraised, -⟩ := retire_expired hb1
    exact ⟨t, ht, retired_congr hbookings hfaults ⟨hgone, hraised⟩, rfl, hrest⟩
  · rw [endLift_last hb' hcycles] at hend
    obtain ⟨t, ht, hcells, hbookings, -, hrest⟩ := lift_stopped (b := b) hend (retire_claimsOnly id .complete _)
      fun htier k hk l hst hq hin halone =>
        retire_insideHold (d := s.heard c restart) hb hcrane hrun hk htier hst hq hin halone
    refine ⟨t, ht, ⟨(booking_congr hbookings id).trans (retire_complete_gone hb'), fun n x hn hpred hne hx => ?_⟩, rfl,
      hrest⟩
    exact (booking_congr hbookings n).trans (retire_complete_opens (d := s.heard c restart) hb hn hpred hne hx)
  · rw [abortLift_suspends hb' hover] at habort
    obtain ⟨t, ht, heffect, hrest⟩ := cycle_reverted
      (f := fun x => { x with state := .suspended }) (fun _ => ⟨rfl, rfl, rfl⟩) hb habort
    exact ⟨t, ht, heffect, rfl, hrest⟩
  · rw [abortLift_overrun hb' hover] at habort
    obtain ⟨t, ht, hcells, hbookings, hfaults, hrest⟩ := lift_stopped (b := b) habort (retire_claimsOnly id .expired _)
      fun htier k hk l hst hq hin halone =>
        retire_insideHold (d := s.heard c restart) hb hcrane hrun hk htier hst hq hin halone
    obtain ⟨hgone, hraised, -⟩ := retire_expired hb'
    exact ⟨t, ht, retired_congr hbookings hfaults ⟨hgone, hraised⟩, rfl, hrest⟩

end Sys2Proof.Machine
end

