-- ==== Sys2Proof/Proofs/Reports.lean ====
section
/-! SUPPORT. REPORT: the way of a valid report through the blocks, the reach record it gives, and what the permit that
answers it says. -/

namespace Sys2Proof.Machine

/-! ### The reach record (R42, R50 to R52) -/

theorem relEntry_cell (p : Position) (stop warn : Envelope) (k : CellIx) (f : Footprint) (prev : Option Relation) :
    (relEntry p stop warn k f prev).cell = k := by
  unfold relEntry
  dsimp only
  split <;> rfl

/-- Exit directions are given exactly INSIDE, and toward directions only elsewhere. -/
theorem relEntry_directions (p : Position) (stop warn : Envelope) (k : CellIx) (f : Footprint)
    (prev : Option Relation) :
    ((relEntry p stop warn k f prev).now = .inside ↔ (relEntry p stop warn k f prev).slewExit ≠ none) ∧
      ((relEntry p stop warn k f prev).now = .inside →
        (relEntry p stop warn k f prev).slewToward = none ∧ (relEntry p stop warn k f prev).trolleyToward = none) := by
  unfold relEntry
  dsimp only
  split
  · next h => simpa using h
  · next h =>
    have houtside : relationTo p stop warn f ≠ .inside := by simpa using h
    simp [houtside]

theorem filterMap_cells (d : Device) (c : CraneIx) (f : CellIx → Footprint → RelEntry) (hf : ∀ k x, (f k x).cell = k) :
    ∀ l : List CellIx, ((l.filterMap fun k => (d.footprint c k).map (f k)).map fun e => e.cell) =
      l.filter fun k => (d.footprint c k).isSome
  | [] => rfl
  | k :: l => by
    have hrest := filterMap_cells d c f hf l
    cases h : d.footprint c k <;> simp [h, hf, hrest]

theorem reachRecord_entry {d : Device} {c : CraneIx} {r : Report} {e : RelEntry} (h : e ∈ (reachRecord d c r).entries) :
    ∃ p stop warn k f prev, e = relEntry p stop warn k f prev := by
  obtain ⟨k, -, hk⟩ := List.mem_filterMap.mp h
  obtain ⟨f, -, rfl⟩ := Option.map_eq_some_iff.mp hk
  exact ⟨_, _, _, _, _, _, rfl⟩

/-- The entries of a reach record: one for each footprint, in ascending cell index, with the directions of R51 and
R52. -/
theorem reachRecord_entries (d : Device) (c : CraneIx) (r : Report) :
    ((reachRecord d c r).entries.map fun e => e.cell) = allCells.filter (fun k => (d.footprint c k).isSome) ∧
      ∀ e ∈ (reachRecord d c r).entries, (e.now = .inside ↔ e.slewExit ≠ none) ∧
        (e.now = .inside → e.slewToward = none ∧ e.trolleyToward = none) := by
  constructor
  · simp only [reachRecord]
    exact filterMap_cells d c (fun k f => relEntry _ _ _ k f (d.relationBefore c k)) (fun _ _ => relEntry_cell ..) _
  · intro e he
    obtain ⟨p, stop, warn, k, f, prev, rfl⟩ := reachRecord_entry he
    exact relEntry_directions ..

/-- The reach record follows the crane's quality, and nothing else of its roster record. -/
theorem reachRecord_setCrane {d : Device} {c : CraneIx} {x : CraneRec} (h : x.quality = (d.crane c).quality)
    (r : Report) : reachRecord (d.setCrane c x) c r = reachRecord d c r := by
  have hquality : ((d.setCrane c x).crane c).quality = (d.crane c).quality := by simp [h]
  rw [reachRecord, hquality]
  rfl

/-! ### A report's way through the blocks (R23, R27, R33) -/

section passing
variable {c : CraneIx} {d : Device} {r : Report} {how : Arrival}

/-- The device as a report reaches the Permit Composer. -/
def reported (c : CraneIx) (how : Arrival) (r : Report) (d : Device) : Device :=
  windReport c how r (autoClaims c (reportCells c (how == .admission)
    (if how == .back then reconcileCells c (takePosition c r d) else takePosition c r d)))

theorem passReport_eq (c : CraneIx) (how : Arrival) (r : Report) (d : Device) :
    passReport c how r d = sendPermit c r.seq (reported c how r d) := rfl

theorem reported_windClaims (c : CraneIx) (how : Arrival) (r : Report) (d : Device) :
    WindClaims c (takePosition c r d) (reported c how r d) := by
  have hback : CellsOnly (takePosition c r d)
      (if how == .back then reconcileCells c (takePosition c r d) else takePosition c r d) := by
    split
    exacts [reconcileCells_cellsOnly .., CellsOnly.refl _]
  exact ((hback.trans (reportCells_cellsOnly ..)).trans (autoClaims_cellsOnly ..)).windClaims.trans
    (windReport_windClaims ..)

theorem reported_ports : (reported c how r d).ports = d.ports := by
  rw [reported_windClaims c how r d]
  rfl

theorem reported_crane : (reported c how r d).crane c = d.crane c := by
  rw [reported_windClaims c how r d]
  rfl

theorem reported_reachOf : (reported c how r d).reachOf c = some (reachRecord d c r) := by
  rw [reported_windClaims c how r d]
  exact Device.setReach_reachOf_self ..

/-- What a permit says does not look at the permits and the ports. -/
theorem compose_sendPermit (c : CraneIx) (seq : Nat) (d : Device) :
    compose (sendPermit c seq d) c seq = compose d c seq := by
  rw [sendPermit, sendFrame_eq]
  rfl

theorem sendPermit_eq (c : CraneIx) (seq : Nat) (d : Device) :
    ∃ p, sendPermit c seq d = (d.setPermit c (some (compose d c seq))).setPort c p :=
  ⟨_, sendFrame_eq ..⟩

/-- A permit composed from the records as they stand is recorded and sent. -/
theorem sendPermit_records (c : CraneIx) (seq : Nat) (d : Device) :
    (sendPermit c seq d).crane c = d.crane c ∧ (sendPermit c seq d).reachOf c = d.reachOf c ∧
      (sendPermit c seq d).permitOf c = some (compose (sendPermit c seq d) c seq) ∧
      (sendPermit c seq d).port c = (d.sendFrame c (.permit (compose (sendPermit c seq d) c seq))).port c := by
  rw [compose_sendPermit]
  refine ⟨?_, ?_, ?_, sendFrame_port_congr _ rfl⟩
  all_goals
    obtain ⟨p, hp⟩ := sendPermit_eq c seq d
    rw [hp]
  · rfl
  · rfl
  · exact Device.setPermit_permitOf_self ..

end passing

section valid
variable {s : State} {c : CraneIx} {restart : Bool} {r : Report} {d : Device}

theorem exec_report (hvalid : r.slew < 3600) :
    exec (.report c restart r) s = s.act (withStreak c restart (takeReport c r)) :=
  congrArg s.act (funext fun _ => if_pos (decide_eq_true hvalid))

/-- A valid report passed with a roster record: what stands afterwards, and the permit sent. -/
theorem report_passed {o : Host.Outcome State Fault Refusal} {x : CraneRec} {how : Arrival}
    (hnext : o = .next { s with dev := passReport c how r (s.dev.setCrane c x) })
    (hquality : x.quality = (s.dev.crane c).quality) :
    ∃ t, o = .next t ∧ t.dev.crane c = x ∧ t.dev.reachOf c = some (reachRecord s.dev c r) ∧
      t.dev.permitOf c = some (compose t.dev c r.seq) ∧ (compose t.dev c r.seq).seq = r.seq ∧
      t.dev.port c = (s.dev.sendFrame c (.permit (compose t.dev c r.seq))).port c ∧
      t.dev = passReport c how r (s.dev.setCrane c x) := by
  obtain ⟨hcrane, hreach, hpermit, hport⟩ := sendPermit_records c r.seq (reported c how r (s.dev.setCrane c x))
  rw [← passReport_eq] at hcrane hreach hpermit hport
  rw [reported_crane, Device.setCrane_crane_self] at hcrane
  rw [reported_reachOf, reachRecord_setCrane hquality] at hreach
  have hports : (reported c how r (s.dev.setCrane c x)).port c = s.dev.port c := by
    rw [Device.port, reported_ports]
    rfl
  refine ⟨{ s with dev := passReport c how r (s.dev.setCrane c x) }, hnext, hcrane, hreach, hpermit, rfl,
    hport.trans (sendFrame_port_congr _ hports), rfl⟩

theorem passReport_steps {x : CraneRec} {how : Arrival} (hquality : x.quality = (s.dev.crane c).quality) :
    passReport c how r (s.dev.setCrane c x) =
      sendPermit c r.seq (windReport c how r (autoClaims c (reportCells c (how == .admission)
        (if how == .back then
            reconcileCells c ((s.dev.setCrane c x).setReach c (some (reachRecord s.dev c r)))
          else (s.dev.setCrane c x).setReach c (some (reachRecord s.dev c r)))))) := by
  rw [passReport_eq, reported, takePosition, reachRecord_setCrane hquality]

theorem takeReport_absent (h : (d.crane c).membership = .absent) :
    takeReport c r d = d.reply c 0x02 .notAdmitted := by
  simp only [takeReport, h]

theorem takeReport_joining (h : (d.crane c).membership = .joining) :
    takeReport c r d = passReport c .admission r
      (d.setCrane c { d.crane c with
        membership := .admitted, joinWait := none, streak := false, link := d.linkTimeout }) := by
  simp only [takeReport, h]

theorem takeReport_admitted (h : (d.crane c).membership = .admitted) :
    takeReport c r d = passReport c .ordinary r (d.setCrane c { d.crane c with link := d.linkTimeout }) := by
  simp only [takeReport, h]

theorem takeReport_lost (h : (d.crane c).membership = .lost) :
    takeReport c r d = passReport c .back r
      (d.setCrane c { d.crane c with membership := .admitted, link := d.linkTimeout }) := by
  simp only [takeReport, h]

theorem setCrane_setCrane (d : Device) (c : CraneIx) (x y : CraneRec) :
    (d.setCrane c x).setCrane c y = d.setCrane c y := by
  simp [Device.setCrane]

theorem report_heard (hvalid : r.slew < 3600) (h : s.hears c restart) :
    exec (.report c restart r) s = .next { s with
      dev := passReport c .ordinary r
        (s.dev.setCrane c { s.dev.crane c with streak := restart, link := s.dev.linkTimeout }) } := by
  have hrecord : (s.heard c restart).crane c = { s.dev.crane c with streak := restart } :=
    Device.setCrane_crane_self ..
  have hmember : ((s.heard c restart).crane c).membership = .admitted := by
    rw [hrecord]
    exact h.2.1
  rw [exec_report hvalid, act_hears h, takeReport_admitted hmember, hrecord, State.heard, setCrane_setCrane]
  rfl

theorem report_not_admitted (hreset : s.dev.resetLow = false) (hvalid : r.slew < 3600)
    (h : (s.dev.crane c).membership ≠ .admitted) :
    exec (.report c restart r) s = .next { s with dev := takeReport c r s.dev } := by
  rw [exec_report hvalid, act_not_admitted restart hreset h]

/-- The three ways of a valid report that is taken, with the record it is passed with. -/
theorem report_taken {x : CraneRec} {how : Arrival} {first : Bool} {reconciled : Device → Device}
    (hnext : exec (.report c restart r) s = .next { s with dev := passReport c how r (s.dev.setCrane c x) })
    (hquality : x.quality = (s.dev.crane c).quality) (hfirst : (how == .admission) = first)
    (hreconciled : ∀ d, (if how == .back then reconcileCells c d else d) = reconciled d) :
    ∃ t, exec (.report c restart r) s = .next t ∧ t.dev.crane c = x ∧
      t.dev.reachOf c = some (reachRecord s.dev c r) ∧ t.dev.permitOf c = some (compose t.dev c r.seq) ∧
      (compose t.dev c r.seq).seq = r.seq ∧
      t.dev.port c = (s.dev.sendFrame c (.permit (compose t.dev c r.seq))).port c ∧
      t.dev = sendPermit c r.seq (windReport c how r (autoClaims c (reportCells c first
        (reconciled ((s.dev.setCrane c x).setReach c (some (reachRecord s.dev c r))))))) := by
  have hpassed := report_passed hnext hquality
  rw [passReport_steps hquality, hfirst, hreconciled] at hpassed
  exact hpassed

end valid

/-! ### Axis limits -/

theorem Limit.join_eq_stop (a b : Limit) : a.join b = .stop ↔ a = .stop ∨ b = .stop := by
  cases a <;> cases b <;> simp [Limit.join]

theorem Limit.join_eq_slow (a b : Limit) :
    a.join b = .slow ↔ ¬(a = .stop ∨ b = .stop) ∧ (a = .slow ∨ b = .slow) := by
  cases a <;> cases b <;> simp [Limit.join]

theorem mostRestrictive_eq_stop (a : Limit) (l : List Limit) : mostRestrictive a l = .stop ↔ a = .stop ∨ .stop ∈ l := by
  induction l generalizing a with
  | nil => simp [mostRestrictive]
  | cons b l ih =>
    calc mostRestrictive (a.join b) l = .stop ↔ a.join b = .stop ∨ .stop ∈ l := ih _
      _ ↔ a = .stop ∨ .stop ∈ b :: l := by rw [Limit.join_eq_stop, or_assoc, List.mem_cons,
        eq_comm (a := Limit.stop) (b := b)]

theorem mostRestrictive_eq_slow (a : Limit) (l : List Limit) :
    mostRestrictive a l = .slow ↔ ¬(a = .stop ∨ .stop ∈ l) ∧ (a = .slow ∨ .slow ∈ l) := by
  induction l generalizing a with
  | nil => cases a <;> simp [mostRestrictive]
  | cons b l ih =>
    have hstep : mostRestrictive a (b :: l) = mostRestrictive (a.join b) l := rfl
    rw [hstep, ih, Limit.join_eq_stop, Limit.join_eq_slow]
    grind

/-- An axis limit said of the entries that limit it: `wind` for the start, `toward`, `exits` and `deeper` for what an
entry NEAR, APPROACHING or INSIDE contributes (R88 to R91). -/
def AxisFollows (limits : RelEntry → Prop) (wind : Prop) (toward exits deeper : RelEntry → Prop) (l : Limit) : Prop :=
  let stop := wind ∨ ∃ e, limits e ∧ ((e.now = .approaching ∧ toward e) ∨ (e.now = .inside ∧ deeper e))
  (l = .stop ↔ stop) ∧
    (l = .slow ↔ ¬stop ∧ ∃ e, limits e ∧ ((e.now = .near ∧ toward e) ∨ (e.now = .inside ∧ exits e)))

theorem axisFollows {entries : List RelEntry} {limits : RelEntry → Prop} {wind : Prop}
    {toward exits deeper : RelEntry → Prop} {start : Limit} {f : RelEntry → Limit}
    (hlimits : ∀ e, e ∈ entries ↔ limits e) (hstart : start = .stop ↔ wind) (hslow : start ≠ .slow)
    (hstopped : ∀ e, f e = .stop ↔ (e.now = .approaching ∧ toward e) ∨ (e.now = .inside ∧ deeper e))
    (hslowed : ∀ e, f e = .slow ↔ (e.now = .near ∧ toward e) ∨ (e.now = .inside ∧ exits e)) :
    AxisFollows limits wind toward exits deeper (mostRestrictive start (entries.map f)) := by
  simp [AxisFollows, mostRestrictive_eq_stop, mostRestrictive_eq_slow, List.mem_map, hlimits, hstart, hslow, hstopped,
    hslowed]

/-- What an entry puts on one direction, slew and trolley alike (R89, R90). -/
def directionLimit {α : Type} [DecidableEq α] (dir : α) (now : Relation) (toward exit : Option α) : Limit :=
  match now with
  | .outside => .free
  | .near => if toward = some dir then .slow else .free
  | .approaching => if toward = some dir then .stop else .free
  | .inside => exit.elim .free fun x => if x = dir then .slow else .stop

theorem slewLimitOf_eq (dir : SlewDir) (e : RelEntry) :
    slewLimitOf dir e = directionLimit dir e.now e.slewToward e.slewExit := by
  unfold slewLimitOf directionLimit
  cases e.now <;> cases e.slewExit <;> simp

theorem trolleyLimitOf_eq (dir : TrolleyDir) (e : RelEntry) :
    trolleyLimitOf dir e = directionLimit dir e.now e.trolleyToward e.trolleyExit := by
  unfold trolleyLimitOf directionLimit
  cases e.now <;> cases e.trolleyExit <;> simp

theorem directionLimit_eq_stop {α : Type} [DecidableEq α] {dir other : α} (hother : ∀ x, x ≠ dir ↔ x = other)
    (now : Relation) (toward exit : Option α) :
    directionLimit dir now toward exit = .stop ↔
      (now = .approaching ∧ toward = some dir) ∨ (now = .inside ∧ exit = some other) := by
  cases now <;> cases exit <;> simp [directionLimit, ← hother, ite_eq_iff]

theorem directionLimit_eq_slow {α : Type} [DecidableEq α] (dir : α) (now : Relation) (toward exit : Option α) :
    directionLimit dir now toward exit = .slow ↔
      (now = .near ∧ toward = some dir) ∨ (now = .inside ∧ exit = some dir) := by
  cases now <;> cases exit <;> simp [directionLimit, ite_eq_iff]

/-! ### The wind's contributions (R92 to R94) -/

section wind
variable (d : Device) (c : CraneIx)

theorem windLimit_eq_stop (clearingAxis : Bool) :
    d.windLimit c clearingAxis = .stop ↔
      d.brakeReleased c = true ∨ (clearingAxis = true ∧ d.clearingLimits c = true) := by
  cases h : d.brakeReleased c <;> simp [Device.windLimit, h]

theorem windLimit_ne_slow (clearingAxis : Bool) : d.windLimit c clearingAxis ≠ .slow := by
  unfold Device.windLimit
  split <;> nofun

theorem clearingLimits_iff :
    d.clearingLimits c = true ↔ (d.windOf c).state = .vane .clearing ∨
      ((d.windOf c).state = .vane .vaneFree ∧ d.brakeReleased c = false) := by
  unfold Device.clearingLimits
  split <;> simp_all

theorem hoistStopped_iff :
    d.hoistStopped c = true ↔ (d.windOf c).state = .halt ∨ (d.windOf c).state = .vane .vaneFree ∨
      (d.windOf c).state = .vane .forced ∨ ∃ b ∈ d.bookings, b.crane = c ∧ b.state = .holdLower := by
  unfold Device.hoistStopped
  split <;> simp_all

theorem mem_limitingEntries (e : RelEntry) :
    e ∈ d.limitingEntries c ↔ e ∈ d.relEntries c ∧ (d.cell e.cell).standing.holder ≠ some c := by
  simp [Device.limitingEntries]

/-- The crane's entries that limit it (R89 to R91). -/
def Device.limitedBy (e : RelEntry) : Prop := e ∈ d.relEntries c ∧ (d.cell e.cell).standing.holder ≠ some c

/-- The clearing contributions apply (R93). -/
def Device.clearing : Prop :=
  (d.windOf c).state = .vane .clearing ∨ ((d.windOf c).state = .vane .vaneFree ∧ d.brakeReleased c = false)

theorem slewLimit_follows {dir other : SlewDir} (hother : ∀ x, x ≠ dir ↔ x = other) :
    AxisFollows (d.limitedBy c) (d.brakeReleased c = true ∨ d.clearing c) (fun e => e.slewToward = some dir)
      (fun e => e.slewExit = some dir) (fun e => e.slewExit = some other) (d.slewLimit c dir) := by
  have hwind : d.windLimit c true = .stop ↔ d.brakeReleased c = true ∨ d.clearing c := by
    rw [windLimit_eq_stop, clearingLimits_iff, Device.clearing]
    simp
  refine axisFollows (mem_limitingEntries d c) hwind (windLimit_ne_slow d c _) (fun e => ?_) fun e => ?_
  · rw [slewLimitOf_eq, directionLimit_eq_stop hother]
  · rw [slewLimitOf_eq, directionLimit_eq_slow]

/-- R93 names trolley-out alone: `wind` is the start of the axis asked for. -/
theorem trolleyLimit_follows {dir other : TrolleyDir} (hother : ∀ x, x ≠ dir ↔ x = other) {wind : Prop}
    (hwind : d.windLimit c (dir == .out) = .stop ↔ wind) :
    AxisFollows (d.limitedBy c) wind (fun e => e.trolleyToward = some dir) (fun e => e.trolleyExit = some dir)
      (fun e => e.trolleyExit = some other) (d.trolleyLimit c dir) := by
  refine axisFollows (mem_limitingEntries d c) hwind (windLimit_ne_slow d c _) (fun e => ?_) fun e => ?_
  · rw [trolleyLimitOf_eq, directionLimit_eq_stop hother]
  · rw [trolleyLimitOf_eq, directionLimit_eq_slow]

/-- The four axis limits of a permit (R88 to R94). -/
theorem axisLimits_follow :
    AxisFollows (d.limitedBy c) (d.brakeReleased c = true ∨ d.clearing c) (fun e => e.slewToward = some .positive)
        (fun e => e.slewExit = some .positive) (fun e => e.slewExit = some .negative) (d.slewLimit c .positive) ∧
      AxisFollows (d.limitedBy c) (d.brakeReleased c = true ∨ d.clearing c) (fun e => e.slewToward = some .negative)
        (fun e => e.slewExit = some .negative) (fun e => e.slewExit = some .positive) (d.slewLimit c .negative) ∧
      AxisFollows (d.limitedBy c) (d.brakeReleased c = true ∨ d.clearing c) (fun e => e.trolleyToward = some .out)
        (fun e => e.trolleyExit = some .out) (fun e => e.trolleyExit = some .inward) (d.trolleyLimit c .out) ∧
      AxisFollows (d.limitedBy c) (d.brakeReleased c = true) (fun e => e.trolleyToward = some .inward)
        (fun e => e.trolleyExit = some .inward) (fun e => e.trolleyExit = some .out) (d.trolleyLimit c .inward) := by
  refine ⟨slewLimit_follows d c fun x => by cases x <;> simp, slewLimit_follows d c fun x => by cases x <;> simp,
    trolleyLimit_follows d c (fun x => by cases x <;> simp) ?_,
    trolleyLimit_follows d c (fun x => by cases x <;> simp) ?_⟩
  all_goals simp [windLimit_eq_stop, clearingLimits_iff, Device.clearing]

/-! ### The current booking and the cell lists (R95, R96) -/

theorem find?_append_cons {α : Type} {p : α → Bool} {l l' : List α} {b : α} (hb : p b = true)
    (hl : ∀ x ∈ l, p x = false) : (l ++ b :: l').find? p = some b := by
  refine List.find?_eq_some_iff_append.mpr ⟨hb, l, l', rfl, fun x hx => ?_⟩
  simp [hl x hx]

variable {d c}

theorem currentBooking_running {l l' : List Booking} {b : Booking} (h : d.bookings = l ++ b :: l')
    (hb : b.crane = c ∧ (b.state = .lifting ∨ b.state = .holdLower))
    (hl : ∀ x ∈ l, ¬(x.crane = c ∧ (x.state = .lifting ∨ x.state = .holdLower))) : d.currentBooking c = some b := by
  simp only [← running_iff] at hb hl
  rw [Device.currentBooking, h, find?_append_cons (by simpa using hb) (fun x hx => by simpa using hl x hx)]

theorem currentBooking_first (hnone : ∀ x ∈ d.bookings, ¬(x.crane = c ∧ (x.state = .lifting ∨ x.state = .holdLower))) :
    d.currentBooking c = d.bookings.find? fun b => b.crane == c := by
  simp only [← running_iff] at hnone
  have hfind : (d.bookings.find? fun b => b.crane == c && b.state.running) = none :=
    List.find?_eq_none.mpr fun x hx => by simpa using hnone x hx
  rw [Device.currentBooking, hfind]

theorem mem_heldList (k : CellIx) : k ∈ d.heldList c ↔
    (∃ x l, (d.cell k).standing = .held c x l) ∨ ∃ x, (d.cell k).standing = .draining c x := by
  simp only [Device.heldList, List.mem_filter, mem_allCells, true_and]
  cases (d.cell k).standing <;> simp

theorem mem_grantedList (k : CellIx) : k ∈ d.grantedList c ↔ ∃ x n, (d.cell k).standing = .granted c x n := by
  simp only [Device.grantedList, List.mem_filter, mem_allCells, true_and]
  cases (d.cell k).standing <;> simp

theorem mem_vacateList (k : CellIx) : k ∈ d.vacateList c ↔ ∃ x, (d.cell k).standing = .draining c x := by
  simp only [Device.vacateList, List.mem_filter, mem_allCells, true_and]
  cases (d.cell k).standing <;> simp

theorem mem_waitingList (k : CellIx) : k ∈ d.waitingList c ↔ ∃ x ∈ (d.cell k).queue, x.crane = c := by
  simp [Device.waitingList, entryOf]

end wind

/-- The booking field of a permit (R95). -/
theorem compose_booking (d : Device) (c : CraneIx) (seq : Nat) :
    (∀ l b l', d.bookings = l ++ b :: l' → (b.crane = c ∧ (b.state = .lifting ∨ b.state = .holdLower)) →
        (∀ x ∈ l, ¬(x.crane = c ∧ (x.state = .lifting ∨ x.state = .holdLower))) →
        (compose d c seq).booking = some (b.id, b.state)) ∧
      (∀ l b l', d.bookings = l ++ b :: l' → b.crane = c → (∀ x ∈ l, x.crane ≠ c) →
        (∀ x ∈ d.bookings, ¬(x.crane = c ∧ (x.state = .lifting ∨ x.state = .holdLower))) →
        (compose d c seq).booking = some (b.id, b.state)) ∧
      ((∀ x ∈ d.bookings, x.crane ≠ c) → (compose d c seq).booking = none) := by
  have hfield : (compose d c seq).booking = (d.currentBooking c).map fun b => (b.id, b.state) := rfl
  rw [hfield]
  refine ⟨fun l b l' h hb hl => ?_, fun l b l' h hb hl hnone => ?_, fun hnone => ?_⟩
  · rw [currentBooking_running h hb hl]
    rfl
  · rw [currentBooking_first hnone, h, find?_append_cons (by simpa using hb) fun x hx => by simpa using hl x hx]
    rfl
  · have hfind : (d.bookings.find? fun b => b.crane == c) = none :=
      List.find?_eq_none.mpr fun x hx => by simpa using hnone x hx
    rw [currentBooking_first fun x hx hlifting => hnone x hx hlifting.1, hfind]
    rfl

/-- The four cell lists of a permit, each in ascending cell index (R96). -/
theorem compose_lists (d : Device) (c : CraneIx) (seq : Nat) :
    (∀ k, (k ∈ (compose d c seq).heldList ↔ (∃ x l, (d.cell k).standing = .held c x l) ∨
          ∃ x, (d.cell k).standing = .draining c x) ∧
        (k ∈ (compose d c seq).grantedList ↔ ∃ x n, (d.cell k).standing = .granted c x n) ∧
        (k ∈ (compose d c seq).vacateList ↔ ∃ x, (d.cell k).standing = .draining c x) ∧
        (k ∈ (compose d c seq).waitingList ↔ ∃ x ∈ (d.cell k).queue, x.crane = c)) ∧
      ∀ l ∈ [(compose d c seq).heldList, (compose d c seq).grantedList, (compose d c seq).vacateList,
        (compose d c seq).waitingList], l.Pairwise (· < ·) := by
  refine ⟨fun k => ⟨mem_heldList k, mem_grantedList k, mem_vacateList k, mem_waitingList k⟩, ?_⟩
  simp only [compose, Device.heldList, Device.grantedList, Device.vacateList, Device.waitingList,
    List.forall_mem_cons, List.not_mem_nil, false_imp_iff, implies_true, and_true]
  exact ⟨allCells_ascending.filter _, allCells_ascending.filter _, allCells_ascending.filter _,
    allCells_ascending.filter _⟩

/-- Settles O39: a report taken in each membership state, the entries it leaves, and the permit axis by axis. -/
theorem reportIsAnsweredByAPermit : Obligations.ReportIsAnsweredByAPermit := by
  refine ⟨fun s c restart r hreset hvalid => ⟨fun h => ?_, fun h => ?_, fun h => ?_, fun h => ?_⟩,
    reachRecord_entries, fun d c seq => ?_⟩
  · exact report_taken (report_heard hvalid h) rfl rfl fun _ => rfl
  · refine report_taken ?_ rfl rfl fun _ => rfl
    rw [report_not_admitted hreset hvalid (by simp [h]), takeReport_joining h]
    rfl
  · refine report_taken ?_ rfl rfl fun _ => rfl
    rw [report_not_admitted hreset hvalid (by simp [h]), takeReport_lost h]
    rfl
  · rw [report_not_admitted hreset hvalid (by simp [h]), takeReport_absent h]
  · obtain ⟨hplus, hminus, hout, hin⟩ := axisLimits_follow d c
    obtain ⟨hrunning, hfirst, hnone⟩ := compose_booking d c seq
    exact ⟨hplus, hminus, hout, hin, hoistStopped_iff d c, ⟨rfl, rfl, rfl, rfl⟩, hrunning, hfirst, hnone,
      compose_lists d c seq⟩

end Sys2Proof.Machine
end
